-- ==== Sys2Proof/Word.lean ====
section
/-! DEFINITION. The plainest types of the model: a byte, a 32-bit register word, and a sparse table
(a list of key and value pairs). What a table's operations do stands in `Machine/Bytes.lean`. -/

set_option Elab.async false

namespace Sys2Proof

/-- One byte of a structure on the fabric, in memory or in the pegbox (R6). -/
abbrev Byte := BitVec 8

/-- One 32-bit register of the configuration space (R465). -/
abbrev Word := BitVec 32

/-- A sparse table: pairs of a key and a value. The canonical form (keys strictly rising, no pair
that holds the default) is `Table.wf` of `Machine/Bytes.lean`. -/
abbrev Table (α : Type) := List (Nat × α)

end Sys2Proof
end

