-- ==== Sys2Proof/Config.lean ====
section
/-! DEFINITION. What the spec leaves to the implementation or leaves open: constants without a body.
No proof can see what they are, so every claim holds for every choice of them (log entry 7). -/

set_option Elab.async false

namespace Sys2Proof.Config

/-- The n-th draw from the island's entropy source: 64 bits (R81, R266). A free value. -/
opaque entropy : Nat → BitVec 64

/-- At which end of which free hole of the neck window, after the island area, the admission
controller places the n-th region it allocates (R26), taken modulo how many such ends there are. The
spec does not say where. A free value. -/
opaque placement : Nat → Nat

/-- Pseudo-channels of an HBM stack (R25), of which no rule gives the number. -/
opaque pseudoChannels : Nat

/-- The ECC syndrome, or residue and parity bits, of the n-th recorded fault (R414 SYND). A free value. -/
opaque syndrome : Nat → BitVec 32

/-- The bits the n-th undefined value takes: destination bytes after a failed operation (R58, R155),
a stream byte written twice with different contents (R179). A free value. -/
opaque freeByte : Nat → BitVec 8

/-- VCHECK after a VERIFY that only its further condition on SEQ failed (R376, R377), for which no rule
gives a number. A free value. -/
opaque vcheckSeq : BitVec 16

/-- Which of the ports open to it the n-th packet leaves on (R330, R325); taken modulo their number. A
free value. -/
opaque spray : Nat → Nat

/-- The receive space in KiB that the n-th ACK of the island states (R311 CREDIT), which no rule gives.
A free value. -/
opaque ackCredit : Nat → BitVec 32

/-- Eye height of the middle eye of a lane at a PEAK setting (R341): port, lane, PEAK. -/
opaque eyeHeight : Nat → Nat → Nat → BitVec 8

/-- Ervistad's JEP106 identity code in the IDCODE register (R464); the spec does not give it. -/
opaque jep106 : BitVec 11

/-- The instruction register of the test access port: its length beyond the 2 bits that IEEE 1149.1 asks for, and which instruction
a code names that is not all ones (R464 names the instructions and gives no codes): 0 BYPASS, 1 IDCODE, 2 SAMPLE/PRELOAD,
3 EXTEST, 4 HIGHZ, 5 CLAMP. -/
opaque tapIrMore : Nat
opaque tapDecode : List Bool → Nat

/-- Which of the 25 covered pins each place of the boundary-scan chain has (R464), which the spec does not give. -/
opaque scanOrder : Equiv.Perm (Fin 25)

/-- The level of a pin that the board drives, at the n-th edge of TCK (R464). A free value. -/
opaque pinLevel : Nat → Nat → Bool

/-- The thresholds of a power stage, in tenths of a volt above the least that R441 gives each: undervoltage lockout rising and
falling, overvoltage stop. Free values within the limits of R441. -/
opaque lockoutRising : Fin 11
opaque lockoutFalling : Fin 11
opaque overvoltage : Fin 11

/-- In which order the fields of a shard's recorded step and the 20 bytes left over lie in the 64 bytes of a SNAPSHOT (R222), which
no rule gives: the field at each place. -/
opaque recOrder : Equiv.Perm (Fin 31)

/-- ERRCAUSE of a queue whose ERROR an island has from the n-th relay alone (R262, R483), which carries no cause: which of the causes
that reach it by no discard. A free value. -/
opaque queueCause : Nat → Fin 3

/-- DETAIL and RESULT of a LOAD_CHORD of a cascade domain that failed on another island, whose report carries
only the status and the reason (R337). Free values. -/
opaque domainDetail : Nat → BitVec 24
opaque domainResult : Nat → BitVec 64

/-- Which way the n-th offset of an odd number of half nanoseconds is rounded (R45, R476): the spec gives 1 ns of
resolution and no rounding. A free value. -/
opaque offsetUp : Nat → Bool

/-- The rate correction in ppm that the n-th successful exchange leads to (R43, R47); the spec gives its limits and
no rule for it. A free value, kept within the limits where it is used. -/
opaque rateChoice : Nat → Int

/-- The input power of the n-th update of PWR_STATUS (R456), which nothing the island takes in states. A free value. -/
opaque inputPower : Nat → BitVec 12

/-- Whether the n-th RESET_N pulse of more than 20 ns and less than 50 ns is recognised (R445: it may or may not). -/
opaque pulseSeen : Nat → Bool

/-- The value of a word that an island sends as an infinity or a NaN in a value of class FIN (R98 and R144 leave no such
value), by its code. A free value. -/
opaque strayWord : Nat → Rat

/-- The class that a tag of 5 to 7 gives, which R144 reserves: 0 FIN to 4 NAN as the tags below 5. A free value. -/
opaque reservedTag : Nat → Fin 5

end Sys2Proof.Config
end

