-- ==== Sys2Proof/Syntax.lean ====
section
/-! DEFINITION. What the island takes from outside: packets, flits, register accesses, pin and unit
events, and the commands themselves, one constructor of `Instr` for each row of spec/opcode_table.json. -/

set_option Elab.async false

namespace Sys2Proof

/-! ## Packets (R308 to R312, R353) -/

/-- Where a packet enters or leaves: a UCIe module (R303) or a cascade port (R9). -/
inductive Link where
  | module (m : Nat)
  | cascade (c : Nat)
  deriving DecidableEq, Repr

/-- The common header of R308. `rsvd` is the value of all reserved header bits taken together. -/
structure Hdr where
  ver    : Nat
  tc     : Nat
  color  : Nat := 0
  retx   : Bool := false
  hlen   : Nat
  src    : Nat
  dst    : Nat
  repoch : BitVec 8 := 0
  cepoch : BitVec 8 := 0
  psn    : BitVec 32 := 0
  job    : Nat := 0
  incarn : BitVec 16 := 0
  rsvd   : Nat := 0
  deriving DecidableEq, Repr

/-- Which of the three packet types shares the node extension of R311. -/
inductive NodeKind where
  | partialNode | raw | result
  deriving DecidableEq, Repr

/-- The extension of PARTIAL, RAW and RESULT (R311). -/
structure NodeExt where
  group  : Nat
  queue  : Nat
  dseq   : BitVec 32
  chunk  : Nat
  eoff   : Nat
  ecnt   : Nat
  stepno : Nat := 0
  nodej  : Nat := 0
  nodel  : Nat := 0
  pflags : BitVec 8 := 0
  rcnt   : Nat := 0
  deriving DecidableEq, Repr

/-- The extension of PIZZ (R311). -/
structure PizzExt where
  group  : Nat
  queue  : Nat
  dseq   : BitVec 32
  sub    : Nat
  pflags : BitVec 8 := 0
  nodel  : Nat := 0
  nodej  : Nat := 0
  rcnt   : Nat := 0
  ecnt   : Nat := 0
  deriving DecidableEq, Repr

/-- The DISC extension of R353. -/
structure DiscExt where
  sub      : Nat
  revs     : BitVec 8
  agreed   : Nat := 0
  portsel  : Nat := 0
  iport    : Nat
  assign   : Nat := 0
  islandId : BitVec 64 := 0
  pegseq   : BitVec 64 := 0
  skind    : Nat
  master   : Bool := false
  cascId   : Nat := 0
  reason   : Nat := 0
  deriving DecidableEq, Repr

/-- The type extensions of R311, R312 and R353. `reserved` is a packet of a TYPE that R310 reserves, whose extension no
table lays out. -/
inductive Ext where
  | write (off : Nat)
  | read (off len : Nat) (rtag : BitVec 32)
  | readRsp (rtag : BitVec 32) (rstat : Nat)
  | ack (cumPsn sack : BitVec 32) (credit : Nat)
  | node (kind : NodeKind) (x : NodeExt)
  | resultMeta (group queue : Nat) (dseq : BitVec 32) (flags : BitVec 8) (rlvl : Nat)
  | stream (group wtensor kind : Nat) (step : BitVec 32) (roff : Nat)
  | pizz (x : PizzExt)
  | ctrl (group queue : Nat) (dseq : BitVec 32) (ctype : Nat) (arg : BitVec 64)
  | tsync (sub : Nat) (tseq : BitVec 32) (resid resreq t2 t3 hops : Nat)
  | disc (x : DiscExt)
  | qdepth (depths : List Nat)
  | reserved (type : Nat)
  deriving DecidableEq, Repr

/-- A packet. `extRsvd` is the value of the reserved bits of the extension taken together. -/
structure Packet where
  hdr     : Hdr
  ext     : Ext
  extRsvd : Nat := 0
  payload : List Byte := []
  deriving DecidableEq, Repr

/-- A packet as it reaches the island: the link, whether its two checks pass (R309), and the bytes
delivered (R316 step 3). -/
structure Arrival where
  link      : Link
  hcrcOk    : Bool := true
  pcrcOk    : Bool := true
  delivered : Nat
  pkt       : Packet
  deriving DecidableEq, Repr

/-! ## Descriptors (R246) -/

/-- The fields of a descriptor (R246); `operand` is the operand area, bytes 31 to 16 as one number,
and the `rsvd` fields hold the reserved bits of their place. -/
structure Desc where
  ver      : Nat
  opcode   : Nat
  rmode    : Nat
  satfin   : Bool
  entsr    : Bool
  ctlRsvd  : Nat := 0
  hbase    : Int
  dseq     : BitVec 32
  opid     : Nat
  sched    : Nat
  schedRsvd : Nat := 0
  group    : Nat
  groupRsvd : Nat := 0
  fmt      : Nat
  ofmt     : Nat
  operand  : BitVec 128
  scale    : BitVec 32
  tensorId : BitVec 32
  step     : BitVec 32
  elemBase : Nat
  srcOff   : Nat
  dstOff   : Nat
  topRsvd  : Nat := 0
  deriving DecidableEq, Repr

/-! ## The ZSI body

The manual leaves the body of a ZSI to the compiler (R272). These structures hold what the rules read
from it (log entry 6). -/

/-- A run of tile steps of a slice: one pass (R173) of tiles `lo` to `hi - 1` of the block, in tile order (R187). The pass tells
the chunk. -/
structure TileRun where
  pass : Nat
  lo   : Nat
  hi   : Nat
  deriving DecidableEq, Repr

/-- What a chunk claims on one compute die in its frame, in KiB: reduction buffer and staging (R21, R38). -/
structure DieClaim where
  die   : Nat
  rbuf  : Nat := 0
  stage : Nat := 0
  deriving DecidableEq, Repr

/-- What a chunk puts in its frame on a resource of R38 in a neck, in bytes: resource 0 UCIe, 1 reduction-buffer ports,
2 soundboard, 3 HBM, 4 cascade. -/
structure Use where
  neck  : Nat
  res   : Nat
  bytes : Nat
  deriving DecidableEq, Repr

/-- The neck that combines a tree node whose inputs lie in different necks (R34). -/
structure NodePlan where
  l    : Nat
  j    : Nat
  neck : Nat
  deriving DecidableEq, Repr

/-- One planned chunk, stage or slice (R54, R55, R146, R188): its frame, commit point and retry
stride, the neck of its highest node (R420), the units it uses and the end of its planned work.
`kind`: 0 a reduction, gather or exchange chunk, 1 a WGRAD slice, 2 an UPDATE check pass, 3 an
UPDATE apply slice, 4 a delivery (WPULL). `lo` to `hi` are the blocks of an apply slice, a check pass or a delivery of copies,
counted from `lo` up to and not including `hi`; `runs` are the tile steps of a WGRAD slice. `tiles` are the accumulator tiles
that a chunk of another kind claims, as ranges of tile IDs (R20), `rbuf` and `stage` come from `claims`, `detAllow` and
`ingest` are the DET allowance and the ingest claim in KiB (R239). -/
structure ChunkPlan where
  kind       : Nat := 0
  chunk      : Nat
  lo         : Nat := 0
  hi         : Nat := 0
  runs       : List TileRun := []
  frame      : Nat
  fetchFrame : Nat := 0
  commit     : Nat
  workEnd    : Nat
  stride     : Nat
  neck       : Nat
  necks      : List Nat := []
  dies       : List Nat := []
  strings    : List Nat := []
  claims     : List DieClaim := []
  tiles      : List (Nat × Nat) := []
  uses       : List Use := []
  nodes      : List NodePlan := []
  detAllow   : Nat := 0
  ingest     : Nat := 0
  deriving DecidableEq, Repr

/-- The WGRAD fields of R168 and R186. `parallel` is the number of chunks in progress at once, `tileIds` the operation's
accumulator tiles as ranges of tile IDs (R15, R20): a block for each of those chunks, and then on the root island the running
tiles. `consumer` is the OPID of the UPDATE that consumes the tile block, `drain` the drain of R195, `arrive` the ZSI frame of
the first planned arrival of its streams (R198). -/
structure WgradDef where
  wtensor : Nat
  kin     : Nat
  kout    : Nat
  tok     : Nat
  nmb     : Nat
  xfmt    : Nat
  dfmt    : Nat
  xlayout : Nat
  mask    : Nat
  rowp0   : Nat
  nrowp   : Nat
  colp0   : Nat
  ncolp   : Nat
  chm     : Nat
  neck    : Nat
  nbuf    : Nat
  order   : Nat
  parallel : Nat := 1
  consumer : Option Nat := none
  consumerNeck : Nat := 0
  tileIds : List (Nat × Nat) := []
  drain   : Bool := false
  arrive  : Nat := 0
  deriving DecidableEq, Repr

/-- The UPDATE fields of R205; the constants are FP32 codes, `src` the OPID of the source operation. -/
structure UpdateDef where
  wtensor : Nat
  e0      : Nat
  count   : Nat
  opt     : Nat
  ofmt    : Nat
  src     : Nat
  push    : Bool
  b1      : BitVec 32
  ob1     : BitVec 32
  b2      : BitVec 32
  ob2     : BitVec 32
  mu      : BitVec 32
  eps     : BitVec 32
  wd      : BitVec 32
  deriving DecidableEq, Repr

/-- The WPULL fields of R216. -/
structure WpullDef where
  wtensor : Nat
  e0      : Nat
  count   : Nat
  single  : Bool
  root    : Nat
  deriving DecidableEq, Repr

/-- What an operation of the ZSI adds to the common fields. -/
inductive OpExtra where
  | plain
  | wgrad (d : WgradDef)
  | stash (wtensor : Nat)
  | update (d : UpdateDef)
  | wpull (d : WpullDef)
  | fence (covers : List Nat)
  deriving DecidableEq, Repr

/-- One operation of a ZSI: the first list of R134 and what the ZSI fixes for it. `bound` is the OPID
of the UPDATE a bound sum feeds (R204). -/
structure ZsiOp where
  opid     : Nat
  opcode   : Nat
  group    : Nat
  count    : Nat := 0
  nsteps   : Nat := 1
  fmt      : Nat := 0
  ofmt     : Nat := 0
  redop    : Nat := 0
  root     : Nat := 0
  k        : Nat := 0
  segl     : Nat := 0
  chl      : Nat := 0
  pizz     : Bool := false
  arrival  : Bool := false
  cap0     : Bool := false
  ccounter : Option Nat := none
  bound    : Option Nat := none
  deliver  : Bool := true
  extra    : OpExtra := .plain
  chunks   : List ChunkPlan := []
  deriving DecidableEq, Repr

/-- A shard declared by a ZSI on its home island (R203). `region` names the master-weight region. -/
structure ShardDef where
  wtensor : Nat
  e0      : Nat
  nb      : Nat
  opt     : Nat
  ofmt    : Nat
  neck    : Nat
  region  : Nat
  deriving DecidableEq, Repr

/-- The role a neck's frets take in a frame (R14): 0 IDLE, 1 REDUCE, 2 WGRAD, 3 UPDATE. A plan names
logical fret IDs `lo` to `hi - 1`. -/
structure RolePlan where
  frame : Nat
  lo    : Nat
  hi    : Nat
  role  : Nat
  deriving DecidableEq, Repr

/-- Demand in a frame on a resource of R38 in a neck, in bytes per frame, that belongs to no planned chunk (stream writes,
deliveries): the resources are those of `Use`. -/
structure Demand where
  frame : Nat
  neck  : Nat
  res   : Nat
  bytes : Nat
  deriving DecidableEq, Repr

/-- The body of a ZSI as the island reads it. `cacheDies` is the compute die whose descriptor cache holds a queue's entries (R21,
R244). -/
structure ZsiBody where
  nframes : Nat
  sbase   : Nat
  scnt    : Nat
  ops     : List ZsiOp
  queues  : List (Nat × List Nat)
  cacheDies : List (Nat × Nat) := []
  shards  : List ShardDef := []
  roles   : List RolePlan := []
  demand  : List Demand := []
  deriving DecidableEq, Repr

/-! ## Units, fault events and other operands -/

/-- The unit types of R414 LOC. -/
inductive FUnit where
  | none | fret (i : Nat) | string (i : Nat) | die (i : Nat) | neck (i : Nat) | module (i : Nat)
  | stack (i : Nat) | cascade (i : Nat) | port (i : Nat) | peer (chip : Nat)
  deriving DecidableEq, Repr

/-- The table-SRAM regions of R407 in which an uncorrectable error is found, with the item hit. `blackBoxCopy` is an error
after which the neck cannot write its copy of the black-box ring (R416). -/
inductive TsramRegion where
  | groupHeaders | routingTable
  | memberEntries (group : Nat) (copy : Nat)
  | queueContext (queue : Nat)
  | syncCounter (ctr : Nat)
  | waiterEntry (ctr : Nat)
  | scheduleWindow (frame : Nat)
  | tensorDirectory
  | blackBoxRing (position : Nat) (both : Bool)
  | blackBoxCopy
  | adminStaged (slot : Nat) (aseq : BitVec 32)
  | noticeBuffer
  | perfCounter (i : Nat)
  | pizzCells (queue : Nat) (dseq : BitVec 32)
  | pizzContext (group : Nat)
  | unclaimed
  deriving DecidableEq, Repr

/-- The HBM regions of R408 in which an uncorrectable error is found, with the item hit. -/
inductive HbmRegion where
  | ringSlot (addr : Nat)
  | streamUnit (job wtensor half chip kind unitNo : Nat)
  | shardArray (job wtensor e0 block array : Nat)
  | journalEntry (job wtensor e0 block : Nat)
  | scratch (queue : Nat) (dseq : BitVec 32)
  | zsiBody (slot : Nat)
  | loadImage
  | unclaimed
  deriving DecidableEq, Repr

/-- Which island-level or tuning class a fatal fault has (R392). -/
inductive FatalClass where
  | soundboard | sequencer | gcount | base | thermal | pegbox | trim | tuning
  deriving DecidableEq, Repr

/-- Why the island goes into RESET (R378). -/
inductive ResetCause where
  | pin (lowNs : Nat) | rails (powerLost : Bool) | swreset
  deriving DecidableEq, Repr

/-- What the board and the package show at power-good (R380, R462): the straps, and the pegbox
contents where a board programmer changed them while the island was in RESET (R363). -/
structure PowerGood where
  masterSel : Bool
  cascId    : Nat
  flash     : Option (List Host.Cell) := Option.none
  deriving DecidableEq, Repr

/-- What tuning finds (R380, R381): the answers of the hardware it tests. `ringOsc` holds each die's
measured ring-oscillator ratio in the form of ROSIG (R365), in the order of R365; `lanesAligned` the cascade lanes, 16 to a port,
that lock on a marker, with the LANEID it holds (R343), and `eyes` the EYE of a lane at each PEAK from 0 to 48 (R341). -/
structure TuningResult where
  flashOk    : Bool := true
  ringOsc    : List Nat := []
  retired    : List (Nat × Nat) := []
  hbmOk      : Bool := true
  tsramOk    : Bool := true
  bridgesOk  : Bool := true
  modulesDown : List Nat := []
  lanesRepaired : List (Nat × Nat) := []
  lanesAligned : List (Nat × Nat) := []
  eyes       : List (Nat × List Nat) := []
  bbSurvives : List Bool := []
  deriving DecidableEq, Repr

/-- The comparator of a die that fires (R450): its TEMP_DIE index, and the temperature it reached, in °C. -/
structure CriticalDie where
  index : Nat
  temp  : Int
  deriving DecidableEq, Repr

/-- A PAM4 level of a cascade lane (R339): -3, -1, +1 and +3. -/
inductive Pam4 where
  | m3 | m1 | p1 | p3
  deriving DecidableEq, Repr

/-- Where a fault is found: the unit, by its number in its kind, and how many error controllers, from the unit's level
upward, have failed themselves, so that the fault is one of a higher level (R32). -/
structure FaultAt where
  unit : Nat
  up   : Nat
  deriving DecidableEq, Repr

/-- What a FRET fault was found by (R392, R405): the code of the accumulator memory at a byte offset, the residue check of the
matrix unit, the parity of a vector lane, or the scrub at an offset in storage that no claim holds. -/
inductive FretCause where
  | ecc (addr : BitVec 64) | residue | lane | scrub (addr : BitVec 64)
  deriving DecidableEq, Repr

/-- What a STRING fault is (R392): a parity error of the transposing buffer, or a timeout of the string arbiter. -/
structure StringHit extends FaultAt where
  timeout : Bool
  deriving DecidableEq, Repr

/-- What a DIE fault is (R392, R405): a rail fault, an error on the bond, an error of the die's SRAM at a byte offset, or one that
the scrub finds there in storage that no claim holds. -/
inductive DieCause where
  | rail | bond | sram (addr : BitVec 64) | scrub (addr : BitVec 64)
  deriving DecidableEq, Repr

/-- A TSYNC_RSP as it arrives, with FRAME_LEN.LEN of the domain's master, which the island copies (R52). -/
structure TsyncAnswer where
  arrival   : Arrival
  masterLen : Nat
  deriving DecidableEq, Repr

/-- The end of a PHASE_FENCE: its DSEQ and, on another island than its root, whether the root island ended it with OK (R196). -/
structure FenceEnd where
  dseq   : BitVec 32
  rootOk : Bool
  deriving DecidableEq, Repr

/-- An edge of TCK with the levels of TMS and TDI (R464). -/
structure TckEdge where
  rising : Bool
  tms    : Bool
  tdi    : Bool
  deriving DecidableEq, Repr

/-- A register write as R271 and R467 give it. -/
structure RegWrite where
  addr  : Nat
  value : Word
  mask  : Word
  deriving DecidableEq, Repr

/-! ## The commands -/

/-- The commands of the island, one constructor for each row of spec/opcode_table.json. -/
inductive Instr where
  | adminDoorbell (a : Arrival)
  | adminAseqTimeout (slot : Nat)
  | identify
  | createQueue
  | destroyQueue
  | resetQueue
  | queueDrained (queue : Nat)
  | loadChord
  | loadSchedule (body : Option ZsiBody)
  | startJob
  | jobStart (job : Nat)
  | stopJob
  | hbmZeroizeDone
  | setEpochChord
  | setEpochRouting
  | chordEpochSwap
  | routingEpochSwap
  | chordCopyRetire
  | routingCopyRetire
  | shadowOpen (table : Nat)
  | readReg
  | writeReg
  | snapshot
  | snapshotSectionStart
  | restore
  | sleepIsland
  | sleepDie
  | sleepPort
  | sleepTick
  | wakeIsland
  | wakeDie
  | wakePort
  | unitRejoin (die : Nat)
  | clearFault
  | descriptorRingWrite (a : Arrival)
  | doorbell (a : Arrival)
  | descriptorStart (queue : Nat)
  | descriptorReread (queue : Nat)
  | syncAdd (a : Arrival)
  | syncSet (a : Arrival)
  | clrfail (a : Arrival)
  | syncWait (a : Arrival)
  | waitTimeout (ctr : Nat) (tag : BitVec 32)
  | readRefused (a : Arrival)
  | readRsp (a : Arrival)
  | ack (a : Arrival)
  | partialPkt (a : Arrival)
  | wgradChunkTile (a : Arrival)
  | runningTileCombine (queue : Nat) (dseq : BitVec 32) (chunk : Nat)
  | raw (a : Arrival)
  | result (a : Arrival)
  | resultMeta (a : Arrival)
  | stream (a : Arrival)
  | pizzContribution (a : Arrival)
  | pizzNode (a : Arrival)
  | pizzRawRun (a : Arrival)
  | pizzResult (a : Arrival)
  | pizzDiscard (a : Arrival)
  | pizzTimeout (queue : Nat) (dseq : BitVec 32)
  | descriptorRelay (a : Arrival)
  | relayRefused (a : Arrival)
  | level (a : Arrival)
  | discard (a : Arrival)
  | masksSatisfied (a : Arrival)
  | operationDone (a : Arrival)
  | posterCompletion (queue : Nat) (dseq : BitVec 32)
  | phaseFenceComplete (queue : Nat) (fence : FenceEnd)
  | queueState (a : Arrival)
  | chordSectionData (a : Arrival)
  | chordEpochRelay (a : Arrival)
  | sectionChecked (a : Arrival)
  | tsyncReq (a : Arrival)
  | tsyncRsp (a : TsyncAnswer)
  | tsyncExchange
  | holdoverExpiry
  | gcountLimit
  | hello (a : Arrival)
  | helloPeriod (port : Nat)
  | reply (a : Arrival)
  | confirm (a : Arrival)
  | portUp (port : Nat)
  | quar (a : Arrival)
  | echo (a : Arrival)
  | echoRsp (a : Arrival)
  | echoPeriod (port : Nat)
  | qdepth (a : Arrival)
  | qdepthStale (port : Nat)
  | e2eRetransmit (dst tc : Nat) (psn : BitVec 32)
  | cascadeDataFlit (port : Nat) (words : List (List Pam4))
  | cascadeIdleFlit (port : Nat) (words : List (List Pam4))
  | cascadeNakFlit (port : Nat) (words : List (List Pam4))
  | cascadeReplayTimeout (port : Nat)
  | alignmentMarker (port lane : Nat) (word : List Pam4)
  | laneClockRecovered (port lane : Nat)
  | laneLockLoss (port lane : Nat)
  | ucieModuleDown (m : FaultAt)
  | ucieRetrain (m : Nat) (trained : Option Nat)
  | frameTick
  | discardRelease
  | frameLengthChange
  | chunkCommitPoint (queue : Nat) (dseq : BitVec 32) (plan : Nat)
  | chunkComplete (queue : Nat) (dseq : BitVec 32) (plan : Nat)
  | replay (queue : Nat) (dseq : BitVec 32) (plan : Nat)
  | fretFault (string : FaultAt) (phys : Nat) (cause : FretCause)
  | fretRetestDone (string phys : Nat) (pass : Bool)
  | spareSubstitution (string : Nat)
  | stringFault (string : StringHit)
  | dieFault (die : FaultAt) (cause : DieCause)
  | dieReturnTest (die : Nat) (pass : Bool)
  | tsramError (neck : FaultAt) (region : TsramRegion) (addr : BitVec 64)
  | hbmError (stack : FaultAt) (region : HbmRegion) (addr : BitVec 64)
  | xbarFault (neck : FaultAt)
  | corrected (u : FUnit) (errors : Nat)
  | fatalFault (cls : FatalClass)
  | flush
  | flushDone (ok : Bool)
  | tempSample (index : Nat) (temp : BitVec 16)
  | criticalShutdown (die : CriticalDie)
  | vinMonitor (tenthVolts : Nat) (outsideNs : Nat)
  | refclkLoss (stoppedNs : Nat)
  | resetIsland (cause : ResetCause)
  | powerGood (p : PowerGood)
  | tuningComplete (r : TuningResult)
  | swresetWrite (w : RegWrite)
  | frameLenWrite (w : RegWrite)
  | tsyncCtlWrite (w : RegWrite)
  | gcountLoRead
  | pmcLoRead (ctr : Nat)
  | pmcSelWrite (w : RegWrite)
  | pmcValueWrite (w : RegWrite)
  | pmcClear (w : RegWrite)
  | pmcArm (w : RegWrite)
  | pmcArmFire
  | pmcFreeze (w : RegWrite)
  | bwWindowClose
  | bwCtlWrite (w : RegWrite)
  | smpCtlWrite (w : RegWrite)
  | pegErase
  | pegProgram
  | pegVerify
  | pegCommit
  | pegCommandEnd (flashOk : Bool)
  | slipWrite (w : RegWrite)
  | cascCtlWrite (w : RegWrite)
  | meterWord0Write (w : RegWrite)
  | meterStagedWrite (w : RegWrite)
  | routingShadowWrite (w : RegWrite)
  | backgroundEraseDone
  | linkRetrain (m lanes : Nat)
  | tckEdge (e : TckEdge)
  | trstLow
  deriving DecidableEq, Repr

end Sys2Proof
end

