-- ==== Sys2Proof/Machine/State.lean ====
section
/-! DEFINITION. The island's state as plain data: everything the spec gives the machine (INVENTORY.md,
'## State'), the state right after reset, and the reasons a step can stop. -/

set_option Elab.async false

namespace Sys2Proof.Machine

/-! ## Values of accumulation (R98 to R105) -/

/-- One word of a C64 or C64X value: its exact value, and whether a zero is −0. -/
structure Wd where
  q    : Rat := 0
  neg0 : Bool := false
  deriving DecidableEq, Repr

/-- The class of a value (R101). -/
inductive Cls where
  | fin | ovf | pinf | ninf | nan
  deriving DecidableEq, Repr

/-- A value in accumulation: class, sticky OV, and the two words (R98, R101). `nx` records that a
step that made it rounded (R100), `uf` that an FP64 input rounded to zero (R72). -/
structure Val where
  cls : Cls := .fin
  ov  : Bool := false
  hi  : Wd := {}
  lo  : Wd := {}
  nx  : Bool := false
  uf  : Bool := false
  deriving DecidableEq, Repr

/-- An element as read: a floating-point value (exact, with the sign of a zero), an infinity, a NaN,
or an integer (R66, R69, R72). -/
inductive Elem where
  | fin (w : Wd) | inf (neg : Bool) | nan | int (i : Int)
  deriving DecidableEq, Repr

/-- The flags NV, OF, UF, NX, BX and SA of R90. -/
structure Flags where
  nv : Bool := false
  of : Bool := false
  uf : Bool := false
  nx : Bool := false
  bx : Bool := false
  sa : Bool := false
  deriving DecidableEq, Repr

/-! ## Island control and time -/

/-- The island states of R273. -/
inductive IslState where
  | off | reset | tuning | ready | running | dormant | faulted
  deriving DecidableEq, Repr

/-- One entry of the pegbox manager list (R371). -/
structure Manager where
  valid : Bool := false
  chip  : Nat := 0
  cqOff : Nat := 0
  nqOff : Nat := 0
  deriving DecidableEq, Repr

/-- One entry of the wiring table (R351). -/
structure Wiring where
  kind      : Nat := 0
  allowRev1 : Bool := false
  tup       : Bool := false
  chip      : Nat := 0
  expPort   : Nat := 0
  expId     : BitVec 64 := 0
  deriving DecidableEq, Repr

/-- What the pegbox gives the island at tuning (R364 to R372). -/
structure Identity where
  islandId   : BitVec 64 := 0
  chip       : Nat := 0
  pegseq     : BitVec 64 := 0
  adminKey   : List Byte := []
  managers   : List Manager := []
  wiring     : Table Wiring := []
  cascaded   : Bool := false
  masterCasc : Nat := 0
  ownCasc    : Nat := 0
  domain     : Nat := 0
  timeRoot   : Bool := false
  deriving DecidableEq, Repr

/-- What packets are originated and depths evaluated with (R478): the transport limit registers as they stood when the nanosecond
began. -/
structure Limits where
  rto   : Nat := 16
  tries : Nat := 8
  thrLo : Nat := 256
  thrHi : Nat := 1024
  deriving DecidableEq, Repr

/-- The bits that a write clears or sets and that the island itself has set in the nanosecond in progress (R468): REJECT, ENTSR_USED,
VIN_LOW, VIN_HIGH, and FREEZE at the freeze count. -/
inductive HwSet where
  | reject | entsr | vinLow | vinHigh | freeze
  deriving DecidableEq, Repr

/-- The island control registers of R471 that are held, with what stands behind them; `resetLow` is the level of
RESET_N as last seen low (R378, R464), `limits` what packets are originated with. -/
structure Ctl where
  state      : IslState := .reset
  bootnonce  : BitVec 32 := 0
  resetLow   : Bool := false
  masterSel  : Bool := false
  cascId     : Nat := 0
  reject     : Bool := false
  rejAddr    : Word := 0
  trimDiff   : Bool := false
  trimB      : Bool := false
  pegcopy    : Nat := 0
  swresetAt  : Option Nat := none
  entsrUsed  : Bool := false
  allowDet0  : Bool := false
  pizzTmo    : Nat := 50
  e2eRto     : Nat := 16
  e2eTries   : Nat := 8
  thrLo      : Nat := 256
  thrHi      : Nat := 1024
  ceThr      : Nat := 16
  limits     : Limits := {}
  hwSet      : List HwSet := []
  id         : Identity := {}
  deriving DecidableEq, Repr

/-- Holdover as entered (R49, R488): the count, and the parent at that moment. -/
structure Holdover where
  since  : Nat
  parent : Option Nat
  deriving DecidableEq, Repr

/-- The global counter, the frame grid and the time exchange (R40 to R52, R475, R476, R488). `asked` is t1 of the
last TSYNC_REQ, `answered` that its answer has come, `lostAt` the count at which the parent's port left UP. -/
structure Time where
  gcount    : Nat := 0
  running   : Bool := false
  hiLatch   : Word := 0
  hold      : Nat := 0
  len       : Nat := 8
  cur       : Nat := 8
  lenAt     : Option Nat := none
  lastTick  : Option Nat := none
  rootReg   : Bool := false
  root      : Bool := false
  per       : Nat := 4
  missed    : Nat := 0
  parent    : Option Nat := none
  ofs       : Int := 0
  tseq      : BitVec 32 := 0
  asked     : Option Nat := none
  answered  : Bool := true
  hops      : Nat := 0xFF
  goodRun   : Nat := 0
  timeOk    : Bool := false
  holdover  : Option Holdover := none
  rateLim   : Bool := false
  ratePpm   : Int := 0
  nextExch  : Nat := 0
  lostAt    : Option Nat := none
  deriving DecidableEq, Repr

/-! ## Tables: groups, members, routes (R136, R137, R329) -/

/-- A group header (R136), the capo fields in the order of R151. -/
structure Group where
  valid   : Bool := false
  pizzOk  : Bool := false
  root    : Bool := false
  aligned : Bool := false
  nmem    : Nat := 0
  d       : Nat := 0
  ebase   : Nat := 0
  ecnt    : Nat := 0
  ops     : Nat := 0
  rbuf    : Nat := 0
  tiles   : Nat := 0
  stage   : Nat := 0
  desc    : Nat := 0
  win     : Nat := 0
  pizz    : Nat := 0
  rresRb  : Nat := 0
  rresTiles : Nat := 0
  deriving DecidableEq, Repr

/-- A member entry (R137): `kind` 1 MEMBER, 2 DOWN_NODE, 3 DOWN_RAW, 4 UP. -/
structure Entry where
  kind : Nat := 0
  lvl  : Nat := 0
  chip : Nat := 0
  ord  : Nat := 0
  cnt  : Nat := 0
  prun : Nat := 0
  port : Nat := 0
  base : Nat := 0
  deriving DecidableEq, Repr

/-- One copy of the chord table (R23, R139). -/
structure ChordCopy where
  groups  : Table Group := []
  entries : Table Entry := []
  deriving DecidableEq, Repr

/-- A routing entry (R329): words 2 and 3 (words 0 and 1 are reserved), and the eight PORTk fields. -/
structure Route where
  w2 : Word := 0
  w3 : Word := 0
  ports : List (BitVec 16) := []
  deriving DecidableEq, Repr

/-- A double-buffered table: current epoch, the three copies, and the state of a swap (R139, R140,
R331, R334, R477). -/
structure Epochs (α : Type) where
  epoch    : BitVec 8 := 0
  cur      : α
  shadow   : α
  retiring : Option (α × BitVec 8 × Nat) := none
  open_    : Bool := true
  swapAt   : Option Nat := none
  deriving DecidableEq, Repr

/-! ## Queues, descriptors and admin commands -/

/-- The states of a communication queue (R262). -/
inductive QState where
  | absent | idle | active | error | draining
  deriving DecidableEq, Repr

/-- A descriptor in the descriptor cache: fetched, and perhaps started (R252, R257). -/
structure Fetched where
  dseq    : BitVec 32
  desc    : Desc
  started : Bool := false
  deriving DecidableEq, Repr

/-- The context of a communication queue (R241 to R252, R262, R483). `rereadSince` and `rereadAt`
time the reads of an entry that has not arrived (R253); `startNext` is the next DSEQ to
start, on another island than the home island the lowest DSEQ whose relay has not come; `done` holds the DSEQs beyond `head`
that are completed, there those beyond `startNext` whose relay has come; `drainTo` is the state DRAINING leads to, with
the admin command that waits for it, none while the queue drains on its home island alone. -/
structure QueueCtx where
  state    : QState := .absent
  job      : Nat := 0
  group    : Nat := 0
  poster   : Nat := 0
  home     : Bool := false
  pext     : Bool := false
  mext     : Bool := false
  log2sz   : Nat := 0
  prefetch : Nat := 0
  ring     : Nat := 0
  pcqOff   : Nat := 0
  mcqOff   : Nat := 0
  pxOff    : Nat := 0
  mxOff    : Nat := 0
  head     : BitVec 32 := 0
  tail     : BitVec 32 := 0
  startNext : BitVec 32 := 0
  inlineTop : BitVec 32 := 0
  cache    : List Fetched := []
  done     : List (BitVec 32) := []
  rereadSince : Option Nat := none
  rereadAt : Option Nat := none
  errCause : Nat := 0
  errDseq  : BitVec 32 := 0
  listPos  : Nat := 0
  drainTo  : Option QState := none
  nextDseq : BitVec 32 := 0
  drainSlot : Option (Nat × BitVec 32) := none
  ended    : Nat := 0
  deriving DecidableEq, Repr

/-- An authenticated admin command: its manager slot, the chip that sent it, its 64 bytes (R265), and
when it was staged (R267). -/
structure AdminCmd where
  slot  : Nat
  src   : Nat
  bytes : List Byte
  since : Nat := 0
  deriving DecidableEq, Repr

/-- A LOAD_CHORD of a cascade domain's master that waits for the islands' section results (R337): the
command, the master's new shadow, or the group whose capo its own section exceeds (R152), the CASC_IDs in image order,
those still to report, the failures by CASC_ID with their status and reason, and the number of groups loaded. -/
structure DomainLoad where
  cmd     : AdminCmd
  shadow  : Except Nat ChordCopy
  order   : List Nat
  waitFor : List Nat
  failed  : List (Nat × Nat × Nat) := []
  groups  : Nat
  deriving DecidableEq, Repr

/-- A chord section a non-master island is receiving (R337). -/
structure SectionIn where
  epoch : BitVec 8
  got   : List (Nat × List Byte) := []
  deriving DecidableEq, Repr

/-- The admin queue (R264 to R269) and the commands whose completion waits for something. -/
structure Admin where
  next    : Table (BitVec 32) := []
  staged  : List AdminCmd := []
  ready   : List AdminCmd := []
  sleeps  : List (AdminCmd × Nat × Nat × Nat) := []
  stops   : List (AdminCmd × Nat × Nat) := []
  snaps   : List AdminCmd := []
  acked   : List (AdminCmd × Nat × BitVec 64) := []
  domain  : Option DomainLoad := none
  section_ : Option SectionIn := none
  deriving DecidableEq, Repr

/-- The notice generator (R274, R275): NSEQ, and per KIND and QUEUE the event count of the last notice
sent and the number suppressed since. -/
structure NoticeGen where
  nseq : BitVec 32 := 0
  last : List (Nat × Nat × Nat × Nat) := []
  deriving DecidableEq, Repr

/-! ## Schedules and jobs -/

/-- A loaded ZSI (R271, R272): the job it was loaded for, DET, FLEN and the body; `lost` after R408. -/
structure ZsiSlot where
  job  : Nat
  det  : Bool
  flen : Nat
  lost : Option (BitVec 32) := none
  body : ZsiBody
  deriving DecidableEq, Repr

/-- A job known to the island (R62 to R65, R296): its seed, an accepted start waiting for its count, and
F0 once it runs. `stopped` is the count at which STOP_JOB ended it (R297). -/
structure Job where
  seed    : BitVec 64 := 0
  armed   : Option Nat := none
  mask    : Nat := 0
  f0      : Option Nat := none
  stopped : Option Nat := none
  deriving DecidableEq, Repr

/-! ## Sync counters (R279 to R302) -/

/-- A sync counter: value, state bits and owner (R279, R280). -/
structure Ctr where
  value : BitVec 64 := 0
  sat   : Bool := false
  err   : Bool := false
  fail  : Bool := false
  owner : Option Nat := none
  deriving DecidableEq, Repr

/-- A held WAIT (R287, R290). -/
structure Waiter where
  ctr    : Nat
  job    : Nat
  exp    : BitVec 64
  tag    : BitVec 32
  chip   : Nat
  retOff : Nat
  expiry : Option Nat
  deriving DecidableEq, Repr

/-! ## Operations -/

/-- The states of a planned chunk, stage or slice (R54, R55, R115, R188). -/
inductive ChunkState where
  | waiting | committed | slipped | replayPending | done
  deriving DecidableEq, Repr

/-- A planned chunk of an operation in flight: its state, the frame of its next attempt, its level,
the step a replay resumes at with the running results kept (R115), or of a WGRAD slice the part that comes next (R192), and the
WGRAD chunks whose tile steps run elsewhere since their replay. -/
structure ChunkSt where
  plan    : ChunkPlan
  state   : ChunkState := .waiting
  attempt : Nat
  level   : Nat := 0
  resume  : Nat := 0
  running : List Val := []
  ofSeen  : Bool := false
  asked   : Bool := false
  committedIn : Nat := 0
  replays : Nat := 0
  slips   : Nat := 0
  splitOff : List Nat := []
  deriving DecidableEq, Repr

/-- Where a staged piece stands: the leaf of an ordinal, a tree node, or a local partial at its lowest ordinal
(R106, R111, R143, R145), or a result of a block that waits for the stage that delivers it (R147). -/
inductive Place where
  | leaf (ord : Nat) | node (l j : Nat) | loc (ord : Nat) | result (block : Nat)
  deriving DecidableEq, Repr

/-- What a staged piece holds: elements as read in FMT (their bytes kept for the operations that copy
bits, R73), or accumulated values. -/
inductive PieceData where
  | elems (bytes : List Byte)
  | vals (vs : List Val)
  deriving DecidableEq, Repr

/-- A staged input piece: `len` elements from `off` of chunk `chunk`, step `step` (R54, R133). -/
structure Piece where
  step  : Nat
  chunk : Nat
  place : Place
  off   : Nat
  len   : Nat
  level : Nat := 0
  nv    : Bool := false
  of    : Bool := false
  nx    : Bool := false
  data  : PieceData
  deriving DecidableEq, Repr

/-- The stages of a member's or the poster's record (R260, R261). -/
inductive RecStage where
  | waiting | ext | record | written
  deriving DecidableEq, Repr

/-- A record the island owes: chip, offsets, and how far it is. -/
structure RecSt where
  chip  : Nat
  base  : Nat
  stage : RecStage := .waiting
  deriving DecidableEq, Repr

/-- The tiles of a WGRAD operation: a chunk's tiles or the running tiles, by tile index in the block,
each 4,096 values in row-major order (R117, R186). -/
structure TileSet where
  chunk : Option Nat
  level : Nat := 0
  nv    : Bool := false
  of    : Bool := false
  nx    : Bool := false
  tiles : Table (List Val) := []
  full  : Bool := false
  deriving DecidableEq, Repr

/-- The running tiles of a WGRAD as written into its dW region of island HBM (R195): where, their level, and the tags that are not 0
of the elements in tile order, which the store keeps with its check bits (R101). -/
structure Drained where
  base  : Nat
  level : Nat
  tags  : Table Nat := []
  deriving DecidableEq, Repr

/-- An operation started on this island (R257) until its records are written. `status` is the final
status once it has one (R61); `fixed` says that its chord epoch `cepoch` is settled (R109); `got` lists the
result ranges that have come from above as (block, chunk, offset, length) in elements; `meta_` that
RESULT_META has come; `ending` that only acknowledgements are still to come before status OK (R150); `hit` the class of the fault that
has discarded it in the nanosecond in progress (R398); `levels` the level that a
WGRAD chunk has or is to have (R191); `drained` what was written of its running tiles into island HBM (R195). -/
structure Op where
  queue   : Nat
  dseq    : BitVec 32
  group   : Nat
  job     : Nat
  slot    : Nat
  zop     : ZsiOp
  desc    : Desc
  home    : Bool
  cepoch  : BitVec 8
  fixed   : Bool := false
  opened  : Bool := false
  startAt : Nat
  firstAt : Option Nat := none
  lastAt  : Option Nat := none
  seed    : BitVec 64 := 0
  chunks  : List ChunkSt := []
  pieces  : List Piece := []
  tiles   : List TileSet := []
  combined : Nat := 0
  levels  : Table Nat := []
  drained : Option Drained := none
  arrived : List Nat := []
  got     : List (Nat × Nat × Nat × Nat) := []
  meta_   : Bool := false
  flags   : Flags := {}
  rlvl    : Nat := 0
  rmap    : List Nat := []
  hist    : List Nat := []
  status  : Option Nat := none
  detail  : Word := 0
  records : List RecSt := []
  poster  : Option RecSt := none
  downs   : List (Nat × Bool) := []
  reported : Bool := false
  counted : Bool := false
  masksIn : List Nat := []
  satisfied : Bool := false
  skipped : Bool := false
  ending  : Bool := false
  hit     : Option Nat := none
  epochRec : Option (BitVec 32 × BitVec 32) := none
  sampled : Bool := false
  bytesIn : Nat := 0
  bytesOut : Nat := 0
  replays : Nat := 0
  release : Bool := false
  deriving DecidableEq, Repr

/-- What a pizzicato operation has on this island (R158 to R166): the count of its first contribution, the ordinals whose
inputs have arrived (their values are staged in the operation), whether its value has gone up or its result has been
formed, whether the result has been passed on, and whether only acknowledgements are still to come. -/
structure PizzOp where
  queue   : Nat
  group   : Nat
  dseq    : BitVec 32
  cepoch  : BitVec 8
  job     : Nat := 0
  firstAt : Option Nat := none
  arrived : List Nat := []
  sent    : Bool := false
  passed  : Bool := false
  ending  : Bool := false
  deriving DecidableEq, Repr

/-- The end of an operation whose relay or descriptor has not come (R164, R257, R396): its status and DETAIL, and whether its
member records are written already. -/
structure EarlyEnd where
  queue  : Nat
  dseq   : BitVec 32
  status : Nat
  detail : Word
  told   : Bool := false
  deriving DecidableEq, Repr

/-! ## Streams, shards (R177 to R182, R203 to R219) -/

/-- The bytes that have arrived of one member and kind under one chord epoch (R181), each with its offset in the member region,
in rising order. -/
structure StreamData where
  chip  : Nat
  kind  : Nat
  epoch : BitVec 8
  bytes : List Host.Cell
  deriving DecidableEq, Repr

/-- One half of a stream set (R180): the step whose data it has, whether it is held, and what has arrived. A released half keeps
its bytes until another step's first write. -/
structure Half where
  step   : Option (BitVec 32) := none
  held   : Bool := false
  data   : List StreamData := []
  deriving DecidableEq, Repr

/-- Units of a step that were dropped for their chord epoch, and the operations, by slot and OPID, that have ended for it (R181). -/
structure ForeignUnits where
  step  : BitVec 32
  epoch : BitVec 8
  told  : List (Nat × Nat)
  deriving DecidableEq, Repr

/-- The stream set of a weight tensor (R177, R180): its halves, the steps broken, and the steps whose
units were dropped for their epoch (R181). -/
structure StreamSet where
  wtensor : Nat
  job     : Nat
  nbuf    : Nat
  halves  : List Half
  broken  : List (BitVec 32) := []
  foreign : List ForeignUnits := []
  deriving DecidableEq, Repr

/-- An update block (R207, R208). -/
structure Block where
  epoch    : BitVec 32 := 0
  master   : List Val := []
  mom1     : List (BitVec 32) := []
  mom2     : List (BitVec 32) := []
  copy0    : List Byte := []
  copy1    : List Byte := []
  cscale0  : BitVec 32 := 0
  cscale1  : BitVec 32 := 0
  lost     : Bool := false
  prevLost : Bool := false
  deriving DecidableEq, Repr

/-- What an UPDATE of a range records (R219, R230): STEP, LR, GSCALE, BC1, BC2, SCALE, CTL, the seed drawn, and the flags that
the blocks it has written set. -/
structure StepRec where
  e0     : Nat
  count  : Nat
  step   : BitVec 32
  lr     : BitVec 32
  gscale : BitVec 32
  bc1    : BitVec 32
  bc2    : BitVec 32
  scale  : BitVec 32
  ctl    : BitVec 8
  seed   : BitVec 64
  flags  : Flags := {}
  deriving DecidableEq, Repr

/-- A journal entry of a home neck (R214). -/
structure JournalEntry where
  block  : Nat
  commit : Bool
  data   : Block
  deriving DecidableEq, Repr

/-- A shard on its home island (R203, R207, R215). `lostSeq` is the RSEQ of the record of the error that lost a block
(R221, R397), `firstApply` the STEP of an UPDATE whose first apply frame has opened (R216), `stepRecs` the recorded steps, one
for a range, the newest last. -/
structure Shard where
  sdef    : ShardDef
  job     : Nat
  epoch   : BitVec 32 := 0
  blocks  : List Block := []
  journal : List JournalEntry := []
  stepRecs : List StepRec := []
  firstApply : Option (BitVec 32) := none
  lostSeq : BitVec 32 := 0
  deriving DecidableEq, Repr

/-! ## Accumulator tiles and island HBM (R15, R25, R26) -/

/-- The tiles, as ranges of tile IDs, that belong to an operation (R15, R20). -/
structure TileOwn where
  queue : Nat
  dseq  : BitVec 32
  ids   : List (Nat × Nat)
  deriving DecidableEq, Repr

/-- What occupies a region of island HBM (R26): a queue ring, the streams and masks of a WGRAD (R178), its forwarded chunk
tiles (R186), the dW region or dW scratch of an operation (R195, R204), a shard with its arrays (R207), the journal of a neck
(R214), a ZSI body, an image being loaded, and what STOP_JOB has freed until it is zeroized (R225). -/
inductive RegionUse where
  | ring (queue : Nat)
  | streams (slot opid : Nat)
  | forwarded (slot opid : Nat)
  | scratch (slot opid : Nat)
  | shard (job wtensor e0 : Nat)
  | journal (neck : Nat)
  | zsi (slot : Nat)
  | image
  | freed
  deriving DecidableEq, Repr

/-- A region of island HBM: its first address and its bytes (R25, R26). -/
structure Region where
  base : Nat
  size : Nat
  use  : RegionUse
  deriving DecidableEq, Repr

/-! ## Transport (R315 to R334) -/

/-- What waits on the acknowledgement of a packet the island sent. -/
inductive Purpose where
  | other
  | data (queue : Nat) (dseq : BitVec 32) (member : Nat)
  | ext (queue : Nat) (dseq : BitVec 32) (member : Nat)
  | record (queue : Nat) (dseq : BitVec 32) (member : Nat)
  | posterExt (queue : Nat) (dseq : BitVec 32)
  | posterRecord (queue : Nat) (dseq : BitVec 32)
  | forward (queue : Nat) (dseq : BitVec 32)
  | pizz (queue : Nat) (dseq : BitVec 32)
  | regData (slot : Nat) (aseq : BitVec 32)
  | traffic (queue : Nat) (dseq : BitVec 32)
  deriving DecidableEq, Repr

/-- A packet sent and not yet acknowledged (R319), with the timeout and the number of sends it was originated with (R478). -/
structure Unacked where
  psn   : BitVec 32
  at_   : Nat
  sends : Nat := 1
  pkt   : Packet
  why   : Purpose
  group : Option Nat := none
  ports : List Nat := []
  rto   : Nat := 16
  tries : Nat := 8
  deriving DecidableEq, Repr

/-- A packet the island has to send on a flow and that the window of R320 holds back, with the group
whose window it counts in and the ports it may leave on (R330). -/
structure Held where
  pkt   : Packet
  why   : Purpose
  group : Option Nat := none
  ports : List Nat := []
  deriving DecidableEq, Repr

/-- A flow the island sends on: destination chip and class (R317, R320). -/
structure TxFlow where
  dst     : Nat
  tc      : Nat
  incarn  : BitVec 16
  psn     : BitVec 32 := 0
  unacked : List Unacked := []
  held    : List Held := []
  credit  : Option Nat := none
  deriving DecidableEq, Repr

/-- A flow the island receives (R317): the incarnation held, the one before, the lowest PSN not yet
delivered, and the PSNs delivered beyond it. -/
structure RxFlow where
  src    : Nat
  tc     : Nat
  incarn : Option (BitVec 16) := none
  before : Option (BitVec 16) := none
  next   : BitVec 32 := 0
  ahead  : List (BitVec 32) := []
  deriving DecidableEq, Repr

/-- What a READ of the island is for (R311, R321). -/
inductive ReadWhy where
  | contribution (queue : Nat) (dseq : BitVec 32) (step chunk ord off len : Nat)
  | image (off : Nat)
  | peg (off : Nat)
  deriving DecidableEq, Repr

/-- A READ not yet answered. -/
structure ReadReq where
  rtag : BitVec 32
  chip : Nat
  tc   : Nat
  len  : Nat
  group : Option Nat := none
  why  : ReadWhy
  deriving DecidableEq, Repr

/-- An image or section being read for the oldest executable admin command (R272, R224): the bytes wanted, the
parts that have come, whether a READ failed, and whether an error destroyed what was read (R408). -/
structure ImageRead where
  want   : Nat
  got    : List (Nat × List Byte) := []
  failed : Bool := false
  damaged : Bool := false
  deriving DecidableEq, Repr

/-- An operation that needs a packet which cannot be sent, until it is discarded: the peer and the class, and whether the packet had a
route of which no port is UP (R357), or none at all (R330). -/
structure LostOp where
  queue : Nat
  dseq  : BitVec 32
  peer  : Nat
  tc    : Nat
  path  : Bool
  deriving DecidableEq, Repr

/-- The transport state of the island. `lost` names the operations that need a packet which cannot be sent. -/
structure Net where
  tx     : List TxFlow := []
  rx     : List RxFlow := []
  reads  : List ReadReq := []
  rtag   : BitVec 32 := 0
  image  : Option ImageRead := none
  depths : Table (Nat × Nat) := []
  waiting : List Arrival := []
  lost   : List LostOp := []
  deriving DecidableEq, Repr

/-- A meter (R327): the four words applied, the words staged (R481), and the two buckets in units of
one byte times 1,000, with the count of their last fill. -/
structure Meter where
  w0 : Word := 0
  w1 : Word := 0
  w2 : Word := 0
  s1 : Word := 0
  s2 : Word := 0
  s3 : Word := 0
  tc : Nat := 0
  tp : Nat := 0
  at_ : Nat := 0
  deriving DecidableEq, Repr

/-! ## Ports, lanes, modules, dies, strings -/

/-- A port (R354 to R358): `state` 0 DOWN, 1 DISCOVERY, 2 UP, 3 QUARANTINE. `passed` is the count at which the
island's own checks passed with revision `agreed`, `confirmed` the count at which the peer's CONFIRM came. -/
structure Port where
  state    : Nat := 0
  rev      : Nat := 0
  reason   : Nat := 0
  txup     : Bool := false
  rxup     : Bool := false
  agreed   : Nat := 0
  passed   : Option Nat := none
  confirmed : Option Nat := none
  echoOut  : Bool := false
  echoMiss : Nat := 0
  nextDisc : Nat := 0
  deriving DecidableEq, Repr

/-- The states of a lane direction (R340). -/
inductive LaneState where
  | sleep | eq | align | active
  deriving DecidableEq, Repr

/-- A cascade lane of a port (R340, R341, R343, R346): LANE_EQ and what stands behind it: the markers found in a row,
the word boundary, the scramblers of the receive and the transmit lane, and the count of the last marker. -/
structure Lane where
  tx      : LaneState := .sleep
  rx      : LaneState := .sleep
  eye     : Nat := 0
  amlock  : Bool := false
  laneId  : Nat := 0
  peak    : Nat := 24
  markers : Nat := 0
  bound   : Nat := 0
  scram   : BitVec 31 := 0
  txScram : BitVec 31 := 0
  markerAt : Nat := 0
  deriving DecidableEq, Repr

/-- A DATA flit of the replay buffer (R349): its fields, its payload and how often it has been replayed. -/
structure SentFlit where
  fseq    : BitVec 12
  sop     : Nat
  ccls    : Nat
  cred    : Nat
  payload : List Byte
  replays : Nat := 0
  deriving DecidableEq, Repr

/-- A packet on its way out of a cascade link (R436): how many flits are still to be sent up to its last one, its job, class and bytes. -/
structure TxEnd where
  flits : Nat
  job   : Nat
  tc    : Nat
  bytes : Nat
  deriving DecidableEq, Repr

/-- A cascade link (R342, R345 to R350): `credit` is what may be sent in each class, `owed` what is to be
returned, `ackDue` that the peer has yet to be told what was received, `sendq` the packets that wait for credit (class
and bytes), `flitq` the flits formed that wait for room in the replay buffer (SOP and payload), `ends` the packets whose last flits they hold, `inbuf` the packet bytes
not yet whole, `inPkts` the whole packets whose rows have not run; `deficit`, `turn` and `fresh` are the deficit round robin
of TC2 to TC5 (R323); `txRun` counts the flits sent since the last marker, and `markAt` is when the next is due, in units of
40 ps (R346). -/
structure Casc where
  rxslp   : BitVec 16 := 0xFFFF
  txslp   : BitVec 16 := 0xFFFF
  lanes   : List Lane := List.replicate 16 {}
  txSeq   : BitVec 12 := 0
  rxSeq   : BitVec 12 := 0
  unacked : List SentFlit := []
  ackAt   : Nat := 0
  nakSent : Bool := false
  ackDue  : Bool := false
  credit  : List Nat := [0, 0, 0, 0, 0, 0]
  owed    : List Nat := [0, 0, 0, 0, 0, 0]
  sendq   : List (Nat × List Byte) := []
  flitq   : List (Nat × List Byte) := []
  ends    : List TxEnd := []
  deficit : List Nat := [0, 0, 0, 0]
  turn    : Nat := 0
  fresh   : Bool := true
  inbuf   : List Byte := []
  inPkts  : List (List Byte) := []
  txRun   : Nat := 0
  markAt  : Nat := 0
  deriving DecidableEq, Repr

/-- A UCIe module (R480): `state` 0 training, 1 up, 2 held down, 3 in L1. -/
structure Module where
  state    : Nat := 0
  retrains : Nat := 0
  repaired : Nat := 0
  retryAt  : Nat := 0
  deriving DecidableEq, Repr

/-- A compute die (R389, R409, R480): `state` 0 in service, 1 asleep, 2 out, 3 out until RESET. -/
structure Die where
  gen    : BitVec 16 := 0
  fails  : Nat := 0
  state  : Nat := 0
  rejoin : Option Nat := none
  bondAt : Option Nat := none
  deriving DecidableEq, Repr

/-- A string (R17, R401 to R403, R480): `testing` the physical frets whose retest runs, `swapAt` a fret retired at a
count that the spare is to replace, `passAt` the count at which a retest ended with nothing to replace, `times` the
frets that have reported faults, with the counts, `outSeq` the RSEQ of the fault that retired the string. -/
structure Str where
  retired  : BitVec 17 := 0
  spareIn  : Option Nat := none
  repair   : Bool := false
  out      : Bool := false
  testing  : List Nat := []
  swapAt   : Option (Nat × Nat) := none
  passAt   : Option Nat := none
  times    : List (Nat × Nat) := []
  outSeq   : BitVec 32 := 0
  deriving DecidableEq, Repr

/-! ## Faults, black box, observability, power, pegbox, test access port -/

/-- A black-box record (R414). -/
structure BBRec where
  rkind  : Nat
  sev    : Nat := 0
  domain : Nat := 0xFF
  rseq   : BitVec 32
  gcount : Nat := 0
  fcls   : Nat := 0xFF
  nseq   : BitVec 32 := 0xFFFFFFFF
  loc    : BitVec 32 := 0
  addr   : BitVec 64 := 0
  synd   : BitVec 32 := 0
  dseq   : BitVec 32 := 0
  queue  : Nat := 0
  group  : Nat := 0
  job    : Nat := 0
  status : Nat := 0
  ops    : Nat := 0
  xdata  : BitVec 64 := 0
  deriving DecidableEq, Repr

/-- A flush in progress (R418): its slot, its number and the FAULT_CLASS, count and records it wrote. -/
structure Flush where
  slot     : Nat
  seq      : BitVec 32
  fclass   : Word
  gcount   : Nat
  records  : List BBRec
  deriving DecidableEq, Repr

/-- Fault classes and the black box (R392 to R419). -/
structure FaultSt where
  classes  : Word := 0
  alertEn  : Word := 0x7FF
  ce       : List (FUnit × Nat) := []
  ring     : Table (Option BBRec) := []
  mirrorOnly : List Nat := []
  lostRecs : List Nat := []
  rseq     : BitVec 32 := 1
  mirror   : Bool := true
  flush    : Option Flush := none
  erasing  : Bool := false
  slot     : Nat := 0
  result   : Nat := 0
  gcLimit  : Bool := false
  deriving DecidableEq, Repr

/-- A performance counter (R420 to R425): `value` stands as at the start of the nanosecond, `acc` is
what occurred in it so far, and `fresh` marks a selection that counts from the next one (R425). -/
structure Pmc where
  sel     : Word := 0
  value   : BitVec 48 := 0
  ovf     : Bool := false
  latch   : Word := 0
  acc     : Nat := 0
  fresh   : Bool := false
  deriving DecidableEq, Repr

/-- A port record and the sums of the window in progress (R435, R436). -/
structure BwPort where
  wnum   : Nat := 0
  words  : List Nat := [0, 0, 0, 0, 0, 0]
  rxHi   : Nat := 0
  rxBulk : Nat := 0
  txHi   : Nat := 0
  txBulk : Nat := 0
  drops  : Nat := 0
  maxq   : Nat := 0
  deriving DecidableEq, Repr

/-- Counters, sampling and bandwidth windows (R420 to R439). -/
structure Obs where
  pmc     : Table Pmc := []
  freeze  : Bool := false
  arm     : Bool := false
  frzLo   : Word := 0
  frzHi   : Word := 0
  smpCtl  : Word := 0x03000000
  smpSoff : Word := 0
  smpLo   : Word := 0
  smpHi   : Word := 0
  sseq    : BitVec 32 := 0
  bwCtl   : Word := 500
  bwOpen  : Option Nat := none
  bw      : Table BwPort := []
  deriving DecidableEq, Repr

/-- A temperature sensor group (R448, R454). -/
structure Temp where
  valid : Bool := false
  level : Nat := 0
  temp  : BitVec 16 := 0
  warm  : Nat := 0
  trip  : Nat := 0
  deriving DecidableEq, Repr

/-- Power and temperature (R441, R447 to R456): `gated` while all compute dies are power-gated together, `stagesOff` from a critical
shutdown until VIN was low for long enough, `lockout` while VIN keeps a power stage stopped, `critIn` the nanoseconds until the power
stages stop after a comparator fired. -/
structure Power where
  temps     : Table Temp := []
  warn      : Word := 0x735A5F5F
  tripLow   : Bool := false
  vinLow    : Bool := false
  vinHigh   : Bool := false
  vin       : Nat := 0
  pin       : Nat := 0
  gated     : Bool := false
  stagesOff : Bool := false
  lockout   : Bool := false
  critIn    : Option Nat := none
  deriving DecidableEq, Repr

/-- The pegbox and its access registers (R361 to R377). `cmd` is the running command, `runOff` and `runLen` the range it was started
with. -/
structure Peg where
  flash    : List Host.Cell := []
  srcLo    : Word := 0
  srcHi    : Word := 0
  foff     : Word := 0
  len      : Word := 0
  cmd      : Option Nat := none
  runOff   : Nat := 0
  runLen   : Nat := 0
  result   : Nat := 0
  vcheck   : Nat := 0
  verified : Bool := false
  buf      : List (Nat × List Byte) := []
  failed   : Bool := false
  deriving DecidableEq, Repr

/-- The 16 controller states of IEEE 1149.1 (R464). -/
inductive TapState where
  | testLogicReset | runTestIdle
  | selectDr | captureDr | shiftDr | exit1Dr | pauseDr | exit2Dr | updateDr
  | selectIr | captureIr | shiftIr | exit1Ir | pauseIr | exit2Ir | updateIr
  deriving DecidableEq, Repr

/-- The test access port (R464): state, instruction in force, the two shift registers, the cells of the boundary chain as updated,
and TDO, none while it is high-impedance. -/
structure Tap where
  state : TapState := .testLogicReset
  instr : Nat := 1
  irSh  : List Bool := []
  drSh  : List Bool := []
  latch : List Bool := []
  tdo   : Option Bool := none
  deriving DecidableEq, Repr

/-! ## What leaves the island -/

/-- What the island puts out: a packet, with the port it leaves on where one is fixed, a cascade flit as the words of its 16 lanes,
or the alignment markers of a direction, no word on a lane that sleeps (R339, R345, R346). Oldest first in `State.out` (log
entry 8). -/
inductive Out where
  | pkt (port : Option Nat) (p : Packet)
  | flit (casc : Nat) (words : List (List Pam4))
  | marker (casc : Nat) (words : List (List Pam4))
  deriving DecidableEq, Repr

/-! ## The state -/

/-- The island. Each field is one of the parts INVENTORY.md lists under '## State'. `sources` are completed
operations whose results wait for an UPDATE (R195, R204), and `lostSrc` the slot, OPID, STEP and RSEQ of
those a fault destroyed (R401); `early` counts the slips of chunks whose descriptor
the island does not hold yet (R257): slot, OPID, plan, last frame (2 ^ 64 once the operation has started), number; `earlyEnds` keeps the ends of
operations whose relay has not come. `roles` are the fret roles of the frame in progress, with their jobs (R14), `tileOwn` the
accumulator tiles that belong to operations (R15), `regions` what is allocated in island HBM (R26). `ended` keeps the slot, OPID, STEP and status of
operations that are over on every island and that a PHASE_FENCE may cover (R196). -/
structure State where
  pending : List Instr := []
  ctl     : Ctl := {}
  time    : Time := {}
  chord   : Epochs ChordCopy := { cur := {}, shadow := {} }
  routing : Epochs (Table Route) := { cur := [], shadow := [] }
  queues  : Table QueueCtx := []
  admin   : Admin := {}
  notices : NoticeGen := {}
  zsis    : Table (Option ZsiSlot) := []
  jobs    : Table Job := []
  ctrs    : Table Ctr := []
  waiters : List Waiter := []
  ops     : List Op := []
  sources : List Op := []
  lostSrc : List (Nat × Nat × BitVec 32 × BitVec 32) := []
  ended   : List (Nat × Nat × BitVec 32 × Nat) := []
  early   : List (Nat × Nat × Nat × Nat × Nat) := []
  earlyEnds : List EarlyEnd := []
  pizzOps : List PizzOp := []
  roles   : List (Nat × RolePlan) := []
  tileOwn : List TileOwn := []
  regions : List Region := []
  streams : List StreamSet := []
  shards  : List Shard := []
  zeroize : Nat := 0
  hbm     : List Host.Cell := []
  net     : Net := {}
  meters  : Table Meter := []
  ports   : Table Port := []
  casc    : Table Casc := []
  mods    : Table Module := []
  dies    : Table Die := []
  strs    : Table Str := []
  fault   : FaultSt := {}
  obs     : Obs := {}
  power   : Power := {}
  peg     : Peg := {}
  tap     : Tap := {}
  out     : List Out := []
  freeCtr : Nat := 0
  deriving DecidableEq, Repr

/-- The island in RESET (R378) after power-up: every field at the value the spec states for reset, or at
the value the log names (INVENTORY.md). The flash is erased, as a device is before it is programmed. -/
def State.reset : State := {}

/-- Why a step stops with a fault. No command of the island does: every access that the spec says does
not exist is refused by the island itself and has the effect the spec gives (R26, R307, R465). The one
reason stands for a memory address above the top of island HBM reached by the model itself; nothing
raises it (safe). -/
inductive Fault where
  /-- An island HBM address at or above 0x180_0000_0000 (R25). Raised by nothing; safe. -/
  | hbmAddress (a : Nat)
  deriving DecidableEq, Repr

/-- Why a command is refused. -/
inductive Refusal where
  /-- The command has no meaning in the model yet; raised by its arm of `exec` alone. Safe. -/
  | notModelled (mnemonic : String)
  deriving DecidableEq, Repr

end Sys2Proof.Machine
end

