-- ==== Sys2Proof/Machine/Bytes.lean ====
section
/-! DEFINITION. Byte order, bit fields, sparse tables, and the check and authentication codes: the
helpers every family uses (R6, R266, R272, R309, R346). -/

set_option Elab.async false

namespace Sys2Proof

/-! ## Ranges of numbers

A range is its first number and the one after its last. -/

/-- How many numbers ranges hold. -/
def rangesLen (rs : List (Nat × Nat)) : Nat := (rs.map fun r => r.2 - r.1).sum

/-- A number lies in one of the ranges. -/
def rangesHave (rs : List (Nat × Nat)) (x : Nat) : Bool := rs.any fun r => decide (r.1 ≤ x) && decide (x < r.2)

/-- The `i`-th number of ranges, one after another; 0 beyond them. -/
def rangesAt : List (Nat × Nat) → Nat → Nat
  | [], _ => 0
  | r :: rs, i => if i < r.2 - r.1 then r.1 + i else rangesAt rs (i - (r.2 - r.1))

/-- Two lists of ranges share a number. -/
def rangesShare (a b : List (Nat × Nat)) : Bool := a.any fun x => b.any fun y => decide (max x.1 y.1 < min x.2 y.2)

/-- No number stands twice in the ranges. -/
def rangesDistinct : List (Nat × Nat) → Bool
  | [] => true
  | r :: rs => !rangesShare [r] rs && rangesDistinct rs

/-! ## Sparse tables in canonical form -/

/-- What key `k` holds; an unlisted key holds the default `d`. -/
def Table.get {α : Type} (d : α) : Table α → Nat → α
  | [], _ => d
  | (k', v) :: t, k => if k' = k then v else Table.get d t k

/-- Write `v` at key `k`, keeping the keys rising and listing no default. -/
def Table.put {α : Type} [DecidableEq α] (d : α) : Table α → Nat → α → Table α
  | [], k, v => if v = d then [] else [(k, v)]
  | (k', v') :: t, k, v =>
    if k < k' then (if v = d then (k', v') :: t else (k, v) :: (k', v') :: t)
    else if k = k' then (if v = d then t else (k, v) :: t)
    else (k', v') :: Table.put d t k v

/-- Every key of the table is above `k`. -/
def Table.above {α : Type} (k : Nat) (t : Table α) : Bool := t.all fun p => k < p.1

/-- The canonical form: keys strictly rising, no entry that holds the default. -/
def Table.wf {α : Type} [DecidableEq α] (d : α) : Table α → Bool
  | [] => true
  | (k, v) :: t => Table.above k t && decide (v ≠ d) && Table.wf d t

/-- The values at `n` keys from `a` upward. -/
def Table.range {α : Type} (d : α) : Table α → Nat → Nat → List α
  | _, _, 0 => []
  | t, a, n + 1 =>
    match t.dropWhile (fun p => p.1 < a) with
    | [] => d :: Table.range d [] (a + 1) n
    | (k, v) :: r => (if k = a then v else d) :: Table.range d ((k, v) :: r) (a + 1) n

/-- Write the values of a list at consecutive keys from `a` upward. -/
def Table.putAll {α : Type} [DecidableEq α] (d : α) (t : Table α) (a : Nat) : List α → Table α
  | [] => t
  | v :: vs => Table.putAll d (Table.put d t a v) (a + 1) vs

/-- Change the value at a key. -/
def Table.modify {α : Type} [DecidableEq α] (d : α) (t : Table α) (k : Nat) (f : α → α) : Table α :=
  Table.put d t k (f (Table.get d t k))

/-- The lists of bytes of a memory hold what unlisted addresses read as `d` (the canonical form of
an addressed memory; island HBM reads 0 and the pegbox 0xFF where nothing is listed). -/
abbrev Memory.wf (d : Byte) (m : List Host.Cell) : Prop := Table.wf d m = true

namespace Machine

/-! ## Bit fields and byte order (R6) -/

/-- Bits `hi` down to `lo` of a number. -/
def bits (x hi lo : Nat) : Nat := (x >>> lo) % 2 ^ (hi + 1 - lo)

/-- Bit `i` of a number. -/
def bit (x i : Nat) : Bool := x.testBit i

/-- A Boolean as a bit at position `i`. -/
def flag (b : Bool) (i : Nat) : Nat := if b then 2 ^ i else 0

/-- The bytes of a number, lowest first, `n` of them (R6). -/
def le : Nat → Nat → List Byte
  | 0, _ => []
  | n + 1, x => BitVec.ofNat 8 x :: le n (x / 256)

/-- The number that bytes spell, the first the lowest (R6). -/
def unle : List Byte → Nat
  | [] => 0
  | b :: bs => b.toNat + 256 * unle bs

/-- Bytes `lo` to `hi` of a structure as a number. -/
def fld (bs : List Byte) (hi lo : Nat) : Nat := unle ((bs.drop lo).take (hi + 1 - lo))

/-- `n` bytes of a structure from offset `off`, zeros after its end. -/
def slice (bs : List Byte) (off n : Nat) : List Byte :=
  let s := (bs.drop off).take n
  s ++ List.replicate (n - s.length) 0

/-- Bytes `lo` to `hi` of a structure are all zero. -/
def zeroBytes (bs : List Byte) (hi lo : Nat) : Bool := ((bs.drop lo).take (hi + 1 - lo)).all (· = 0)

/-- Cut a list into parts of `n` (the last may be shorter), at most `fuel` of them. -/
def cut {α : Type} (n : Nat) : Nat → List α → List (List α)
  | 0, _ => []
  | _, [] => []
  | fuel + 1, l => l.take n :: cut n fuel (l.drop n)

/-- Put an element before the first of a list that it does not come after. -/
def insertBy {α : Type} (before : α → α → Bool) (x : α) : List α → List α
  | [] => [x]
  | y :: ys => if before x y then x :: y :: ys else y :: insertBy before x ys

/-- A list in order. -/
def sortBy {α : Type} (before : α → α → Bool) (l : List α) : List α := l.foldr (insertBy before) []

/-- A list of numbers in rising order. -/
def sortNat (l : List Nat) : List Nat := sortBy (fun a b => decide (a ≤ b)) l

/-- The bits of a byte, lowest first. -/
def byteBits (b : Byte) : List Bool := (List.range 8).map fun i => b.getLsbD i

/-- A signed number from its two's complement bits. -/
def signed (w x : Nat) : Int := if x < 2 ^ (w - 1) then x else (x : Int) - (2 : Int) ^ w

/-- A signed number as `w` bits of two's complement. -/
def unsigned (w : Nat) (x : Int) : Nat := (x % (2 : Int) ^ w).toNat

/-! ## IEEE 802.3 CRC-32 (R272, R309, R345) -/

/-- One bit step of the reflected CRC-32. -/
def crcStep (c : BitVec 32) : BitVec 32 :=
  if c.getLsbD 0 then (c >>> 1) ^^^ 0xEDB88320#32 else c >>> 1

/-- One byte of the CRC. -/
def crcByte (c : BitVec 32) (b : Byte) : BitVec 32 :=
  Nat.repeat crcStep 8 (c ^^^ b.setWidth 32)

/-- The CRC-32 of a byte string. -/
def crc32 (bs : List Byte) : BitVec 32 := ~~~ (bs.foldl crcByte 0xFFFFFFFF#32)

/-! ## HMAC-SHA-256 (R266; FIPS 180-4 and FIPS 198-1, log entry 5) -/

/-- The eight 32-bit words of a number, the highest first. -/
def words8 (x : Nat) : List (BitVec 32) := (List.range 8).map fun i => BitVec.ofNat 32 (x >>> (32 * (7 - i)))

/-- The round constants of SHA-256, eight to a number. -/
def shaK : List (BitVec 32) :=
  [0x428a2f9871374491b5c0fbcfe9b5dba53956c25b59f111f1923f82a4ab1c5ed5,
   0xd807aa9812835b01243185be550c7dc372be5d7480deb1fe9bdc06a7c19bf174,
   0xe49b69c1efbe47860fc19dc6240ca1cc2de92c6f4a7484aa5cb0a9dc76f988da,
   0x983e5152a831c66db00327c8bf597fc7c6e00bf3d5a7914706ca635114292967,
   0x27b70a852e1b21384d2c6dfc53380d13650a7354766a0abb81c2c92e92722c85,
   0xa2bfe8a1a81a664bc24b8b70c76c51a3d192e819d6990624f40e3585106aa070,
   0x19a4c1161e376c082748774c34b0bcb5391c0cb34ed8aa4a5b9cca4f682e6ff3,
   0x748f82ee78a5636f84c878148cc7020890befffaa4506cebbef9a3f7c67178f2].flatMap words8

/-- The initial hash value of SHA-256. -/
def shaInit : List (BitVec 32) := words8 0x6a09e667bb67ae853c6ef372a54ff53a510e527f9b05688c1f83d9ab5be0cd19

/-- A word rotated right by each of some amounts, all XORed together. -/
def rotXor (x : BitVec 32) (ns : List Nat) : BitVec 32 := ns.foldl (fun y n => y ^^^ x.rotateRight n) 0

/-- A round of SHA-256 on what it needs: the last four values of `a` and the last four of `e`, the newest first, and the sixteen words
of the schedule from its own on, which move on by one. -/
def shaTurn (x : List (BitVec 32) × List (BitVec 32) × List (BitVec 32)) (k : BitVec 32) :
    List (BitVec 32) × List (BitVec 32) × List (BitVec 32) :=
  let a := fun i => x.1.getD i 0
  let e := fun i => x.2.1.getD i 0
  let w := fun i => x.2.2.getD i 0
  let common := k + w 0 + e 3 + (e 2 ^^^ (e 0 &&& (e 1 ^^^ e 2))) + rotXor (e 0) [6, 11, 25]
  let major := (a 2 &&& (a 0 ||| a 1)) ||| (a 0 &&& a 1)
  let later := w 9 + w 0 + (w 14 >>> 10 ^^^ rotXor (w 14) [17, 19]) + (w 1 >>> 3 ^^^ rotXor (w 1) [7, 18])
  ((rotXor (a 0) [2, 13, 22] + major + common) :: x.1.take 3, (common + a 3) :: x.2.1.take 3, x.2.2.drop 1 ++ [later])

/-- A block of 64 bytes, sixteen big-endian words, goes into the hash value. -/
def shaBlock (h : List (BitVec 32)) (block : List Byte) : List (BitVec 32) :=
  let ws := (cut 4 16 block).map fun b => BitVec.ofNat 32 (unle b.reverse)
  let end_ := shaK.foldl shaTurn (h.take 4, h.drop 4, ws)
  List.zipWith (· + ·) h (end_.1 ++ end_.2.1)

/-- SHA-256 of a byte string. -/
def sha256 (msg : List Byte) : List Byte :=
  let n := msg.length
  let pad := msg ++ [0x80#8] ++ List.replicate ((119 - n % 64) % 64) 0#8 ++ (le 8 (8 * n)).reverse
  let h := (cut 64 (pad.length / 64) pad).foldl shaBlock shaInit
  h.flatMap fun x => (le 4 x.toNat).reverse

/-- HMAC-SHA-256 with a key of at most 64 bytes. -/
def hmacSha256 (key msg : List Byte) : List Byte :=
  let k := key ++ List.replicate (64 - key.length) 0#8
  sha256 (k.map (· ^^^ 0x5c#8) ++ sha256 (k.map (· ^^^ 0x36#8) ++ msg))

/-! ## The Reed-Solomon code RS(272,256) (R346) -/

/-- Multiply by x in GF(2⁸) with the polynomial x⁸ + x⁴ + x³ + x² + 1. -/
def gfDouble (a : Byte) : Byte := if a.getLsbD 7 then (a <<< 1) ^^^ 0x1D#8 else a <<< 1

/-- The product in GF(2⁸). -/
def gfMul (a b : Byte) : Byte :=
  ((List.range 8).foldl (fun (acc, x) i => (if b.getLsbD i then acc ^^^ x else acc, gfDouble x)) (0#8, a)).1

/-- α to the power `n`, α being 0x02. -/
def gfPow (n : Nat) : Byte := Nat.repeat gfDouble (n % 255) 1#8

/-- The inverse of a non-zero element: its 254th power. -/
def gfInv (a : Byte) : Byte := Nat.repeat (gfMul a) 253 a

/-- A polynomial, lowest coefficient first, evaluated at a point. -/
def gfEval (p : List Byte) (x : Byte) : Byte := p.foldr (fun c acc => c ^^^ gfMul x acc) 0#8

/-- Add two polynomials. -/
def gfAdd : List Byte → List Byte → List Byte
  | [], q => q
  | p, [] => p
  | a :: p, b :: q => (a ^^^ b) :: gfAdd p q

/-- Multiply two polynomials. -/
def gfProd : List Byte → List Byte → List Byte
  | [], _ => []
  | a :: p, q => gfAdd (q.map (gfMul a)) (0#8 :: gfProd p q)

/-- The 16 syndromes of a word whose first byte has the highest degree. -/
def rsSyndromes (w : List Byte) : List Byte :=
  (List.range 16).map fun i => w.foldl (fun acc b => b ^^^ gfMul acc (gfPow i)) 0#8

/-- The state of the Berlekamp–Massey search for the error locator. -/
structure RsSearch where
  c : List Byte
  b : List Byte
  l : Nat
  m : Nat
  last : Byte

/-- One step of the search, for syndrome number `n`. -/
def rsStep (syn : List Byte) (s : RsSearch) (n : Nat) : RsSearch :=
  let d := (List.range (s.l + 1)).foldl
    (fun acc i => acc ^^^ gfMul (s.c.getD i 0) (if i ≤ n then syn.getD (n - i) 0 else 0)) 0#8
  if d = 0#8 then { s with m := s.m + 1 }
  else
    let k := gfMul d (gfInv s.last)
    let c' := gfAdd s.c (List.replicate s.m 0#8 ++ s.b.map (gfMul k))
    if 2 * s.l ≤ n then { c := c', b := s.c, l := n + 1 - s.l, m := 1, last := d }
    else { s with c := c', m := s.m + 1 }

/-- Add magnitude `e` to the byte of degree `deg` of a word of 272 bytes. -/
def rsPatch (w : List Byte) (deg : Nat) (e : Byte) : List Byte := w.modify (271 - deg) (· ^^^ e)

/-- The parity bytes of 256 data bytes: the remainder on division by the generator (R346). -/
def rsParity (data : List Byte) : List Byte :=
  let g := (List.range 16).foldl (fun p i => gfProd p [gfPow i, 1#8]) [1#8]
  let low := g.take 16
  -- `r` holds the remainder, highest degree first
  data.foldl (fun r b =>
    let f := b ^^^ r.headD 0
    List.zipWith (· ^^^ ·) (r.drop 1 ++ [0#8]) (low.reverse.map (gfMul f))) (List.replicate 16 0#8)

/-- The words of the code within 8 byte errors of a received word of 272 bytes, with the number of bytes
changed (R346). A word longer than 255 has two places for each of the locations 0 to 16, so there may be
several; the flit's FCRC decides between them (log entry 15). A word whose parity bytes are those of its data is in the
code. -/
def rsCorrect (w : List Byte) : List (List Byte × Nat) :=
  if w.drop 256 = rsParity (w.take 256) then [(w, 0)]
  else
    let syn := rsSyndromes w
    let s := (List.range 16).foldl (rsStep syn) ⟨[1], [1], 0, 1, 1⟩
    let omega := (gfProd syn s.c).take 16
    let dlam := (List.range s.c.length).map fun i => if i % 2 = 0 then s.c.getD (i + 1) 0 else 0#8
    let roots := (List.range 255).filter fun r => gfEval s.c (gfPow (255 - r)) = 0#8
    let mag := fun r =>
      let x := gfPow (255 - r)
      gfMul (gfPow r) (gfMul (gfEval omega x) (gfInv (gfEval dlam x)))
    if 8 < s.l ∨ roots.length ≠ s.l then []
    else
      let words := roots.foldl (fun ws r =>
        ws.flatMap fun v =>
          rsPatch v r (mag r) :: (if r + 255 ≤ 271 then [rsPatch v (r + 255) (mag r)] else [])) [w]
      (words.filter fun v => (rsSyndromes v).all (· = 0)).map fun v => (v, s.l)

/-- One bit of the lane scrambler of polynomial x³¹ + x²⁸ + 1 (R346). -/
def scramStep (s : BitVec 31) : BitVec 31 :=
  (s <<< 1) ||| (if s.getLsbD 30 != s.getLsbD 27 then 1#31 else 0#31)

/-- The seed of lane `n`'s scrambler after a marker (R346): 31 bits of 0x5A5A_5A50 XOR n. -/
def scramSeed (n : Nat) : BitVec 31 := BitVec.ofNat 31 (0x5A5A5A50 ^^^ n)

end Machine

end Sys2Proof
end

