-- ==== Sys2Proof/Machine/Operands.lean ====
section
/-! DEFINITION. Number formats: decoding and encoding of every element format, exact values, rounding,
the stochastic-rounding generator, and MX blocks (03_number_formats). Exact values are rationals. -/

set_option Elab.async false

namespace Sys2Proof.Machine

/-! ## Exact arithmetic helpers -/

/-- 2 to an integer power, exactly. -/
def pow2 (e : Int) : Rat := if 0 ≤ e then ((2 ^ e.toNat : Nat) : Rat) else mkRat 1 (2 ^ (-e).toNat)

/-- The magnitude of a rational. -/
def qabs (x : Rat) : Rat := if x < 0 then -x else x

/-- floor(log₂ |x|) of a non-zero x; 0 for 0. -/
def flog2 (x : Rat) : Int :=
  if x = 0 then 0
  else
    let l : Int := (Nat.log2 x.num.natAbs : Int) - (Nat.log2 x.den : Int)
    if pow2 l ≤ qabs x then l else l - 1

/-- The three rounding modes of R77; the stochastic mode carries its 32 random bits. -/
inductive RMode where
  | rne | rtz | sr (r : Nat)
  deriving DecidableEq, Repr

/-- R78: x rounded onto the grid of `prec` significant bits whose normals begin at 2^emin, subnormals
included, with no upper bound on the exponent. -/
def roundGrid (prec : Nat) (emin : Int) (m : RMode) (x : Rat) : Rat :=
  if x = 0 then 0
  else
    let ulp := pow2 (max (flog2 x) emin - (prec - 1 : Int))
    let t := qabs x / ulp
    let a := t.floor
    let frac := t - a
    let up : Bool :=
      if frac = 0 then false
      else match m with
        | .rne => decide (1 / 2 < frac) || (decide (frac = 1 / 2) && decide (a % 2 = 1))
        | .rtz => false
        | .sr r => decide (2 ^ 32 ≤ (frac * 2 ^ 32).floor + (r : Int))
    let n : Rat := ((if up then a + 1 else a : Int) : Rat) * ulp
    if x < 0 then -n else n

/-! ## Words (R74, R98, R104) -/

/-- The value of a word negated. -/
def wneg (w : Wd) : Wd := { q := -w.q, neg0 := decide (w.q = 0) && !w.neg0 }

/-- The word of an exact value on the grid; a zero is +0. -/
def wd (q : Rat) : Wd := { q }

/-- Whether a word is negative or −0. -/
def wsign (w : Wd) : Bool := decide (w.q < 0) || (decide (w.q = 0) && w.neg0)

/-- A rational rounded to nearest even onto the FP32 word grid, with no upper bound (R98, R104). -/
def roundWord (x : Rat) : Rat := roundGrid 24 (-126) .rne x

/-! ## Floating-point element formats (R66) -/

/-- A floating-point element format: exponent and fraction bits, bias, and how NaN and infinity are
encoded (`special` 0: none, 1: IEEE, 2: E4M3's single NaN). -/
structure FpFormat where
  ebits   : Nat
  fbits   : Nat
  bias    : Nat
  special : Nat
  deriving DecidableEq, Repr

/-- The format of a scalar code, or of the elements of an MX code (R66). -/
def fpFormat : Nat → Option FpFormat
  | 0x01 => some ⟨11, 52, 1023, 1⟩
  | 0x02 => some ⟨8, 23, 127, 1⟩
  | 0x03 => some ⟨8, 7, 127, 1⟩
  | 0x04 => some ⟨5, 10, 15, 1⟩
  | 0x05 => some ⟨4, 3, 7, 2⟩
  | 0x06 => some ⟨5, 2, 15, 1⟩
  | 0x08 => some ⟨4, 3, 7, 2⟩
  | 0x09 => some ⟨5, 2, 15, 1⟩
  | 0x0A => some ⟨3, 2, 3, 0⟩
  | 0x0B => some ⟨2, 3, 1, 0⟩
  | 0x0C => some ⟨2, 1, 1, 0⟩
  | _ => none

/-- A defined format code (R66). -/
def fmtDefined (c : Nat) : Bool := (fpFormat c).isSome || c == 0x10 || c == 0x11

/-- A floating-point format code. -/
def isFloat (c : Nat) : Bool := (fpFormat c).isSome

/-- An MX format code. -/
def isMx (c : Nat) : Bool := decide (0x08 ≤ c ∧ c ≤ 0x0C)

/-- An integer format code. -/
def isInt (c : Nat) : Bool := c == 0x10 || c == 0x11

/-- Bits of one element of a format, the scale bytes of MX left out. -/
def elemBits : Nat → Nat
  | 0x01 => 64 | 0x02 => 32 | 0x03 => 16 | 0x04 => 16 | 0x05 => 8 | 0x06 => 8
  | 0x08 => 8 | 0x09 => 8 | 0x0A => 6 | 0x0B => 6 | 0x0C => 4 | 0x10 => 32 | 0x11 => 64
  | _ => 8

/-- Bytes of an MX group of 1,024 elements (R68): 32 scale bytes and 32 blocks. -/
def mxGroupBytes (c : Nat) : Nat := 32 + 128 * elemBits c

/-- Bytes that `n` elements occupy; for MX, whole groups (R68). -/
def fmtBytes (c n : Nat) : Nat :=
  if isMx c then (n + 1023) / 1024 * mxGroupBytes c else n * elemBits c / 8

/-- Byte position of element `e` (R130); for MX, that of its group. -/
def elemPos (c e : Nat) : Nat := if isMx c then e / 1024 * mxGroupBytes c else e * elemBits c / 8

/-- Smallest normal exponent of a format. -/
def fpEmin (f : FpFormat) : Int := 1 - (f.bias : Int)

/-- Largest finite magnitude of a format (R66). -/
def fpMax (f : FpFormat) : Rat :=
  let top : Int := 2 ^ f.ebits - 1 - (f.bias : Int)
  match f.special with
  | 1 => (2 - pow2 (-(f.fbits : Int))) * pow2 (top - 1)
  | 2 => (2 - 2 * pow2 (-(f.fbits : Int))) * pow2 top
  | _ => (2 - pow2 (-(f.fbits : Int))) * pow2 top

/-- The canonical NaN of a format (R84). -/
def fpNan (f : FpFormat) : Nat :=
  if f.special = 2 then 2 ^ (f.ebits + f.fbits) - 1
  else (2 ^ f.ebits - 1) * 2 ^ f.fbits + 2 ^ (f.fbits - 1)

/-- The infinity of a sign. -/
def fpInf (f : FpFormat) (neg : Bool) : Nat :=
  (2 ^ f.ebits - 1) * 2 ^ f.fbits + flag neg (f.ebits + f.fbits)

/-- Decode an encoding (R66, R67). -/
def fpDecode (f : FpFormat) (x : Nat) : Elem :=
  let neg := x.testBit (f.ebits + f.fbits)
  let e := (x >>> f.fbits) % 2 ^ f.ebits
  let m := x % 2 ^ f.fbits
  let ones := decide (e = 2 ^ f.ebits - 1)
  if f.special = 1 && ones then (if m = 0 then .inf neg else .nan)
  else if f.special = 2 && ones && decide (m = 2 ^ f.fbits - 1) then .nan
  else
    let q : Rat := if e = 0 then (m : Rat) * pow2 (fpEmin f - f.fbits)
      else ((2 ^ f.fbits + m : Nat) : Rat) * pow2 ((e : Int) - f.bias - f.fbits)
    .fin { q := if neg then -q else q, neg0 := neg && decide (q = 0) }

/-- Encode a finite value that lies on the format's grid and within its range. -/
def fpEncode (f : FpFormat) (w : Wd) : Nat :=
  let s := flag (wsign w) (f.ebits + f.fbits)
  if w.q = 0 then s
  else
    let a := qabs w.q
    let e := flog2 a
    if e < fpEmin f then s + (a / pow2 (fpEmin f - f.fbits)).floor.toNat
    else
      s + ((e + f.bias).toNat) * 2 ^ f.fbits + ((a / pow2 (e - f.fbits)).floor.toNat - 2 ^ f.fbits)

/-- FP32, for the register words and constants that are FP32 codes. -/
def fp32 : FpFormat := ⟨8, 23, 127, 1⟩

/-- FP64, the storage of C64X words (R105). -/
def fp64 : FpFormat := ⟨11, 52, 1023, 1⟩

/-- The exact value of a finite FP32 code; 0 for the others. -/
def fp32Val (x : BitVec 32) : Rat := match fpDecode fp32 x.toNat with | .fin w => w.q | _ => 0

/-- A positive normal FP32 code (R75). -/
def fp32PosNormal (x : BitVec 32) : Bool :=
  let e := (x.toNat >>> 23) % 256
  !x.getLsbD 31 && decide (e ≠ 0) && decide (e ≠ 255)

/-- +0 or a positive normal FP32 code (R205, R206). -/
def fp32ZeroOrNormal (x : BitVec 32) : Bool := x == 0 || fp32PosNormal x

/-- A finite FP32 code from 0 to 1 (R205). -/
def fp32Unit (x : BitVec 32) : Bool := decide (x.toNat ≤ 0x3F800000)

/-- A finite FP32 code that is at least 1.0 (R206). -/
def fp32AtLeastOne (x : BitVec 32) : Bool := decide (0x3F800000 ≤ x.toNat ∧ x.toNat < 0x7F800000)

/-! ## The stochastic-rounding generator (R79) -/

/-- mix of R79. -/
def srMix (z : BitVec 64) : BitVec 64 :=
  let z := (z ^^^ (z >>> 30)) * 0xBF58476D1CE4E5B9#64
  let z := (z ^^^ (z >>> 27)) * 0x94D049BB133111EB#64
  z ^^^ (z >>> 31)

/-- sr_bits of R79: seed, tensor ID, step and element index. -/
def srBits (s : BitVec 64) (t n : BitVec 32) (e : Nat) : BitVec 32 :=
  let a := srMix (s ^^^ (t.setWidth 64 <<< 32) ^^^ n.setWidth 64)
  let b := srMix (a + BitVec.ofNat 64 (e / 2 + 1) * 0x9E3779B97F4A7C15#64)
  if e % 2 = 0 then b.setWidth 32 else (b >>> 32).setWidth 32

/-- The rounding mode of a descriptor for element `e` (R77, R80). -/
def rmodeAt (rmode : Nat) (seed : BitVec 64) (t n : BitVec 32) (e : Nat) : RMode :=
  match rmode with
  | 0 => .rne
  | 1 => .rtz
  | _ => .sr (srBits seed t n e).toNat

/-! ## Reading operands (R66, R68, R69) -/

/-- Multiply an element by an MX scale; 0xFF is NaN (R69). -/
def mxScale (s : Nat) (x : Elem) : Elem :=
  if s = 0xFF then .nan
  else match x with
    | .fin w => .fin { w with q := w.q * pow2 ((s : Int) - 127) }
    | other => other

/-- Element `e` of an operand that begins at byte 0 of `bs` (R66, R68, R69). -/
def readElem (c : Nat) (bs : List Byte) (e : Nat) : Elem :=
  if isMx c then
    match fpFormat c with
    | none => .nan
    | some f =>
      let g := (bs.drop (e / 1024 * mxGroupBytes c)).take (mxGroupBytes c)
      let b := e % 1024 / 32
      let scale := (g.getD b 0).toNat
      let data := unle ((g.drop (32 + b * (4 * elemBits c))).take (4 * elemBits c))
      mxScale scale (fpDecode f ((data >>> (e % 32 * elemBits c)) % 2 ^ elemBits c))
  else
    let n := elemBits c / 8
    let x := unle ((bs.drop (e * n)).take n)
    if isInt c then .int (signed (elemBits c) x)
    else match fpFormat c with
      | some f => fpDecode f x
      | none => .nan

/-- The first `n` elements of an operand. -/
def readElems (c : Nat) (bs : List Byte) (n : Nat) : List Elem := (List.range n).map (readElem c bs)

/-! ## Writing results (R70, R76, R78, R82, R83) -/

/-- Round a finite exact value into a scalar floating-point format: its code and the flags it sets
(R76, R78, R82, R90). `sz` is the sign a zero takes. -/
def writeFinite (f : FpFormat) (sat : Bool) (m : RMode) (x : Rat) (sz : Bool) : Nat × Flags :=
  let y := roundGrid (f.fbits + 1) (fpEmin f) m x
  let neg := decide (x < 0) || (decide (x = 0) && sz)
  let s := flag neg (f.ebits + f.fbits)
  if fpMax f < qabs y then
    let top := fpEncode f (wd (fpMax f))
    let code := if f.special = 1 && f.fbits ≠ 2 && !sat then fpInf f neg else s + top
    (code, { of := true, nx := true })
  else
    let lost := decide (y ≠ x)
    let tiny := decide (x ≠ 0) && decide (qabs x < pow2 (fpEmin f))
    (fpEncode f { q := y, neg0 := neg }, { nx := lost, uf := tiny && lost })

/-- Write a special value into a scalar floating-point format (R83). -/
def writeSpecial (f : FpFormat) : Elem → Nat × Flags
  | .inf neg => if f.special = 1 then (fpInf f neg, {}) else (fpNan f, { nv := true })
  | _ => (fpNan f, { nv := true })

/-- The scale exponent X of an MX block of exact values (R70 step 3). -/
def mxExponent (c : Nat) (xs : List Rat) : Int :=
  let amax := xs.foldl (fun a x => max a (qabs x)) 0
  if amax = 0 then -127
  else match fpFormat c with
    | none => -127
    | some f => max (-127) (min 127 (flog2 amax - flog2 (fpMax f)))

/-- Round a finite MX element, saturating (R70 step 4, R82). -/
def writeMxElem (f : FpFormat) (m : RMode) (x : Rat) (sz : Bool) : Nat × Flags :=
  writeFinite f true m x sz

end Sys2Proof.Machine
end

