-- ==== Sys2Proof/Machine/Flags.lean ====
section
/-! DEFINITION. Flags, the exponent histogram, and the writing of whole results with the flags they set
(R82 to R93, R120). -/

set_option Elab.async false

namespace Sys2Proof.Machine

/-- The OR of two sets of flags (R91). -/
def Flags.or (a b : Flags) : Flags :=
  { nv := a.nv || b.nv, of := a.of || b.of, uf := a.uf || b.uf, nx := a.nx || b.nx,
    bx := a.bx || b.bx, sa := a.sa || b.sa }

/-- FLAGS as the byte of R90. -/
def Flags.byte (f : Flags) : BitVec 8 :=
  BitVec.ofNat 8 (flag f.nv 0 + flag f.of 1 + flag f.uf 2 + flag f.nx 3 + flag f.bx 4 + flag f.sa 5)

/-- The flags of a byte (R90). -/
def Flags.ofByte (b : BitVec 8) : Flags :=
  { nv := b.getLsbD 0, of := b.getLsbD 1, uf := b.getLsbD 2, nx := b.getLsbD 3, bx := b.getLsbD 4,
    sa := b.getLsbD 5 }

/-- The histogram bin of an element as written (R92). -/
def histBin (hbase : Int) : Elem → Nat
  | .fin w =>
    if w.q = 0 then 0
    else
      let e := flog2 w.q
      if e < hbase then 1
      else if hbase + 59 < e then 62
      else (e - hbase).toNat + 2
  | .inf _ => 63
  | .nan => 63
  | .int _ => 0

/-- Add one to a bin, stopping at 0xFFFF_FFFF (R92). An empty list stands for 64 zeros. -/
def histAdd (h : List Nat) (bin : Nat) : List Nat :=
  (if h.isEmpty then List.replicate 64 0 else h).modify bin fun n => min (n + 1) 0xFFFFFFFF

/-- Count a list of written elements. -/
def histCount (hbase : Int) (h : List Nat) (es : List Elem) : List Nat :=
  es.foldl (fun acc e => histAdd acc (histBin hbase e)) h

/-- A result value on its way out: an exact finite value with the sign of a zero, or a special. -/
structure OutVal where
  special : Option Elem := none
  q       : Rat := 0
  neg0    : Bool := false
  flags   : Flags := {}
  deriving DecidableEq, Repr

/-- Write scalar floating-point results; element `i` is element `e0 + i` of its tensor. The bytes, the
flags, and the values as decoded from what was written (R76, R92). -/
def writeScalars (c : Nat) (sat : Bool) (mode : Nat → RMode) (e0 : Nat) (vs : List OutVal) :
    List Byte × Flags × List Elem :=
  match fpFormat c with
  | none => ([], {}, [])
  | some f =>
    let codes := vs.mapIdx fun i v =>
      let p := match v.special with
        | some s => writeSpecial f s
        | none => writeFinite f sat (mode (e0 + i)) v.q v.neg0
      (p.1, Flags.or p.2 v.flags)
    (codes.flatMap fun p => le (elemBits c / 8) p.1,
     codes.foldl (fun a p => Flags.or a p.2) {},
     codes.map fun p => fpDecode f p.1)

/-- Write one MX block of up to 32 values: its scale byte, its element codes and the flags (R70, R83). -/
def writeMxBlock (c : Nat) (mode : Nat → RMode) (e0 : Nat) (vs : List OutVal) :
    Nat × List Nat × Flags × List Elem :=
  let inFlags := vs.foldl (fun a v => Flags.or a v.flags) {}
  match fpFormat c with
  | none => (0, [], {}, [])
  | some f =>
    if vs.any fun v => v.special.isSome then
      (0xFF, vs.map fun _ => 0, Flags.or inFlags { nv := true }, vs.map fun _ => .nan)
    else
      let x := mxExponent c (vs.map (·.q))
      let ps := vs.mapIdx fun i v => writeMxElem f (mode (e0 + i)) (v.q / pow2 x) v.neg0
      ((x + 127).toNat, ps.map (·.1), ps.foldl (fun a p => Flags.or a p.2) inFlags,
       ps.map fun p => mxScale (x + 127).toNat (fpDecode f p.1))

/-- Pack element codes of `w` bits from bit 0 upward into bytes (R68). -/
def packCodes (w : Nat) (cs : List Nat) : List Byte :=
  le (cs.length * w / 8) (cs.reverse.foldl (fun acc c => acc * 2 ^ w + c) 0)

/-- Write one MX group of 1,024 values: the 32 scale bytes, then the element data (R68). -/
def writeMxGroup (c : Nat) (mode : Nat → RMode) (e0 : Nat) (vs : List OutVal) :
    List Byte × Flags × List Elem :=
  let blocks := (cut 32 32 vs).mapIdx fun b l => writeMxBlock c mode (e0 + 32 * b) l
  (blocks.map (fun p => BitVec.ofNat 8 p.1) ++ blocks.flatMap (fun p => packCodes (elemBits c) p.2.1),
   blocks.foldl (fun a p => Flags.or a p.2.2.1) {}, blocks.flatMap fun p => p.2.2.2)

/-- Write floating-point results in any format (R68, R70, R76). -/
def writeFloats (c : Nat) (sat : Bool) (mode : Nat → RMode) (e0 : Nat) (vs : List OutVal) :
    List Byte × Flags × List Elem :=
  if isMx c then
    let gs := (cut 1024 (vs.length / 1024 + 1) vs).mapIdx fun g l => writeMxGroup c mode (e0 + 1024 * g) l
    (gs.flatMap (·.1), gs.foldl (fun a p => Flags.or a p.2.1) {}, gs.flatMap fun p => p.2.2)
  else writeScalars c sat mode e0 vs

/-- Write integer results modulo the width, with OF where a value is out of range (R88). -/
def writeInts (c : Nat) (xs : List Int) : List Byte × Flags :=
  let w := elemBits c
  let out := fun (x : Int) => decide (x < -(2 : Int) ^ (w - 1)) || decide ((2 : Int) ^ (w - 1) ≤ x)
  (xs.flatMap fun x => le (w / 8) (unsigned w x), { of := xs.any out })

end Sys2Proof.Machine
end

