-- ==== Sys2Proof/Machine/Accum.lean ====
section
/-! DEFINITION. Accumulation: entry conversion, C64 and C64X, classes, levels, P22 passes, the canonical
tree, and selection (R72, R94 to R127). -/

set_option Elab.async false

namespace Sys2Proof.Machine

/-! ## Levels and classes (R101, R102, R104, R314) -/

/-- The level a chunk runs at, and whether its operation is marked CAP0 (R104, R314). -/
structure Lv where
  k    : Nat
  cap0 : Bool := false
  deriving DecidableEq, Repr

/-- T_k of R104: the largest finite word of levels 0 to 2, and the exhaustion threshold at level 3. -/
def threshold (k : Nat) : Rat := (2 - pow2 (-23)) * pow2 (127 + 16 * (k : Int))

/-- The largest finite word of a level (R104). -/
def maxWord (lv : Lv) : Rat :=
  if 3 ≤ lv.k then (2 - pow2 (-23)) * pow2 1023 else threshold lv.k

/-- A finite value overflows the level (R102). -/
def overflows (lv : Lv) (x : Rat) : Bool := decide (maxWord lv < qabs (roundWord x))

/-- The value of the overflow class of a level (R102): OVF, or the infinity of the sign, with OV set. -/
def overflowVal (lv : Lv) (neg : Bool) : Val :=
  if 3 ≤ lv.k ∨ lv.cap0 then { cls := if neg then .ninf else .pinf, ov := true }
  else { cls := .ovf, ov := true }

/-- The class of a combine whose operands are not both finite (R101). -/
def classCombine : Cls → Cls → Cls
  | .nan, _ => .nan
  | _, .nan => .nan
  | .pinf, .ninf => .nan
  | .ninf, .pinf => .nan
  | .pinf, _ => .pinf
  | _, .pinf => .pinf
  | .ninf, _ => .ninf
  | _, .ninf => .ninf
  | .ovf, _ => .ovf
  | _, .ovf => .ovf
  | .fin, .fin => .fin

/-! ## c64_add (R99) -/

/-- One rounded addition of words: nearest even on the word grid; an exact zero is −0 only from two −0. -/
def wadd (a b : Wd) : Wd :=
  let q := roundWord (a.q + b.q)
  { q, neg0 := decide (q = 0) && wsign a && wsign b }

/-- One rounded subtraction of words. -/
def wsub (a b : Wd) : Wd := wadd a (wneg b)

/-- two_sum of R99. -/
def twoSum (a b : Wd) : Wd × Wd :=
  let s := wadd a b
  let bv := wsub s a
  let av := wsub s bv
  let da := wsub a av
  let db := wsub b bv
  (s, wadd da db)

/-- c64_add of R99 on the words of two finite values. -/
def c64Words (xh xl yh yl : Wd) : Wd × Wd :=
  let (sh, se) := twoSum xh yh
  let (th, te) := twoSum xl yl
  let c := wadd se th
  let (vh, vl) := twoSum sh c
  let w := wadd te vl
  let (rh, rl) := twoSum vh w
  if rh.q = 0 then
    ({ q := 0, neg0 := (decide (xh.q = 0) && xh.neg0) && (decide (yh.q = 0) && yh.neg0) }, {})
  else (rh, rl)

/-- The exact value of the two words. -/
def vsum (v : Val) : Rat := v.hi.q + v.lo.q

/-- The combine of two values at a level: c64_add of finite values, else the class rule (R99, R101). -/
def combine (lv : Lv) (a b : Val) : Val :=
  let ov := a.ov || b.ov
  let nx := a.nx || b.nx
  let uf := a.uf || b.uf
  match a.cls, b.cls with
  | .fin, .fin =>
    let x := vsum a + vsum b
    if overflows lv x then { overflowVal lv (decide (x < 0)) with nx, uf }
    else
      let (h, l) := c64Words a.hi a.lo b.hi b.lo
      { cls := .fin, ov, hi := h, lo := l, nx := nx || decide (h.q + l.q ≠ x), uf }
  | ca, cb =>
    let c := classCombine ca cb
    { cls := c, ov := ov || decide (c = .ovf), nx, uf }

/-- An exact value rounded to nearest even into a word: a non-zero value that rounds to zero keeps its sign (R78); `neg`
is the sign of a zero. -/
def roundWd (x : Rat) (neg : Bool) : Wd :=
  let q := roundWord x
  { q, neg0 := decide (q = 0) && (if x = 0 then neg else decide (x < 0)) }

/-- An exact value rounded once to nearest even into C64: the high word, then the remainder (R72, R97), normalised: a
remainder that rounds up to half a spacing at an odd high word moves both words (R98). -/
def toC64 (x : Rat) (neg : Bool) : Val :=
  let h := roundWd x neg
  if h.q = 0 then { hi := h, nx := decide (x ≠ 0) }
  else
    let (h, l) := twoSum h (roundWd (x - h.q) false)
    { hi := h, lo := l, nx := decide (h.q + l.q ≠ x) }

/-- An exact finite value promoted at a level, or its overflow class: it overflows where the value, or the words it would
be held in, round beyond the level (R97, R98, R102). `neg` is the sign of a zero. -/
def toLevel (lv : Lv) (x : Rat) (neg : Bool) : Val :=
  let v := toC64 x neg
  if overflows lv x || overflows lv (vsum v) then overflowVal lv (decide (x < 0)) else v

/-- A finite input lies beyond the range it enters (R72, R104). DEDUCED (log entry 58): at levels 0 to 2 by its exact
magnitude, since R120 makes a replay the entry of inputs scaled by 2^(-16k) into the FP32 range, and R72 tests that range
before it rounds; at level 3 after rounding, as R104 says of a contribution. -/
def entersBeyond (lv : Lv) (x : Rat) : Bool := if 3 ≤ lv.k then overflows lv x else decide (maxWord lv < qabs x)

/-- Entry conversion of an input element (R72, R102). -/
def enter (lv : Lv) (fp64In : Bool) : Elem → Val
  | .nan => { cls := .nan }
  | .inf neg => { cls := if neg then .ninf else .pinf }
  | .int i => { hi := wd i }
  | .fin w =>
    if entersBeyond lv w.q then overflowVal lv (wsign w)
    else
      let v := toLevel lv w.q (wsign w)
      { v with uf := fp64In && decide (w.q ≠ 0) && v.cls == .fin && decide (v.hi.q = 0) }

/-! ## Products and P22 passes (R95 to R97, R102, R103, R172) -/

/-- The sign of an element. -/
def esign : Elem → Bool
  | .fin w => wsign w
  | .inf n => n
  | .nan => false
  | .int i => decide (i < 0)

/-- The product of two elements, exactly (R87, R102). -/
def eprod (a b : Elem) : Elem :=
  let neg := esign a != esign b
  match a, b with
  | .fin x, .fin y => let q := x.q * y.q; .fin { q, neg0 := decide (q = 0) && neg }
  | .fin x, .inf _ => if x.q = 0 then .nan else .inf neg
  | .inf _, .fin y => if y.q = 0 then .nan else .inf neg
  | .inf _, .inf _ => .inf neg
  | _, _ => .nan

/-- The class of a product at a level (R102), as a value without words. -/
def prodClass (lv : Lv) : Elem → Val
  | .fin w => if overflows lv w.q then overflowVal lv (wsign w) else {}
  | .inf neg => { cls := if neg then .ninf else .pinf }
  | _ => { cls := .nan }

/-- The exact value of a finite element; 0 for the others. -/
def evalue : Elem → Rat
  | .fin w => w.q
  | .int i => i
  | _ => 0

/-- A P22 pass of up to 32 products, promoted to C64 (R96, R97). -/
def p22Pass (lv : Lv) (ps : List Elem) : Val :=
  let cls := (ps.map (prodClass lv)).foldl (fun (a b : Val) =>
    { a with cls := classCombine a.cls b.cls, ov := a.ov || b.ov }) {}
  if cls.cls ≠ .fin then cls
  else if ps.all fun p => evalue p = 0 then
    { hi := { q := 0, neg0 := ps.all esign } }
  else
    let e := (ps.filter fun p => evalue p ≠ 0).foldl (fun (m : Option Int) p =>
      match m with | none => some (flog2 (evalue p)) | some x => some (max x (flog2 (evalue p)))) none
    let q := pow2 (e.getD 0 - 19)
    -- |p / q| is below 2²¹, so a grid of whole numbers is the grid of 64 bits whose spacing is 1
    let whole := ps.map fun p =>
      let t := qabs (evalue p / q)
      let a := t.floor
      let n : Int := if 1 / 2 < t - a ∨ (t - a = 1 / 2 ∧ a % 2 = 1) then a + 1 else a
      if evalue p < 0 then -n else n
    let sp := q * ((whole.foldl (· + ·) 0 : Int) : Rat)
    let moved := (ps.zip whole).any fun r => decide (evalue r.1 ≠ q * ((r.2 : Int) : Rat))
    let v := toLevel lv sp (decide (sp < 0))
    { v with nx := v.nx || moved }

/-- A direct product, or a product in wide mode, rounded once into C64 (R95, R103). -/
def directProduct (lv : Lv) (p : Elem) : Val :=
  match p with
  | .fin w => toLevel lv w.q (wsign w)
  | other => prodClass lv other

/-- Combine where an operand may be absent (R107). -/
def combineOpt {α : Type} (f : α → α → α) : Option α → Option α → Option α
  | some a, some b => some (f a b)
  | some a, none => some a
  | none, b => b

/-! ## The canonical tree (R106, R107) -/

/-- The depth of a group of n members: the smallest d of at least 1 with 2^d ≥ n (R106). -/
def treeDepth (n : Nat) : Nat := if n ≤ 2 then 1 else Nat.log2 (n - 1) + 1

/-- Node (l, j): a value placed there, else the combine of its two children (R106, R111). `at_` gives
what is placed at a node; the leaves are level 0. -/
def treeNode {α : Type} (f : α → α → α) (at_ : Nat → Nat → Option α) : Nat → Nat → Option α
  | 0, j => at_ 0 j
  | l + 1, j =>
    match at_ (l + 1) j with
    | some v => some v
    | none => combineOpt f (treeNode f at_ l (2 * j)) (treeNode f at_ l (2 * j + 1))

/-- Whether any node the tree forms below (l, j) has a property, (l, j) included (R119, R123). -/
def treeAny {α : Type} (p : α → Bool) (f : α → α → α) (at_ : Nat → Nat → Option α) : Nat → Nat → Bool
  | 0, j => ((at_ 0 j).map p).getD false
  | l + 1, j =>
    match at_ (l + 1) j with
    | some v => p v
    | none => ((treeNode f at_ (l + 1) j).map p).getD false ||
        treeAny p f at_ l (2 * j) || treeAny p f at_ l (2 * j + 1)

/-- The present ordinals of node (l, j) in a group of n (R106). -/
def nodeOrds (n l j : Nat) : List Nat :=
  (List.range (2 ^ l)).map (· + j * 2 ^ l) |>.filter (· < n)

/-- The node whose present ordinals are exactly a sorted list of ordinals, if there is one (R142): the
smallest level at which a block starting at or before the first covers them. -/
def alignedNode (n : Nat) (ords : List Nat) : Option (Nat × Nat) :=
  match ords with
  | [] => none
  | o :: _ =>
    ((List.range (treeDepth n + 1)).filterMap fun l =>
      if nodeOrds n l (o / 2 ^ l) = ords then some (l, o / 2 ^ l) else none).head?

/-- A running result combined with the next step's root (R108). -/
def combineSteps (lv : Lv) (running : Option Val) (root : Option Val) : Option Val :=
  combineOpt (combine lv) running root

/-! ## Selection (R124 to R127) -/

/-- A candidate: the element, its member ordinal and its position (R125, R126). -/
structure Cand where
  elem : Elem
  ord  : Nat
  idx  : Nat
  deriving DecidableEq, Repr

/-- The place of an element in the ranking of MAX (R124): a class and a value; greater ranks better. -/
def rankKey : Elem → Int × Rat
  | .nan => (4, 0)
  | .inf false => (3, 0)
  | .fin w => if 0 < w.q then (2, w.q) else if w.q = 0 then (if w.neg0 then (0, 0) else (1, 0)) else (-1, w.q)
  | .inf true => (-2, 0)
  | .int i => (0, i)

/-- Strictly better in the ranking of MAX, or of MIN when `min` is set (R124). -/
def ranksAbove (min : Bool) (a b : Elem) : Bool :=
  let ka := rankKey a
  let kb := rankKey b
  let gt := decide (kb.1 < ka.1) || (decide (ka.1 = kb.1) && decide (kb.2 < ka.2))
  let lt := decide (ka.1 < kb.1) || (decide (ka.1 = kb.1) && decide (ka.2 < kb.2))
  if min then (decide (a = .nan) && decide (b ≠ .nan)) || (lt && decide (b ≠ .nan)) else gt

/-- The better of two candidates for the same element; a tie goes to the lower ordinal (R125). -/
def better (min : Bool) (a b : Cand) : Cand :=
  if ranksAbove min a.elem b.elem then a
  else if ranksAbove min b.elem a.elem then b
  else if a.ord ≤ b.ord then a else b

/-- Candidate order of TOPK: rank, then lower index, then lower ordinal (R126). -/
def topBefore (a b : Cand) : Bool :=
  if ranksAbove false a.elem b.elem then true
  else if ranksAbove false b.elem a.elem then false
  else if a.idx ≠ b.idx then decide (a.idx < b.idx)
  else decide (a.ord ≤ b.ord)

/-- Insert a candidate into a ranked list. -/
def topInsert (c : Cand) : List Cand → List Cand
  | [] => [c]
  | x :: xs => if topBefore c x then c :: x :: xs else x :: topInsert c xs

/-- The first k candidates of two ranked lists (R126). -/
def topMerge (k : Nat) (a b : List Cand) : List Cand := (b.foldl (fun acc c => topInsert c acc) a).take k

/-! ## Results (R76, R85, R120) -/

/-- The exact value to be written for a value of a chunk at level k (R76, R85, R120), with the flags the accumulation gives
the element. DEDUCED (log entry 59): NX and UF record a rounding step of the delivered pass whatever class the element
ends in (R90, R91, R100), so R123 and R231 hold although a header carries one NX bit for all its elements. -/
def outVal (scale : Rat) (k : Nat) (exhausted : Bool) (v : Val) : OutVal :=
  let flags : Flags := { nx := v.nx, uf := v.uf, of := v.ov || exhausted }
  match v.cls with
  | .fin => { q := scale * pow2 (-(16 * (k : Int))) * vsum v, neg0 := decide (vsum v = 0) && v.hi.neg0, flags }
  | .pinf => { special := some (.inf false), flags }
  | .ninf => { special := some (.inf true), flags }
  | _ => { special := some .nan, flags := { flags with nv := true } }

/-- The smallest level at which no magnitude of a list exceeds T_k, or 3 (R123). -/
def levelFor (m : Rat) : Nat :=
  if m ≤ threshold 0 then 0 else if m ≤ threshold 1 then 1 else if m ≤ threshold 2 then 2 else 3

/-- A C64 or C64X value as stored (R74, R105): 8 bytes at level 0, 16 above; a value that is not finite
has words of its class (R101, R144). -/
def valBytes (k : Nat) (v : Val) : List Byte :=
  let f := if k = 0 then fp32 else fp64
  let n := if k = 0 then 4 else 8
  match v.cls with
  | .fin => le n (fpEncode f v.hi) ++ le n (fpEncode f v.lo)
  | .pinf => le n (fpInf f false) ++ le n 0
  | .ninf => le n (fpInf f true) ++ le n 0
  | .nan => le n (fpNan f) ++ le n 0
  | .ovf => le n 0 ++ le n 0

/-- The tag of a value (R144). -/
def valTag (v : Val) : Nat :=
  flag v.ov 3 + match v.cls with | .fin => 0 | .ovf => 1 | .pinf => 2 | .ninf => 3 | .nan => 4

/-- A word from its code in FP32 or FP64 (R74, R105). -/
def wordVal (f : FpFormat) (x : Nat) : Wd :=
  match fpDecode f x with
  | .fin w => w
  | _ => { q := Config.strayWord x }

/-- The class of a value by its high word, where no tag gives it (R98). -/
def wordCls (f : FpFormat) (x : Nat) : Cls :=
  match fpDecode f x with
  | .fin _ => .fin
  | .inf neg => if neg then .ninf else .pinf
  | _ => .nan

/-- The class of a tag (R144). -/
def tagCls (t : Nat) : Cls :=
  match if t < 5 then t else (Config.reservedTag t).val with
  | 0 => .fin
  | 1 => .ovf
  | 2 => .pinf
  | 3 => .ninf
  | _ => .nan

/-- A value from its stored words and its tag, or from the words alone where there is no tag map. -/
def valOfBytes (k : Nat) (bs : List Byte) (tag : Option Nat) (nx : Bool) : Val :=
  let f := if k = 0 then fp32 else fp64
  let n := if k = 0 then 4 else 8
  let word := fun (i : Nat) => unle ((bs.drop (i * n)).take n)
  let cls := match tag with | some t => tagCls (t % 8) | none => wordCls f (word 0)
  let ov := match tag with | some t => t.testBit 3 | none => false
  if cls = .fin then { hi := wordVal f (word 0), lo := wordVal f (word 1), ov, nx } else { cls, ov, nx }

/-- Some element asks for a tag map: it is not FIN, or has OV (R144). -/
def needTags (vs : List Val) : Bool := vs.any fun v => v.cls ≠ .fin || v.ov

/-- The tag map of values (R144). -/
def tagMap (vs : List Val) : List Byte :=
  (cut 2 vs.length vs).map fun p => BitVec.ofNat 8 ((p.map valTag).getD 0 0 + 16 * (p.map valTag).getD 1 0)

/-- The values of a payload (R144, R311). -/
def payloadVals (k n : Nat) (tagmap nx : Bool) (bs : List Byte) : List Val :=
  let w := if k = 0 then 8 else 16
  (List.range n).map fun i =>
    let tag := if tagmap then some (((bs.getD (n * w + i / 2) 0).toNat >>> (4 * (i % 2))) % 16) else none
    valOfBytes k ((bs.drop (i * w)).take w) tag nx

end Sys2Proof.Machine
end

