-- ==== Sys2Proof/Machine/Packets.lean ====
section
/-! DEFINITION. Packets as bytes: lengths, encoding, decoding, the two checks of R309, and the field
checks of R316 step 3 (R308 to R313, R337, R352, R353). -/

set_option Elab.async false

namespace Sys2Proof.Machine

/-! ## Types and lengths -/

/-- The TYPE code of an extension (R310). -/
def extType : Ext → Nat
  | .write .. => 0x01 | .read .. => 0x02 | .readRsp .. => 0x03 | .ack .. => 0x04
  | .node .partialNode _ => 0x05 | .node .raw _ => 0x06 | .node .result _ => 0x07
  | .resultMeta .. => 0x08 | .stream .. => 0x09 | .pizz _ => 0x0A | .ctrl .. => 0x0B
  | .tsync .. => 0x0C | .disc _ => 0x0D | .qdepth _ => 0x0F | .reserved t => t

/-- Bytes of an extension (R310, R352). -/
def extBytes : Ext → Nat
  | .node .. => 32 | .stream .. => 32 | .pizz _ => 32 | .ctrl .. => 32 | .tsync .. => 32 | .disc _ => 32
  | _ => 16

/-- HLEN of a packet with an extension (R308, R310). -/
def extHlen (x : Ext) : Nat := (32 + extBytes x) / 16

/-- Bytes of a packet: 16 × HLEN + PLEN (R308). -/
def pktLen (p : Packet) : Nat := 16 * p.hdr.hlen + p.payload.length

/-- A packet type that carries a PSN and is acknowledged (R310). -/
def sequenced : Ext → Bool
  | .ack .. | .tsync .. | .disc _ | .qdepth _ => false
  | _ => true

/-! ## Encoding -/

/-- The extension as bytes (R311, R353). -/
def extEncode : Ext → List Byte
  | .write off => le 6 off ++ le 10 0
  | .read off len rtag => le 6 off ++ le 4 len ++ le 4 rtag.toNat ++ le 2 0
  | .readRsp rtag st => le 4 rtag.toNat ++ le 1 st ++ le 11 0
  | .ack c k cr => le 4 c.toNat ++ le 4 k.toNat ++ le 4 cr ++ le 4 0
  | .node _ x => le 2 x.group ++ le 2 x.queue ++ le 4 x.dseq.toNat ++ le 4 x.chunk ++ le 4 x.eoff ++
      le 2 x.ecnt ++ le 2 x.stepno ++ le 2 x.nodej ++ le 1 x.nodel ++ le 1 x.pflags.toNat ++ le 2 x.rcnt ++ le 6 0
  | .resultMeta g q d f r => le 2 g ++ le 2 q ++ le 4 d.toNat ++ le 1 f.toNat ++ le 1 r ++ le 6 0
  | .stream g w k st ro => le 2 g ++ le 2 w ++ le 1 k ++ le 3 0 ++ le 4 st.toNat ++ le 6 ro ++ le 14 0
  | .pizz x => le 2 x.group ++ le 2 x.queue ++ le 4 x.dseq.toNat ++ le 1 x.sub ++ le 1 x.pflags.toNat ++
      le 1 x.nodel ++ le 1 0 ++ le 2 x.nodej ++ le 2 x.rcnt ++ le 2 x.ecnt ++ le 14 0
  | .ctrl g q d c a => le 2 g ++ le 2 q ++ le 4 d.toNat ++ le 8 a.toNat ++ le 1 c ++ le 15 0
  | .tsync sub sq r rq t2 t3 h => le 4 r ++ le 4 rq ++ le 8 t2 ++ le 8 t3 ++ le 4 sq.toNat ++ le 1 sub ++
      le 1 h ++ le 2 0
  | .disc x => le 1 x.sub ++ le 1 x.revs.toNat ++ le 1 x.agreed ++ le 1 x.portsel ++ le 2 x.iport ++
      le 2 x.assign ++ le 8 x.islandId.toNat ++ le 8 x.pegseq.toNat ++ le 1 x.skind ++
      le 1 (flag x.master 7 + x.cascId) ++ le 1 x.reason ++ le 5 0
  | .qdepth ds => ds.flatMap (le 2) ++ le 8 0
  | .reserved _ => le 16 0

/-- CLS of R308. -/
def clsByte (h : Hdr) : Nat := h.tc * 32 + h.color * 8 + flag h.retx 2

/-- Header bytes 0 to 19, up to the checks, with a given CLS and PLEN (R308). -/
def hdrHead (cls plen : Nat) (x : Ext) (h : Hdr) : List Byte :=
  le 1 h.ver ++ le 1 (extType x) ++ le 1 cls ++ le 1 h.hlen ++ le 2 plen ++ le 2 h.src ++ le 2 h.dst ++
  le 1 h.repoch.toNat ++ le 1 h.cepoch.toNat ++ le 4 h.psn.toNat ++ le 2 h.job ++ le 2 h.incarn.toNat

/-- PCRC: the CRC of the payload, 0 when there is none (R308, R309). -/
def pcrc (p : Packet) : Nat := if p.payload.isEmpty then 0 else (crc32 p.payload).toNat

/-- The extension with the fields that HCRC leaves out set to 0: RESID of TSYNC and byte 35 of DISC
(R309, R352). -/
def crcExt : Ext → Ext
  | .tsync sub sq _ rq t2 t3 h => .tsync sub sq 0 rq t2 t3 h
  | .disc x => .disc { x with portsel := 0 }
  | x => x

/-- HCRC of R309: header bytes 0 to 27 and 32 on, COLOR and RESID taken as 0. -/
def hcrc (p : Packet) : Nat :=
  (crc32 (hdrHead (clsByte { p.hdr with color := 0 }) p.payload.length p.ext p.hdr ++ le 4 (pcrc p) ++ le 4 0 ++
    extEncode (crcExt p.ext))).toNat

/-- A packet as bytes (R308). -/
def pktEncode (p : Packet) : List Byte :=
  hdrHead (clsByte p.hdr) p.payload.length p.ext p.hdr ++ le 4 (pcrc p) ++ le 4 0 ++ le 4 (hcrc p) ++
    extEncode p.ext ++ p.payload

/-! ## Decoding -/

/-- Read an extension of a TYPE; bytes are numbered from header byte 32. With it, the reserved bytes
taken together. -/
def extDecode (ty : Nat) (b : List Byte) : Option (Ext × Nat) :=
  let f := fld b
  let v32 := fun hi lo => BitVec.ofNat 32 (f hi lo)
  let node := fun k => some (Ext.node k
    { group := f 1 0, queue := f 3 2, dseq := v32 7 4, chunk := f 11 8, eoff := f 15 12, ecnt := f 17 16,
      stepno := f 19 18, nodej := f 21 20, nodel := f 22 22, pflags := BitVec.ofNat 8 (f 23 23),
      rcnt := f 25 24 }, f 31 26)
  match ty with
  | 0x01 => some (.write (f 5 0), f 15 6)
  | 0x02 => some (.read (f 5 0) (f 9 6) (v32 13 10), f 15 14)
  | 0x03 => some (.readRsp (v32 3 0) (f 4 4), f 15 5)
  | 0x04 => some (.ack (v32 3 0) (v32 7 4) (f 11 8), f 15 12)
  | 0x05 => node .partialNode
  | 0x06 => node .raw
  | 0x07 => node .result
  | 0x08 => some (.resultMeta (f 1 0) (f 3 2) (v32 7 4) (BitVec.ofNat 8 (f 8 8)) (f 9 9), f 15 10)
  | 0x09 => some (.stream (f 1 0) (f 3 2) (f 4 4) (v32 11 8) (f 17 12), f 7 5 + f 31 18)
  | 0x0A => some (.pizz
      { group := f 1 0, queue := f 3 2, dseq := v32 7 4, sub := f 8 8, pflags := BitVec.ofNat 8 (f 9 9),
        nodel := f 10 10, nodej := f 13 12, rcnt := f 15 14, ecnt := f 17 16 }, f 11 11 + f 31 18)
  | 0x0B => some (.ctrl (f 1 0) (f 3 2) (v32 7 4) (f 16 16) (BitVec.ofNat 64 (f 15 8)), f 31 17)
  | 0x0C => some (.tsync (f 28 28) (v32 27 24) (f 3 0) (f 7 4) (f 15 8) (f 23 16) (f 29 29), f 31 30)
  | 0x0D => some (.disc
      { sub := f 0 0, revs := BitVec.ofNat 8 (f 1 1), agreed := f 2 2, portsel := f 3 3 % 4, iport := f 5 4,
        assign := f 7 6, islandId := BitVec.ofNat 64 (f 15 8), pegseq := BitVec.ofNat 64 (f 23 16),
        skind := f 24 24, master := bit (f 25 25) 7, cascId := f 25 25 % 4, reason := f 26 26 },
      f 3 3 / 4 + f 25 25 % 128 / 4 + f 31 27)
  | 0x0F => some (.qdepth [f 1 0, f 3 2, f 5 4, f 7 6], f 15 8)
  | t => some (.reserved t, 0)

/-- Read a whole packet: the packet, and whether HCRC and PCRC pass. None where HLEN is too short to hold a header. -/
def pktDecode (bs : List Byte) : Option (Packet × Bool × Bool) :=
  let f := fld bs
  let hlen := f 3 3
  if hlen < 2 then none
  else
    match extDecode (f 1 1) ((bs.take (16 * hlen)).drop 32) with
    | none => none
    | some (x, rs) =>
      let hdr : Hdr :=
        { ver := f 0 0, tc := f 2 2 / 32, color := f 2 2 / 8 % 4, retx := bit (f 2 2) 2, hlen,
          src := f 7 6, dst := f 9 8, repoch := BitVec.ofNat 8 (f 10 10), cepoch := BitVec.ofNat 8 (f 11 11),
          psn := BitVec.ofNat 32 (f 15 12), job := f 17 16, incarn := BitVec.ofNat 16 (f 19 18),
          rsvd := f 2 2 % 4 + f 5 4 / 8192 + f 27 24 }
      let p : Packet := { hdr, ext := x, extRsvd := rs, payload := (bs.drop (16 * hlen)).take (f 5 4 % 8192) }
      let clear := (bs.take 28).modify 2 (fun b => b &&& 0xE7#8)
      let tail := (bs.take (16 * hlen)).drop 32
      let tail := match x with
        | .tsync .. => le 4 0 ++ tail.drop 4
        | .disc _ => tail.modify 3 (fun _ => 0#8)
        | _ => tail
      some (p, f 31 28 == (crc32 (clear ++ tail)).toNat, f 23 20 == pcrc p)

/-! ## The checks of R316 step 3 -/

/-- The classes a type may travel in (R310). -/
def classOk : Ext → Nat → Bool
  | .write _, tc => tc == 0 || tc == 1 || tc == 2 || tc == 4
  | .read .., tc | .readRsp .., tc => tc == 1 || tc == 2 || tc == 5
  | .ack .., tc => decide (tc ≤ 5)
  | .node .result _, tc | .resultMeta .., tc => tc == 2 || tc == 4
  | .node .., tc => tc == 2
  | .stream .., tc => tc == 3
  | .pizz _, tc => tc == 0
  | _, tc => tc == 1

/-- A type and its fields are allowed on a port of a protocol revision (R310, R312, R313). `casc` says
that the port is a cascade port (R337). -/
def revisionOk (rev : Nat) (casc : Bool) : Ext → Bool
  | .node .partialNode x => decide (1 < rev) || (x.pflags.toNat % 4 == 0 && x.pflags.toNat / 32 == 0)
  | .resultMeta .. | .stream .. => decide (1 < rev)
  | .ctrl _ _ _ c _ =>
    if c = 0x08 ∨ c = 0x09 ∨ c = 0x0A then casc && decide (1 < rev)
    else if c = 0x03 ∨ c = 0x05 then decide (1 < rev)
    else true
  | _ => true

/-- The fields of a DISC that R353 ties to its SUB, as an island receives it: AGREED of a REPLY or a CONFIRM is a revision or none,
ASSIGN stands in a REPLY, REASON in a QUAR is one of R355. -/
def discCodes (d : DiscExt) : Bool :=
  (if d.sub = 2 ∨ d.sub = 3 then decide (d.agreed ≤ 2) else d.agreed == 0) && (d.sub == 2 || d.assign == 0) &&
  if d.sub = 6 then decide (1 ≤ d.reason ∧ d.reason ≤ 8) else d.reason == 0

/-- CASCB of a DISC is 0 outside a cascade port (R353). -/
def cascbOk (casc : Bool) : Ext → Bool
  | .disc d => casc || (!d.master && d.cascId == 0)
  | _ => true

/-- Every enumerated field holds a defined value and every length lies in its range (R311, R312, R316,
R337, R353). -/
def fieldsOk (x : Ext) (plen : Nat) : Bool :=
  match x with
  | .write _ => decide (plen ≤ 4096)
  | .read _ len _ => decide (1 ≤ len ∧ len ≤ 4096) && plen == 0
  | .readRsp _ st => decide (st ≤ 1) && (st == 0 || plen == 0)
  | .ack .. => plen == 0
  | .node .partialNode n =>
    let w := if n.pflags.toNat % 4 = 0 then 8 else 16
    n.rcnt == 0 && decide (n.stepno ≤ 4095) &&
      plen == n.ecnt * w + (if n.pflags.getLsbD 6 then (n.ecnt + 1) / 2 else 0)
  | .node .raw n => n.pflags == 0 && n.nodel == 0 && decide (n.stepno ≤ 4095) && decide (1 ≤ n.rcnt)
  | .node .result n => n.pflags == 0 && n.nodel == 0 && n.rcnt == 0 && decide (n.stepno ≤ 4095)
  | .resultMeta _ _ _ f r => decide (r ≤ 3) && decide (f.toNat < 64) && plen == 1296
  | .stream _ _ k _ _ => decide (1 ≤ k ∧ k ≤ 3)
  | .pizz p => decide (1 ≤ p.sub ∧ p.sub ≤ 5) && decide (p.pflags.toNat < 32)
  | .ctrl _ _ _ c _ =>
    if c = 0x01 then plen == 64
    else if c = 0x08 then decide (plen ≤ 4096)
    else decide (2 ≤ c ∧ c ≤ 0x0A) && plen == 0
  | .tsync sub _ _ _ _ _ hops => decide (1 ≤ sub ∧ sub ≤ 2) && (sub == 2 || hops == 0) && plen == 0
  | .disc d => decide (1 ≤ d.sub ∧ d.sub ≤ 6) && decide (1 ≤ d.skind ∧ d.skind ≤ 2) &&
      decide (d.revs.toNat < 8) && plen == 0 && discCodes d
  | .qdepth ds => plen == 0 && ds.length == 4
  | .reserved _ => false

/-- An extension whose TYPE, SUB or CTYPE no table defines: step 3 of R316 drops it, in whichever row of its type brings it. -/
def unlisted : Ext → Bool
  | .pizz x => decide (x.sub = 0 ∨ 5 < x.sub)
  | .tsync sub .. => decide (sub = 0 ∨ 2 < sub)
  | .disc x => decide (x.sub = 0 ∨ 6 < x.sub)
  | .ctrl _ _ _ c _ => decide (c = 0 ∨ 0x0A < c)
  | .reserved _ => true
  | _ => false

/-- The reserved bits of CTRL ARG are 0, and its codes are defined (R259, R312, R337, R397). -/
def argOk : Ext → Bool
  | .ctrl _ _ _ c a =>
    match c with
    | 0x01 | 0x02 | 0x05 => a == 0
    | 0x03 => decide (a.toNat % 2 ^ 32 < 4)
    | 0x04 => decide (a.toNat % 65536 ≤ 9)
    | 0x06 => decide (a.toNat < 256 ∧ a.toNat ≤ 9)
    | 0x07 => decide (a.toNat ≤ 4)
    | 0x08 => decide (a.toNat < 2 ^ 40)
    | 0x0A => decide (a.toNat < 2 ^ 16) && decide (a.toNat % 256 ≤ 9) && decide (a.toNat / 256 ≤ 0x0F)
    | _ => true
  | _ => true

/-- Step 3 of R316 for an arrival on a port of a revision. -/
def formOk (rev : Nat) (casc : Bool) (a : Arrival) : Bool :=
  let p := a.pkt
  classOk p.ext p.hdr.tc && revisionOk rev casc p.ext && p.hdr.hlen == extHlen p.ext &&
  fieldsOk p.ext p.payload.length && argOk p.ext && cascbOk casc p.ext && decide (p.payload.length ≤ 4096) &&
  a.delivered == pktLen p && decide (p.hdr.color ≤ 2) && p.hdr.rsvd == 0 && p.extRsvd == 0

end Sys2Proof.Machine
end

