-- ==== Sys2Proof/Machine/Flits.lean ====
section
/-! DEFINITION. Cascade flits: their layout and checks, the packets in their payloads, alignment markers and lanes (R340 to
R350). -/

set_option Elab.async false

namespace Sys2Proof.Machine

/-! ## Flits (R345 to R347) -/

/-- A flit as read: the fields of FHDR and the payload (R345, R347). -/
structure Flit where
  ackseq  : BitVec 12
  fseq    : BitVec 12
  sop     : Nat
  cred    : Nat
  ccls    : Nat
  ftype   : Nat
  payload : List Byte
  deriving DecidableEq, Repr

/-- FHDR as a number (R347). -/
def flitHdr (f : Flit) : Nat :=
  f.ackseq.toNat * 2 ^ 52 + f.fseq.toNat * 2 ^ 40 + f.sop * 2 ^ 32 + f.cred * 2 ^ 16 + f.ccls * 2 ^ 13 + f.ftype * 16 + 2

/-- A flit as 272 bytes: header, payload, FCRC, reserved bytes, parity (R345, R346). -/
def flitBytes (f : Flit) : List Byte :=
  let body := le 8 (flitHdr f) ++ slice f.payload 0 240
  let data := body ++ le 4 (crc32 body).toNat ++ le 4 0
  data ++ rsParity data

/-- The fields of a flit's bytes; none for another VER, a reserved FTYPE or class, or reserved bits that are not 0. -/
def flitFields (b : List Byte) : Option Flit :=
  let h := fld b 7 0
  if h % 16 = 2 ∧ bits h 7 4 ≤ 2 ∧ bits h 12 8 = 0 ∧ bits h 15 13 ≤ 5 ∧ zeroBytes b 255 252 then
    some { ackseq := BitVec.ofNat 12 (h / 2 ^ 52), fseq := BitVec.ofNat 12 (h / 2 ^ 40), sop := bits h 39 32,
           cred := bits h 31 16, ccls := bits h 15 13, ftype := bits h 7 4, payload := slice b 8 240 }
  else none

/-- What the receiver makes of a flit's 272 bytes (R346): corrected by up to 8 bytes with FCRC right, the flit's fields and
the number of bytes corrected; none where it is bad. -/
def flitRead (b : List Byte) : Option (Option Flit × Nat) :=
  let good := fun (w : List Byte) => fld w 251 248 == (crc32 (w.take 248)).toNat
  ((rsCorrect b).find? fun w => good w.1).map fun w => (flitFields w.1, w.2)

/-! ## Packets in payloads (R348) -/

/-- Where the packets that start in each flit begin, and the flits that carry a run of packets back to back; the last is
filled up with zeros. SOP is the place of the first packet that begins in the flit, 0xFF for none (R347). -/
def flitsOf (pkts : List (List Byte)) : List (Nat × List Byte) :=
  let starts := (pkts.foldl (fun (acc : List Nat × Nat) p => (acc.1 ++ [acc.2], acc.2 + p.length)) ([], 0)).1
  let all := pkts.flatten
  ((cut 240 (all.length / 240 + 1) all).zipIdx).map fun c =>
    (match starts.find? fun x => decide (240 * c.2 ≤ x) && decide (x < 240 * c.2 + 240) with
     | some x => x - 240 * c.2
     | none => 0xFF, slice c.1 0 240)

/-- Bytes of the packet that begins a byte string, once its lengths have come: 16 × HLEN + PLEN (R308), at least a header. -/
def pktNeed (b : List Byte) : Option Nat :=
  if b.length < 6 then none else some (max 32 (16 * fld b 3 3 + fld b 5 4 % 8192))

/-- Cut whole packets off a byte string that starts where a packet begins; a zero byte there marks the rest as filler. -/
def pktCut : Nat → List Byte → List (List Byte) × List Byte
  | 0, b => ([], b)
  | n + 1, b =>
    match b with
    | [] => ([], [])
    | x :: _ =>
      if x = 0#8 then ([], [])
      else match pktNeed b with
        | none => ([], b)
        | some k =>
          if b.length < k then ([], b)
          else
            let (ps, rest) := pktCut n (b.drop k)
            (b.take k :: ps, rest)

/-! ## Markers and lanes (R340, R343, R346) -/

/-- The alignment marker of a lane (R346). -/
def markerBytes (n : Nat) : List Byte :=
  List.replicate 8 0x33#8 ++ List.replicate 8 0xCC#8 ++ [BitVec.ofNat 8 (n % 16 + 16 * (15 - n % 16))]

/-- The lane number of a marker, where the bytes are one. -/
def markerLane (b : List Byte) : Option Nat := (List.range 16).find? fun n => markerBytes n == b

/-- A cascade port's directions carry flits while all 16 lanes are ACTIVE (R342, R358): TX, RX. -/
def cascUp (k : Casc) : Bool × Bool := (k.lanes.all fun l => l.tx == .active, k.lanes.all fun l => l.rx == .active)

/-! ## Lane words (R339, R343, R345, R346) -/

/-- The bits of bytes in the order they travel on a lane: a byte's least significant bit first (DESIGN CHOICE, log entry 40). -/
def laneBits (bs : List Byte) : List Bool := bs.flatMap byteBits

/-- The `n` bytes that bits give. -/
def bitsBytes : Nat → List Bool → List Byte
  | 0, _ => []
  | n + 1, l => BitVec.ofNat 8 (((l.take 8).zipIdx.map fun b => if b.1 then 2 ^ b.2 else 0).sum) :: bitsBytes n (l.drop 8)

/-- The PAM4 level of two bits of a lane, the earlier one first (R339). -/
def pam4Level : Bool → Bool → Pam4
  | false, false => .m3
  | false, true => .m1
  | true, true => .p1
  | true, false => .p3

/-- The two bits of a level. -/
def pam4Bits : Pam4 → List Bool
  | .m3 => [false, false]
  | .m1 => [false, true]
  | .p1 => [true, true]
  | .p3 => [true, false]

/-- The levels of a lane's bits, in the order they travel (R339). -/
def pam4Levels : List Bool → List Pam4
  | a :: b :: r => pam4Level a b :: pam4Levels r
  | _ => []

/-- Bits under the additive scrambler of a lane, and the scrambler after them (R346). The same undoes it. -/
def scramble : List Bool → BitVec 31 → List Bool × BitVec 31
  | [], x => ([], x)
  | b :: r, x =>
    let y := scramStep x
    let t := scramble r y
    ((b != y.getLsbD 0) :: t.1, t.2)

/-- The alignment marker of a lane as levels. A marker is not scrambled (R346). -/
def markerWord (n : Nat) : List Pam4 := pam4Levels (laneBits (markerBytes n))

/-- The 17 bytes of a flit that travel on a lane: byte b on lane b mod 16 at place b / 16 (R345). -/
def laneBytes (b : List Byte) (n : Nat) : List Byte := (cut 16 17 b).map fun r => r.getD n 0

/-- A flit as the words of its lanes, each scrambled (R339, R345, R346). -/
def wireFlit (k : Casc) (b : List Byte) : List (List Pam4) × Casc :=
  let ws := k.lanes.zipIdx.map fun p => scramble (laneBits (laneBytes b p.2)) p.1.txScram
  (ws.map fun w => pam4Levels w.1,
    { k with txRun := k.txRun + 1, lanes := k.lanes.zipWith (fun l w => { l with txScram := w.2 }) ws })

/-- The markers of the transmit lanes that are ACTIVE; every scrambler starts again from its seed (R346). -/
def wireMarker (k : Casc) : List (List Pam4) × Casc :=
  (k.lanes.zipIdx.map fun p => if p.1.tx = .active then markerWord p.2 else [],
    { k with txRun := 0, lanes := k.lanes.zipIdx.map fun p => { p.1 with txScram := scramSeed p.2 } })

/-- Flits leave a link in order, after every 4,096 of them the markers (R346). -/
def wireAll (c : Nat) : List (List Byte) → Casc → List Out × Casc
  | [], k => ([], k)
  | b :: r, k =>
    let m := if 4096 ≤ k.txRun then wireMarker k else ([], k)
    let f := wireFlit m.2 b
    let t := wireAll c r f.2
    ((if 4096 ≤ k.txRun then [.marker c m.1] else []) ++ .flit c f.1 :: t.1, t.2)

/-- Each lane gives a word of 68 levels. -/
def wordsWhole (ws : List (List Pam4)) : Bool := decide (ws.length = 16) && ws.all fun w => decide (w.length = 68)

/-- The flit that the words of 16 lanes give: each descrambled, and the lanes ordered by the LANEID that each has read (R343, R345,
R346). -/
def laneFlit (k : Casc) (ws : List (List Pam4)) : List Byte × Casc :=
  let ds := k.lanes.zipWith (fun l w => (l.laneId, scramble (w.flatMap pam4Bits) l.scram)) ws
  let cols := (List.range 16).map fun n => ((ds.find? fun d => d.1 == n).map fun d => bitsBytes 17 d.2.1).getD []
  ((List.range 17).flatMap fun j => cols.map fun w => w.getD j 0,
    { k with lanes := k.lanes.zipWith (fun l d => { l with scram := d.2.2 }) ds })

/-! ## Sending (R323, R347 to R350) -/

/-- Credit units of a packet: 256 bytes each (R347). -/
def creditUnits (n : Nat) : Nat := (n + 255) / 256

/-- The first packet of a class that waits, if the link holds credit for the whole of it (R350). -/
def cascHead (k : Casc) (c : Nat) : Option (List Byte) :=
  match k.sendq.find? fun p => p.1 == c with
  | some p => if creditUnits p.2.length ≤ k.credit.getD c 0 then some p.2 else none
  | none => none

/-- The first packet of a class leaves the queue and takes its credit. -/
def cascTake (k : Casc) (c : Nat) (p : List Byte) : Casc :=
  { k with sendq := k.sendq.erase (c, p), credit := k.credit.modify c (· - creditUnits p.length) }

/-- The quantum of a class of the round robin (R323). -/
def quantum (c : Nat) : Nat := match c with | 2 => 26112 | 3 => 8704 | 4 => 8704 | _ => 4352

/-- The next packet by class (R323): TC0, then TC1, then the deficit round robin of TC2 to TC5. -/
def cascPick : Nat → Casc → Option (List Byte × Casc)
  | 0, _ => none
  | n + 1, k =>
    match cascHead k 0, cascHead k 1 with
    | some p, _ => some (p, cascTake k 0 p)
    | none, some p => some (p, cascTake k 1 p)
    | none, none =>
      let c := 2 + k.turn % 4
      match cascHead k c with
      | none => cascPick n { k with deficit := k.deficit.set (k.turn % 4) 0, turn := (k.turn + 1) % 4, fresh := true }
      | some p =>
        let d := k.deficit.getD (k.turn % 4) 0 + (if k.fresh then quantum c else 0)
        if p.length ≤ d then some (p, cascTake { k with deficit := k.deficit.set (k.turn % 4) (d - p.length), fresh := false } c p)
        else cascPick n { k with deficit := k.deficit.set (k.turn % 4) d, turn := (k.turn + 1) % 4, fresh := true }

/-- The packets that begin now, in the order they are sent: each that has credit, while flits of those before it leave room in the
replay buffer for `room` bytes more (R349, R350). -/
def cascPicks : Nat → Nat → Casc → List (List Byte) × Casc
  | 0, _, k => ([], k)
  | n + 1, room, k =>
    if room = 0 then ([], k)
    else match cascPick 9 k with
    | none => ([], k)
    | some (p, k) =>
      let (ps, k) := cascPicks n (room - p.length) k
      (p :: ps, k)

/-- The packets that begin now, with the flits to their last one, behind `n` flits that are formed already: they run back to back
(R348, R436). -/
def endsOf (n : Nat) (ps : List (List Byte)) : List TxEnd :=
  (ps.foldl (fun (acc : Nat × List TxEnd) p =>
    let sum := acc.1 + p.length
    (sum, acc.2 ++ [{ flits := n + (sum + 239) / 240, job := fld p 17 16, tc := fld p 2 2 / 32, bytes := p.length }])) (0, [])).2

/-- The class whose credit goes back next, and what is returned. -/
def owedNext (k : Casc) : Nat × Nat :=
  match (List.range 6).find? fun c => k.owed.getD c 0 ≠ 0 with
  | some c => (c, k.owed.getD c 0)
  | none => (0, 0)

/-- The credit just stated is no longer owed. -/
def owedGone (k : Casc) : Casc := { k with owed := k.owed.set (owedNext k).1 0, ackDue := false }

/-- FSEQ of the last DATA flit received good and in sequence (R347). -/
def lastSeq (k : Casc) : BitVec 12 := k.rxSeq - 1

/-- A DATA flit of the replay buffer as bytes, with the ACKSEQ of now. -/
def sentBytes (k : Casc) (f : SentFlit) : List Byte :=
  flitBytes { ackseq := lastSeq k, fseq := f.fseq, sop := f.sop, cred := f.cred, ccls := f.ccls, ftype := 1, payload := f.payload }

/-- DATA flits go out while the replay buffer has room (R349): the flits' bytes and the link after them. -/
def cascData : Nat → Nat → Casc → List (List Byte) × Casc
  | 0, _, k => ([], k)
  | n + 1, g, k =>
    match k.flitq with
    | [] => ([], k)
    | q :: rest =>
      if 512 ≤ k.unacked.length then ([], k)
      else
        let (cl, cr) := owedNext k
        let f : SentFlit := { fseq := k.txSeq, sop := q.1, ccls := cl, cred := cr, payload := q.2 }
        let k' := owedGone { k with flitq := rest, txSeq := k.txSeq + 1, unacked := k.unacked ++ [f],
                                    ackAt := if k.unacked.isEmpty then g else k.ackAt }
        let (bs, k'') := cascData n g k'
        (sentBytes k f :: bs, k'')

/-- An IDLE or NAK flit, with the credit that goes back next (R347). -/
def cascFiller (ftype : Nat) (k : Casc) : List Byte :=
  let (cl, cr) := owedNext k
  flitBytes { ackseq := lastSeq k, fseq := k.txSeq, sop := 0xFF, cred := cr, ccls := cl, ftype, payload := [] }

/-- IDLE flits while there is credit to return or a receipt to acknowledge. IDLE flits that would say nothing new are
left out (log entry 15). -/
def cascIdle : Nat → Casc → List (List Byte) × Casc
  | 0, k => ([], k)
  | n + 1, k =>
    if k.ackDue || k.owed.any (· ≠ 0) then
      let (bs, k') := cascIdle n (owedGone k)
      (cascFiller 0 k :: bs, k')
    else ([], k)

/-- What a link sends now: packets that have credit become flits, flits go out, and IDLE flits return the rest. -/
def cascSend (g : Nat) (k : Casc) : List (List Byte) × Casc :=
  if !(cascUp k).1 then ([], k)
  else
    let (ps, k) := cascPicks k.sendq.length (240 * (512 - k.unacked.length - k.flitq.length)) k
    let k := { k with flitq := k.flitq ++ (if ps.isEmpty then [] else flitsOf ps), ends := k.ends ++ endsOf k.flitq.length ps }
    let (ds, k) := cascData k.flitq.length g k
    let k := { k with ends := k.ends.map fun e => { e with flits := e.flits - ds.length } }
    let (is, k) := cascIdle 7 k
    (ds ++ is, k)

end Sys2Proof.Machine
end

