-- ==== Sys2Proof/Machine/Ops.lean ====
section
/-! DEFINITION. The shared operations: event counting, tables, sending, notices, the black box (R139,
R274, R317 to R334, R414 to R428, R436). -/

set_option Elab.async false

namespace Sys2Proof.Machine

/-! ## Counting (R420, R423, R425, R428) -/

/-- The context an occurrence carries (R428). -/
structure Ctx where
  job   : Option Nat := none
  group : Option Nat := none
  queue : Option Nat := none
  port  : Option Nat := none
  cls   : Option Nat := none
  deriving DecidableEq, Repr

/-- An event that only island-level counters count (R428, scope I). -/
def islandOnly (ev : Nat) : Bool := ev == 0x02 || (decide (0x42 ≤ ev) && decide (ev ≤ 0x44)) || ev == 0x48

/-- An event number of R428. -/
def eventDefined (ev : Nat) : Bool :=
  decide (ev ≤ 0x02) || (decide (0x08 ≤ ev) && decide (ev ≤ 0x0D)) || (decide (0x10 ≤ ev) && decide (ev ≤ 0x16)) ||
  (decide (0x18 ≤ ev) && decide (ev ≤ 0x1B)) || (decide (0x20 ≤ ev) && decide (ev ≤ 0x24)) ||
  (decide (0x28 ≤ ev) && decide (ev ≤ 0x3E)) || (decide (0x40 ≤ ev) && decide (ev ≤ 0x48)) ||
  (decide (0x50 ≤ ev) && decide (ev ≤ 0x52))

/-- The filter of a PMC_SEL passes an occurrence (R421, R423). -/
def filterPasses (sel : Word) (c : Ctx) : Bool :=
  let v := some (bits sel.toNat 23 8)
  match bits sel.toNat 29 27 with
  | 0 => true
  | 1 => c.job == v
  | 2 => c.group == v
  | 3 => c.queue == v
  | 4 => c.port == v
  | 5 => c.cls == v
  | _ => false

/-- Counter `i` counts event `ev` in a neck with a context (R420, R421, R425). -/
def counts (i : Nat) (p : Pmc) (ev neck : Nat) (c : Ctx) : Bool :=
  p.sel.getLsbD 31 && bits p.sel.toNat 7 0 == ev && !p.fresh && filterPasses p.sel c &&
  (decide (1024 ≤ i) || (i / 64 == neck && !islandOnly ev))

/-- Replace the counters. -/
def setPmc (t : Table Pmc) (s : State) : State := { s with obs := { s.obs with pmc := t } }

/-- `n` occurrences of an event. They are added to every counter that selects it (R423), unless counting
is stopped (R426). -/
def count (ev neck n : Nat) (c : Ctx) (s : State) : State :=
  if s.obs.freeze then s
  else
    let add := fun (e : Nat × Pmc) =>
      if counts e.1 e.2 ev neck c then (e.1, { e.2 with acc := e.2.acc + n }) else e
    setPmc (s.obs.pmc.map add) s

/-- The job that a JOB field names: 0 is no job (R308). -/
def jobCtx (j : Nat) : Option Nat := if j = 0 then none else some j

/-- Bytes read from HBM, written to HBM and sent by a neck's soundboard attachment, for a job (R428; which transfers they are is a
DESIGN CHOICE, log entry 71). -/
def countRead (neck n job : Nat) (s : State) : State := count 0x18 neck n { job := jobCtx job } s
def countWrite (neck n job : Nat) (s : State) : State := count 0x19 neck n { job := jobCtx job } s
def countCross (neck n job : Nat) (s : State) : State := count 0x1A neck n { job := jobCtx job } s

/-! ## Small readers -/

/-- The record of a bandwidth port. -/
def bwGet (s : State) (p : Nat) : BwPort := Table.get {} s.obs.bw p

/-- Change the bandwidth sums of a port. -/
def bwModify (p : Nat) (f : BwPort → BwPort) (s : State) : State :=
  { s with obs := { s.obs with bw := Table.modify {} s.obs.bw p f } }

/-- The port state of a port (R358). -/
def portGet (s : State) (p : Nat) : Port := Table.get {} s.ports p

/-- A port has left UP: where it leads to the time parent, the clock of R488 starts. -/
def parentLost (p : Nat) (s : State) : State :=
  if s.time.parent = some p then { s with time := { s.time with lostAt := some (s.time.lostAt.getD s.time.gcount) } } else s

/-- Replace the port state of a port. -/
def portPut (p : Nat) (x : Port) (s : State) : State := { s with ports := Table.put {} s.ports p x }

/-- The neck that serves a port (R9, R11). -/
def portNeck (p : Nat) : Nat := if p < 512 then p / 32 else 4 * (p - 512)

/-- The protocol revision of a port: the agreed one, or 2 where discovery has agreed none (R313). -/
def portRev (s : State) (p : Nat) : Nat := if (portGet s p).rev = 1 then 1 else 2

/-- The neck of an arrival's link (R9, R11). -/
def linkNeck : Link → Nat
  | .module m => m / 8
  | .cascade c => 4 * c

/-- A queue context. -/
def queueGet (s : State) (q : Nat) : QueueCtx := Table.get {} s.queues q

/-- Replace a queue context. -/
def queuePut (q : Nat) (x : QueueCtx) (s : State) : State := { s with queues := Table.put {} s.queues q x }

/-- A job (R62). -/
def jobGet (s : State) (j : Nat) : Job := Table.get {} s.jobs j

/-- Replace a job. -/
def jobPut (j : Nat) (x : Job) (s : State) : State := { s with jobs := Table.put {} s.jobs j x }

/-- A job is RUNNING: it has begun and has not been stopped. -/
def jobRunning (j : Job) : Bool := j.f0.isSome

/-- Some job runs on the island. -/
def anyRunning (s : State) : Bool := s.jobs.any fun j => jobRunning j.2

/-- Some accepted START_JOB waits for its start count (R51, R64). -/
def anyArmed (s : State) : Bool := s.jobs.any fun j => j.2.armed.isSome

/-- Frame length in force, in nanoseconds (R50). -/
def frameNs (s : State) : Nat := s.time.cur * 250

/-- A count is a frame tick (R50). -/
def isTick (s : State) (g : Nat) : Bool := g % frameNs s == 0

/-- The frame in progress (R50). -/
def frameNo (s : State) : Nat := s.time.gcount / frameNs s

/-- A free value is drawn: the next state. -/
def drawn (s : State) : State := { s with freeCtr := s.freeCtr + 1 }

/-- The island sets a bit in this nanosecond (R468). -/
def noteSet (b : HwSet) (s : State) : State := { s with ctl := { s.ctl with hwSet := b :: s.ctl.hwSet } }

/-- The island has set a bit in this nanosecond. -/
def setNow (b : HwSet) (s : State) : Bool := s.ctl.hwSet.contains b

/-- Set the REJECT bit with the address of the ignored write (R473). -/
def reject (addr : Nat) (s : State) : State :=
  noteSet .reject { s with ctl := { s.ctl with reject := true, rejAddr := BitVec.ofNat 32 addr } }

/-! ## Groups and entries (R136, R137, R139) -/

/-- The chord-table copy of an epoch: the current one, or the retiring one while it remains. -/
def chordAt (s : State) (e : BitVec 8) : Option ChordCopy :=
  if e = s.chord.epoch then some s.chord.cur
  else match s.chord.retiring with
    | some (c, e', _) => if e = e' then some c else none
    | none => none

/-- A group header in a copy. -/
def groupIn (c : ChordCopy) (g : Nat) : Group := Table.get {} c.groups g

/-- A group header in the current copy. -/
def groupGet (s : State) (g : Nat) : Group := groupIn s.chord.cur g

/-- The entries of a group in a copy, in index order. -/
def entriesIn (c : ChordCopy) (g : Nat) : List Entry :=
  let h := groupIn c g
  Table.range {} c.entries h.ebase h.ecnt

/-- The entries of a group in the copy of an epoch; none if that copy is gone. -/
def entriesAt (s : State) (e : BitVec 8) (g : Nat) : List Entry :=
  match chordAt s e with
  | some c => entriesIn c g
  | none => []

/-- MEMBER entries. -/
def members (es : List Entry) : List Entry := es.filter fun e => e.kind == 1

/-- DOWN_NODE and DOWN_RAW entries: the downstream islands. -/
def downs (es : List Entry) : List Entry := es.filter fun e => e.kind == 2 || e.kind == 3

/-- The UP entry, if the island is not the root. -/
def upEntry (es : List Entry) : Option Entry := es.find? fun e => e.kind == 4

/-- The chips of the downstream islands, each once (a chip may hold several DOWN_RAW runs, R137). -/
def downChips (es : List Entry) : List Nat := ((downs es).map (·.chip)).eraseDups

/-- The ports of an entry's run (R137). -/
def entryPorts (e : Entry) : List Nat := (List.range (e.prun + 1)).map (· + e.port)

/-- The ordinals an entry covers in a group of n (R135, R137). -/
def entryOrds (n : Nat) (e : Entry) : List Nat :=
  match e.kind with
  | 1 => [e.ord]
  | 2 => nodeOrds n e.lvl (e.ord / 2 ^ e.lvl)
  | 3 => (List.range e.cnt).map (· + e.ord)
  | _ => []

/-- The group an extension names, where it names one. -/
def extGroup : Ext → Option Nat
  | .node _ x => some x.group
  | .resultMeta g .. => some g
  | .stream g .. => some g
  | .pizz x => some x.group
  | .ctrl g .. => some g
  | _ => none

/-- The operation an extension names, where it names one: a queue state names none (R262, R312). -/
def extOp : Ext → Option (Nat × BitVec 32)
  | .node _ x => some (x.queue, x.dseq)
  | .resultMeta _ q d _ _ => some (q, d)
  | .pizz x => some (x.queue, x.dseq)
  | .ctrl _ q d c _ => if c = 7 then none else some (q, d)
  | _ => none

/-! ## Routing (R329, R330, R334) -/

/-- The routing table of an epoch: the current copy, or the retiring one. -/
def routesAt (s : State) (e : BitVec 8) : Table Route :=
  if e = s.routing.epoch then s.routing.cur
  else match s.routing.retiring with
    | some (c, e', _) => if e = e' then c else s.routing.cur
    | none => s.routing.cur

/-- VALID of a routing entry. -/
def Route.valid (r : Route) : Bool := r.w2.getLsbD 31

/-- SELF of a routing entry. -/
def Route.self (r : Route) : Bool := r.w2.getLsbD 30

/-- The valid ports of a routing entry, in order. -/
def Route.portList (r : Route) : List Nat :=
  if r.valid then (r.ports.filter fun p => p.getLsbD 15).map fun p => p.toNat % 1024 else []

/-- The routing entry of a chip in the current copy. -/
def routeGet (s : State) (c : Nat) : Route := Table.get {} s.routing.cur c

/-- The injection fraction of a port in sixteenths (R325). Cascade ports have no depth. -/
def injection (s : State) (p : Nat) : Nat :=
  if 512 ≤ p then 16
  else match Table.get (0, 0) s.net.depths p with
    | (d, at1) =>
      if at1 = 0 ∨ at1 + 1000 < s.time.gcount + 1 then 8
      else if d ≤ s.ctl.limits.thrLo then 16
      else if s.ctl.limits.thrHi ≤ d then 0
      else 16 * (s.ctl.limits.thrHi - d) / (s.ctl.limits.thrHi - s.ctl.limits.thrLo)

/-- The packet is throttled by R325: TC2 to TC5 other than ACKs. -/
def throttled (p : Packet) : Bool :=
  decide (2 ≤ p.hdr.tc) && (match p.ext with | .ack .. => false | _ => true)

/-- A port is UP (R357, R358). -/
def portUp (s : State) (p : Nat) : Bool := (portGet s p).state == 2

/-- The ports of a packet: those of its run, or of its routing entry in the epoch it is stamped with (R330, R332). -/
def packetPorts (s : State) (run : List Nat) (p : Packet) : List Nat :=
  if run.isEmpty then (Table.get {} (routesAt s p.hdr.repoch) p.hdr.dst).portList else run

/-- The ports a packet may leave on now: those that are UP, without those whose injection fraction is 0 (R325, R330,
R357). -/
def openPorts (s : State) (run : List Nat) (p : Packet) : List Nat :=
  (packetPorts s run p).filter fun x => portUp s x && !(throttled p && injection s x == 0)

/-- A packet has ports, and none of them is UP (R357). -/
def stranded (s : State) (run : List Nat) (p : Packet) : Bool :=
  !(packetPorts s run p).isEmpty && (packetPorts s run p).all fun x => !portUp s x

/-- The port that a packet is sprayed to (R330): the only one, or a free choice among several. -/
def pickPort (s : State) : List Nat → Option Nat
  | [] => none
  | [p] => some p
  | ps => ps[Config.spray s.freeCtr % ps.length]?

/-! ## Sending (R317, R319, R320, R330, R436) -/

/-- Change a cascade link. -/
def cascModify (c : Nat) (f : Casc → Casc) (s : State) : State := { s with casc := Table.modify {} s.casc c f }

/-- Flits of a link go out as the words of its lanes (R345, R346). -/
def wireSend (c : Nat) (bs : List (List Byte)) (s : State) : State :=
  let w := wireAll c bs (Table.get {} s.casc c)
  { s with casc := Table.put {} s.casc c w.2, out := s.out ++ w.1 }

/-- The markers of a link go out; the next are due 2,622.08 ns later (R346). -/
def markerSend (c due : Nat) (s : State) : State :=
  let w := wireMarker (Table.get {} s.casc c)
  { s with casc := Table.put {} s.casc c { w.2 with markAt := due + 65552 }, out := s.out ++ [.marker c w.1] }

/-- The last byte of a packet has passed the egress of a port: it is counted as sent (R428, R436). -/
def countSent (port job tc n : Nat) (s : State) : State :=
  let c : Ctx := { job := jobCtx job, port := some port, cls := some tc }
  bwModify port (fun b => if tc ≤ 1 then { b with txHi := b.txHi + n } else { b with txBulk := b.txBulk + n })
    (count 0x23 (portNeck port) n c (count 0x22 (portNeck port) 1 c s))

/-- A cascade link sends what it can: its flits go out (R348 to R350), and a packet whose last flit goes out is counted (R436). -/
def cascPump (c : Nat) (s : State) : State :=
  let (bs, k) := cascSend s.time.gcount (Table.get {} s.casc c)
  let s := wireSend c bs { s with casc := Table.put {} s.casc c { k with ends := k.ends.filter fun e => e.flits ≠ 0 } }
  (k.ends.filter fun e => e.flits == 0).foldl (fun s e => countSent (512 + c) e.job e.tc e.bytes s) s

/-- A packet passes the egress of a port: it is given the port's revision (R313) and logged; on a module it is counted (R428, R436),
on a cascade port queued for the link (R348). -/
def emit (port : Nat) (p : Packet) (s : State) : State :=
  let p := { p with hdr := { p.hdr with ver := if (match p.ext with | .disc _ => true | _ => false) then 2 else portRev s port } }
  let s := { s with out := s.out ++ [.pkt (some port) p] }
  if port < 512 then countSent port p.hdr.job p.hdr.tc (pktLen p) s
  else cascPump (port - 512) (cascModify (port - 512) (fun k => { k with sendq := k.sendq ++ [(p.hdr.tc, pktEncode p)] }) s)

/-- A packet is dropped in a neck because its entry names no port (R330, R420). -/
def noRoute (neck job : Nat) (s : State) : State := count 0x34 neck 1 { job := jobCtx job } s

/-- Send a packet of a neck out of one of the ports open to it; counted NO_ROUTE where its entry names none (R330), and not sent
where none is open. -/
def emitOn (neck : Nat) (run : List Nat) (p : Packet) (s : State) : State :=
  match pickPort s (openPorts s run p) with
  | some port => emit port p (drawn s)
  | none => if (packetPorts s run p).isEmpty then noRoute neck p.hdr.job s else s

/-- The flow to a chip in a class, with the first incarnation of R317 where there is none yet. -/
def txGet (s : State) (dst tc : Nat) : TxFlow :=
  (s.net.tx.find? fun f => f.dst == dst && f.tc == tc).getD
    { dst, tc, incarn := s.ctl.bootnonce.setWidth 16 }

/-- Replace a flow. -/
def txPut (f : TxFlow) (s : State) : State :=
  let others := s.net.tx.filter fun x => !(x.dst == f.dst && x.tc == f.tc)
  { s with net := { s.net with tx := f :: others } }

/-- Bytes a packet takes of its window: its payload, or in TC2 the bytes a READ asks for (R320, R321). -/
def windowBytes (p : Packet) : Nat :=
  match p.ext with
  | .read _ len _ => if p.hdr.tc = 2 then len else 0
  | _ => p.payload.length

/-- The READ of an RTAG waits for its window. -/
def readHeld (f : TxFlow) (tag : BitVec 32) : Bool :=
  f.held.any fun h => match h.pkt.ext with | .read _ _ t => decide (t = tag) | _ => false

/-- Bytes on a flow in the window that a packet of a group would join (R320, R321): the unacknowledged payload bytes, and in
TC2 those of the group alone, with the bytes of its READs that have left and are not answered. -/
def windowUsed (s : State) (f : TxFlow) (group : Option Nat) : Nat :=
  let mine := fun g => f.tc ≠ 2 || g == group
  let asked := fun (r : ReadReq) => r.chip == f.dst && r.tc == f.tc && f.tc == 2 && r.group == group && !readHeld f r.rtag
  ((f.unacked.filter fun u => mine u.group).map fun u => u.pkt.payload.length).sum + ((s.net.reads.filter asked).map (·.len)).sum

/-- The window of a class in bytes: the table of R320, CAPO_WIN of the group for TC2, and the last
CREDIT. -/
def windowSize (s : State) (f : TxFlow) (group : Option Nat) : Nat :=
  let lim := fun n => match f.credit with | some c => min n (c * 1024) | none => n
  match f.tc with
  | 0 => 8 * 1024
  | 1 => lim (32 * 1024)
  | 2 => (groupGet s (group.getD 0)).win * 1024
  | 3 => lim (1024 * 1024)
  | 4 => lim (512 * 1024)
  | _ => lim (256 * 1024)

/-- The window of a flow has room for a packet (R320). -/
def windowFits (s : State) (f : TxFlow) (group : Option Nat) (p : Packet) : Bool :=
  decide (windowUsed s f group + windowBytes p ≤ windowSize s f group)

/-- The window of a flow takes one more packet beside what is unacknowledged and what waits (R275, R320, R433). -/
def windowTakes (s : State) (f : TxFlow) (p : Packet) : Bool :=
  decide (windowUsed s f none + (f.held.map fun h => windowBytes h.pkt).sum + windowBytes p ≤ windowSize s f none)

/-- Some port is open to a packet. -/
def sendable (s : State) (h : Held) : Bool :=
  !(openPorts s h.ports { h.pkt with hdr := { h.pkt.hdr with repoch := s.routing.epoch } }).isEmpty

/-- A packet has a route at all: its run, or a VALID routing entry of its DST (R330). -/
def routed (s : State) (h : Held) : Bool := !h.ports.isEmpty || !(routeGet s h.pkt.hdr.dst).portList.isEmpty

/-- The operation that a purpose serves. -/
def purposeOp : Purpose → Option (Nat × BitVec 32)
  | .data q d _ | .ext q d _ | .record q d _ => some (q, d)
  | .posterExt q d | .posterRecord q d | .forward q d | .pizz q d | .traffic q d => some (q, d)
  | _ => none

/-- The operation that a packet serves. -/
def heldOp (h : Held) : Option (Nat × BitVec 32) := (extOp h.pkt.ext).orElse fun _ => purposeOp h.why

/-- The neck in which a packet originates (R420): that of the queue context of its operation (R241), else neck 0 (DESIGN CHOICE, log
entry 69). -/
def heldNeck (h : Held) : Nat := match heldOp h with | some k => k.1 % 16 | none => 0

/-- An operation needs a packet of a peer and class that cannot be sent: it is to be discarded (R330, R357). -/
def loseOp (k : Option (Nat × BitVec 32)) (peer tc : Nat) (path : Bool) (s : State) : State :=
  match k with
  | some k => { s with net := { s.net with lost := s.net.lost ++ [{ queue := k.1, dseq := k.2, peer, tc, path }] } }
  | none => s

/-- Count the bytes of a packet that goes out for an operation (R431). -/
def bytesSent (h : Held) (s : State) : State :=
  let n := 16 * extHlen h.pkt.ext + h.pkt.payload.length
  { s with ops := s.ops.map fun o => if heldOp h = some (o.queue, o.dseq) then { o with bytesOut := o.bytesOut + n } else o }

/-- Give a packet the next PSN of its flow, keep it until it is acknowledged, and send it (R317, R319), counted among the bytes of
its operation. A READ is kept in `net.reads` as well, where it is entered when the READ is made. -/
def launch (f : TxFlow) (h : Held) (s : State) : State :=
  let p := { h.pkt with hdr := { h.pkt.hdr with psn := f.psn, incarn := f.incarn, repoch := s.routing.epoch } }
  let u : Unacked := { psn := f.psn, at_ := s.time.gcount, pkt := p, why := h.why, group := h.group, ports := h.ports,
                       rto := s.ctl.limits.rto, tries := s.ctl.limits.tries }
  emitOn (heldNeck h) h.ports p (txPut { f with psn := f.psn + 1, unacked := f.unacked ++ [u] } (bytesSent h s))

/-- The operation that a packet of the island belongs to. -/
def packetOp (u : Unacked) : Option (Nat × BitVec 32) := (extOp u.pkt.ext).orElse fun _ => purposeOp u.why

/-- No packet of an operation is unacknowledged or held back (R150, R319). -/
def opAcked (s : State) (q : Nat) (d : BitVec 32) : Bool :=
  s.net.tx.all fun f => f.unacked.all (fun u => packetOp u != some (q, d)) && f.held.all fun h => heldOp h != some (q, d)

/-- A packet that is not sent at all: it has no route (R330), or it is one of an operation and no port of its own is UP
(R357). -/
def unsendable (s : State) (h : Held) : Bool :=
  !routed s h ||
    (stranded s h.ports { h.pkt with hdr := { h.pkt.hdr with repoch := s.routing.epoch } } && (heldOp h).isSome)

/-- A READ has failed before it left, or was refused (R272, R311, R321, R330, R376): the image or the source
is lost, or the operation is. -/
def readLost (r : ReadReq) (path : Bool) (s : State) : State :=
  match r.why with
  | .contribution q d .. => loseOp (some (q, d)) r.chip r.tc path s
  | .image _ => { s with net := { s.net with image := s.net.image.map fun i => { i with failed := true } } }
  | .peg _ => { s with peg := { s.peg with failed := true } }

/-- Drop a packet that is not sent: counted NO_ROUTE where it has no route, and the operation that needs it is lost, or what
its READ was for (R330). -/
def dropHeld (h : Held) (s : State) : State :=
  let path := routed s h
  let s := if path then s else noRoute (heldNeck h) h.pkt.hdr.job s
  match h.pkt.ext with
  | .read _ _ tag =>
    let gone := s.net.reads.filter fun r => decide (r.rtag = tag)
    let s := { s with net := { s.net with reads := s.net.reads.filter fun r => decide (r.rtag ≠ tag) } }
    gone.foldl (fun s r => readLost r path s) s
  | _ => loseOp (heldOp h) h.pkt.hdr.dst h.pkt.hdr.tc path s

/-- Send a sequenced packet: dropped where it cannot be sent at all (R330, R357); at once where the window and a port are open
and nothing waits before it; held back otherwise (R320, R325). -/
def send (h : Held) (s : State) : State :=
  let f := txGet s h.pkt.hdr.dst h.pkt.hdr.tc
  if unsendable s h then dropHeld h s
  else if f.held.isEmpty && windowFits s f h.group h.pkt && sendable s h then launch f h s
  else txPut { f with held := f.held ++ [h] } s

/-- Send what a flow holds back as far as its windows allow. TC2 has a window for each group, so a held
packet of one group does not stop those of another. A packet that has lost its route is dropped (R330). -/
def drainFlow (dst tc : Nat) : Nat → List Held → State → State
  | 0, _, s => s
  | _, [], s => s
  | n + 1, h :: hs, s =>
    let f := txGet s dst tc
    if !routed s h then drainFlow dst tc n hs (dropHeld h (txPut { f with held := f.held.erase h } s))
    else if windowFits s f h.group h.pkt && sendable s h then
      drainFlow dst tc n hs (launch { f with held := f.held.erase h } h s)
    else drainFlow dst tc n hs s

/-- Send what a flow holds back. -/
def drain (dst tc : Nat) (s : State) : State :=
  let hs := (txGet s dst tc).held
  drainFlow dst tc hs.length hs s

/-- A header of the island's own (R308): SRC its chip, COLOR 0 (R328), HLEN of the extension, REPOCH the current routing
epoch (R332). -/
def ownHdr (s : State) (tc dst : Nat) (x : Ext) (job : Nat) (cepoch : BitVec 8) : Hdr :=
  { ver := 2, tc, hlen := extHlen x, src := s.ctl.id.chip, dst, repoch := s.routing.epoch, cepoch, job,
    incarn := (txGet s dst tc).incarn }

/-- A WRITE of the island to a chip and offset by the routing table. -/
def sendWrite (tc dst off job : Nat) (payload : List Byte) (why : Purpose) (s : State) : State :=
  send { pkt := { hdr := ownHdr s tc dst (.write off) job 0, ext := .write off, payload }, why } s

/-- A packet of an operation sent on the ports of a chord entry (R330). -/
def sendEntry (e : Entry) (tc job group : Nat) (cepoch : BitVec 8) (x : Ext) (payload : List Byte) (why : Purpose)
    (s : State) : State :=
  send { pkt := { hdr := ownHdr s tc e.chip x job cepoch, ext := x, payload }, why, group := some group,
         ports := entryPorts e } s

/-- A CTRL message on an entry (R312). -/
def sendCtrl (e : Entry) (job group queue : Nat) (dseq : BitVec 32) (cepoch : BitVec 8) (ctype : Nat)
    (arg : BitVec 64) (payload : List Byte) (s : State) : State :=
  sendEntry e 1 job group cepoch (.ctrl group queue dseq ctype arg) payload .other s

/-- The same CTRL message on several entries in order. -/
def sendCtrls (es : List Entry) (job group queue : Nat) (dseq : BitVec 32) (cepoch : BitVec 8) (ctype : Nat)
    (arg : BitVec 64) (payload : List Byte) (s : State) : State :=
  es.foldl (fun s e => sendCtrl e job group queue dseq cepoch ctype arg payload s) s

/-- What waits on the acknowledgement of a READ. -/
def readPurpose : ReadWhy → Purpose
  | .contribution q d .. => .traffic q d
  | _ => .other

/-- A READ of the island (R311, R321): it takes the next RTAG, and waits for its READ_RSP in
`net.reads`. -/
def sendRead (tc dst off len job : Nat) (group : Option Nat) (ports : List Nat) (cepoch : BitVec 8)
    (why : ReadWhy) (s : State) : State :=
  let tag := s.net.rtag
  let x := Ext.read off len tag
  let h : Held := { pkt := { hdr := ownHdr s tc dst x job cepoch, ext := x }, why := readPurpose why, group, ports }
  let enter := fun (s : State) =>
    { s with net := { s.net with rtag := tag + 1, reads := s.net.reads ++ [{ rtag := tag, chip := dst, tc, len, group, why }] } }
  if unsendable s h then dropHeld h (enter s) else enter (send h s)

/-- READs that cover `len` bytes at an offset, each of at most 4,096 (R311). -/
def sendReads (tc dst off len job : Nat) (why : Nat → ReadWhy) (s : State) : State :=
  (List.range ((len + 4095) / 4096)).foldl (fun s i =>
    sendRead tc dst (off + 4096 * i) (min 4096 (len - 4096 * i)) job none [] 0 (why (4096 * i)) s) s

/-- WRITEs that cover a byte string at an offset, each of at most 4,096. -/
def sendWrites (tc dst off job : Nat) (bs : List Byte) (why : Purpose) (s : State) : State :=
  ((cut 4096 (bs.length / 4096 + 1) bs).zipIdx).foldl (fun s p =>
    sendWrite tc dst (off + 4096 * p.2) job p.1 why s) s

/-- Nothing of a purpose is unacknowledged or held back. -/
def purposeClear (s : State) (why : Purpose) : Bool :=
  s.net.tx.all fun f => f.unacked.all (fun u => decide (u.why ≠ why)) && f.held.all (fun h => decide (h.why ≠ why))

/-! ## Notices (R274 to R276) -/

/-- A notice (R274). `detail` holds bytes 51 to 32, lowest first. -/
structure Notice where
  kind   : Nat
  sev    : Nat
  queue  : Nat := 0
  group  : Nat := 0
  dseq   : BitVec 32 := 0
  detail : List Byte := []
  deriving DecidableEq, Repr

/-- A notice as bytes, with NSEQ, GCOUNT, ISLAND_ID and SUPP (R274). -/
def noticeBytes (n : Notice) (nseq : BitVec 32) (g : Nat) (id : BitVec 64) (supp : Nat) : List Byte :=
  le 1 2 ++ le 1 (nseq.toNat / 256 % 2 * 128 + n.sev) ++ le 2 n.kind ++ le 4 nseq.toNat ++ le 8 g ++ le 8 id.toNat ++
  le 2 n.queue ++ le 2 n.group ++ le 4 n.dseq.toNat ++ slice n.detail 0 20 ++ le 4 supp ++ le 8 0

/-- Send a notice's bytes to one manager, or drop it where the TC1 window to its chip is full (R275). -/
def noticeTo (bs : List Byte) (slot : Nat) (m : Manager) (s : State) : State :=
  let x := Ext.write (m.nqOff + 64 * slot)
  let p : Packet := { hdr := ownHdr s 1 m.chip x 0 0, ext := x, payload := bs }
  let f := txGet s m.chip 1
  if windowTakes s f p then send { pkt := p, why := .other } s
  else count 0x44 0 1 {} s

/-- Raise a notice for an event now: it is sent to every manager with the next NSEQ, or suppressed and
counted when the last of its KIND and QUEUE is less than 10,000 ns old (R275). -/
def notice (n : Notice) (s : State) : State :=
  let g := s.time.gcount
  let same := fun (x : Nat × Nat × Nat × Nat) => x.1 == n.kind && x.2.1 == n.queue
  let others := s.notices.last.filter fun x => !same x
  match s.notices.last.find? same with
  | some (k, q, at_, supp) =>
    if g < at_ + 10000 then { s with notices := { s.notices with last := (k, q, at_, supp + 1) :: others } }
    else fire supp others g s
  | none => fire 0 others g s
where
  /-- Send the notice with a suppressed count. -/
  fire (supp : Nat) (others : List (Nat × Nat × Nat × Nat)) (g : Nat) (s : State) : State :=
    let seq := s.notices.nseq
    let bs := noticeBytes n seq g s.ctl.id.islandId supp
    let s := { s with notices := { nseq := seq + 1, last := (n.kind, n.queue, g, 0) :: others } }
    (s.ctl.id.managers.filter (·.valid)).foldl (fun s m => noticeTo bs (seq.toNat % 256) m s) s

/-- The notice of a KIND and QUEUE raised now would be sent, not suppressed (R275). -/
def noticeSent (kind queue : Nat) (s : State) : Bool :=
  match s.notices.last.find? fun x => x.1 == kind && x.2.1 == queue with
  | some (_, _, at_, _) => decide (at_ + 10000 ≤ s.time.gcount)
  | none => true

/-! ## The black box (R414 to R416) -/

/-- LOC of a unit (R414). -/
def unitLoc : FUnit → BitVec 32
  | .none => 0
  | .fret i => BitVec.ofNat 32 (0x10000000 + i) | .string i => BitVec.ofNat 32 (0x20000000 + i)
  | .die i => BitVec.ofNat 32 (0x30000000 + i) | .neck i => BitVec.ofNat 32 (0x40000000 + i)
  | .module i => BitVec.ofNat 32 (0x50000000 + i) | .stack i => BitVec.ofNat 32 (0x60000000 + i)
  | .cascade i => BitVec.ofNat 32 (0x70000000 + i) | .port i => BitVec.ofNat 32 (0x80000000 + i)
  | .peer i => BitVec.ofNat 32 (0x90000000 + i)

/-- The sequence number after one, which skips 0 (R416). -/
def rseqNext (r : BitVec 32) : BitVec 32 := if r + 1 = 0 then 1 else r + 1

/-- Write a record into the ring, with the next RSEQ and the count (R415, R416). -/
def bbWrite (r : BBRec) (s : State) : State :=
  let q := s.fault.rseq
  let pos := q.toNat % 16384
  let r := { r with rseq := q, gcount := s.time.gcount }
  { s with fault := { s.fault with
      ring := Table.put none s.fault.ring pos (some r), rseq := rseqNext q,
      mirrorOnly := s.fault.mirrorOnly.filter (· ≠ pos) ++ (if s.fault.mirror then [] else [pos]), lostRecs := s.fault.lostRecs.filter (· ≠ pos) } }

/-- A record as 64 bytes (R414); every other field of a lost one reads 0 (R415). -/
def bbBytes (r : BBRec) : List Byte :=
  le 1 (if r.rkind = 0xFF then 0 else 2) ++ le 1 r.rkind ++ le 1 r.sev ++ le 1 r.domain ++ le 4 r.rseq.toNat ++ le 8 r.gcount ++ le 1 r.fcls ++ le 3 0 ++
  le 4 r.nseq.toNat ++ le 4 r.loc.toNat ++ le 8 r.addr.toNat ++ le 4 r.synd.toNat ++ le 4 r.dseq.toNat ++
  le 2 r.queue ++ le 2 r.group ++ le 2 r.job ++ le 1 r.status ++ le 1 0 ++ le 4 r.ops ++ le 8 r.xdata.toNat

/-- The code of an island state (R273). -/
def stateCode : IslState → Nat
  | .off => 0 | .reset => 1 | .tuning => 2 | .ready => 3 | .running => 4 | .dormant => 5 | .faulted => 6

/-- Change the island state, with the record of R415. -/
def setState (t : IslState) (s : State) : State :=
  if s.ctl.state = t then s
  else
    let x := BitVec.ofNat 64 (stateCode s.ctl.state + 256 * stateCode t)
    let s := { s with ctl := { s.ctl with state := t } }
    bbWrite { rkind := 4, rseq := 0, xdata := x } s

/-- READY or RUNNING, as jobs run or not (R382). -/
def settleState (s : State) : State :=
  match s.ctl.state with
  | .ready => if anyRunning s then setState .running s else s
  | .running => if anyRunning s then s else setState .ready s
  | _ => s

end Sys2Proof.Machine
end

