-- ==== Sys2Proof/Machine/Clock.lean ====
section
/-! DEFINITION. One nanosecond of disciplined time: the global counter and the performance counters (R40 to
R42, R47, R423 to R425). It is what a step does while no command waits (log entry 1). -/

set_option Elab.async false

namespace Sys2Proof.Machine

/-- The greatest global count (R42). -/
def gcountTop : Nat := 2 ^ 64 - 1

/-- The global counter after one nanosecond: stopped outside TUNING to FAULTED, held during acquisition,
stopped at its limit, else 1 more (R40, R42, R47). -/
def clockTick (t : Time) : Time :=
  if !t.running then t
  else if 0 < t.hold then { t with hold := t.hold - 1 }
  else if t.gcount < gcountTop then { t with gcount := t.gcount + 1 }
  else t

/-- What a counter holds after a nanosecond in which `acc` occurrences fell (R423, R424). -/
def pmcFold (p : Pmc) : Pmc :=
  let v := p.value.toNat + p.acc
  { p with value := BitVec.ofNat 48 v, ovf := p.ovf || decide (2 ^ 48 ≤ v), acc := 0, fresh := false }

/-- The counter wraps in this nanosecond and is to report it (R424). -/
def pmcReports (p : Pmc) : Bool := p.sel.getLsbD 30 && !p.ovf && decide (2 ^ 48 ≤ p.value.toNat + p.acc)

/-- PMC_OVF of a counter (R424). -/
def pmcNotice (i : Nat) (p : Pmc) : Notice := { kind := 0x28, sev := 1, detail := le 2 i ++ le 1 (bits p.sel.toNat 7 0) }

/-- Add the nanosecond's occurrences into every counter and send what wraps report. -/
def pmcFoldAll (s : State) : State :=
  let due := s.obs.pmc.filter fun e => pmcReports e.2
  let s := setPmc ((s.obs.pmc.map fun e => (e.1, pmcFold e.2)).filter fun e => decide (e.2 ≠ {})) s
  due.foldl (fun s e => notice (pmcNotice e.1 e.2) s) s

/-- NANOSECONDS occurs once in every neck, and once for the island (R428). -/
def countNanosecond (s : State) : State :=
  let tick := fun (e : Nat × Pmc) =>
    if counts e.1 e.2 0x01 (e.1 / 64) {} then (e.1, { e.2 with acc := e.2.acc + 1 }) else e
  if s.obs.freeze then s else setPmc (s.obs.pmc.map tick) s

/-- The markers of a link that are due leave it, while a transmit lane of it is ACTIVE (R340, R346). -/
def markerTick (s : State) (c : Nat) : State :=
  let k : Casc := Table.get {} s.casc c
  if (k.lanes.any fun l => l.tx == .active) && decide (k.markAt ≤ 25 * s.time.gcount) then markerSend c k.markAt s else s

/-- What a register write leaves for the next nanosecond: the transport limits hold from now on (R478), and no bit has been set in it
(R468). -/
def limitsTake (c : Ctl) : Ctl := { c with limits := { rto := c.e2eRto, tries := c.e2eTries, thrLo := c.thrLo, thrHi := c.thrHi }, hwSet := [] }

/-- One nanosecond passes; it is counted where the global counter moves (R428). -/
def nanosecond (s : State) : State :=
  if !s.time.running then s
  else
    let t := clockTick s.time
    let s' := { s with time := t, ctl := limitsTake s.ctl }
    (List.range 4).foldl markerTick (pmcFoldAll (if t.gcount = s.time.gcount then s' else countNanosecond s'))

end Sys2Proof.Machine
end

