-- ==== Sys2Proof/Machine/Counters.lean ====
section
/-! DEFINITION. Sync counters and waiters: the shared operations of 11_synchronization (R279, R284 to
R291, R293, R296, R298, R299). -/

set_option Elab.async false

namespace Sys2Proof.Machine

/-- A sync counter. -/
def ctrGet (s : State) (c : Nat) : Ctr := Table.get {} s.ctrs c

/-- Replace a sync counter. -/
def ctrPut (c : Nat) (x : Ctr) (s : State) : State := { s with ctrs := Table.put {} s.ctrs c x }

/-- The largest counter value (R279). -/
def ctrMax : BitVec 64 := 0xFFFFFFFFFFFFFFFF#64

/-- SFLAGS of R288. -/
def ctrFlags (x : Ctr) : Nat := flag x.sat 7 + flag x.err 6 + flag x.fail 5

/-- A release record (R288). -/
def releaseBytes (status reason ctr job : Nat) (tag : BitVec 32) (x : Ctr) (gcount : Nat) : List Byte :=
  le 1 2 ++ le 1 status ++ le 1 (ctrFlags x) ++ le 1 reason ++ le 2 ctr ++ le 2 job ++ le 4 tag.toNat ++ le 4 0 ++
  le 8 x.value.toNat ++ le 8 gcount

/-- Send a release record to a chip at RET_OFF (R287, R289). -/
def sendRelease (status reason ctr job : Nat) (tag : BitVec 32) (x : Ctr) (chip retOff : Nat) (s : State) : State :=
  sendWrite 1 chip retOff job (releaseBytes status reason ctr job tag x s.time.gcount) .other s

/-- A WAIT for a value is satisfied by a counter (R287). -/
def satisfied (exp : BitVec 64) (x : Ctr) : Bool := x.sat || decide (exp.toNat ≤ x.value.toNat)

/-- Release every held waiter that passes a test with a status and reason, in the order they came (R289,
R291), and free their entries (R290). -/
def releaseIf (p : Waiter → Bool) (status reason : Nat) (s : State) : State :=
  let go := s.waiters.filter p
  let s := { s with waiters := s.waiters.filter fun w => !p w }
  go.foldl (fun s w => sendRelease status reason w.ctr w.job w.tag (ctrGet s w.ctr) w.chip w.retOff s) s

/-- Release the waiters of a counter that its value now satisfies (R287). -/
def releaseSatisfied (c : Nat) (s : State) : State :=
  let x := ctrGet s c
  releaseIf (fun w => w.ctr == c && satisfied w.exp x) 0 0 s

/-- The counter after an ADD (R284, R286): unchanged once SAT is set. -/
def addValue (x : Ctr) (d : BitVec 64) : Ctr :=
  if x.sat then x
  else if ctrMax.toNat < x.value.toNat + d.toNat then { x with value := ctrMax, sat := true }
  else { x with value := x.value + d, sat := decide (x.value + d = ctrMax) }

/-- The counter after a SET (R284 to R286): only a greater operand replaces the value. -/
def setValue (x : Ctr) (v : BitVec 64) : Ctr :=
  if x.sat then x
  else if x.value.toNat < v.toNat then { x with value := v, sat := decide (v = ctrMax) } else x

/-- Put a changed counter in place and release what it satisfies (R284, R287). -/
def ctrChange (c : Nat) (x : Ctr) (s : State) : State := releaseSatisfied c (ctrPut c x s)

/-- SYNC_DROP: an update or message dropped (R283, R286). -/
def syncDrop (c job : Nat) (s : State) : State := count 0x45 (c % 16) 1 { job := some job } s

/-- The notice of R302 about a counter. -/
def syncNotice (kind sev ctr job chip : Nat) (operand : List Byte) : Notice :=
  { kind, sev, detail := le 2 ctr ++ le 2 job ++ le 2 chip ++ operand }

/-- An ADD from a chip applied in the counter's neck (R284, R286, R298). -/
def syncAddApply (c job chip : Nat) (d : BitVec 64) (s : State) : State :=
  let x := ctrGet s c
  if x.err ∨ x.sat then syncDrop c job s
  else
    let s := ctrChange c (addValue x d) s
    if ctrMax.toNat < x.value.toNat + d.toNat then notice (syncNotice 0x20 2 c job chip []) s else s

/-- A SET from a chip applied in the counter's neck (R284 to R286, R298). -/
def syncSetApply (c job chip : Nat) (v : BitVec 64) (s : State) : State :=
  let x := ctrGet s c
  if x.err ∨ x.sat then syncDrop c job s
  else if v.toNat < x.value.toNat then
    notice (syncNotice 0x21 2 c job chip (le 8 v.toNat)) (count 0x46 (c % 16) 1 { job := some job } s)
  else ctrChange c (setValue x v) s

/-- A CLRFAIL applied in the counter's neck (R284, R298). -/
def syncClrfailApply (c job : Nat) (s : State) : State :=
  let x := ctrGet s c
  if x.err then syncDrop c job s else ctrPut c { x with fail := false } s

/-- The waiters held in a neck (R290). -/
def neckWaiters (s : State) (neck : Nat) : Nat := (s.waiters.filter fun w => w.ctr % 16 == neck).length

/-- A WAIT that has passed its checks (R287, R290, R298): released at once where it is satisfied, where
the counter's storage has failed or where its neck's array is full; held otherwise. -/
def syncWaitApply (c job chip retOff tmo : Nat) (tag : BitVec 32) (exp : BitVec 64) (s : State) : State :=
  let x := ctrGet s c
  if x.err then sendRelease 1 0x12 c job tag x chip retOff s
  else if satisfied exp x then sendRelease 0 0 c job tag x chip retOff s
  else if 1024 ≤ neckWaiters s (c % 16) then
    sendRelease 1 0x11 c job tag x chip retOff (count 0x47 (c % 16) 1 { job := some job } s)
  else
    let expiry := if tmo = 0 then none else some (s.time.gcount + 1000 * tmo)
    { s with waiters := s.waiters ++ [{ ctr := c, job, exp, tag, chip, retOff, expiry }] }

/-- One completion count on a counter (R293, R294): it adds 1, and sets FAIL for a status other than OK. -/
def completionCount (c : Nat) (ok : Bool) (s : State) : State :=
  let x := ctrGet s c
  if x.err then s
  else ctrChange c { addValue x 1 with fail := x.fail || !ok } s

/-- Counters of a job lose value, state bits and owner (R296 step 5). -/
def clearCounters (p : Ctr → Bool) (s : State) : State :=
  { s with ctrs := s.ctrs.filter fun e => !p e.2 }

/-- A counter's storage fails (R298): ERR is set and its waiters are released. -/
def ctrLost (c : Nat) (s : State) : State :=
  let x := ctrGet s c
  match x.owner with
  | none => s
  | some job =>
    let s := ctrPut c { x with err := true } s
    let s := releaseIf (fun w => w.ctr == c) 1 0x12 s
    notice { kind := 0x22, sev := 2, detail := le 2 c ++ le 2 job } s

/-- The job takes a counter over with value 0 and no state bit, unless it owns it already (R280). -/
def takeCounter (job c : Nat) (s : State) : State :=
  if (ctrGet s c).owner = some job then s else ctrPut c { owner := some job } s

end Sys2Proof.Machine
end

