-- ==== Sys2Proof/Machine/Life.lean ====
section
/-! DEFINITION. The life of an operation: final status, completion records, reports, completion counts,
discards and faults (R33, R61, R258 to R262, R293, R294, R392 to R398, R411, R430, R431). -/

set_option Elab.async false

namespace Sys2Proof.Machine

/-! ## Operations in flight -/

/-- Operations that have no member records (R260): WGRAD, MASKSTASH, PHASE_FENCE and UPDATE without PUSH. -/
def recordless (z : ZsiOp) : Bool :=
  z.opcode == 0x10 || z.opcode == 0x11 || z.opcode == 0x14 ||
  (match z.extra with | .update u => !u.push | _ => false)

/-- This is the operation of a queue and DSEQ. -/
def opIs (q : Nat) (d : BitVec 32) (o : Op) : Bool := o.queue == q && o.dseq == d

/-- The operation of a queue and DSEQ. -/
def opFind (s : State) (q : Nat) (d : BitVec 32) : Option Op := s.ops.find? (opIs q d)

/-- Change the operation of a queue and DSEQ. -/
def opModify (q : Nat) (d : BitVec 32) (f : Op → Op) (s : State) : State :=
  { s with ops := s.ops.map fun o => if opIs q d o then f o else o }

/-- Remove the operation of a queue and DSEQ. -/
def opRemove (q : Nat) (d : BitVec 32) (s : State) : State :=
  { s with ops := s.ops.filter fun o => !opIs q d o }

/-- The context an operation's events carry (R428). -/
def opCtx (o : Op) : Ctx := { job := some o.job, group := some o.group, queue := some o.queue }

/-- The chord epoch of an operation: the one it opened under, or the current one while it has not opened
(R109). -/
def opEpoch (s : State) (o : Op) : BitVec 8 := if o.fixed then o.cepoch else s.chord.epoch

/-- The entries of the operation's group in the copy it opened under (R109, R140). -/
def opEntries (s : State) (o : Op) : List Entry := entriesAt s (opEpoch s o) o.group

/-- The group header of the operation in that copy. -/
def opGroup (s : State) (o : Op) : Group :=
  match chordAt s (opEpoch s o) with
  | some c => groupIn c o.group
  | none => {}

/-- An operation is still being worked on: no final status yet. -/
def opLive (o : Op) : Bool := o.status.isNone

/-- A chunk of an operation has work left. -/
def chunkActive (c : ChunkSt) : Bool := c.state ≠ .done

/-- A tile step of a WGRAD has begun on this island: a slice has been committed, or tiles or chunk tiles are here. -/
def tilesBegun (o : Op) : Bool :=
  (o.chunks.any fun c => c.state == .committed || c.state == .done || c.state == .replayPending) || !o.tiles.isEmpty ||
    !o.pieces.isEmpty

/-- An operation has work in flight (R31): a WGRAD from its first tile step on, any other from the tick that opens its
first chunk, or its first input (DEDUCED, log entry 37). -/
def inFlightWork (o : Op) : Bool := if o.zop.opcode = 0x10 then tilesBegun o else o.fixed

/-- The planned chunks of an operation that have work left: all that its ZSI plans until its descriptor comes (R257). -/
def plansLeft (o : Op) : List ChunkPlan := if o.opened then (o.chunks.filter chunkActive).map (·.plan) else o.zop.chunks

/-- The accumulator tiles that an operation takes, as ranges of tile IDs (R15, R186). -/
def opTileIds (z : ZsiOp) : List (Nat × Nat) :=
  match z.extra with
  | .wgrad g => g.tileIds
  | _ => z.chunks.flatMap (·.tiles)

/-- The strings that an operation's planned chunks use or its tiles stand in (R20, R403). -/
def opStrings (z : ZsiOp) : List Nat :=
  z.chunks.flatMap (·.strings) ++ (opTileIds z).flatMap fun r => (List.range ((r.2 + 127) / 128 - r.1 / 128)).map (· + r.1 / 128)

/-- A WGRAD has tiles among tile IDs: they belong to it from its start to its end (R15). -/
def wgradHas (ids : Nat × Nat) (o : Op) : Bool := o.zop.opcode == 0x10 && rangesShare (opTileIds o.zop) [ids]

/-- An operation has work in flight in a string (R31): a chunk with work left is planned there, or the string holds tiles of a
WGRAD. -/
def usesString (k : Nat) (o : Op) : Bool :=
  inFlightWork o && ((plansLeft o).any (·.strings.contains k) || wgradHas (128 * k, 128 * k + 128) o)

/-- The tile IDs of a compute die (R15, R20). -/
def dieTileIds (d : Nat) : List (Nat × Nat) := [(2048 * d, 2048 * d + 2048)]

/-- An operation holds resources in a compute die (R389): inputs of a chunk with work left that is planned there are staged, or
tiles of it stand there. -/
def usesDie (k : Nat) (o : Op) : Bool :=
  ((plansLeft o).any fun p => (p.dies.contains k || p.strings.any fun t => t / 16 == k) && o.pieces.any fun x => x.chunk == p.chunk) ||
    (!o.tiles.isEmpty && rangesShare (opTileIds o.zop) (dieTileIds k))

/-- A plan works in a neck. -/
def plansIn (k : Nat) (p : ChunkPlan) : Bool :=
  p.neck == k || p.necks.contains k || p.dies.any (fun d => d / 4 == k) || p.strings.any (fun t => t / 64 == k) ||
    p.nodes.any fun x => x.neck == k

/-- An operation has work in flight in a neck (R31): a chunk with work left is planned there, or a WGRAD has tiles or, until its
completion, slices there. -/
def usesNeck (k : Nat) (o : Op) : Bool :=
  inFlightWork o && ((plansLeft o).any (plansIn k) || wgradHas (8192 * k, 8192 * k + 8192) o ||
    (o.zop.opcode == 0x10 && o.zop.chunks.any (plansIn k)))

/-- An operation holds a tile in a string: one of its 128 tile IDs (R20), with something in it (R195, R401). -/
def holdsTilesIn (k : Nat) (o : Op) : Bool := !o.tiles.isEmpty && rangesShare (opTileIds o.zop) [(128 * k, 128 * k + 128)]

/-! ## Schedules (R134, R248) -/

/-- The ZSI in a slot, if one is loaded. -/
def zsiGet (s : State) (slot : Nat) : Option ZsiSlot := Table.get none s.zsis slot

/-- An operation of a loaded ZSI by slot and OPID. -/
def zsiOp (s : State) (slot opid : Nat) : Option ZsiOp :=
  (zsiGet s slot).bind fun z => z.body.ops.find? fun o => o.opid == opid

/-- The slot and list of operations that a queue starts (R248): those of the ZSI of its job that lists
it. -/
def queueList (s : State) (q : Nat) : Option (Nat × List Nat) :=
  let job := (queueGet s q).job
  s.zsis.findSome? fun e =>
    match e.2 with
    | some z => if z.job = job then (z.body.queues.find? fun l => l.1 == q).map fun l => (e.1, l.2) else none
    | none => none

/-- The slot and OPID that the next descriptor of a queue must name (R248). The list is cyclic. -/
def nextOp (s : State) (q : Nat) : Option (Nat × Nat) :=
  (queueList s q).bind fun l => (l.2[(queueGet s q).listPos % l.2.length]?).map fun o => (l.1, o)

/-- `a` comes before `b` in a queue's DSEQ order (R294). -/
def dseqBefore (a b : BitVec 32) : Bool := decide (a ≠ b) && decide ((b - a).toNat < 2 ^ 31)

/-- The operation that a queue's list gives a DSEQ that has not started here (R248), with its slot. -/
def listedOp (s : State) (q : Nat) (d : BitVec 32) : Option (Nat × ZsiOp) :=
  let x := queueGet s q
  (queueList s q).bind fun l =>
    (l.2[(x.listPos + (d - x.startNext).toNat) % l.2.length]?).bind fun opid => (zsiOp s l.1 opid).map fun z => (l.1, z)

/-! ## Operations whose descriptor has not come (R257) -/

/-- The descriptor of a queue and DSEQ has not started here yet. -/
def notStarted (s : State) (q : Nat) (d : BitVec 32) : Bool :=
  let x := queueGet s q
  x.state ≠ .absent && !(opFind s q d).any (·.opened) && !dseqBefore d x.startNext && !x.done.contains d

/-- A descriptor whose fields are not known yet. -/
def blankDesc (d : BitVec 32) (slot : Nat) (z : ZsiOp) : Desc :=
  { ver := 2, opcode := z.opcode, rmode := 0, satfin := false, entsr := false, hbase := 0, dseq := d, opid := z.opid,
    sched := slot, group := z.group, fmt := z.fmt, ofmt := z.ofmt, operand := 0, scale := 0, tensorId := 0, step := 0,
    elemBase := 0, srcOff := 0, dstOff := 0 }

/-- An operation whose descriptor has not come yet, known from its queue's list (R248, R257): inputs that arrive
before it wait with it. -/
def shellOp (s : State) (q : Nat) (d : BitVec 32) : Option Op :=
  let x := queueGet s q
  if !notStarted s q d then none
  else (listedOp s q d).map fun (slot, z) =>
    { queue := q, dseq := d, group := z.group, job := x.job, slot, zop := z, desc := blankDesc d slot z,
      home := x.home, cepoch := s.chord.epoch, startAt := s.time.gcount }

/-- The operation has ended before its descriptor came. -/
def endedEarly (s : State) (q : Nat) (d : BitVec 32) : Bool := s.earlyEnds.any fun e => e.queue == q && decide (e.dseq = d)

/-- The operation of a queue and DSEQ as this island knows it: in flight or over, or from its queue's list while its descriptor has
not come (R141, R257); none where it has ended before that. -/
def knownOp (s : State) (q : Nat) (d : BitVec 32) : Option Op :=
  (opFind s q d).orElse fun _ => if endedEarly s q d then none else shellOp s q d

/-! ## Records and reports of the members and islands below (R260) -/

/-- The DOWN entries of a group that name an island, once per chip: what goes to an island that holds several DOWN_RAW entries goes
there once, on the ports of the first (DESIGN CHOICE, log entry 65). -/
def downOnce (es : List Entry) : List Entry :=
  (downs es).foldl (fun acc e => if acc.any (fun x => x.chip == e.chip) then acc else acc ++ [e]) []

/-- The members an operation has records for on this island, and delivers to (R216, R260). -/
def recordEntries (z : ZsiOp) (es : List Entry) : List Entry :=
  match z.extra with
  | .wpull w => (members es).filter fun e => !w.single || e.ord == w.root
  | _ => if recordless z then [] else members es

/-- The records and reports an operation waits for under a chord copy. -/
def withEntries (es : List Entry) (o : Op) : Op :=
  { o with records := (recordEntries o.zop es).map fun e => { chip := e.chip, base := e.base },
           downs := (downOnce es).map fun e => (e.chip, false) }

/-! ## Completion records (R258, R259, R261) -/

/-- PHASE of a DSEQ in a ring of 2^log2sz entries (R245). -/
def dseqPhase (d : BitVec 32) (log2sz : Nat) : Nat := d.toNat / 2 ^ log2sz % 2

/-- Ring slot of a DSEQ (R245). -/
def dseqSlot (d : BitVec 32) (log2sz : Nat) : Nat := d.toNat % 2 ^ log2sz

/-- A completion record as 32 bytes (R258). -/
def completionBytes (status : Nat) (flags : BitVec 8) (phase : Nat) (xv : Bool) (rlvl queue group : Nat)
    (dseq : BitVec 32) (detail : Word) (result gcount : Nat) : List Byte :=
  le 1 2 ++ le 1 status ++ le 1 flags.toNat ++ le 1 (phase * 128 + flag xv 6 + rlvl) ++ le 2 queue ++ le 2 group ++
  le 4 dseq.toNat ++ le 4 detail.toNat ++ le 8 result ++ le 8 gcount

/-- The replay map as 1,024 bytes: 2 bits for each chunk (R120). -/
def rmapBytes (m : List Nat) : List Byte := slice (packCodes 2 (m ++ List.replicate ((4 - m.length % 4) % 4) 0)) 0 1024

/-- The histogram as 256 bytes (R92). -/
def histBytes (h : List Nat) : List Byte := slice (h.flatMap (le 4)) 0 256

/-- An extension area of 2,048 bytes (R261): histogram, replay map, epoch record (R220). -/
def extensionBytes (o : Op) : List Byte :=
  let ep := match o.epochRec with
    | some (a, b) => le 4 a.toNat ++ le 4 b.toNat ++ le 1 (flag o.skipped 0) ++ le 7 0
    | none => le 16 0
  histBytes o.hist ++ rmapBytes o.rmap ++ slice ep 0 16 ++ List.replicate 752 0

/-- The record of an operation for a queue (R258). DESIGN CHOICE (log entry 65): an island other than the home island puts the count
at which it writes a member's record in GCOUNT, since nothing that reaches it carries the home island's. -/
def opRecord (s : State) (q : QueueCtx) (o : Op) (xv : Bool) : List Byte :=
  completionBytes (o.status.getD 0) o.flags.byte (dseqPhase o.dseq q.log2sz) xv o.rlvl o.queue o.group o.dseq
    o.detail 0 s.time.gcount

/-! ## Sampling (R430, R431, R433) -/

/-- A value that stops at the top of a field of `n` bytes. -/
def sat (n x : Nat) : Nat := min x (256 ^ n - 1)

/-- Chunks, or slices, that an island has run of an operation (R431): a collective's chunk counts once, whatever stages it has. -/
def chunksRan (o : Op) : Nat :=
  let done := o.chunks.filter fun c => c.state == .done
  let staged := done.filter fun c => c.plan.kind == 0 || (c.plan.kind == 4 && c.plan.hi == 0)
  (done.length - staged.length) + (staged.map (·.plan.chunk)).eraseDups.length

/-- A sampling record (R431). -/
def sampleBytes (s : State) (o : Op) : List Byte :=
  let sseq := s.obs.sseq.toNat
  let lg := bits s.obs.smpCtl.toNat 27 23
  let g := s.time.gcount
  let since := fun (t : Option Nat) => sat 4 ((t.getD o.startAt) - o.startAt)
  le 1 2 ++ le 3 0 ++ le 1 (o.status.getD 0) ++ le 1 o.flags.byte.toNat ++
  le 1 (flag o.home 7 + sseq / 2 ^ lg % 2 * 64 + o.rlvl) ++ le 1 o.zop.opcode ++ le 8 s.ctl.id.islandId.toNat ++
  le 2 o.queue ++ le 2 o.group ++ le 4 o.dseq.toNat ++ le 4 sseq ++ le 8 o.startAt ++ le 4 (since o.firstAt) ++
  le 4 (since o.lastAt) ++ le 4 (sat 4 (g - o.startAt)) ++ le 2 (sat 2 (o.chunks.map (·.slips)).sum) ++
  le 2 (sat 2 o.replays) ++ le 4 (chunksRan o) ++
  le 4 (sat 4 (o.bytesIn / 1024)) ++ le 4 (sat 4 (o.bytesOut / 1024))

/-- Whether an operation of a queue and DSEQ is selected now (R430). -/
def sampleSelects (s : State) (q : Nat) (d : BitVec 32) : Bool :=
  let c := s.obs.smpCtl
  let want := bits c.toNat 12 0
  c.getLsbD 31 && (want == 0 || want == q) && d.toNat % 2 ^ bits c.toNat 20 16 == bits s.obs.smpSoff.toNat 15 0

/-- Write the sampling record of an operation, or drop it where the window is full; SSEQ moves on either
way (R431 to R433). -/
def writeSample (o : Op) (s : State) : State :=
  let chip := bits s.obs.smpHi.toNat 31 16
  let base := s.obs.smpLo.toNat + bits s.obs.smpHi.toNat 15 0 * 2 ^ 32
  let bs := sampleBytes s o
  let off := base + 64 * (s.obs.sseq.toNat % 2 ^ bits s.obs.smpCtl.toNat 27 23)
  let s := { s with obs := { s.obs with sseq := s.obs.sseq + 1 } }
  let x := Ext.write off
  let p : Packet := { hdr := ownHdr s 1 chip x 0 0, ext := x, payload := bs }
  let f := txGet s chip 1
  if windowTakes s f p then send { pkt := p, why := .other } s else count 0x48 0 1 {} s

/-! ## Final status (R61, R398) -/

/-- An operation with its final status (R61): with one other than OK its FLAGS, RLVL, replay map and histogram are 0 (R91, R93). -/
def withStatus (status : Nat) (detail : Word) (o : Op) : Op :=
  let o := { o with status := some status, detail, release := decide (status ≠ 0) }
  if status = 0 then o else { o with flags := {}, rlvl := 0, rmap := [], hist := [] }

/-- Give an operation its final status, unless it has one (R61, R398): it is counted, its work stops,
its claims wait for the tick that releases them, and its sampling record is written. -/
def opFinish (q : Nat) (d : BitVec 32) (status : Nat) (detail : Word) (s : State) : State :=
  match opFind s q d with
  | none => s
  | some o =>
    if o.status.isSome then s
    else
      let o' := withStatus status detail o
      let s := opModify q d (fun _ => o') s
      let s := if o.opened then count (if status = 0 then 0x08 else 0x09) (q % 16) 1 (opCtx o) s else s
      if o.sampled then writeSample o' s else s

/-- QUEUE_ERROR and the causes of ERRCAUSE that set a queue to ERROR (R262, R483). The queue keeps moving
its tail; nothing more starts. -/
def queueToError (q cause : Nat) (d : BitVec 32) (s : State) : State :=
  let x := queueGet s q
  match x.state with
  | .idle | .active => queuePut q { x with state := .error, errCause := cause, errDseq := d } s
  | _ => s

/-- The code of a queue state (R312 CTYPE 0x07). -/
def queueCode : QState → Nat
  | .absent => 0 | .idle => 1 | .active => 2 | .error => 3 | .draining => 4

/-- Relay a queue's state down the tree (R262): from the home island to every island below. DSEQ carries the next DSEQ that the
queue starts, and with ERROR that of QERRDSEQ (DESIGN CHOICE, log entry 11). -/
def relayState (q : Nat) (s : State) : State :=
  let x := queueGet s q
  if x.home then
    sendCtrls (downOnce (entriesIn s.chord.cur x.group)) x.job x.group q (if x.state = .error then x.errDseq else x.startNext) s.chord.epoch 0x07
      (BitVec.ofNat 64 (queueCode x.state)) [] s
  else s

/-- Set a queue to ERROR on its home island and tell the others (R262). -/
def queueError (q cause : Nat) (d : BitVec 32) (s : State) : State :=
  let s' := queueToError q cause d s
  if (queueGet s q).state = (queueGet s' q).state then s' else relayState q s'

/-! ## Records and reports (R150, R260, R261, R293, R294) -/

/-- Move a member's record as far as acknowledgements allow: data, extension area, record (R260, R261). -/
def memberStep (q : QueueCtx) (o : Op) (i : Nat) (s : State) : State :=
  match o.records[i]? with
  | none => s
  | some r =>
    let slot := dseqSlot o.dseq q.log2sz
    let put := fun (st : RecStage) (s : State) =>
      opModify o.queue o.dseq (fun o => { o with records := o.records.modify i fun r => { r with stage := st } }) s
    let record := fun (s : State) =>
      put .record (sendWrite 1 r.chip (r.base + q.mcqOff + 32 * slot) o.job (opRecord s q o q.mext)
        (.record o.queue o.dseq i) s)
    match r.stage with
    | .waiting =>
      if !purposeClear s (.data o.queue o.dseq i) then s
      else if q.mext then
        put .ext (sendWrites 1 r.chip (r.base + q.mxOff + 2048 * slot) o.job (extensionBytes o)
          (.ext o.queue o.dseq i) s)
      else record s
    | .ext => if purposeClear s (.ext o.queue o.dseq i) then record s else s
    | .record => if purposeClear s (.record o.queue o.dseq i) then put .written s else s
    | .written => s

/-- Every member record of an operation is written and acknowledged. -/
def recordsWritten (o : Op) : Bool := o.records.all fun r => r.stage == .written

/-- Every DOWN entry that names an island has reported (R260). -/
def downsReported (o : Op) : Bool := o.downs.all (·.2)

/-- The poster's record is written and acknowledged. -/
def posterWritten (o : Op) : Bool := match o.poster with | some r => r.stage == .written | none => true

/-- Nothing is left to write for an operation on this island (R293). -/
def recordsDone (o : Op) : Bool :=
  o.status.isSome && recordsWritten o && (if o.home then posterWritten o else o.reported)

/-- The relay of an earlier descriptor of the queue that the list binds to the operation's counter has yet to come (R242, R294).
PREFETCH bounds how far the home island is ahead of an island (R244). -/
def relayAwaited (s : State) (o : Op) : Bool :=
  let x := queueGet s o.queue
  !o.home && dseqBefore x.startNext o.dseq &&
  (List.range (min (o.dseq - x.startNext).toNat 256)).any fun i =>
    let d := x.startNext + BitVec.ofNat 32 i
    !x.done.contains d && (listedOp s o.queue d).any fun z => z.2.ccounter == o.zop.ccounter

/-- The operation's completion is counted now: everything that R293 waits for is acknowledged, the poster's record on the home
island and the island's own member records on another, and every earlier started descriptor of the queue bound to the counter is
counted (R294). -/
def countDue (s : State) (o : Op) : Bool :=
  !o.counted && o.status.isSome && recordsWritten o && (!o.home || posterWritten o) && !relayAwaited s o &&
  s.ops.all fun p => !(p.queue == o.queue && p.opened && !p.counted && p.zop.ccounter == o.zop.ccounter &&
    dseqBefore p.dseq o.dseq)

/-- Count an operation's completion (R293, R294); one that never started is not counted, and ABANDONED by
STOP_JOB adds nothing (its job's counters are cleared). -/
def countStep (o : Op) (s : State) : State :=
  if countDue s o then
    let s := opModify o.queue o.dseq (fun o => { o with counted := true }) s
    match o.zop.ccounter with
    | some c =>
      if o.opened && (ctrGet s c).owner == some o.job then completionCount c (o.status == some 0) s else s
    | none => s
  else s

/-- The UP entry an operation reports on: that of the copy it opened under, or once that copy is gone, of the current one
(DESIGN CHOICE, log entry 65). -/
def reportEntry (s : State) (o : Op) : Option Entry :=
  (upEntry (opEntries s o)).orElse fun _ => upEntry (entriesIn s.chord.cur o.group)

/-- Report on the UP entry that the records of this island's subtree are written (R260, CTYPE 0x06). -/
def reportStep (o : Op) (s : State) : State :=
  if o.status.isSome && !o.home && !o.reported && recordsWritten o && downsReported o then
    let s := opModify o.queue o.dseq (fun o => { o with reported := true }) s
    match reportEntry s o with
    | some e => sendCtrl e o.job o.group o.queue o.dseq (opEpoch s o) 0x06 (BitVec.ofNat 64 (o.status.getD 0)) [] s
    | none => s
  else s

/-- The operation holds results for an UPDATE: running tiles of a WGRAD (R195), root values of a bound sum
(R204). -/
def opKeeps (o : Op) : Bool :=
  o.status == some 0 && o.home &&
  ((o.tiles.any fun t => t.chunk.isNone) || o.drained.isSome || (o.zop.bound.isSome && o.chunks.any fun c => !c.running.isEmpty))

/-- The WGRAD fields of an operation. -/
def wgradOf (z : ZsiOp) : Option WgradDef := match z.extra with | .wgrad g => some g | _ => none

/-- Change the stream set of a job's tensor. -/
def streamModify (job w : Nat) (f : StreamSet → StreamSet) (s : State) : State :=
  { s with streams := s.streams.map fun t => if t.job = job ∧ t.wtensor = w then f t else t }

/-- Release the half of a step (R196, R198). -/
def releaseHalf (job w : Nat) (step : BitVec 32) (s : State) : State :=
  streamModify job w (fun t => { t with halves := t.halves.map fun h => if h.step = some step then { h with held := false } else h }) s

/-- Release a gradient source (R195, R204, R211). -/
def releaseSource (job : Nat) (u : UpdateDef) (step : BitVec 32) (s : State) : State :=
  let mine := fun (x : Op) => x.job == job && x.zop.opid == u.src && ((wgradOf x.zop).isNone || decide (x.desc.step = step))
  let drop := fun (x : Op) =>
    if mine x && opKeeps x then { x with tiles := [], drained := none, chunks := x.chunks.map fun c => { c with running := [] } } else x
  { s with sources := s.sources.filter fun x => !mine x, ops := s.ops.map drop }

/-- Every planned stage of an operation on this island has completed. -/
def plansDone (o : Op) : Bool := o.chunks.all fun c => c.state == .done

/-- Two operations are instances of one planned operation. -/
def sameOp (a b : Op) : Bool := a.job == b.job && a.slot == b.slot && a.zop.opid == b.zop.opid

/-- A WGRAD that is over on an island other than the root's: a LEVEL may still ask for its chunks (R191). -/
def keepsForLevel (o : Op) : Bool := !o.home && o.zop.opcode == 0x10 && o.status == some 0

/-- Operations that a PHASE_FENCE may cover (R196), also one that ended without being started. -/
def fenceable (o : Op) : Bool := o.zop.opcode == 0x10 || o.zop.opcode == 0x11 || o.zop.opcode == 0x12

/-- Remember how an operation ended, for the fence that covers it. -/
def noteEnd (o : Op) (s : State) : State :=
  if fenceable o then
    let old := s.ended.filter fun e => !(e.1 == o.slot && e.2.1 == o.zop.opid && decide (e.2.2.1 = o.desc.step))
    { s with ended := old ++ [(o.slot, o.zop.opid, o.desc.step, o.status.getD 0)] }
  else s

/-- Drop an operation once all is written, counted and released; results for an UPDATE stay until it
consumes them. -/
def retireStep (o : Op) (s : State) : State :=
  if o.counted && recordsDone o && !o.release && (!o.home || downsReported o) && !keepsForLevel o then
    let s := noteEnd o (opRemove o.queue o.dseq s)
    if opKeeps o then
      { s with sources := s.sources.filter (fun x => !(sameOp x o && decide (x.desc.step = o.desc.step))) ++ [o] }
    else s
  else s

/-- Do one thing for the operation as it stands now, if it still is in flight. -/
def withOp (q : Nat) (d : BitVec 32) (f : Op → State → State) (s : State) : State :=
  match opFind s q d with
  | some o => f o s
  | none => s

/-- The next DSEQ of a queue to complete moves over those completed out of order (R250). -/
def headAdvance : Nat → BitVec 32 → List (BitVec 32) → BitVec 32 × List (BitVec 32)
  | 0, h, l => (h, l)
  | n + 1, h, l => if l.contains h then headAdvance n (h + 1) (l.filter (· ≠ h)) else (h, l)

/-- A descriptor of a home queue has its completion: head moves, and the queue is IDLE once head reaches
tail (R250, R262). -/
def markDone (q : Nat) (d : BitVec 32) (s : State) : State :=
  let x := queueGet s q
  let (h, l) := headAdvance (x.done.length + 1) x.head (d :: x.done)
  let x := { x with head := h, done := l, cache := x.cache.filter fun f => decide (f.dseq ≠ d) }
  let s := queuePut q x s
  if x.state = .active ∧ x.head = x.tail then relayState q (queuePut q { x with state := .idle } s) else s

/-- Move the poster's record on where its extension area or the record itself has been acknowledged. -/
def posterStep (q : QueueCtx) (o : Op) (s : State) : State :=
  match o.poster with
  | none => s
  | some r =>
    let slot := dseqSlot o.dseq q.log2sz
    let put := fun (st : RecStage) (s : State) =>
      opModify o.queue o.dseq (fun o => { o with poster := some { r with stage := st } }) s
    match r.stage with
    | .ext =>
      if purposeClear s (.posterExt o.queue o.dseq) then
        put .record (sendWrite 1 r.chip (q.pcqOff + 32 * slot) o.job (opRecord s q o q.pext)
          (.posterRecord o.queue o.dseq) s)
      else s
    | .record =>
      if purposeClear s (.posterRecord o.queue o.dseq) then markDone o.queue o.dseq (put .written s) else s
    | _ => s

/-- The pizzicato part of an operation. -/
def pizzFind (s : State) (q : Nat) (d : BitVec 32) : Option PizzOp := s.pizzOps.find? fun p => p.queue == q && p.dseq == d

/-- A packet in TC0 of an operation. -/
def pizzPacket (q : Nat) (d : BitVec 32) (u : Unacked) : Bool := purposeOp u.why == some (q, d)

/-- TC0 packets of an operation are not waited for any longer: they are never sent again (R322). -/
def forgetPizz (q : Nat) (d : BitVec 32) (s : State) : State :=
  let clear := fun (f : TxFlow) =>
    if f.tc = 0 then { f with unacked := f.unacked.filter fun u => !pizzPacket q d u,
                              held := f.held.filter fun h => purposeOp h.why ≠ some (q, d) }
    else f
  { s with net := { s.net with tx := s.net.tx.map clear } }

/-- A pizzicato operation ends here: its cells are released, and it is counted (R158, R164, R166, R428). -/
def pizzEnd (q : Nat) (d : BitVec 32) (s : State) : State :=
  match pizzFind s q d with
  | none => s
  | some p =>
    let s := forgetPizz q d { s with pizzOps := s.pizzOps.filter fun x => !(x.queue == q && x.dseq == d) }
    count 0x0D (q % 16) 1 { job := some p.job, group := some p.group, queue := some q } s

/-- An operation has its final status, or waits only for acknowledgements. -/
def opOver (o : Op) : Bool := o.status.isSome || o.ending

/-- What an operation releases when it completes with OK: the half of a WGRAD with ORDER 1 (R198), the gradient source of
an UPDATE on its home island (R195, R211, R219). -/
def releaseUsed (o : Op) (s : State) : State :=
  match o.zop.extra with
  | .wgrad g => if g.order = 1 ∧ o.home then releaseHalf o.job g.wtensor o.desc.step s else s
  | .update u => if o.home then releaseSource o.job u o.desc.step s else s
  | _ => s

/-- An operation ends with OK once nothing but acknowledgements was left of it and they have come (R150, R218, R319,
R322; DEDUCED, log entry 29). A WGRAD that a LEVEL made compute again is not over before its slices are (R191). -/
def endStep (o : Op) (s : State) : State :=
  let ending := o.ending || (o.zop.pizz && match pizzFind s o.queue o.dseq with | some p => p.ending | none => false)
  if o.opened && o.status.isNone && ending && ((wgradOf o.zop).isNone || plansDone o) && opAcked s o.queue o.dseq then
    pizzEnd o.queue o.dseq (opFinish o.queue o.dseq 0 0 (releaseUsed o s))
  else s

/-- Nothing but acknowledgements is left of an operation on this island (R150). -/
def opEnd (q : Nat) (d : BitVec 32) (s : State) : State :=
  withOp q d endStep (opModify q d (fun o => { o with ending := true }) s)

/-- Move everything that waits for acknowledgements on for one operation. -/
def settleOp (q : Nat) (d : BitVec 32) (s : State) : State :=
  let x := queueGet s q
  let s := withOp q d endStep s
  match opFind s q d with
  | none => s
  | some o =>
    if o.status.isNone || o.hit.isSome then s
    else
      let s := (List.range o.records.length).foldl (fun s i => withOp q d (fun o => memberStep x o i) s) s
      let s := withOp q d (posterStep x) s
      let s := withOp q d reportStep s
      let s := withOp q d countStep s
      withOp q d retireStep s

/-- The home island's poster record is due (R260): the final status is there, its own member records are
written and every DOWN entry has reported. -/
def posterDue (o : Op) : Bool :=
  o.status.isSome && o.home && recordsWritten o && (recordless o.zop || downsReported o) &&
  (match o.poster with | some r => r.stage == .waiting | none => false)

/-- Write the poster's record, its extension area first where PEXT is 1 (R260, R261). -/
def writePoster (o : Op) (s : State) : State :=
  let q := queueGet s o.queue
  match o.poster with
  | none => s
  | some r =>
    let slot := dseqSlot o.dseq q.log2sz
    let put := fun (st : RecStage) (s : State) =>
      opModify o.queue o.dseq (fun o => { o with poster := some { r with stage := st } }) s
    if q.pext then
      put .ext (sendWrites 1 r.chip (q.pxOff + 2048 * slot) o.job (extensionBytes o) (.posterExt o.queue o.dseq) s)
    else
      put .record (sendWrite 1 r.chip (q.pcqOff + 32 * slot) o.job (opRecord s q o false)
        (.posterRecord o.queue o.dseq) s)

/-! ## Discard (R396 to R398) -/

/-- ARG of a discard message (R397). -/
def discardArg (status chip : Nat) (rseq : BitVec 32) : BitVec 64 :=
  BitVec.ofNat 64 (status + chip * 2 ^ 16 + rseq.toNat * 2 ^ 32)

/-- A queue is DRAINING under a command of this island's own: a discard of its operations changes nothing (R398). -/
def draining (s : State) (q : Nat) : Bool := (queueGet s q).state = .draining && (queueGet s q).drainTo.isSome

/-- Pass a discard on over every UP and DOWN entry of a group but those of the island it came from (R396). -/
def passDiscard (es : List Entry) (job group q : Nat) (d : BitVec 32) (e : BitVec 8) (arg : BitVec 64) (came : Option Nat)
    (s : State) : State :=
  sendCtrls ((downs es ++ (upEntry es).toList).filter fun x => came ≠ some x.chip) job group q d e 0x04 arg [] s

/-- Pass the discard of an operation on (R396). -/
def tellDiscard (arg : BitVec 64) (came : Option Nat) (o : Op) (s : State) : State :=
  passDiscard (opEntries s o) o.job o.group o.queue o.dseq (opEpoch s o) arg came s

/-- Tell of a timeout of the pizzicato path on every UP and DOWN entry but those of the island it came from (R164, R322): by a PIZZ
packet of SUB 5, which sets the queue to ERROR where it comes (DEDUCED, log entry 44). -/
def tellTimeout (came : Option Nat) (o : Op) (s : State) : State :=
  let es := opEntries s o
  let x : PizzExt := { group := o.group, queue := o.queue, dseq := o.dseq, sub := 5, ecnt := 0 }
  ((downs es ++ (upEntry es).toList).filter fun e => came ≠ some e.chip).foldl (fun s e =>
    sendEntry e 0 o.job o.group (opEpoch s o) (.pizz x) [] .other s) s

/-- A WGRAD that is over on this island is discarded elsewhere (R201): what is kept of it goes, and the discard is
passed on. -/
def dropKept (tell : Op → State → State) (o : Op) (s : State) : State := opRemove o.queue o.dseq (tell o s)

/-- A recorded step is one of the range of an UPDATE. -/
def recordOf (u : UpdateDef) (r : StepRec) : Bool := r.e0 == u.e0 && r.count == u.count

/-- An UPDATE that ends by a fault, OVERRUN or CAPO_EXCEEDED leaves its step values and its seed recorded (R219), with the flags
of the blocks written (R230): in place of an earlier record of its range. -/
def recordStep (o : Op) (s : State) : State :=
  match o.zop.extra with
  | .update u =>
    let d := o.desc
    let w := fun (i : Nat) => BitVec.ofNat 32 (d.operand.toNat / 2 ^ (32 * i))
    let r : StepRec :=
      { e0 := u.e0, count := u.count, step := d.step, lr := w 0, gscale := w 1, bc1 := w 2, bc2 := w 3, scale := d.scale,
        ctl := BitVec.ofNat 8 (d.rmode + flag d.satfin 2 + flag d.entsr 3), seed := o.seed }
    let old := fun (h : Shard) => (h.stepRecs.find? fun x => recordOf u x && decide (x.step = d.step)).map (·.flags)
    let put := fun (h : Shard) =>
      if h.job = o.job ∧ h.sdef.wtensor = u.wtensor ∧ h.sdef.e0 ≤ u.e0 ∧ u.e0 < h.sdef.e0 + 4096 * h.sdef.nb ∧ h.epoch = d.step then
        { h with stepRecs := (h.stepRecs.filter fun x => !recordOf u x) ++ [{ r with flags := (old h).getD {} }] } else h
    if o.home then { s with shards := s.shards.map put } else s
  | _ => s

/-- Bytes that the spec calls undefined, from a draw on (R58). -/
def freeBytes (draw n : Nat) : List Byte := (List.range n).map fun i => Config.freeByte (draw + i)

/-- An operation that delivers the older epoch of a shard, a WPULL or an UPDATE with PUSH, still has an unsent chunk that covers the
block at an element of the tensor (R217, R218). -/
def slotTaken (s : State) (h : Shard) (e : Nat) : Bool :=
  let unsent := fun (w : Op) (e0 : Nat) => w.chunks.any fun c => c.state ≠ .done && c.plan.kind == 4 &&
    decide (e0 + 4096 * c.plan.lo ≤ e) && decide (e < e0 + 4096 * c.plan.hi)
  s.ops.any fun w => w.home && w.status.isNone && w.fixed && w.job == h.job && match w.zop.extra with
    | .wpull r => r.wtensor == h.sdef.wtensor && decide (w.desc.step.toNat + 1 = h.epoch.toNat) && unsent w r.e0
    | .update u => u.push && u.wtensor == h.sdef.wtensor && decide (w.desc.step.toNat + 2 = h.epoch.toNat) && unsent w u.e0
    | _ => false

/-- A block with the slot for the copy of an epoch undefined: its bytes and its scale come from a draw on. -/
def spoilCopy (e : BitVec 32) (n draw : Nat) (b : Block) : Block :=
  let bs := freeBytes draw n
  let c : BitVec 32 := BitVec.ofNat 32 (unle (freeBytes (draw + n) 4))
  if e.toNat % 2 = 0 then { b with copy0 := bs, cscale0 := c } else { b with copy1 := bs, cscale1 := c }

/-- An UPDATE that ends in its apply pass by a fault, OVERRUN or CAPO_EXCEEDED leaves the slot that it was writing undefined, in every
block of its range that it had not written yet and that no WPULL holds (R58, R217, R219). -/
def spoilSlots (o : Op) (s : State) : State :=
  match o.zop.extra with
  | .update u =>
    let spoil := fun (h : Shard) =>
      let n := 512 * elemBits h.sdef.ofmt
      let open_ := fun (b : Block) (i : Nat) =>
        let e := h.sdef.e0 + 4096 * i
        decide (b.epoch = o.desc.step) && decide (u.e0 ≤ e) && decide (e < u.e0 + u.count) && !slotTaken s h e
      if h.job = o.job ∧ h.sdef.wtensor = u.wtensor ∧ h.firstApply = some o.desc.step then
        { h with blocks := h.blocks.mapIdx fun i b => if open_ b i then spoilCopy (o.desc.step + 1) n (s.freeCtr + (n + 4) * i) b else b }
      else h
    if o.home then { s with shards := s.shards.map spoil, freeCtr := s.freeCtr + 16388 * (s.shards.map (·.blocks.length)).sum } else s
  | _ => s

/-- What an UPDATE leaves behind that ends by a fault, OVERRUN or CAPO_EXCEEDED (R219). -/
def leaveStep (o : Op) (s : State) : State := spoilSlots o (recordStep o s)

/-- An operation whose descriptor has not come ends here: what it has staged goes, and it ends as soon as it starts. One of the
pizzicato path writes the records of the members it covers at once (R164); no completion of it is counted or reported before its
descriptor comes. -/
def endShell (status : Nat) (detail : Word) (o : Op) (s : State) : State :=
  let s := pizzEnd o.queue o.dseq s
  let es := opEntries s o
  let told := { withEntries es (withStatus status detail o) with
    release := false, poster := none, downs := [], reported := true, counted := true, pieces := [], got := [], arrived := [] }
  let s := opRemove o.queue o.dseq s
  { s with
    ops := if o.zop.pizz then s.ops ++ [told] else s.ops
    earlyEnds := s.earlyEnds ++ [{ queue := o.queue, dseq := o.dseq, status, detail, told := o.zop.pizz }] }

/-- Discard an operation that has no final status with a status, and tell the other islands of its group (R396, R397). -/
def discardTold (tell : Op → State → State) (status : Nat) (detail : Word) (o : Op) (s : State) : State :=
  if keepsForLevel o then dropKept tell o s
  else if !o.opened && o.status.isNone then endShell status detail o (tell o s)
  else if o.status.isSome || draining s o.queue then s
  else pizzEnd o.queue o.dseq (opFinish o.queue o.dseq status detail (if status = 1 ∨ status = 4 then leaveStep o (tell o s) else tell o s))

/-- Discard an operation with a status, and pass the discard on over every UP and DOWN entry of its group but the one it came from
(R396, R397). -/
def discardWith (status : Nat) (arg : BitVec 64) (came : Option Nat) (detail : Word) (o : Op) (s : State) : State :=
  discardTold (tellDiscard arg came) status detail o s

/-- Discard an operation for a fault with the RSEQ of its record, or 0 for a timeout or an epoch rule
(R396, R397). -/
def discardOp (rseq : BitVec 32) (o : Op) (s : State) : State :=
  discardWith 1 (discardArg 1 s.ctl.id.chip rseq) none rseq o s

/-- A fault of a class discards an operation on the island that detects it: its work stops at once. What tells of it goes out when the
nanosecond is over (`tellHits`), so that of two faults in one nanosecond the lower class gives its RSEQ (R398). -/
def hitOp (cls : Nat) (rseq : BitVec 32) (o : Op) (s : State) : State :=
  if !o.opened || o.status.isSome || draining s o.queue then discardOp rseq o s
  else
    let s := opFinish o.queue o.dseq 1 rseq (leaveStep o s)
    pizzEnd o.queue o.dseq (opModify o.queue o.dseq (fun o => { o with hit := some cls }) s)

/-- An operation that a fault of a higher class discarded in this nanosecond takes the RSEQ of this one (R398). -/
def rehit (cls : Nat) (rseq : BitVec 32) (p : Op → Bool) (s : State) : State :=
  { s with ops := s.ops.map fun o => if o.hit.any (cls < ·) && p o then { o with hit := some cls, detail := rseq } else o }

/-- Discard every operation that a test selects. -/
def discardIf (p : Op → Bool) (rseq : BitVec 32) (s : State) : State :=
  (s.ops.filter p).foldl (fun s o => discardOp rseq o s) s

/-- The reports of downstream islands that nothing can reach are not waited for (R319, R400; DEDUCED, log entry 29). -/
def downsGone (p : Nat → Bool) (o : Op) : Op :=
  { o with downs := o.downs.map fun d => if p d.1 then (d.1, true) else d }

/-- No port of a chip's entry of the operation's group is UP. -/
def downCut (s : State) (o : Op) (chip : Nat) : Bool :=
  (opEntries s o).any fun e => e.chip == chip && (entryPorts e).all fun p => !portUp s p

/-- The operation is being worked on: it has no final status, or a LEVEL makes it compute chunks again (R191). -/
def opWorks (o : Op) : Bool := o.status.isNone || (keepsForLevel o && o.chunks.any chunkActive)

/-- The operations that a test selects and a discard would end. -/
def doomed (p : Op → Bool) (s : State) : List Op :=
  s.ops.filter fun o => p o && opWorks o && !draining s o.queue

/-! ## Faults (R392, R394, R397, R411, R413 to R415) -/

/-- Number of a domain in R414. -/
def classDomain (c : Nat) : Nat :=
  if c = 0 then 0 else if c = 1 then 1 else if c ≤ 6 then 2 else if c = 7 then 4
  else if 16 ≤ c ∧ c ≤ 20 then 3 else 0xFF

/-- A class that puts the island in FAULTED (R392). -/
def classFatal (c : Nat) : Bool := (decide (16 ≤ c) && decide (c ≤ 20)) || (decide (24 ≤ c) && decide (c ≤ 26))

/-- The fatal classes as bits of FAULT_CLASS. -/
def fatalMask : Word := 0x071F0000#32

/-- FAULT_CLASS holds a fatal class. -/
def anyFatal (s : State) : Bool := s.fault.classes &&& fatalMask ≠ 0

/-- Record a class in FAULT_CLASS (R393). -/
def setClass (c : Nat) (s : State) : State :=
  { s with fault := { s.fault with classes := s.fault.classes ||| BitVec.ofNat 32 (2 ^ c) } }

/-- The severity of the record and notice of a class (R413). -/
def classSev (c : Nat) : Nat := if classFatal c then 3 else if c = 8 ∨ c = 10 then 1 else 2

/-- The NSEQ that a record names for a notice raised now: none where it is suppressed (R275, R397, R414). -/
def noticeSeq (n : Notice) (s : State) : BitVec 32 := if noticeSent n.kind n.queue s then s.notices.nseq else 0xFFFFFFFF

/-- A notice, and the black-box record of its event (R413 to R415). -/
def report (n : Notice) (r : BBRec) (s : State) : State := bbWrite { r with nseq := noticeSeq n s } (notice n s)

/-- A record of a fault that discards operations (R414). -/
def faultRec (cls : Nat) (u : FUnit) (hit : List Op) : BBRec :=
  let first := hit.head?
  { rkind := 1, sev := classSev cls, domain := classDomain cls, rseq := 0, fcls := cls, loc := unitLoc u,
    dseq := (first.map (·.dseq)).getD 0, queue := (first.map (·.queue)).getD 0, group := (first.map (·.group)).getD 0,
    job := (first.map (·.job)).getD 0, status := if hit.isEmpty then 0 else 1, ops := hit.length }

/-- A running pegbox command ends with RESULT 0x05: by a flush or a fault of neck 0 (R377, R418). -/
def endPegCommand (s : State) : State :=
  if s.peg.cmd.isSome then { s with peg := { s.peg with cmd := none, result := 5 } } else s

/-- A unit of neck 0: a fault of it ends a running pegbox command, which neck 0 executes (R10, R377). -/
def inNeck0 : FUnit → Bool
  | .fret i => decide (i < 1024) | .string i => decide (i < 64) | .die i => decide (i < 4) | .neck i => decide (i = 0)
  | .module i => decide (i < 8) | .stack i => decide (i < 2)
  | _ => false

/-- What a fault's check found (R414): the address, and whether a code or a parity found it, so that SYND holds what it showed. -/
structure Found where
  addr  : BitVec 64 := 0
  coded : Bool := true
  deriving DecidableEq, Repr

/-- A detected fault of classes 0 to 6 and 9 with the operations that it discards: the class is recorded,
the FAULT notice sent, the black-box record written, and the operations discarded with its RSEQ (R392,
R397, R413, R415). -/
def raiseFault (cls : Nat) (u : FUnit) (found : Found) (p : Op → Bool) (s : State) : State :=
  let hit := doomed p s
  let rseq := s.fault.rseq
  let synd := if found.coded then Config.syndrome s.freeCtr else 0
  let detail := le 1 cls ++ le 1 (classDomain cls) ++ le 4 (unitLoc u).toNat ++ le 8 found.addr.toNat ++ le 4 hit.length
  let s := report { kind := 0x10, sev := 2, detail } { faultRec cls u hit with addr := found.addr, synd } (setClass cls (drawn s))
  let s := rehit cls rseq p (if inNeck0 u then endPegCommand s else s)
  hit.foldl (fun s o => hitOp cls rseq o s) s

/-- The record of R415 for a unit retired, taken out, returned, or for a spare brought in. -/
def unitRec (rkind sev : Nat) (u : FUnit) (phys lpos gen : Nat) : BBRec :=
  { rkind, sev, rseq := 0, loc := unitLoc u, xdata := BitVec.ofNat 64 (phys + lpos * 256 + gen * 65536) }

/-- A flow or port has failed (R319, R344, R357, R410): class PATH, one PATH_LOST notice for the flow, a
record, and the operations named discarded. -/
def pathLost (peer tc : Nat) (p : Op → Bool) (s : State) : State :=
  let hit := s.ops.filter fun o => p o && (o.status.isNone || keepsForLevel o) && !draining s o.queue
  let rseq := s.fault.rseq
  let n : Notice := { kind := 0x14, sev := 2, detail := le 2 peer ++ le 1 tc ++ le 4 hit.length }
  let s := report n (faultRec 7 (.peer peer) hit) (setClass 7 s)
  hit.foldl (fun s o => hitOp 7 rseq o s) s

/-- A packet of operations had no route to a peer (R330): they are discarded, with the record whose RSEQ is their DETAIL (R397). It is
of no class (DESIGN CHOICE, log entry 72). -/
def unrouted (peer : Nat) (p : Op → Bool) (s : State) : State :=
  let hit := s.ops.filter p
  let rseq := s.fault.rseq
  hit.foldl (fun s o => hitOp 0xFF rseq o s) (bbWrite (faultRec 0xFF (.peer peer) hit) s)

/-- Discard the operations that need a packet which cannot be sent: one without a route (R330), or one that finds no port UP, which
fails as its flow does (R357). -/
def sweepLost (s : State) : State :=
  let ks := s.net.lost
  let flows := (ks.map fun l => (l.peer, l.tc, l.path)).eraseDups
  let mine := fun (f : Nat × Nat × Bool) (o : Op) =>
    (o.status.isNone || keepsForLevel o) && !draining s o.queue && ks.any fun l => (l.peer, l.tc, l.path) == f && opIs l.queue l.dseq o
  let s := flows.foldl (fun s f =>
    if !s.ops.any (mine f) then s else if f.2.2 then pathLost f.1 f.2.1 (mine f) s else unrouted f.1 (mine f) s)
    { s with net := { s.net with lost := [] } }
  ks.foldl (fun s l => withOp l.queue l.dseq (fun o s => opModify l.queue l.dseq (downsGone (downCut s o)) s) s) s

/-- Discard what has lost a packet, and move everything that waits for acknowledgements on, operation by operation in DSEQ order as held. -/
def settle (s : State) : State :=
  let s := sweepLost s
  (s.ops.map fun o => (o.queue, o.dseq)).foldl (fun s k => settleOp k.1 k.2 s) s

/-- The discards that faults of the nanosecond decided go out (R396, R400). -/
def tellHits (s : State) : State :=
  if s.ops.any (·.hit.isSome) then
    let told := fun (o : Op) (s : State) =>
      let arg := discardArg 1 s.ctl.id.chip o.detail
      tellDiscard arg none o
        (opModify o.queue o.dseq (fun o => { o with hit := none }) s)
    settle ((s.ops.filter (·.hit.isSome)).foldl (fun s o => told o s) s)
  else s

/-- Classes as a FAULT_CLASS bit number of a fatal fault (R392). -/
def fatalClassNo : FatalClass → Nat
  | .soundboard => 16 | .sequencer => 17 | .gcount => 18 | .base => 19 | .thermal => 20
  | .pegbox => 24 | .trim => 25 | .tuning => 26

/-- Write the completion of an admin command to the completion ring of its slot (R258, R264). -/
def adminComplete (slot : Nat) (aseq : BitVec 32) (status : Nat) (detail : Word) (result : Nat) (s : State) : State :=
  let m := s.ctl.id.managers.getD slot {}
  let bs := completionBytes status 0 (aseq.toNat / 64 % 2) false 0 0 0 aseq detail result s.time.gcount
  sendWrite 1 m.chip (m.cqOff + 32 * (aseq.toNat % 64)) 0 bs .other s

/-- ASEQ of an admin command (R265). -/
def AdminCmd.aseq (c : AdminCmd) : BitVec 32 := BitVec.ofNat 32 (fld c.bytes 7 4)

/-- Complete an admin command. -/
def adminDone (c : AdminCmd) (status : Nat) (detail : Word) (result : Nat) (s : State) : State :=
  adminComplete c.slot c.aseq status detail result s

/-- DETAIL of a MALFORMED with a reason and no offset, for reason 0x0E (R256). -/
def notPermitted : Word := 0x0E00

/-- The image being read for an admin command is given up with its READs. -/
def dropImage (s : State) : State :=
  let mine := fun (r : ReadReq) => match r.why with | .image _ => true | _ => false
  { s with regions := s.regions.filter fun r => !decide (r.use = .image)
           net := { s.net with image := none, reads := s.net.reads.filter fun r => !mine r } }

/-- Pending SLEEPs are given up with MALFORMED, reason 0x0E (R388, R412, R452). -/
def dropSleeps (p : AdminCmd × Nat × Nat × Nat → Bool) (s : State) : State :=
  let go := s.admin.sleeps.filter p
  let s := { s with admin := { s.admin with sleeps := s.admin.sleeps.filter fun x => !p x } }
  go.foldl (fun s x => adminDone x.1 5 notPermitted 0 s) s

/-- End every job as an island-level fault does (R299, R411 step 2): waiters released with ABANDONED
0x21, counters cleared, jobs and their ZSIs gone, streams and shards with them. -/
def endAllJobs (s : State) : State :=
  let js := (s.waiters.map (·.job)).eraseDups
  let counts := js.map fun j => (j, (s.waiters.filter fun w => w.job == j).length)
  let s := releaseIf (fun _ => true) 6 0x21 s
  let s := counts.foldl (fun s c => notice { kind := 0x23, sev := 1, detail := le 2 0 ++ le 2 c.1 ++ le 4 c.2 } s) s
  let drainAll := s.queues.map fun e => (e.1, { e.2 with state := .draining, drainTo := some .absent })
  { s with ctrs := [], jobs := [], zsis := [], sources := [], lostSrc := [], ended := [], early := [], earlyEnds := [], streams := [], shards := [], pizzOps := [],
           queues := drainAll }

/-- A record lost in both ring copies (R415). -/
def lostRecord : BBRec := { rkind := 0xFF, domain := 0, rseq := 0, fcls := 0, nseq := 0 }

/-- The newest records of the ring, oldest first, at most 16,383 (R418): those before `rseq` in sequence order. -/
def newestRecords (s : State) : List BBRec :=
  let top := s.fault.rseq
  let sorted := sortBy (fun a b => decide ((top - b.rseq).toNat ≤ (top - a.rseq).toNat)) (s.fault.ring.filterMap (·.2))
  let shown := fun (r : BBRec) => if s.fault.lostRecs.contains (r.rseq.toNat % 16384) then lostRecord else r
  (sorted.drop (sorted.length - 16383)).map shown

/-- Read bytes of the pegbox flash; an erased byte reads 0xFF (R361). -/
def flashRead (s : State) (off n : Nat) : List Byte := Table.range (0xFF : Byte) s.peg.flash off n

/-- Program bytes into the flash: bits can only go from 1 to 0 (R377). -/
def flashProgram (off : Nat) (bs : List Byte) (s : State) : State :=
  let old := flashRead s off bs.length
  { s with peg := { s.peg with flash := Table.putAll 0xFF s.peg.flash off (List.zipWith (· &&& ·) old bs) } }

/-- Erase a range of the flash. -/
def flashErase (off len : Nat) (s : State) : State :=
  let left := s.peg.flash.filter fun c => !(decide (off ≤ c.1) && decide (c.1 < off + len))
  { s with peg := { s.peg with flash := left } }

/-- Where flush slot k begins in the flash (R417). -/
def slotBase (k : Nat) : Nat := 0x900000 + k * 0x100000

/-- FLUSHSEQ of a slot that holds a valid flush (R418). -/
def slotValid (s : State) (k : Nat) : Option (BitVec 32) :=
  let h := flashRead s (slotBase k) 64
  let nrec := fld h 31 28
  if fld h 0 0 = 2 ∧ fld h 1 1 = 0xBB ∧ fld h 51 48 = 0 ∧ nrec ≤ 16383 ∧
      fld h 35 32 = (crc32 (flashRead s (slotBase k + 64) (64 * nrec))).toNat then
    some (BitVec.ofNat 32 (fld h 7 4))
  else none

/-- The flush number after one: neither 0 nor 0xFFFF_FFFF (R417, R418). -/
def flushNext (n : BitVec 32) : BitVec 32 := if n + 1 = 0 ∨ n + 1 = 0xFFFFFFFF then 1 else n + 1

/-- The slot the next flush takes, and its FLUSHSEQ (R418). -/
def flushTarget (s : State) : Nat × BitVec 32 :=
  match slotValid s 0, slotValid s 1 with
  | none, none => (0, 1)
  | some a, none => (1, flushNext a)
  | none, some b => (0, flushNext b)
  | some a, some b => if a.toNat < b.toNat then (0, flushNext b) else (1, flushNext a)

/-- A flush slot is erased: no byte of it is listed as other than 0xFF. -/
def slotErased (s : State) (k : Nat) : Bool :=
  s.peg.flash.all fun c => decide (c.1 < slotBase k) || decide (slotBase k + 0x100000 ≤ c.1)

/-- Once READY, the island erases the slot of the next flush in the background; RESULT reads "erase pending" until it is done
(R418, R419). -/
def beginErase (s : State) : State :=
  let up := s.ctl.state == .ready || s.ctl.state == .running || s.ctl.state == .dormant
  if up && s.fault.flush.isNone && !slotErased s (flushTarget s).1 then { s with fault := { s.fault with erasing := true, result := 2 } } else s

/-- Start a black-box flush (R418): a running pegbox command ends, the record of R415 is written, and what
it will program is fixed. RESULT reads "erase pending" while the flush has to erase its slot first. -/
def startFlush (s : State) : State :=
  let (slot, seq) := flushTarget s
  let s := bbWrite { rkind := 6, rseq := 0, xdata := seq.setWidth 64 } s
  let s := endPegCommand s
  let flush : Flush :=
    { slot, seq, fclass := s.fault.classes, gcount := s.time.gcount, records := newestRecords s }
  let pending := if slotErased s slot then s.fault.result else 2
  { s with fault := { s.fault with erasing := false, slot, result := pending, flush := some flush } }

/-- A record that stands in the ring gets the NSEQ of its notice. -/
def recordNotice (rseq nseq : BitVec 32) (s : State) : State :=
  let name := fun (r : BBRec) => if r.rseq = rseq then { r with nseq } else r
  { s with fault := { s.fault with ring := Table.modify none s.fault.ring (rseq.toNat % 16384) (·.map name) } }

/-- The FAULTED notice (R411), which the record of the fatal fault names. -/
def faultedNotice (rseq : BitVec 32) (s : State) : State :=
  let n : Notice := { kind := 0x16, sev := 3, detail := le 4 s.fault.classes.toNat }
  recordNotice rseq (noticeSeq n s) (notice n s)

/-- The steps of R411 for a fatal class: the record, every operation discarded, every job ended, FAULTED,
the notice, and the flush. -/
def enterFaulted (cls : Nat) (s : State) : State :=
  let hit := doomed (fun _ => true) s
  let rseq := s.fault.rseq
  let s := bbWrite (faultRec cls .none hit) (setClass cls s)
  let s := hit.foldl (fun s o => hitOp cls rseq o s) s
  let s := dropImage (dropSleeps (fun _ => true) (endAllJobs s))
  let s := faultedNotice rseq (setState .faulted s)
  startFlush (settle s)

end Sys2Proof.Machine
end

