-- ==== Sys2Proof/Machine/Receive.lean ====
section
/-! DEFINITION. Receiving a packet: attribution to a port, metering, flows, and the checks of R316 in
order, with commitment and refusal (R307, R315 to R318, R326 to R328, R333, R387, R412, R436). -/

set_option Elab.async false

namespace Sys2Proof.Machine

/-! ## Attribution (R436) -/

/-- The ports of a module among a list. -/
def onModule (m : Nat) (ps : List Nat) : List Nat := ps.filter fun p => decide (p < 512) && p / 4 == m

/-- The ports of the chord entries that name a chip for a group, in the current copy. -/
def chordPorts (s : State) (g chip : Nat) : List Nat :=
  ((entriesIn s.chord.cur g).filter fun e => e.chip == chip).flatMap entryPorts

/-- The least of a list of ports. -/
def lowest : List Nat → Option Nat
  | [] => none
  | p :: ps => some (ps.foldl min p)

/-- The port an arrival is attributed to (R436). -/
def arrivalPort (s : State) (a : Arrival) : Nat :=
  match a.link with
  | .cascade c => 512 + c
  | .module m =>
    if !a.hcrcOk then 4 * m
    else match a.pkt.ext with
      | .disc d => 4 * m + d.portsel % 4
      | _ =>
        let byGroup := match extGroup a.pkt.ext with
          | some g => onModule m (chordPorts s g a.pkt.hdr.src)
          | none => []
        let byRoute := onModule m (routeGet s a.pkt.hdr.src).portList
        ((lowest byGroup).orElse fun _ => lowest byRoute).getD (4 * m)

/-- The context of an arrival's events (R428). -/
def arrivalCtx (s : State) (a : Arrival) : Ctx :=
  { job := jobCtx a.pkt.hdr.job, port := some (arrivalPort s a), cls := some a.pkt.hdr.tc }

/-- The context without the job. -/
def arrivalPC (s : State) (a : Arrival) : Ctx := { arrivalCtx s a with job := none }

/-! ## Meters (R326 to R328; RFC 2697, RFC 2698) -/

/-- Fields of a meter word set (R327). -/
def meterMode (m : Meter) : Nat := bits m.w0.toNat 1 0
def meterCir (m : Meter) : Nat := bits m.w0.toNat 31 24 + bits m.w1.toNat 11 0 * 256
def meterPir (m : Meter) : Nat := bits m.w1.toNat 31 12
def meterCbs (m : Meter) : Nat := bits m.w2.toNat 15 0 * 64
def meterPbs (m : Meter) : Nat := bits m.w2.toNat 31 16 * 64

/-- The buckets filled up to count `g`, in thousandths of a byte: 1 MB/s is 1 such unit each ns. -/
def meterFill (m : Meter) (g : Nat) : Meter :=
  let dt := g - m.at_
  let cb := meterCbs m * 1000
  let pb := meterPbs m * 1000
  let add := meterCir m * dt
  if meterMode m = 2 then { m with tc := min cb (m.tc + add), tp := min pb (m.tp + meterPir m * dt), at_ := g }
  else { m with tc := min cb (m.tc + add), tp := min pb (m.tp + (m.tc + add - min cb (m.tc + add))), at_ := g }

/-- The colour of a packet of `n` bytes at a filled meter, 0 green, 1 yellow, 2 red, and the buckets after
it (R328). A colour-aware meter takes the packet's COLOR as its input colour. -/
def meterColour (m : Meter) (color n : Nat) : Nat × Meter :=
  let b := n * 1000
  let pre := if m.w0.getLsbD 2 then color else 0
  match meterMode m with
  | 1 =>
    if pre = 0 ∧ b ≤ m.tc then (0, { m with tc := m.tc - b })
    else if pre ≤ 1 ∧ b ≤ m.tp then (1, { m with tp := m.tp - b })
    else (2, m)
  | 2 =>
    if pre = 2 ∨ m.tp < b then (2, m)
    else if pre = 1 ∨ m.tc < b then (1, { m with tp := m.tp - b })
    else (0, { m with tc := m.tc - b, tp := m.tp - b })
  | _ => (0, m)

/-- The meter of an arrival: that of its SRC's routing entry in the neck of arrival (R326). -/
def meterIndex (s : State) (a : Arrival) : Nat :=
  let r := routeGet s a.pkt.hdr.src
  let k := if a.pkt.hdr.tc = 0 then bits r.w3.toNat 24 16 else 512 + bits r.w3.toNat 8 0
  1024 * linkNeck a.link + k

/-- Police an arrival of TC0 or TC1 (R326, R328): its colour, and the state with the meter charged. -/
def police (a : Arrival) (s : State) : Nat × State :=
  if 1 < a.pkt.hdr.tc then (0, s)
  else
    let i := meterIndex s a
    let (c, m) := meterColour (meterFill (Table.get {} s.meters i) s.time.gcount) a.pkt.hdr.color (pktLen a.pkt)
    if meterMode m = 0 then (0, s) else (c, { s with meters := Table.put {} s.meters i m })

/-! ## Flows (R317, R318) -/

/-- The flow an arrival belongs to, as held. -/
def rxFind (s : State) (a : Arrival) : Option RxFlow :=
  s.net.rx.find? fun f => f.src == a.pkt.hdr.src && f.tc == a.pkt.hdr.tc

/-- A PSN has been delivered on a flow. -/
def delivered (f : RxFlow) (p : BitVec 32) : Bool :=
  f.ahead.contains p || (decide (p ≠ f.next) && decide ((f.next - p).toNat ≤ 2 ^ 31))

/-- What R317 says of an arrival's INCARN and PSN. -/
inductive FlowCheck where
  | fresh | adopt | duplicate | foreign | full
  deriving DecidableEq, Repr

/-- Classify an arrival by its flow (R317): a fresh PSN of the incarnation held, the first packet of a new
incarnation, a duplicate, a foreign incarnation, or the first packet of a flow beyond the 262,144. -/
def flowCheck (s : State) (a : Arrival) : FlowCheck :=
  let h := a.pkt.hdr
  match rxFind s a with
  | none => if h.psn ≠ 0 then .foreign else if 262144 ≤ s.net.rx.length then .full else .adopt
  | some f =>
    if f.incarn = some h.incarn then (if delivered f h.psn then .duplicate else .fresh)
    else if h.psn = 0 ∧ f.before ≠ some h.incarn then .adopt
    else .foreign

/-- Enter a PSN as delivered, moving the lowest undelivered PSN up over what came ahead. -/
def rxAdvance : Nat → BitVec 32 → List (BitVec 32) → BitVec 32 × List (BitVec 32)
  | 0, n, l => (n, l)
  | k + 1, n, l => if l.contains n then rxAdvance k (n + 1) (l.filter (· ≠ n)) else (n, l)

/-- The flow after an arrival's PSN is delivered (R317). -/
def rxDeliver (f : RxFlow) (p : BitVec 32) : RxFlow :=
  let (n, l) := rxAdvance (f.ahead.length + 1) f.next (p :: f.ahead)
  { f with next := n, ahead := l }

/-- The flow an arrival is entered in: the held one, or the new incarnation's (R317). -/
def rxBase (s : State) (a : Arrival) : RxFlow :=
  let h := a.pkt.hdr
  match rxFind s a with
  | none => { src := h.src, tc := h.tc, incarn := some h.incarn }
  | some f =>
    if f.incarn = some h.incarn then f
    else { src := h.src, tc := h.tc, incarn := some h.incarn, before := f.incarn }

/-- SACK of a flow: bit k set when PSN CUMPSN + 1 + k is delivered (R311). -/
def sackOf (f : RxFlow) : BitVec 32 :=
  BitVec.ofNat 32 (((List.range 32).map fun k =>
    flag (f.ahead.contains (f.next + 1 + BitVec.ofNat 32 k)) k).sum)

/-- Acknowledge on a flow (R311, R318, R330): an ACK in the flow's class, on the ports of the member's
entry for STREAM, else by the routing entry. -/
def sendAck (f : RxFlow) (neck : Nat) (run : List Nat) (s : State) : State :=
  let x := Ext.ack f.next (sackOf f) (Config.ackCredit s.freeCtr).toNat
  emitOn neck run { hdr := ownHdr s f.tc f.src x 0 0, ext := x } (drawn s)

/-- The ports an ACK of an arrival travels on (R330). -/
def ackRun (s : State) (a : Arrival) : List Nat :=
  match a.pkt.ext with
  | .stream g .. => chordPorts s g a.pkt.hdr.src
  | _ => []

/-- Commit an arrival that its type's rules have accepted: its PSN is delivered and acknowledged (R315,
R318). A packet that is not sequenced has nothing to acknowledge. -/
def commit (a : Arrival) (s : State) : State :=
  if !sequenced a.pkt.ext then s
  else
    let f := rxDeliver (rxBase s a) a.pkt.hdr.psn
    let others := s.net.rx.filter fun x => !(x.src == f.src && x.tc == f.tc)
    sendAck f (linkNeck a.link) (ackRun s a) { s with net := { s.net with rx := f :: others } }

/-- A protection error: the packet is refused, counted and not acknowledged (R307, R318). -/
def protErr (a : Arrival) (s : State) : State := count 0x2C (linkNeck a.link) 1 (arrivalPC s a) s

/-! ## The checks of R316 -/

/-- Where the doorbell target and the sync target stand (R307). -/
def doorbellOff : Nat := 0xFFFF00000000
def syncOff : Nat := 0xFFFF00010000

/-- The island takes this packet in its state (R387, R412). In DORMANT it answers only what R387 names, in
FAULTED only what R412 names. -/
def admits (s : State) (p : Packet) : Bool :=
  let ctl := match p.ext with | .ack .. | .tsync .. | .disc _ | .qdepth _ => true | _ => false
  let admin := match p.ext with | .write off => off == doorbellOff && fld p.payload 3 2 % 8192 == 0 | _ => false
  let sync := match p.ext with | .write off => off == syncOff | _ => false
  match s.ctl.state with
  | .off | .reset => false
  | .tuning | .ready | .running => true
  | .dormant => ctl || admin || sync
  | .faulted => ctl || admin

/-- A dropped arrival: the event counted, and the drop counted for its port (R316, R435). -/
def dropWith (ev : Nat) (c : Ctx) (a : Arrival) (s : State) : State :=
  bwModify (arrivalPort s a) (fun b => { b with drops := b.drops + 1 }) (count ev (linkNeck a.link) 1 c s)

/-- The late packet of an operation that has ended: acknowledged, dropped and counted (R316). -/
def lateDrop (a : Arrival) (s : State) : State := commit a (dropWith 0x32 (arrivalCtx s a) a s)

/-- A packet that the island's state does not admit is dropped (R387, R412): that is no drop of R316 (R435). -/
def stateDrop (a : Arrival) (s : State) : State :=
  count (if s.ctl.state = .dormant then 0x3D else 0x3E) (linkNeck a.link) 1 (arrivalPC s a) s

/-- DISC and QDEPTH, which steps 2, 4 and 5 of R316 leave unchecked. -/
def linkLocal : Ext → Bool
  | .disc _ | .qdepth _ => true
  | _ => false

/-- Types accepted in any routing epoch (R333). -/
def anyEpoch : Ext → Bool
  | .ack .. | .tsync .. | .disc _ | .qdepth _ => true
  | _ => false

/-- What step 7 of R316 says of a REPOCH (R333): accepted, waiting for the next tick, or retired. -/
def epochCheck (s : State) (p : Packet) : Option Bool :=
  let e := p.hdr.repoch
  if anyEpoch p.ext then some true
  else if e = s.routing.epoch then some true
  else match s.routing.retiring, s.routing.swapAt with
    | some (_, e', _), sw => if e = e' then some true else waits e sw
    | none, sw => waits e sw
where
  /-- One above the current epoch, with that swap set for the next tick. -/
  waits (e : BitVec 8) (sw : Option Nat) : Option Bool :=
    match sw with
    | some t =>
      if e = s.routing.epoch + 1 ∧ t / frameNs s = s.time.gcount / frameNs s + 1 then some false else none
    | none => none

/-- EPOCH_MISMATCH with the epoch received and the island's own (R276). -/
def epochNotice (got own : BitVec 8) (o : Option Op) : Notice :=
  { kind := 5, sev := 2, queue := (o.map (·.queue)).getD 0, group := (o.map (·.group)).getD 0,
    dseq := (o.map (·.dseq)).getD 0, detail := le 1 got.toNat ++ le 1 own.toNat }

/-- The operation that a packet names: by QUEUE and DSEQ, or for a STREAM by group, tensor and step (R168, R178, R311). -/
def namedOp (s : State) (p : Packet) : Option Op :=
  match p.ext with
  | .stream g w _ step _ => s.ops.find? fun o =>
      o.job == p.hdr.job && o.group == g && decide (o.desc.step = step) &&
      (match o.zop.extra with | .wgrad d => d.wtensor == w | .stash t => t == w | _ => false)
  | x => (extOp x).bind fun k => knownOp s k.1 k.2

/-- A retired packet (R333): the operation it names ends with DISCARDED, with an EPOCH_MISMATCH notice. -/
def retirePacket (a : Arrival) (s : State) : State :=
  let o := namedOp s a.pkt
  let s := match o with | some o => discardOp 0 o s | none => s
  notice (epochNotice a.pkt.hdr.repoch s.routing.epoch o) s

/-- A neck that neck 0 cannot reach: after a SOUNDBOARD or BASE fault, every other neck (R412, R470). -/
def unreachable (s : State) (neck : Nat) : Bool :=
  neck ≠ 0 && (s.fault.classes.getLsbD 16 || s.fault.classes.getLsbD 19)

/-- Bytes of a module's ingress buffer that packets waiting in it take (R315, R333). -/
def ingressUsed (s : State) (l : Link) : Nat := ((s.net.waiting.filter fun a => decide (a.link = l)).map fun a => pktLen a.pkt).sum

/-- A link can bring this arrival: an UCIe module that is up or in L1 (R304) and whose ingress buffer of 128 KiB has room, a
full one withholding the credit (R315), or a cascade port whose flits have delivered these bytes (R348, R350). -/
def linkBrings (s : State) (a : Arrival) : Bool :=
  match a.link with
  | .module m =>
    let x := (Table.get {} s.mods m : Module)
    (x.state == 1 || x.state == 3) && decide (ingressUsed s a.link + pktLen a.pkt ≤ 131072)
  | .cascade c =>
    match (Table.get {} s.casc c : Casc).inPkts with
    | bs :: _ => pktDecode bs == some (a.pkt, a.hcrcOk, a.pcrcOk) && a.delivered == pktLen a.pkt
    | [] => false

/-- Take the arrival off the packets that its cascade link has delivered. -/
def takeArrival (a : Arrival) (s : State) : State :=
  match a.link with
  | .module _ => s
  | .cascade c => cascModify c (fun k => { k with inPkts := k.inPkts.drop 1 }) s

/-- The arrival leaves the ingress buffer: on a cascade link the space it held is to be returned (R350). -/
def oweCredit (a : Arrival) (s : State) : State :=
  match a.link with
  | .module _ => s
  | .cascade c => cascPump c (cascModify c (fun k => { k with owed := k.owed.modify a.pkt.hdr.tc (· + creditUnits (pktLen a.pkt)) }) s)

/-- After its checks an arrival leaves the ingress buffer, unless it waits there for its routing epoch (R315, R333). -/
def leaveIngress (a : Arrival) : Except State State → Except State State
  | .ok s => .ok (oweCredit a s)
  | .error s => .error (if s.net.waiting.contains a then s else oweCredit a s)

/-- A port that may have brought this arrival is UP (R357): its cascade port; one of the module's ports that the group's entries
or the routing entry of its SRC name, or any of the module's where they name none. -/
def cameByUp (s : State) (a : Arrival) : Bool :=
  match a.link with
  | .cascade c => portUp s (512 + c)
  | .module m =>
    let named := onModule m ((match extGroup a.pkt.ext with | some g => chordPorts s g a.pkt.hdr.src | none => []) ++
      (routeGet s a.pkt.hdr.src).portList)
    (if named.isEmpty then (List.range 4).map (4 * m + ·) else named).any (portUp s)

/-- The arrival is counted as received (R428, R436); QDEPTH is left out of the windows. -/
def countArrival (a : Arrival) (s : State) : State :=
  let n := pktLen a.pkt
  let port := arrivalPort s a
  let c : Ctx := if a.hcrcOk then arrivalCtx s a else { port := some port }
  let s := count 0x20 (linkNeck a.link) 1 c s
  let s := count 0x21 (linkNeck a.link) n c s
  match a.pkt.ext with
  | .qdepth _ => s
  | _ => bwModify port (fun b =>
      if a.pkt.hdr.tc ≤ 1 then { b with rxHi := b.rxHi + n } else { b with rxBulk := b.rxBulk + n }) s

/-- Step 2 of R316: VER is the port's revision; a DISC may have any from 1 to 15 (R352), and QDEPTH is not checked. -/
def verOk (s : State) (port : Nat) (p : Packet) : Bool :=
  match p.ext with
  | .disc _ => decide (1 ≤ p.hdr.ver ∧ p.hdr.ver ≤ 15)
  | .qdepth _ => true
  | _ => p.hdr.ver == portRev s port

/-- The incarnation of an arrival is adopted (R317), whatever the rules of the packet's type then say. -/
def adopted (a : Arrival) (s : State) : State :=
  let f := rxBase s a
  { s with net := { s.net with rx := f :: s.net.rx.filter fun x => !(x.src == f.src && x.tc == f.tc) } }

/-- Steps 8 and 9 of R316 and the flow rules of R317, for a packet of a known routing epoch. -/
def checksFlow (a : Arrival) (s : State) : Except State State :=
  let p := a.pkt
  if !a.pcrcOk then .error (dropWith 0x30 (arrivalCtx s a) a s)
  else if !sequenced p.ext then .ok s
  else match flowCheck s a with
    | .fresh => .ok s
    | .adopt => .ok (adopted a s)
    | .duplicate => .error (sendAck (rxBase s a) (linkNeck a.link) (ackRun s a) (dropWith 0x31 (arrivalCtx s a) a s))
    | .foreign => .error (dropWith 0x31 (arrivalCtx s a) a s)
    | .full => .error (dropWith 0x33 (arrivalCtx s a) a s)

/-- The checks of R316 from step 6 on, for a packet that its meter gave a colour. -/
def checksMetered (a : Arrival) (colour : Nat) (s : State) : Except State State :=
  if colour = 2 then .error (dropWith 0x2D (arrivalPC s a) a s)
  else
    let s := if colour = 1 then count 0x2E (linkNeck a.link) 1 (arrivalPC s a) s else s
    match epochCheck s a.pkt with
    | none => .error (retirePacket a (dropWith 0x2F (arrivalCtx s a) a s))
    | some false => .error { s with net := { s.net with waiting := s.net.waiting ++ [a] } }
    | some true => checksFlow a s

/-- The checks of R316 in order. `error` is the state after a drop or while the packet waits; `ok` the
state for the rules of the packet's type, which commit it or refuse it. `again` marks a packet that waited
for its routing epoch and has been metered. A port that is not UP carries only DISC (R357): what else comes by it is dropped
before the checks and counted in no drop event (log entry 63). -/
def checks (again : Bool) (a : Arrival) (s : State) : Except State State :=
  let p := a.pkt
  let port := arrivalPort s a
  let casc := match a.link with | .cascade _ => true | .module _ => false
  let pc := arrivalPC s a
  if !a.hcrcOk then .error (dropWith 0x28 { port := some port } a s)
  else if !again && !linkLocal p.ext && !cameByUp s a then .error s
  else if !verOk s port p then .error (dropWith 0x29 pc a s)
  else if !formOk (if linkLocal p.ext then 2 else portRev s port) casc a then .error (dropWith 0x2A pc a s)
  else if !admits s p then
    .error (stateDrop a s)
  else if !linkLocal p.ext && p.hdr.dst ≠ s.ctl.id.chip then .error (dropWith 0x2B pc a s)
  else if !linkLocal p.ext && !(routeGet s p.hdr.src).valid then .error (dropWith 0x2C pc a s)
  else if again then checksMetered a 0 s
  else checksMetered a (police a s).1 (police a s).2

/-- Receive an arrival: nothing happens where its link cannot bring it or the island is in RESET or OFF
(log entry 2). A packet that waited for its routing epoch is counted and metered once. -/
def receive (a : Arrival) (s : State) : Except State State :=
  if unreachable s (linkNeck a.link) || s.ctl.state == .reset || s.ctl.state == .off then .error s
  else if s.net.waiting.contains a then
    match epochCheck s a.pkt with
    | some false => .error s
    | _ => leaveIngress a (checks true a { s with net := { s.net with waiting := s.net.waiting.erase a } })
  else if !linkBrings s a then .error s
  else leaveIngress a (checks false a (countArrival a (takeArrival a s)))

/-- Run the rules of a packet's type on an arrival that passes; anything else is as `receive` leaves it. -/
def onReceive (a : Arrival) (s : State) (f : State → State) : State :=
  match receive a s with
  | .error s' => s'
  | .ok s' => f s'

end Sys2Proof.Machine
end

