-- ==== Sys2Proof/Machine/ChordTable.lean ====
section
/-! DEFINITION. Group headers, member entries and routing entries as bytes, and the ZSI lists of a queue
(R136, R137, R248, R329). -/

set_option Elab.async false

namespace Sys2Proof.Machine

/-- A group header as 64 bytes (R136); a group never loaded reads 0. -/
def groupBytes (g : Nat) (x : Group) : List Byte :=
  if x = {} then le 64 0
  else
    le 2 g ++ le 1 2 ++ le 1 (flag x.valid 7 + flag x.pizzOk 6 + flag x.root 5 + flag x.aligned 4) ++ le 2 x.nmem ++
    le 1 x.d ++ le 1 0 ++ le 4 x.ebase ++ le 4 x.ecnt ++ le 4 x.ops ++ le 4 x.rbuf ++ le 4 x.tiles ++ le 4 x.stage ++
    le 4 x.desc ++ le 4 x.win ++ le 4 x.pizz ++ le 4 x.rresRb ++ le 4 x.rresTiles ++ le 12 0

/-- Read a group header (R136); D and ALIGNED are filled by the load (R138). -/
def groupParse (b : List Byte) : Group :=
  let fl := fld b 3 3
  { valid := bit fl 7, pizzOk := bit fl 6, root := bit fl 5, nmem := fld b 5 4, ebase := fld b 11 8, ecnt := fld b 15 12,
    ops := fld b 19 16, rbuf := fld b 23 20, tiles := fld b 27 24, stage := fld b 31 28, desc := fld b 35 32,
    win := fld b 39 36, pizz := fld b 43 40, rresRb := fld b 47 44, rresTiles := fld b 51 48 }

/-- A member entry as 16 bytes (R137). -/
def entryBytes (e : Entry) : List Byte :=
  le 16 (e.base + e.port * 2 ^ 48 + e.prun * 2 ^ 64 + e.cnt * 2 ^ 72 + e.ord * 2 ^ 88 + e.chip * 2 ^ 104 +
    e.lvl * 2 ^ 120 + e.kind * 2 ^ 124)

/-- Read a member entry (R137). -/
def entryParse (b : List Byte) : Entry :=
  let x := fld b 15 0
  { base := bits x 47 0, port := bits x 57 48, prun := bits x 71 64, cnt := bits x 87 72, ord := bits x 103 88,
    chip := bits x 119 104, lvl := bits x 123 120, kind := bits x 127 124 }

/-- Word `k` of a byte structure. -/
def wordOf (b : List Byte) (k : Nat) : Word := BitVec.ofNat 32 (fld b (4 * k + 3) (4 * k))

/-- Word `k` of a routing entry (R329). -/
def routeWord (r : Route) (k : Nat) : Word :=
  let p := fun i => (r.ports.getD i 0).toNat
  match k with
  | 2 => r.w2
  | 3 => r.w3
  | 0 | 1 => 0
  | _ => BitVec.ofNat 32 (p (2 * k - 8) + p (2 * k - 7) * 65536)

/-- The bits of a routing entry's word that are not reserved (R329). -/
def routeMask (k : Nat) : Word :=
  match k with
  | 2 => 0xC000FFFF
  | 3 => 0x01FF01FF
  | 0 | 1 => 0
  | _ => 0x83FF83FF

/-- Write word `k` of a routing entry. -/
def routeSet (r : Route) (k : Nat) (v : Word) : Route :=
  match k with
  | 2 => { r with w2 := v }
  | 3 => { r with w3 := v }
  | 0 | 1 => r
  | _ =>
    let ps := r.ports ++ List.replicate (8 - r.ports.length) 0
    let ps := (ps.set (2 * k - 8) (v.setWidth 16)).set (2 * k - 7) ((v >>> 16).setWidth 16)
    { r with ports := if ps.all (· = 0) then [] else ps }

/-- Descriptors of a queue started here and without final status (R483). -/
def startedCount (s : State) (q : Nat) : Nat := (s.ops.filter fun o => o.queue == q && o.opened && o.status.isNone).length

end Sys2Proof.Machine
end

