-- ==== Sys2Proof/Machine/Registers.lean ====
section
/-! DEFINITION. The configuration space: what every register reads and what a write to it does (R235,
R341, R342, R358, R376, R393, R419, R421 to R436, R454 to R456, R465 to R486), and the register rows. -/

set_option Elab.async false

namespace Sys2Proof.Machine

/-! ## Reading -/

/-- Pack fields given as (value, position). -/
def packWord (fs : List (Nat × Nat)) : Word := BitVec.ofNat 32 ((fs.map fun f => f.1 * 2 ^ f.2).sum)

/-- A Boolean as 0 or 1. -/
def b01 (b : Bool) : Nat := if b then 1 else 0

/-- The straps and the pegbox image agree (R336). -/
def strapsAgree (s : State) : Bool :=
  !s.ctl.id.cascaded || (s.ctl.cascId == s.ctl.id.ownCasc && s.ctl.masterSel == (s.ctl.id.ownCasc == s.ctl.id.masterCasc))

/-- The island is in a cascade domain: the image says so, and the straps agree; else it runs as a standalone island
(R336). -/
def inDomain (s : State) : Bool := s.ctl.id.cascaded && strapsAgree s

/-- The island is its cascade domain's master (R336). -/
def isMaster (s : State) : Bool := inDomain s && s.ctl.masterSel

/-- The loaded ZSIs with their slots. -/
def loadedZsis (s : State) : List (Nat × ZsiSlot) := s.zsis.filterMap fun e => e.2.map fun z => (e.1, z)

/-- ISL_STATE (R472). -/
def islStateWord (s : State) : Word :=
  packWord [(((loadedZsis s).map fun e => 2 ^ e.1).sum, 16), (b01 s.ctl.id.cascaded, 7), (b01 (isMaster s), 6),
    (s.ctl.cascId % 4, 4), (stateCode s.ctl.state, 0)]

/-- The island is its own time root or aligned (R473). -/
def timeOk (s : State) : Bool := s.time.root || s.time.timeOk

/-- ISL_STATUS (R473). -/
def islStatusWord (s : State) : Word :=
  packWord [(b01 s.ctl.reject, 7), (b01 (timeOk s), 6), (b01 s.time.holdover.isSome, 5), (b01 s.time.rateLim, 4),
    (b01 s.ctl.trimDiff, 3), (b01 s.ctl.trimB, 2), (s.ctl.pegcopy, 1)]

/-- JOB_DET (R235). -/
def jobDet (s : State) : Bool := (loadedZsis s).all fun e => e.2.det

/-- TSYNC_STAT (R476). -/
def tsyncStatWord (s : State) : Word :=
  packWord [(min s.time.missed 255, 16), (b01 s.time.parent.isSome, 10), (s.time.parent.getD 0, 0)]

/-- TSYNC_OFS, stopping at the largest value of its sign (R476). -/
def tsyncOfsWord (s : State) : Word :=
  BitVec.ofInt 32 (max (-(2 ^ 31)) (min (2 ^ 31 - 1) s.time.ofs))

/-- An operation uses the chord-table copy of an epoch: it opened under it, and has not ended here, or has yet to report up it
(R109, R140). -/
def usesChord (e : BitVec 8) (o : Op) : Bool := o.fixed && decide (o.cepoch = e) && (opWorks o || (!o.home && !o.reported))

/-- Operations that use a chord epoch (R140, R477): each once, those known by their pizzicato part alone as well. -/
def chordUsers (s : State) (e : BitVec 8) : Nat :=
  (s.ops.filter (usesChord e)).length +
  (s.pizzOps.filter fun p => p.cepoch == e && !s.ops.any fun x => opIs p.queue p.dseq x && usesChord e x).length

/-- Unacknowledged packets stamped with a routing epoch (R334). -/
def routeUsers (s : State) (e : BitVec 8) : Nat :=
  (s.net.tx.map fun f => (f.unacked.filter fun u => decide (u.pkt.hdr.repoch = e)).length).sum

/-- CEPOCH and REPOCH (R477). -/
def epochWord {α : Type} (x : Epochs α) (users : BitVec 8 → Nat) : Word :=
  let infl := match x.retiring with | some (_, e, _) => min (users e) 0xFFFFF | none => 0
  packWord [(infl, 12), (b01 x.swapAt.isSome, 10), (b01 x.retiring.isSome, 9), (b01 x.open_, 8), (x.epoch.toNat, 0)]

/-- BB_STATUS (R419). -/
def bbStatusWord (s : State) : Word :=
  let f := s.fault
  let newest := if f.ring.isEmpty then 0 else if f.rseq = 1 then 0xFFFF else (f.rseq - 1).toNat % 65536
  packWord [(b01 (f.flush.isSome || f.erasing), 31), (b01 f.mirror, 30), (f.slot, 24), (f.result, 16), (newest, 0)]

/-- The warning threshold of a TEMP_DIE index in °C (R447, R455). -/
def warnOf (s : State) (k : Nat) : Nat :=
  let w := s.power.warn.toNat
  if k < 16 then bits w 15 8 else if k < 80 then bits w 7 0 else if k < 112 then bits w 23 16 else bits w 31 24

/-- THERM_MAX (R455): among the sampled dies, the hottest relative to its own warning threshold. -/
def thermMaxWord (s : State) : Word :=
  let margin := fun (e : Nat × Temp) => e.2.temp.toInt - 16 * (warnOf s e.1 : Int)
  let best := (s.power.temps.filter (·.2.valid)).foldl (fun (acc : Option (Nat × Temp)) e =>
    match acc with
    | none => some e
    | some b => if margin b < margin e then some e else some b) none
  match best with
  | some (k, t) => packWord [(k, 16), (t.temp.toNat, 0)]
  | none => 0

/-- PWR_STATUS (R456). -/
def pwrStatusWord (s : State) : Word :=
  packWord [(b01 s.power.vinLow, 29), (b01 s.power.vinHigh, 28), (s.power.pin % 4096, 16), (s.power.vin % 1024, 0)]

/-- PEG_STATUS (R376). -/
def pegStatusWord (s : State) : Word :=
  packWord [(b01 s.peg.cmd.isSome, 31), (s.peg.result, 16), (s.peg.vcheck, 0)]

/-- PMC_GCTL (R426). -/
def gctlWord (s : State) : Word := packWord [(b01 s.obs.freeze, 3), (b01 s.obs.arm, 1), (b01 s.obs.freeze, 0)]

/-- PORT_STATE (R358). -/
def portWord (x : Port) : Word :=
  packWord [(x.reason, 16), (x.rev, 10), (b01 x.txup, 5), (b01 x.rxup, 4), (x.state, 0)]

/-- LANE_EQ (R341). -/
def laneWord (l : Lane) : Word := packWord [(l.eye, 24), (b01 l.amlock, 16), (l.laneId, 12), (l.peak, 0)]

/-- CASC_CTL (R342). -/
def cascWord (k : Casc) : Word := packWord [(k.rxslp.toNat, 16), (k.txslp.toNat, 0)]

/-- MOD_STATE, DIE_STAT, STR_STAT (R480). -/
def modWord (x : Module) : Word := packWord [(min x.retrains 0xFFFF, 16), (min x.repaired 255, 8), (x.state, 0)]
def dieWord (x : Die) : Word := packWord [(x.gen.toNat, 16), (min x.fails 3, 8), (x.state, 0)]
def strWord (x : Str) : Word :=
  packWord [(b01 x.out, 23), (b01 x.repair, 22), (b01 x.spareIn.isSome, 21), (x.spareIn.getD 0, 17), (x.retired.toNat, 0)]

/-- A counter register (R421, R422). PMC_HI reads what the last read of PMC_LO latched. -/
def pmcWord (p : Pmc) (k : Nat) : Word :=
  match k with
  | 0 => p.sel
  | 1 => p.value.setWidth 32
  | 2 => p.latch
  | _ => 0

/-- PMC_HI of a value (R422). -/
def pmcHi (p : Pmc) : Word := packWord [(b01 p.ovf, 31), (p.value.toNat / 2 ^ 32, 0)]

/-- Word `k` of a port record (R435). -/
def recordWord (b : BwPort) (k : Nat) : Word :=
  match k with
  | 0 => BitVec.ofNat 32 b.wnum
  | 1 => BitVec.ofNat 32 (b.wnum / 2 ^ 32)
  | _ => BitVec.ofNat 32 (b.words.getD (k - 2) 0)

/-- Word `k` of a meter as applied (R327, R481). -/
def meterWord (m : Meter) (k : Nat) : Word := match k with | 0 => m.w0 | 1 => m.w1 | 2 => m.w2 | _ => 0

/-- Word `k` of a queue (R483). -/
def queueWord (s : State) (q k : Nat) : Word :=
  let x := queueGet s q
  if q = 0 ∨ x.state = .absent then 0
  else match k with
    | 0 => packWord [(x.errCause, 24), (x.log2sz, 16), (b01 x.home, 15), (b01 x.pext, 14), (b01 x.mext, 13),
        (x.prefetch - 1, 3), (queueCode x.state, 0)]
    | 1 => packWord [(x.job, 16), (x.group, 0)]
    | 2 => if x.home then x.head else 0
    | 3 => if x.home then x.tail else 0
    | 4 => packWord [(x.poster, 0)]
    | 5 => packWord [(min (startedCount s q) 0xFFFF, 16), (if x.home then x.cache.length else 0, 0)]
    | 6 => x.errDseq
    | _ => match nextOp s q with
      | some (slot, o) => packWord [(o, 8), (slot, 0)]
      | none => 0

/-- Word `k` of a sync counter (R484). -/
def ctrWord (s : State) (c k : Nat) : Word :=
  let x := ctrGet s c
  match x.owner with
  | none => 0
  | some j => match k with
    | 0 => x.value.setWidth 32
    | 1 => (x.value >>> 32).setWidth 32
    | 2 => packWord [(j, 16), (1, 3), (b01 x.fail, 2), (b01 x.err, 1), (b01 x.sat, 0)]
    | _ => packWord [((s.waiters.filter fun w => w.ctr == c).length, 0)]

/-- Word `k` of the black-box record at a ring position (R416, R485). -/
def bbWord (s : State) (pos k : Nat) : Word :=
  if s.fault.lostRecs.contains pos then (if k = 0 then 0x0000FF02 else 0)
  else match (Table.get none s.fault.ring pos : Option BBRec) with
    | some r => wordOf (bbBytes r) k
    | none => 0

/-- The blocks of the configuration space (R466). -/
def inBlock (a : Nat) : Bool :=
  decide (a < 0x4000) || (decide (0x10000 ≤ a) && decide (a < 0x13000)) || (decide (0x14000 ≤ a) && decide (a < 0x16000)) ||
  (decide (0x20000 ≤ a) && decide (a < 0x28000)) || (decide (0x30000 ≤ a) && decide (a < 0x38000)) ||
  (decide (0x40000 ≤ a) && decide (a < 0xC0000)) || (decide (0x100000 ≤ a) && decide (a < 0x300000)) ||
  (decide (0x400000 ≤ a) && decide (a < 0x880000)) || (decide (0x1000000 ≤ a) && decide (a < 0x2000000))

/-- The neck that holds a register (R470). -/
def regNeck (a : Nat) : Nat :=
  if a < 0x4000 then 0
  else if a < 0x11000 then portNeck (min ((a - 0x10000) / 4) 515)
  else if a < 0x11100 then 4 * ((a - 0x11000) / 64)
  else if a < 0x12000 then 4 * ((a - 0x11100) / 4 % 4)
  else if a < 0x13000 then (a - 0x12000) / 4 / 8 % 16
  else if a < 0x15000 then (a - 0x14000) / 4 / 4 % 16
  else if a < 0x16000 then (a - 0x15000) / 4 / 64
  else if a < 0x28000 then (if a < 0x24000 then (a - 0x20000) / 1024 else 0)
  else if a < 0x38000 then portNeck (min ((a - 0x30000) / 32) 515)
  else if a < 0x80000 then (a - 0x40000) / 0x4000
  else if a < 0xC0000 then (a - 0x80000) / 32 % 16
  else if a < 0x200000 then (a - 0x100000) / 16 % 16
  else if a < 0x1000000 then 0
  else (a - 0x1000000) / 16 % 16

/-- An address of a neck's own blocks names a register (R466, R467). -/
def named (a : Nat) : Bool :=
  if a < 0x11000 then decide ((a - 0x10000) / 4 < 516)
  else if a < 0x12000 then decide (a < 0x11110)
  else if a < 0x14000 then decide (a < 0x12200)
  else if a < 0x15000 then decide (a < 0x14100)
  else if a < 0x20000 then true
  else if a < 0x30000 then decide (a < 0x24400) && a % 16 ≠ 12
  else if a < 0x40000 then decide ((a - 0x30000) / 32 < 516)
  else true

/-- A register that cannot be reached: its neck is not (R412, R470). -/
def cutOff (s : State) (a : Nat) : Bool := named a && unreachable s (regNeck a)

/-- What a register of the first four blocks reads. -/
def controlWord (s : State) (a : Nat) : Word :=
  match a with
  | 0x0000 => islStateWord s
  | 0x0004 => islStatusWord s
  | 0x000C => s.ctl.rejAddr
  | 0x0010 => BitVec.ofNat 32 s.time.gcount
  | 0x0014 => s.time.hiLatch
  | 0x0018 => packWord [(s.time.cur, 16), (s.time.len, 0)]
  | 0x001C => packWord [(b01 (jobDet s), 2), (b01 s.ctl.entsrUsed, 1), (b01 s.ctl.allowDet0, 0)]
  | 0x0020 => packWord [(b01 s.time.rootReg, 0)]
  | 0x0024 => packWord [(s.time.per, 0)]
  | 0x0028 => tsyncStatWord s
  | 0x002C => tsyncOfsWord s
  | 0x0030 => epochWord s.chord (chordUsers s)
  | 0x0034 => epochWord s.routing (routeUsers s)
  | 0x0038 => packWord [(s.ctl.pizzTmo, 0)]
  | 0x003C => packWord [(s.ctl.e2eRto, 0)]
  | 0x0040 => packWord [(s.ctl.e2eTries, 0)]
  | 0x0044 => packWord [(s.ctl.thrLo, 0)]
  | 0x0048 => packWord [(s.ctl.thrHi, 0)]
  | 0x004C => packWord [(s.ctl.ceThr, 0)]
  | 0x0050 => 0x0A6400A2
  | 0x0054 => packWord [(s.ctl.id.chip, 0)]
  | 0x1000 => s.fault.classes
  | 0x1004 => s.fault.alertEn
  | 0x100C => bbStatusWord s
  | 0x1010 => pwrStatusWord s
  | 0x1014 => s.power.warn
  | 0x1018 => thermMaxWord s
  | 0x2004 => pegStatusWord s
  | 0x2008 => s.peg.srcLo
  | 0x200C => s.peg.srcHi
  | 0x2010 => s.peg.foff
  | 0x2014 => s.peg.len
  | 0x3000 => gctlWord s
  | 0x3004 => s.obs.frzLo
  | 0x3008 => s.obs.frzHi
  | 0x3010 => s.obs.smpCtl
  | 0x3014 => s.obs.smpSoff
  | 0x3018 => s.obs.smpLo
  | 0x301C => s.obs.smpHi
  | 0x3020 => s.obs.bwCtl
  | _ =>
    if 0x1200 ≤ a ∧ a < 0x1400 then
      let t : Temp := Table.get {} s.power.temps ((a - 0x1200) / 4)
      packWord [(b01 t.valid, 31), (t.level, 16), (t.temp.toNat, 0)]
    else 0

/-- What a unit register reads (0x10000 to 0x15FFF). -/
def unitWord (s : State) (a : Nat) : Word :=
  if a < 0x11000 then (if (a - 0x10000) / 4 < 516 then portWord (portGet s ((a - 0x10000) / 4)) else 0)
  else if a < 0x11100 then
    laneWord ((Table.get {} s.casc ((a - 0x11000) / 64) : Casc).lanes.getD ((a - 0x11000) % 64 / 4) {})
  else if a < 0x11110 then cascWord (Table.get {} s.casc ((a - 0x11100) / 4))
  else if 0x12000 ≤ a ∧ a < 0x12200 then modWord (Table.get {} s.mods ((a - 0x12000) / 4))
  else if 0x14000 ≤ a ∧ a < 0x14100 then dieWord (Table.get {} s.dies ((a - 0x14000) / 4))
  else if 0x15000 ≤ a then strWord (Table.get {} s.strs ((a - 0x15000) / 4))
  else 0

/-- The value of a register, before what reading it does (R465 to R486). -/
def regValue (s : State) (a : Nat) : Word :=
  if cutOff s a then 0xFFFFFFFF
  else if a < 0x10000 then controlWord s a
  else if a < 0x20000 then unitWord s a
  else if a < 0x30000 then
    (if (a - 0x20000) / 16 < 1088 then pmcWord (Table.get {} s.obs.pmc ((a - 0x20000) / 16)) (a % 16 / 4) else 0)
  else if a < 0x40000 then
    (if (a - 0x30000) / 32 < 516 then recordWord (bwGet s ((a - 0x30000) / 32)) (a % 32 / 4) else 0)
  else if a < 0x80000 then meterWord (Table.get {} s.meters ((a - 0x40000) / 16)) (a % 16 / 4)
  else if a < 0x100000 then queueWord s ((a - 0x80000) / 32) (a % 32 / 4)
  else if a < 0x200000 then ctrWord s ((a - 0x100000) / 16) (a % 16 / 4)
  else if a < 0x400000 then bbWord s ((a - 0x200000) / 64) (a % 64 / 4)
  else if a < 0x600000 then routeWord (routeGet s ((a - 0x400000) / 32)) (a % 32 / 4)
  else if a < 0x800000 then routeWord (Table.get {} s.routing.shadow ((a - 0x600000) / 32)) (a % 32 / 4)
  else if a < 0x1000000 then
    wordOf (groupBytes ((a - 0x800000) / 64) (groupGet s ((a - 0x800000) / 64))) (a % 64 / 4)
  else wordOf (entryBytes (Table.get {} s.chord.cur.entries ((a - 0x1000000) / 16))) (a % 16 / 4)

/-- A read of GCOUNT_LO latches GCOUNT_HI (R40). -/
def gcountLatch (s : State) : State :=
  { s with time := { s.time with hiLatch := BitVec.ofNat 32 (s.time.gcount / 2 ^ 32) } }

/-- Change a performance counter. -/
def pmcModify (i : Nat) (f : Pmc → Pmc) (s : State) : State := setPmc (Table.modify {} s.obs.pmc i f) s

/-- A read of PMC_LO latches PMC_HI and OVF (R422). -/
def pmcLatch (i : Nat) (s : State) : State := pmcModify i (fun p => { p with latch := pmcHi p }) s

/-- Read a register: its value, and the latches that the read sets (R40, R422). -/
def regRead (a : Nat) (s : State) : Word × State :=
  let v := regValue s a
  if a = 0x0010 then (v, gcountLatch s)
  else if 0x20000 ≤ a ∧ a < 0x24400 ∧ a % 16 = 4 ∧ !cutOff s a then (v, pmcLatch ((a - 0x20000) / 16) s)
  else (v, s)

/-! ## Writing (R467) -/

/-- The new value of an RW field of a register under VALUE and MASK (R271, R467). -/
def rwField (old : Word) (w : RegWrite) (hi lo : Nat) : Nat :=
  bits ((old &&& ~~~ w.mask) ||| (w.value &&& w.mask)).toNat hi lo

/-- A W1C bit is cleared by this write (R467). -/
def w1c (w : RegWrite) (i : Nat) : Bool := w.mask.getLsbD i && w.value.getLsbD i

/-- How a write meets a WO field of bits `hi` to `lo`: not touched, covered in part, or acting with a
value (R467). -/
inductive WoHit where
  | none | part | acts (v : Nat)
  deriving DecidableEq, Repr

/-- Classify a write against a WO field (R467). -/
def woField (w : RegWrite) (hi lo : Nat) : WoHit :=
  let m := bits w.mask.toNat hi lo
  if m = 0 then .none else if m = 2 ^ (hi + 1 - lo) - 1 then .acts (bits w.value.toNat hi lo) else .part

/-- ISL_STATUS: REJECT is W1C (R473), and stays where it was set in this nanosecond (R468). -/
def wrStatus (w : RegWrite) (s : State) : State :=
  if w1c w 7 && !setNow .reject s then { s with ctl := { s.ctl with reject := false } } else s

/-- ISL_CTL: SWRESET (R379, R474). A second one leaves the time of the first. -/
def wrIslCtl (w : RegWrite) (s : State) : State :=
  match woField w 0 0 with
  | .acts 1 =>
    if anyRunning s then reject w.addr s
    else { s with ctl := { s.ctl with swresetAt := some (s.ctl.swresetAt.getD (s.time.gcount + 10000)) } }
  | _ => s

/-- The first count after `g` that is a multiple of both lengths (R51). -/
def lengthChangeAt (g old new : Nat) : Nat :=
  let l := Nat.lcm (old * 250) (new * 250)
  (g / l + 1) * l

/-- A frame length is accepted: it takes effect at the count of R51. DESIGN CHOICE (log entry 67): it replaces a change that is pending,
and the length in force cancels one. -/
def acceptLen (n : Nat) (s : State) : State :=
  { s with time := { s.time with
    len := n, lenAt := if n = s.time.cur then none else some (lengthChangeAt s.time.gcount s.time.cur n) } }

/-- FRAME_LEN (R51, R52, R475). -/
def wrFrameLen (w : RegWrite) (s : State) : State :=
  let n := rwField (packWord [(s.time.len, 0)]) w 6 0
  if bits w.mask.toNat 6 0 = 0 then s
  else if n = 0 ∨ 64 < n ∨ anyRunning s ∨ anyArmed s ∨ (inDomain s ∧ !isMaster s) then reject w.addr s
  else
    acceptLen n s

/-- DET_CTRL (R235). -/
def wrDet (w : RegWrite) (s : State) : State :=
  { s with ctl := { s.ctl with
      entsrUsed := s.ctl.entsrUsed && (!w1c w 1 || setNow .entsr s),
      allowDet0 := rwField (packWord [(b01 s.ctl.allowDet0, 0)]) w 0 0 == 1 } }

/-- TSYNC_CTL: ROOT takes effect at the next exchange period (R476). -/
def wrTsyncCtl (w : RegWrite) (s : State) : State :=
  { s with time := { s.time with rootReg := rwField (packWord [(b01 s.time.rootReg, 0)]) w 0 0 == 1 } }

/-- A register that holds one number within bounds: the new value, or REJECT (R478). -/
def bounded (w : RegWrite) (hi : Nat) (old lo up : Nat) (ok : Nat → Bool) (put : Nat → State → State) (s : State) : State :=
  let n := rwField (packWord [(old, 0)]) w hi 0
  if bits w.mask.toNat hi 0 = 0 then s
  else if lo ≤ n ∧ n ≤ up ∧ ok n then put n s else reject w.addr s

/-- TSYNC_PER (R476). -/
def wrTsyncPer (w : RegWrite) : State → State := fun s =>
  bounded w 5 s.time.per 1 32 (fun _ => true) (fun n s => { s with time := { s.time with per := n } }) s

/-- The transport limit registers (R478) and CE_THR (R406). -/
def wrPizzTmo (w : RegWrite) (s : State) : State :=
  bounded w 8 s.ctl.pizzTmo 1 300 (fun _ => true) (fun n s => { s with ctl := { s.ctl with pizzTmo := n } }) s
def wrE2eRto (w : RegWrite) (s : State) : State :=
  bounded w 5 s.ctl.e2eRto 2 40 (fun n => n * s.ctl.e2eTries ≤ 320) (fun n s => { s with ctl := { s.ctl with e2eRto := n } }) s
def wrE2eTries (w : RegWrite) (s : State) : State :=
  bounded w 3 s.ctl.e2eTries 1 15 (fun n => s.ctl.e2eRto * n ≤ 320) (fun n s => { s with ctl := { s.ctl with e2eTries := n } }) s
def wrThrLo (w : RegWrite) (s : State) : State :=
  bounded w 15 s.ctl.thrLo 0 65535 (fun n => n < s.ctl.thrHi) (fun n s => { s with ctl := { s.ctl with thrLo := n } }) s
def wrThrHi (w : RegWrite) (s : State) : State :=
  bounded w 15 s.ctl.thrHi 0 65535 (fun n => s.ctl.thrLo < n) (fun n s => { s with ctl := { s.ctl with thrHi := n } }) s
def wrCeThr (w : RegWrite) (s : State) : State :=
  bounded w 15 s.ctl.ceThr 0 65535 (fun _ => true) (fun n s => { s with ctl := { s.ctl with ceThr := n } }) s

/-- ALERT_EN (R393). -/
def wrAlertEn (w : RegWrite) (s : State) : State :=
  { s with fault := { s.fault with alertEn := BitVec.ofNat 32 (rwField s.fault.alertEn w 10 0) } }

/-- BB_CTL: FLUSH, ignored with REJECT while a flush or the background erase runs (R419). -/
def wrBbCtl (w : RegWrite) (s : State) : State :=
  match woField w 0 0 with
  | .acts 1 => if s.fault.flush.isSome || s.fault.erasing then reject w.addr s else startFlush s
  | _ => s

/-- PWR_STATUS: VIN_LOW and VIN_HIGH are W1C (R456). -/
def wrPwr (w : RegWrite) (s : State) : State :=
  { s with power := { s.power with
      vinLow := s.power.vinLow && (!w1c w 29 || setNow .vinLow s), vinHigh := s.power.vinHigh && (!w1c w 28 || setNow .vinHigh s) } }

/-- THERM_WARN, every field within its range (R447, R455). -/
def wrWarn (w : RegWrite) (s : State) : State :=
  let f := rwField s.power.warn w
  let ok := decide (90 ≤ f 31 24 ∧ f 31 24 ≤ 120) && decide (70 ≤ f 23 16 ∧ f 23 16 ≤ 95) &&
    decide (70 ≤ f 15 8 ∧ f 15 8 ≤ 100) && decide (70 ≤ f 7 0 ∧ f 7 0 ≤ 100)
  if ok then { s with power := { s.power with warn := BitVec.ofNat 32 (f 31 0) } } else reject w.addr s

/-- The data registers of the pegbox (R375). -/
def wrPegReg (w : RegWrite) (s : State) : State :=
  let p := s.peg
  match w.addr with
  | 0x2008 => { s with peg := { p with srcLo := BitVec.ofNat 32 (rwField p.srcLo w 31 0) } }
  | 0x200C => { s with peg := { p with srcHi := BitVec.ofNat 32 (rwField p.srcHi w 31 0) } }
  | 0x2010 => { s with peg := { p with foff := BitVec.ofNat 32 (rwField p.foff w 25 0) } }
  | 0x2014 => { s with peg := { p with len := BitVec.ofNat 32 (rwField p.len w 31 0) } }
  | _ => s

/-- PMC_GCTL.CLEAR: every value and OVF to 0; the occurrences of the nanosecond are added after it (R426,
R425). -/
def pmcClearAll (s : State) : State :=
  setPmc ((s.obs.pmc.map fun e => (e.1, { e.2 with value := 0, ovf := false })).filter fun e => decide (e.2 ≠ {})) s

/-- The freeze count (R426). -/
def freezeCount (s : State) : Nat := s.obs.frzLo.toNat + s.obs.frzHi.toNat * 2 ^ 32

/-- The freeze count is a tick of the length in force at it and lies after now (R426). -/
def freezeOk (s : State) : Bool :=
  let g := freezeCount s
  let len := match s.time.lenAt with | some t => if t ≤ g then s.time.len else s.time.cur | none => s.time.cur
  decide (s.time.gcount < g) && g % (len * 250) == 0

/-- Set or clear FREEZE and ARM. -/
def setFreeze (b : Bool) (s : State) : State := { s with obs := { s.obs with freeze := b } }
def setArm (b : Bool) (s : State) : State := { s with obs := { s.obs with arm := b } }

/-- PMC_GCTL (R426). A write of ARM = 1 at a count that does not qualify is ignored. Where the freeze count was reached in this
nanosecond, that update comes after the write (R468). -/
def wrGctl (w : RegWrite) (s : State) : State :=
  if w.mask.getLsbD 1 && w.value.getLsbD 1 && !freezeOk s then reject w.addr s
  else
    let s := match woField w 2 2 with | .acts 1 => pmcClearAll s | _ => s
    let s := if w.mask.getLsbD 1 then setArm (w.value.getLsbD 1) s else s
    let s := if w.mask.getLsbD 0 then setFreeze (w.value.getLsbD 0) s else s
    if setNow .freeze s then setFreeze true (setArm false s) else s

/-- Set SSEQ to 0 (R432). -/
def resetSseq (s : State) : State := { s with obs := { s.obs with sseq := 0 } }

/-- SMP_CTL with its ranges (R429, R432). -/
def wrSmpCtl (w : RegWrite) (s : State) : State :=
  let f := rwField s.obs.smpCtl w
  if f 27 23 < 6 ∨ 16 < f 27 23 ∨ 16 < f 20 16 then reject w.addr s
  else
    let v := packWord [(f 31 31, 31), (f 27 23, 23), (f 20 16, 16), (f 12 0, 0)]
    resetSseq { s with obs := { s.obs with smpCtl := v } }

/-- SMP_SOFF, SMP_DST_LO, SMP_DST_HI and the freeze count (R426, R429, R432). -/
def wrObsReg (w : RegWrite) (s : State) : State :=
  let o := s.obs
  match w.addr with
  | 0x3004 => { s with obs := { o with frzLo := BitVec.ofNat 32 (rwField o.frzLo w 31 0) } }
  | 0x3008 => { s with obs := { o with frzHi := BitVec.ofNat 32 (rwField o.frzHi w 31 0) } }
  | 0x3014 => { s with obs := { o with smpSoff := BitVec.ofNat 32 (rwField o.smpSoff w 15 0) } }
  | 0x3018 => resetSseq { s with obs := { o with smpLo := BitVec.ofNat 32 (rwField o.smpLo w 31 0) } }
  | 0x301C => resetSseq { s with obs := { o with smpHi := BitVec.ofNat 32 (rwField o.smpHi w 31 0) } }
  | _ => s

/-- Clear the sums of every port: the window in progress is discarded (R434). -/
def clearSums (s : State) : State :=
  let z := fun (b : BwPort) => { b with rxHi := 0, rxBulk := 0, txHi := 0, txBulk := 0, drops := 0, maxq := 0 }
  let bw := (s.obs.bw.map fun e => (e.1, z e.2)).filter fun e => decide (e.2 ≠ {})
  { s with obs := { s.obs with bw, bwOpen := none } }

/-- BW_CTL (R434): a change of WFR, and of EN from 0 to 1, discards the window in progress. -/
def wrBwCtl (w : RegWrite) (s : State) : State :=
  let f := rwField s.obs.bwCtl w
  if 100 < f 30 24 ∨ f 15 0 = 0 then reject w.addr s
  else
    let old := s.obs.bwCtl
    let v := packWord [(f 31 31, 31), (f 30 24, 24), (f 15 0, 0)]
    let s' := { s with obs := { s.obs with bwCtl := v } }
    if bits old.toNat 15 0 ≠ f 15 0 ∨ (!old.getLsbD 31 ∧ f 31 31 = 1) then clearSums s' else s'

/-- PMC_SEL (R421, R425). -/
def wrPmcSel (i : Nat) (w : RegWrite) (s : State) : State :=
  let p : Pmc := Table.get {} s.obs.pmc i
  let f := rwField p.sel w
  if 5 < f 29 27 ∨ !eventDefined (f 7 0) then reject w.addr s
  else
    let v := packWord [(f 31 31, 31), (f 30 30, 30), (f 29 27, 27), (f 23 8, 8), (f 7 0, 0)]
    let same := bits v.toNat 29 0 = bits p.sel.toNat 29 0
    if same then pmcModify i (fun p => { p with sel := v }) s
    else pmcModify i (fun p => { p with sel := v, value := 0, ovf := false, acc := 0, fresh := true }) s

/-- PMC_LO and PMC_HI (R422, R425): the write takes effect first, the occurrences of the nanosecond after. -/
def wrPmcValue (i k : Nat) (w : RegWrite) (s : State) : State :=
  let p : Pmc := Table.get {} s.obs.pmc i
  if k = 1 then
    let lo := rwField (p.value.setWidth 32) w 31 0
    pmcModify i (fun p => { p with value := BitVec.ofNat 48 (p.value.toNat / 2 ^ 32 * 2 ^ 32 + lo) }) s
  else
    let hi := rwField (pmcHi p) w 15 0
    let put := fun (p : Pmc) =>
      { p with value := BitVec.ofNat 48 (p.value.toNat % 2 ^ 32 + hi * 2 ^ 32), ovf := p.ovf && !w1c w 31 }
    pmcModify i (fun p => { put p with latch := pmcHi (put p) }) s

/-- Change a lane of a cascade port. -/
def laneModify (c n : Nat) (f : Lane → Lane) (s : State) : State :=
  cascModify c (fun k => { k with lanes := k.lanes.modify n f }) s

/-- LANE_EQ: SLIP moves the word boundary by 1 UI of 68, and AMLOCK must be found again on it; PEAK up to
48 (R341, R343). -/
def wrLane (c n : Nat) (w : RegWrite) (s : State) : State :=
  let l := (Table.get {} s.casc c : Casc).lanes.getD n {}
  let peak := rwField (laneWord l) w 5 0
  if bits w.mask.toNat 5 0 ≠ 0 ∧ 48 < peak then reject w.addr s
  else
    let s := laneModify c n (fun l => { l with peak }) s
    match woField w 8 8 with
    | .acts 1 => laneModify c n (fun l => { l with bound := (l.bound + 1) % 68, markers := 0, amlock := false }) s
    | _ => s

/-- The lanes of a port after its sleep bits change (R340): a set bit puts the lane to SLEEP, where RX keeps
its boundary; a cleared one lets TX be ACTIVE and RX begin in EQ. -/
def wakeLanes (k : Casc) (rx tx : BitVec 16) : Casc :=
  let step := fun (l : Lane) (n : Nat) =>
    { l with
      tx := if tx.getLsbD n then .sleep else .active,
      rx := if rx.getLsbD n then .sleep else if l.rx = .sleep then .eq else l.rx,
      amlock := l.amlock && !rx.getLsbD n, markers := if rx.getLsbD n then 0 else l.markers }
  { k with rxslp := rx, txslp := tx, lanes := k.lanes.zipIdx.map fun p => step p.1 p.2 }

/-- Bring TXUP and RXUP of a cascade port in line with its lanes (R358). -/
def syncCascPort (c : Nat) (s : State) : State :=
  let up := cascUp (Table.get {} s.casc c)
  portPut (512 + c) { portGet s (512 + c) with txup := up.1, rxup := up.2 } s

/-- Allocation of each class of the ingress buffer in units of 256 bytes (R350). -/
def fullCredit : List Nat := [16 * 4, 32 * 4, 112 * 4, 32 * 4, 32 * 4, 32 * 4]

/-- The space of the ingress buffer that packets of a class still hold, in credit units (R350): those whose rows have not run, and
those that wait there for their routing epoch. -/
def heldUnits (k : Casc) (waiting : List Packet) (c : Nat) : Nat :=
  ((k.inPkts.filter fun b => fld b 2 2 / 32 == c).map fun b => creditUnits b.length).sum +
  ((waiting.filter fun p => p.hdr.tc == c).map fun p => creditUnits (pktLen p)).sum

/-- A receive direction becomes ACTIVE: FSEQ starts again, and the whole allocation is to be returned, what packets still hold when
they leave (R350). -/
def rxStart (waiting : List Packet) (k : Casc) : Casc :=
  { k with rxSeq := 0, nakSent := false, owed := fullCredit.mapIdx fun c n => n - heldUnits k waiting c, inbuf := [] }

/-- A transmit direction becomes ACTIVE: it holds no credit and no flit (R350), and an IDLE flit goes out (R340). -/
def txStart (k : Casc) : Casc := { k with txSeq := 0, unacked := [], flitq := [], ends := [], sendq := [], credit := List.replicate 6 0, ackDue := true }

/-- A link's lanes change: directions that become ACTIVE start, TXUP and RXUP follow, markers go out when a transmitter leaves SLEEP
(R340), and what may be sent goes out. -/
def lanesChange (c : Nat) (f : Casc → Casc) (s : State) : State :=
  let k : Casc := Table.get {} s.casc c
  let k' := f k
  let waiting := (s.net.waiting.filter fun a => decide (a.link = .cascade c)).map (·.pkt)
  let k' := if (cascUp k').2 && !(cascUp k).2 then rxStart waiting k' else k'
  let k' := if (cascUp k').1 && !(cascUp k).1 then txStart k' else k'
  let woke := (k'.lanes.zip k.lanes).any fun p => p.1.tx == .active && p.2.tx != .active
  let s := syncCascPort c { s with casc := Table.put {} s.casc c k' }
  cascPump c (if woke then markerSend c (25 * s.time.gcount) s else s)

/-- Cascade port i of the island whose CASC_ID is i is unused (R335). -/
def ownLink (s : State) (c : Nat) : Bool := c == s.ctl.cascId % 4

/-- The sleep bits of a cascade port change, and its lanes with them; those of the unused port stay asleep (R335, R342). -/
def sleepBits (c : Nat) (rx tx : BitVec 16) (s : State) : State :=
  lanesChange c (fun k => if ownLink s c then { k with rxslp := rx, txslp := tx } else wakeLanes k rx tx) s

/-- CASC_CTL (R340, R342). -/
def wrCasc (c : Nat) (w : RegWrite) (s : State) : State :=
  let k : Casc := Table.get {} s.casc c
  let rx := BitVec.ofNat 16 (rwField (cascWord k) w 31 16)
  let tx := BitVec.ofNat 16 (rwField (cascWord k) w 15 0)
  if (portGet s (512 + c)).state = 2 ∧ ((rx &&& ~~~ k.rxslp) ≠ 0 ∨ (tx &&& ~~~ k.txslp) ≠ 0) then reject w.addr s
  else sleepBits c rx tx s

/-- A meter word (R327, R481): words 1 to 3 are staged; word 0 applies all and fills both buckets. -/
def wrMeter (i k : Nat) (w : RegWrite) (s : State) : State :=
  let m : Meter := Table.get {} s.meters i
  let put := fun (m : Meter) (s : State) => { s with meters := Table.put {} s.meters i m }
  match k with
  | 1 => put { m with s1 := BitVec.ofNat 32 (rwField m.s1 w 31 0) } s
  | 2 => put { m with s2 := BitVec.ofNat 32 (rwField m.s2 w 31 0) } s
  | 3 => put { m with s3 := BitVec.ofNat 32 (rwField m.s3 w 31 0) } s
  | _ =>
    let v := BitVec.ofNat 32 (rwField m.w0 w 31 0)
    let n : Meter := { m with w0 := v, w1 := m.s1, w2 := m.s2 }
    if bits v.toNat 1 0 = 3 ∨ bits v.toNat 23 3 ≠ 0 ∨ m.s3 ≠ 0 ∨ (meterPir n ≠ 0 ∧ bits v.toNat 1 0 ≠ 2) then reject w.addr s
    else put { n with tc := meterCbs n * 1000, tp := meterPbs n * 1000, at_ := s.time.gcount } s

/-- A word of the routing shadow window (R331, R482). -/
def wrShadow (chip k : Nat) (w : RegWrite) (s : State) : State :=
  if !s.routing.open_ then reject w.addr s
  else
    let r : Route := Table.get {} s.routing.shadow chip
    let v := BitVec.ofNat 32 (rwField (routeWord r k) w 31 0) &&& routeMask k
    { s with routing := { s.routing with shadow := Table.put {} s.routing.shadow chip (routeSet r k v) } }

end Sys2Proof.Machine
end

