-- ==== Sys2Proof/Machine/Pegbox.lean ====
section
/-! DEFINITION. The pegbox: the validity checks of trim record and configuration copies, and the ERASE,
PROGRAM, VERIFY and COMMIT commands (R361 to R377); with them, what a write to any register does (R467). -/

set_option Elab.async false

namespace Sys2Proof.Machine

/-! ## Images (R364 to R374) -/

/-- A trim record passes the checks of R366. -/
def trimOk (b : List Byte) : Bool :=
  fld b 0 0 == 2 && fld b 1 1 == 0x3C && fld b 3 2 == 0x0A64 && fld b 7 6 == 0x00A2 && fld b 19 16 == 20480 &&
  fld b 15 8 ≠ 0 && zeroBytes b 5 4 && zeroBytes b 63 24 &&
  fld b 23 20 == (crc32 ((b.drop 64).take 20480)).toNat &&
  (cut 256 80 (b.drop 64)).all fun d => fld d 0 0 == 0

/-- Where configuration copy `k` begins in the flash (R362). -/
def copyBase (k : Nat) : Nat := 0x100000 + k * 0x400000

/-- A LENGTH that some image can have (R369, R373 check 4). -/
def lengthFits (n : Nat) : Bool := decide (16704 ≤ n) && decide (n ≤ 16704 + 8 * 262144) && (n - 16704) % 8 == 0

/-- The bytes of a copy that its LENGTH claims, the header first (R369); the header alone where no image has that LENGTH,
which check 4 of R373 refuses. -/
def copyBytes (s : State) (k : Nat) : List Byte :=
  let h := flashRead s (copyBase k) 64
  if lengthFits (fld h 7 4) then flashRead s (copyBase k) (64 + fld h 7 4) else h

/-- The manager entries of an image (R371). -/
def imageManagers (b : List Byte) : List Manager :=
  (List.range 8).map fun x =>
    let o := 128 + 16 * x
    { valid := bit (fld b (o + 3) (o + 3)) 0, chip := fld b (o + 1) o, cqOff := fld b (o + 9) (o + 4),
      nqOff := fld b (o + 15) (o + 10) }

/-- A routing entry in the layout of R329. -/
def routeParse (b : List Byte) : Route :=
  (List.range 8).foldl (fun r k => routeSet r k (wordOf b k)) {}

/-- The reserved bits of a routing entry are 0 (R329). -/
def routeClean (b : List Byte) : Bool := (List.range 8).all fun k => wordOf b k &&& ~~~ routeMask k == 0

/-- The boot-route entry `i` of an image. -/
def bootRoute (b : List Byte) (i : Nat) : List Byte := slice b (8576 + 32 * i) 32

/-- NREGS and NROUTES of an image. -/
def imageNregs (b : List Byte) : Nat := fld b 83 80
def imageNroutes (b : List Byte) : Nat := fld b 87 84

/-- The register list of an image (R372). -/
def imageRegs (b : List Byte) : List RegWrite :=
  (List.range (imageNregs b)).map fun i =>
    let o := 16768 + 8 * i
    { addr := fld b (o + 3) o, value := BitVec.ofNat 32 (fld b (o + 7) (o + 4)), mask := 0xFFFFFFFF }

/-- A register that the map marks RW, other than ISL_CTL and the pegbox access registers (R373 check 9). -/
def regIsRw (a : Nat) : Bool :=
  a % 4 == 0 &&
  ([0x18, 0x1C, 0x20, 0x24, 0x38, 0x3C, 0x40, 0x44, 0x48, 0x4C, 0x1004, 0x1014, 0x3000, 0x3004, 0x3008, 0x3010, 0x3014,
      0x3018, 0x301C, 0x3020].contains a ||
    (decide (0x11000 ≤ a) && decide (a < 0x11110)) ||
    (decide (0x20000 ≤ a) && decide (a < 0x24400) && a % 16 ≠ 12) ||
    (decide (0x40000 ≤ a) && decide (a < 0x80000)) || (decide (0x600000 ≤ a) && decide (a < 0x800000)))

/-- Check 7 of R373: reserved fields, wiring entries, managers, admin key. -/
def imageFields (b : List Byte) : Bool :=
  zeroBytes b 127 88 && zeroBytes b 79 77 && fld b 76 76 < 2 && fld b 75 75 < 16 &&
  fld b 74 74 / 64 % 2 == 0 && fld b 74 74 / 4 % 4 == 0 && zeroBytes b 319 288 &&
  (List.range 8).all (fun x => fld b (130 + 16 * x) (130 + 16 * x) == 0 && fld b (131 + 16 * x) (131 + 16 * x) < 2) &&
  (cut 16 516 (b.drop 320)).all (fun e => fld e 0 0 == 2 && fld e 1 1 ≤ 3 && fld e 2 2 == 0 && fld e 3 3 < 4) &&
  (List.range 256).all (fun i => routeClean (bootRoute b i)) &&
  (imageManagers b).any (·.valid) && !zeroBytes b 287 256

/-- Check 8 of R373: the boot routes, whose ports are ports of the island (R329). -/
def imageRoutes (b : List Byte) : Bool :=
  let rs := (List.range (imageNroutes b)).map (bootRoute b)
  let chips := rs.map fun r => fld r 9 8
  let own := fld b 73 72
  chips.eraseDups.length == chips.length && rs.all (fun r => (routeParse r).portList.all fun p => decide (p < 516)) &&
  rs.any (fun r => fld r 9 8 == own && (routeParse r).self) &&
  (imageManagers b).all (fun m => !m.valid || rs.any fun r => fld r 9 8 == m.chip && (routeParse r).valid) &&
  zeroBytes b 16767 (8576 + 32 * imageNroutes b)

/-- Check 10 of R373: the cascade domain. -/
def imageDomain (b : List Byte) : Bool :=
  let c := fld b 74 74
  let d := fld b 75 75
  !bit c 7 || (decide (2 ≤ ((List.range 4).filter fun i => bit d i).length) && bit d (c % 4) && bit d (c / 16 % 4))

/-- The checks of R373 in order with their numbers, for the island of an ID. -/
def imageChecks (b : List Byte) (id : BitVec 64) : List (Nat × Bool) :=
  let seq := fld b 15 8
  [(1, fld b 0 0 == 2 && fld b 1 1 == 0xA7 && zeroBytes b 3 2 && zeroBytes b 63 24),
   (2, fld b 23 20 == 0),
   (3, seq ≠ 0 && seq ≠ 2 ^ 64 - 1),
   (4, decide (imageNregs b ≤ 262144) && decide (1 ≤ imageNroutes b ∧ imageNroutes b ≤ 256) &&
      fld b 7 4 == 16704 + 8 * imageNregs b),
   (5, fld b 19 16 == (crc32 (b.drop 64)).toNat),
   (6, fld b 71 64 == id.toNat),
   (7, imageFields b),
   (8, imageRoutes b),
   (9, (imageRegs b).all fun w => regIsRw w.addr),
   (10, imageDomain b)]

/-- The first check that fails, among those left by a filter. -/
def imageFail (b : List Byte) (id : BitVec 64) (p : Nat → Bool) : Option Nat :=
  ((imageChecks b id).find? fun c => p c.1 && !c.2).map (·.1)

/-- A committed, valid copy (R373). -/
def copyValid (s : State) (k : Nat) (id : BitVec 64) : Bool := (imageFail (copyBytes s k) id fun _ => true).isNone

/-- SEQ of a copy (R369). -/
def copySeq (s : State) (k : Nat) : Nat := fld (flashRead s (copyBase k) 64) 15 8

/-- The copy in use (R374): the valid one with the greater SEQ, copy 0 where both have the same. -/
def activeCopy (s : State) (id : BitVec 64) : Option Nat :=
  match copyValid s 0 id, copyValid s 1 id with
  | true, true => if copySeq s 0 < copySeq s 1 then some 1 else some 0
  | true, false => some 0
  | false, true => some 1
  | false, false => none

/-- What an image gives the island (R351, R368 to R371). -/
def imageIdentity (b : List Byte) (id : BitVec 64) : Identity :=
  let c := fld b 74 74
  let wire := fun i : Nat =>
    let o := 320 + 16 * i
    let fl := fld b (o + 3) (o + 3)
    ({ kind := fld b (o + 1) (o + 1), allowRev1 := bit fl 0, tup := bit fl 1, chip := fld b (o + 5) (o + 4),
       expPort := fld b (o + 7) (o + 6), expId := BitVec.ofNat 64 (fld b (o + 15) (o + 8)) } : Wiring)
  { islandId := id, chip := fld b 73 72, pegseq := BitVec.ofNat 64 (fld b 15 8), adminKey := slice b 256 32,
    managers := imageManagers b, wiring := (List.range 516).foldl (fun t i => Table.put {} t i (wire i)) [],
    cascaded := bit c 7, masterCasc := c / 16 % 4, ownCasc := c % 4, domain := fld b 75 75,
    timeRoot := bit (fld b 76 76) 0 }

/-! ## The commands of PEG_CMD (R375 to R377) -/

/-- Replace the pegbox state. -/
def setPeg (p : Peg) (s : State) : State := { s with peg := p }

/-- A command ends at once with a RESULT. -/
def pegResult (r : Nat) (s : State) : State := setPeg { s.peg with result := r } s

/-- The region of the inactive copy. -/
def inactiveBase (s : State) : Nat := copyBase (1 - s.ctl.pegcopy)

/-- The range of PEG_FOFF and PEG_LEN lies in the inactive copy's region (R375). -/
def pegRangeOk (s : State) : Bool :=
  decide (inactiveBase s ≤ s.peg.foff.toNat) && decide (s.peg.foff.toNat + s.peg.len.toNat ≤ inactiveBase s + 0x400000) &&
  decide (s.peg.len.toNat ≤ 0x400000)

/-- Both bounds of the range are multiples of a unit. -/
def pegAligned (n : Nat) (s : State) : Bool := s.peg.foff.toNat % n == 0 && s.peg.len.toNat % n == 0

/-- A command begins to run: BUSY (R376), on the range that the registers hold now (R375; DESIGN CHOICE, log entry 72). -/
def pegBegin (c : Nat) (s : State) : State :=
  setPeg { s.peg with cmd := some c, runOff := s.peg.foff.toNat, runLen := s.peg.len.toNat, buf := [], failed := false } s

/-- ERASE: the range and its alignment are checked, then the command runs (R375, R377). -/
def pegStartErase (s : State) : State :=
  if !pegRangeOk s then pegResult 1 s
  else if !pegAligned 65536 s then pegResult 2 s
  else setPeg { (pegBegin 1 s).peg with verified := false } s

/-- PROGRAM: as ERASE, and the source is read in TC1 (R375, R377). -/
def pegStartProgram (s : State) : State :=
  if !pegRangeOk s then pegResult 1 s
  else if !pegAligned 256 s then pegResult 2 s
  else
    let chip := bits s.peg.srcHi.toNat 31 16
    let off := s.peg.srcLo.toNat + bits s.peg.srcHi.toNat 15 0 * 2 ^ 32
    sendReads 1 chip off s.peg.len.toNat 0 .peg (setPeg { (pegBegin 2 s).peg with verified := false } s)

/-- VERIFY runs over the inactive copy (R377). -/
def pegStartVerify (s : State) : State := pegBegin 3 s

/-- COMMIT runs only after a VERIFY that passed (R377). -/
def pegStartCommit (s : State) : State := if s.peg.verified then pegBegin 4 s else pegResult 7 s

/-- PEG_CMD (R376): ignored with REJECT while BUSY, and for a reserved value. -/
def wrPegCmd (w : RegWrite) (s : State) : State :=
  match woField w 7 0 with
  | .acts v =>
    if s.peg.cmd.isSome then reject w.addr s
    else match v with
      | 1 => pegStartErase s
      | 2 => pegStartProgram s
      | 3 => pegStartVerify s
      | 4 => pegStartCommit s
      | _ => reject w.addr s
  | _ => s

/-- Bytes that a flash error leaves undefined: free values, one for each (R377; log entry 7). -/
def flashUnknown (off len : Nat) (s : State) : State :=
  let bs := (List.range len).map fun i => Config.freeByte (s.freeCtr + i)
  setPeg { s.peg with flash := Table.putAll 0xFF s.peg.flash off bs } { s with freeCtr := s.freeCtr + len }

/-- The source bytes read for PROGRAM, if every READ has been answered. -/
def pegSource (s : State) : Option (List Byte) :=
  let n := (s.peg.runLen + 4095) / 4096
  let part := fun i => (s.peg.buf.find? fun b => b.1 == 4096 * i).map (·.2)
  if (List.range n).all fun i => (part i).isSome then some ((List.range n).flatMap fun i => (part i).getD []) else none

/-- ERASE ends. -/
def pegEndErase (ok : Bool) (s : State) : State :=
  let r := if ok then flashErase s.peg.runOff s.peg.runLen s
    else flashUnknown s.peg.runOff s.peg.runLen s
  setPeg { r.peg with cmd := none, result := if ok then 0 else 3 } r

/-- PROGRAM ends, once its source is read or refused. -/
def pegEndProgram (ok : Bool) (s : State) : State :=
  if s.peg.failed then setPeg { s.peg with cmd := none, result := 4, buf := [] } s
  else match pegSource s with
    | none => s
    | some bs =>
      let r := if ok then flashProgram s.peg.runOff bs s else flashUnknown s.peg.runOff s.peg.runLen s
      setPeg { r.peg with cmd := none, result := if ok then 0 else 3, buf := [] } r

/-- VERIFY ends with the first failing check, or with the condition on SEQ (R377). -/
def pegEndVerify (ok : Bool) (s : State) : State :=
  let k := 1 - s.ctl.pegcopy
  let p := s.peg
  if !ok then setPeg { p with cmd := none, result := 3 } s
  else match imageFail (copyBytes s k) s.ctl.id.islandId fun n => n ≠ 2 with
    | some n => setPeg { p with cmd := none, result := 6, vcheck := n } s
    | none =>
      if s.ctl.id.pegseq.toNat < copySeq s k then setPeg { p with cmd := none, result := 0, vcheck := 0, verified := true } s
      else setPeg { p with cmd := none, result := 6, vcheck := Config.vcheckSeq.toNat } s

/-- COMMIT ends: the COMMIT field of the inactive copy is programmed to 0 (R377). -/
def pegEndCommit (ok : Bool) (s : State) : State :=
  let off := inactiveBase s + 20
  let r := if ok then flashProgram off (le 4 0) s else flashUnknown off 4 s
  setPeg { r.peg with cmd := none, result := if ok then 0 else 3 } r

/-- The island's registers can be reached: from TUNING on (R470). -/
def regsUp (s : State) : Bool := s.ctl.state ≠ .off && s.ctl.state ≠ .reset

/-- Do something only where the registers can be reached (log entry 2). -/
def whenUp (f : State → State) (s : State) : State := if regsUp s then f s else s

/-- PEG_CMD written with a command code. -/
def pegWrite (v : Nat) : RegWrite := { addr := 0x2000, value := BitVec.ofNat 32 v, mask := 0xFF }

/-- ERASE (R377). -/
def execPegErase (s : State) : Host.Outcome State Fault Refusal := .next (whenUp (wrPegCmd (pegWrite 1)) s)

/-- PROGRAM (R377). -/
def execPegProgram (s : State) : Host.Outcome State Fault Refusal := .next (whenUp (wrPegCmd (pegWrite 2)) s)

/-- VERIFY (R377). -/
def execPegVerify (s : State) : Host.Outcome State Fault Refusal := .next (whenUp (wrPegCmd (pegWrite 3)) s)

/-- COMMIT (R377). -/
def execPegCommit (s : State) : Host.Outcome State Fault Refusal := .next (whenUp (wrPegCmd (pegWrite 4)) s)

/-- PEG_COMMAND_END (R376): the running command ends; `flashOk` is the device's answer. -/
def execPegCommandEnd (flashOk : Bool) (s : State) : Host.Outcome State Fault Refusal :=
  .next (match s.peg.cmd with
    | some 1 => pegEndErase flashOk s
    | some 2 => pegEndProgram flashOk s
    | some 3 => pegEndVerify flashOk s
    | some 4 => pegEndCommit flashOk s
    | _ => s)

/-! ## Register writes (R467) -/

/-- A write to a register of the first four blocks. -/
def controlWrite (w : RegWrite) (s : State) : State :=
  match w.addr with
  | 0x0004 => wrStatus w s
  | 0x0008 => wrIslCtl w s
  | 0x0018 => wrFrameLen w s
  | 0x001C => wrDet w s
  | 0x0020 => wrTsyncCtl w s
  | 0x0024 => wrTsyncPer w s
  | 0x0038 => wrPizzTmo w s
  | 0x003C => wrE2eRto w s
  | 0x0040 => wrE2eTries w s
  | 0x0044 => wrThrLo w s
  | 0x0048 => wrThrHi w s
  | 0x004C => wrCeThr w s
  | 0x1004 => wrAlertEn w s
  | 0x1008 => wrBbCtl w s
  | 0x1010 => wrPwr w s
  | 0x1014 => wrWarn w s
  | 0x2000 => wrPegCmd w s
  | 0x2008 | 0x200C | 0x2010 | 0x2014 => wrPegReg w s
  | 0x3000 => wrGctl w s
  | 0x3004 | 0x3008 | 0x3014 | 0x3018 | 0x301C => wrObsReg w s
  | 0x3010 => wrSmpCtl w s
  | 0x3020 => wrBwCtl w s
  | _ => s

/-- A write covers part of a WO field only, which sets REJECT (R467). -/
def partialWo (w : RegWrite) : Bool :=
  let part := fun hi lo => woField w hi lo == .part
  w.addr == 0x2000 && part 7 0

/-- A WRITE_REG, or an entry of the register list, to any register (R467, R470, R482, R484, R486). -/
def regWrite (w : RegWrite) (s : State) : State :=
  let a := w.addr
  if cutOff s a then reject a s
  else if partialWo w then reject a s
  else if a < 0x10000 then controlWrite w s
  else if 0x11000 ≤ a ∧ a < 0x11100 then wrLane ((a - 0x11000) / 64) ((a - 0x11000) % 64 / 4) w s
  else if 0x11100 ≤ a ∧ a < 0x11110 then wrCasc ((a - 0x11100) / 4) w s
  else if 0x20000 ≤ a ∧ a < 0x24400 then
    let i := (a - 0x20000) / 16
    match a % 16 with
    | 0 => wrPmcSel i w s
    | 4 => wrPmcValue i 1 w s
    | 8 => wrPmcValue i 2 w s
    | _ => s
  else if 0x40000 ≤ a ∧ a < 0x80000 then wrMeter ((a - 0x40000) / 16) (a % 16 / 4) w s
  else if 0x600000 ≤ a ∧ a < 0x800000 then wrShadow ((a - 0x600000) / 32) (a % 32 / 4) w s
  else s

/-- A register write as a row of its own, where it names one of the row's registers (log entry 2). -/
def regRow (p : Nat → Bool) (w : RegWrite) (s : State) : State :=
  if regsUp s && w.addr % 4 == 0 && p w.addr then regWrite w s else s

/-- SWRESET: a write of ISL_CTL (R379, R474). -/
def execSwresetWrite (w : RegWrite) (s : State) : Host.Outcome State Fault Refusal := .next (regRow (· == 0x0008) w s)

/-- FRAME_LEN_WRITE (R51, R475). -/
def execFrameLenWrite (w : RegWrite) (s : State) : Host.Outcome State Fault Refusal := .next (regRow (· == 0x0018) w s)

/-- TSYNC_CTL_WRITE (R476). -/
def execTsyncCtlWrite (w : RegWrite) (s : State) : Host.Outcome State Fault Refusal := .next (regRow (· == 0x0020) w s)

/-- GCOUNT_LO_READ (R40): GCOUNT_HI is latched. -/
def execGcountLoRead (s : State) : Host.Outcome State Fault Refusal := .next (whenUp (fun s => (regRead 0x0010 s).2) s)

/-- PMC_LO_READ (R422): PMC_HI and OVF of the same value are latched. -/
def execPmcLoRead (i : Nat) (s : State) : Host.Outcome State Fault Refusal :=
  .next (whenUp (fun s => if i < 1088 then (regRead (0x20004 + 16 * i) s).2 else s) s)

/-- A register of the performance counters at one of the offsets within a counter. -/
def pmcAddr (k a : Nat) : Bool := decide (0x20000 ≤ a) && decide (a < 0x24400) && a % 16 == k

/-- PMC_SEL_WRITE (R421, R425). -/
def execPmcSelWrite (w : RegWrite) (s : State) : Host.Outcome State Fault Refusal := .next (regRow (pmcAddr 0) w s)

/-- PMC_VALUE_WRITE (R425). -/
def execPmcValueWrite (w : RegWrite) (s : State) : Host.Outcome State Fault Refusal :=
  .next (regRow (fun a => pmcAddr 4 a || pmcAddr 8 a) w s)

/-- PMC_CLEAR: a write of PMC_GCTL that covers CLEAR (R426). -/
def execPmcClear (w : RegWrite) (s : State) : Host.Outcome State Fault Refusal :=
  .next (if w.mask.getLsbD 2 then regRow (· == 0x3000) w s else s)

/-- PMC_ARM: a write of PMC_GCTL that covers ARM (R426). -/
def execPmcArm (w : RegWrite) (s : State) : Host.Outcome State Fault Refusal :=
  .next (if w.mask.getLsbD 1 then regRow (· == 0x3000) w s else s)

/-- PMC_FREEZE: a write of PMC_GCTL that covers FREEZE (R426). -/
def execPmcFreeze (w : RegWrite) (s : State) : Host.Outcome State Fault Refusal :=
  .next (if w.mask.getLsbD 0 then regRow (· == 0x3000) w s else s)

/-- PMC_ARM_FIRE (R426): the freeze count is reached; ARM clears and FREEZE becomes 1. -/
def execPmcArmFire (s : State) : Host.Outcome State Fault Refusal :=
  .next (if s.obs.arm && decide (freezeCount s ≤ s.time.gcount) then noteSet .freeze (setFreeze true (setArm false s)) else s)

/-- BW_CTL_WRITE (R434). -/
def execBwCtlWrite (w : RegWrite) (s : State) : Host.Outcome State Fault Refusal := .next (regRow (· == 0x3020) w s)

/-- SMP_CTL_WRITE (R429, R432): a write of SMP_CTL or of the sampling destination. -/
def execSmpCtlWrite (w : RegWrite) (s : State) : Host.Outcome State Fault Refusal :=
  .next (regRow (fun a => a == 0x3010 || a == 0x3018 || a == 0x301C) w s)

/-- SLIP_WRITE: a write of LANE_EQ (R341). -/
def execSlipWrite (w : RegWrite) (s : State) : Host.Outcome State Fault Refusal :=
  .next (regRow (fun a => decide (0x11000 ≤ a) && decide (a < 0x11100)) w s)

/-- CASC_CTL_WRITE (R342). -/
def execCascCtlWrite (w : RegWrite) (s : State) : Host.Outcome State Fault Refusal :=
  .next (regRow (fun a => decide (0x11100 ≤ a) && decide (a < 0x11110)) w s)

/-- METER_WORD0_WRITE (R481). -/
def execMeterWord0Write (w : RegWrite) (s : State) : Host.Outcome State Fault Refusal :=
  .next (regRow (fun a => decide (0x40000 ≤ a) && decide (a < 0x80000) && a % 16 == 0) w s)

/-- METER_STAGED_WRITE (R481). -/
def execMeterStagedWrite (w : RegWrite) (s : State) : Host.Outcome State Fault Refusal :=
  .next (regRow (fun a => decide (0x40000 ≤ a) && decide (a < 0x80000) && a % 16 ≠ 0) w s)

/-- ROUTING_SHADOW_WRITE (R482). -/
def execRoutingShadowWrite (w : RegWrite) (s : State) : Host.Outcome State Fault Refusal :=
  .next (regRow (fun a => decide (0x600000 ≤ a) && decide (a < 0x800000)) w s)

/-- FLUSH: BB_CTL is written with FLUSH (R418, R419). -/
def execFlush (s : State) : Host.Outcome State Fault Refusal :=
  .next (whenUp (regWrite { addr := 0x1008, value := 1, mask := 1 }) s)

end Sys2Proof.Machine
end

