-- ==== Sys2Proof/Machine/Descriptors.lean ====
section
/-! DEFINITION. Descriptors: their 64 bytes, and the checks of R255 in order (R75, R77, R128 to R131, R169,
R200, R206, R215, R216, R219, R246 to R248, R256). -/

set_option Elab.async false

namespace Sys2Proof.Machine

/-! ## Fields (R246) -/

/-- Read a descriptor. -/
def descParse (b : List Byte) : Desc :=
  let c := fld b 2 2
  { ver := fld b 0 0, opcode := fld b 1 1, rmode := bits c 1 0, satfin := bit c 2, entsr := bit c 3, ctlRsvd := bits c 7 4,
    hbase := signed 8 (fld b 3 3), dseq := BitVec.ofNat 32 (fld b 7 4), opid := fld b 10 8,
    sched := bits (fld b 11 11) 3 0, schedRsvd := bits (fld b 11 11) 7 4, group := bits (fld b 13 12) 12 0,
    groupRsvd := bits (fld b 13 12) 15 13, fmt := fld b 14 14, ofmt := fld b 15 15,
    operand := BitVec.ofNat 128 (fld b 31 16), scale := BitVec.ofNat 32 (fld b 35 32),
    tensorId := BitVec.ofNat 32 (fld b 39 36), step := BitVec.ofNat 32 (fld b 43 40), elemBase := fld b 48 44,
    srcOff := fld b 54 49, dstOff := fld b 60 55, topRsvd := fld b 63 61 }

/-- A descriptor as 64 bytes. -/
def descBytes (d : Desc) : List Byte :=
  le 1 d.ver ++ le 1 d.opcode ++ le 1 (d.rmode + flag d.satfin 2 + flag d.entsr 3 + d.ctlRsvd * 16) ++
  le 1 (unsigned 8 d.hbase) ++ le 4 d.dseq.toNat ++ le 3 d.opid ++ le 1 (d.sched + d.schedRsvd * 16) ++
  le 2 (d.group + d.groupRsvd * 8192) ++ le 1 d.fmt ++ le 1 d.ofmt ++ le 16 d.operand.toNat ++ le 4 d.scale.toNat ++
  le 4 d.tensorId.toNat ++ le 4 d.step.toNat ++ le 5 d.elemBase ++ le 6 d.srcOff ++ le 6 d.dstOff ++ le 3 d.topRsvd

/-- Bytes `hi` to `lo` of a descriptor's operand area, by their place in the descriptor. -/
def operandField (d : Desc) (hi lo : Nat) : Nat := bits d.operand.toNat (8 * hi - 121) (8 * lo - 128)

/-- The operand area of a collective (R246). -/
def dCount (d : Desc) : Nat := operandField d 20 16
def dRedop (d : Desc) : Nat := operandField d 21 21 % 16
def dK (d : Desc) : Nat := operandField d 22 22
def dSegl (d : Desc) : Nat := operandField d 23 23
def dRoot (d : Desc) : Nat := operandField d 25 24
def dNsteps (d : Desc) : Nat := operandField d 27 26
def dChl (d : Desc) : Nat := operandField d 28 28

/-- The step values of an UPDATE (R206). -/
def dLr (d : Desc) : BitVec 32 := BitVec.ofNat 32 (operandField d 19 16)
def dGscale (d : Desc) : BitVec 32 := BitVec.ofNat 32 (operandField d 23 20)
def dBc1 (d : Desc) : BitVec 32 := BitVec.ofNat 32 (operandField d 27 24)
def dBc2 (d : Desc) : BitVec 32 := BitVec.ofNat 32 (operandField d 31 28)

/-! ## Opcodes (R128) -/

/-- A defined opcode. -/
def opcodeDefined (c : Nat) : Bool := decide (1 ≤ c ∧ c ≤ 0x0A) || decide (0x10 ≤ c ∧ c ≤ 0x14)

/-- ALLREDUCE, REDUCE and REDSCAT. -/
def isReduction (c : Nat) : Bool := decide (1 ≤ c ∧ c ≤ 3)

/-- The collectives that carry data: all of 0x01 to 0x0A but BARRIER. -/
def isData (c : Nat) : Bool := decide (1 ≤ c ∧ c ≤ 0x0A) && c ≠ 7

/-- A floating-point sum (R94): a reduction by SUM of a floating-point format. -/
def isFloatSum (z : ZsiOp) : Bool := isReduction z.opcode && z.redop == 0 && isFloat z.fmt

/-! ## The checks of R255 -/

/-- The STATUS and DETAIL a failed check gives (R256): MALFORMED with a reason at an offset. -/
def malformed (reason off : Nat) : Nat × Word := (5, BitVec.ofNat 32 (reason * 256 + off))

/-- The offset of the first field of a list that is marked as offending. -/
def firstBad (l : List (Nat × Bool)) : Option Nat := (l.find? fun p => p.2).map (·.1)

/-- The operation a descriptor names is a WPULL that the ZSI marks single (R247). -/
def namesSingle (s : State) (d : Desc) : Bool :=
  match zsiOp s d.sched d.opid with
  | some z => match z.extra with | .wpull w => w.single | _ => false
  | none => false

/-- Check 2: reserved fields, and the fields that R247 requires to be 0, in byte order; where OPCODE holds no
defined code only those whose place does not depend on it. -/
def checkReserved (s : State) (d : Desc) : Option Nat :=
  let c := d.opcode
  let f := fun hi lo => decide (operandField d hi lo ≠ 0)
  let noData := c == 7 || c == 0x10 || c == 0x11 || c == 0x14
  if !opcodeDefined c then
    firstBad [(2, decide (d.ctlRsvd ≠ 0)), (11, decide (d.schedRsvd ≠ 0)), (12, decide (d.groupRsvd ≠ 0)),
      (61, decide (d.topRsvd ≠ 0))]
  else
    firstBad
      [(2, decide (d.ctlRsvd ≠ 0) || (c == 0x10 && (decide (d.rmode ≠ 0) || d.satfin || d.entsr))),
       (11, decide (d.schedRsvd ≠ 0)), (12, decide (d.groupRsvd ≠ 0)),
       (14, (noData || c == 0x12 || c == 0x13) && decide (d.fmt ≠ 0)),
       (15, noData && decide (d.ofmt ≠ 0)),
       (16, (c == 0x10 || c == 0x11 || c == 0x14) && f 31 16),
       (16, c == 0x13 && f 23 16),
       (21, decide (c ≤ 0x0A) && (decide (operandField d 21 21 / 16 ≠ 0) || (!isReduction c && f 21 21))),
       (22, decide (c ≤ 0x0A) && c ≠ 0x0A && f 22 22),
       (23, decide (c ≤ 0x0A) && c ≠ 0x0A && f 23 23),
       (24, ((decide (c ≤ 0x0A) && c ≠ 2 && c ≠ 5) || (c == 0x13 && !namesSingle s d)) && f 25 24),
       (26, c == 0x13 && f 31 26),
       (29, decide (c ≤ 0x0A) && f 31 29),
       (32, (c == 7 || c == 0x11 || c == 0x13 || c == 0x14) && decide (d.scale ≠ 0)),
       (44, c == 0x10 && decide (d.elemBase ≠ 0)),
       (49, c == 0x10 && decide (d.srcOff ≠ 0)),
       (55, c == 0x10 && decide (d.dstOff ≠ 0)),
       (61, decide (d.topRsvd ≠ 0))]

/-- Check 3: the codes of OPCODE, RMODE, FMT, OFMT and REDOP are defined. -/
def checkCodes (d : Desc) : Option Nat :=
  let c := d.opcode
  firstBad
    [(1, !opcodeDefined c), (2, d.rmode == 3), (14, isData c && !fmtDefined d.fmt),
     (15, (isData c || c == 0x12 || c == 0x13) && !fmtDefined d.ofmt), (21, isReduction c && decide (5 < dRedop d))]

/-- The shard of a job that holds a range of a tensor on this island. -/
def shardOf (s : State) (job wtensor e0 count : Nat) : Option Shard :=
  s.shards.find? fun h => h.job == job && h.sdef.wtensor == wtensor && decide (h.sdef.e0 ≤ e0) &&
    decide (e0 + count ≤ h.sdef.e0 + 4096 * h.sdef.nb)

/-- log₂ of a power of two. -/
def exactLog (x : Nat) : Nat := Nat.log2 x

/-- Check 5: the position in the queue's list (reason 0x06), then the fields of the ZSI (reason 0x03), in
byte order (R134, R168, R205, R247, R248). -/
def checkZsi (s : State) (q : Nat) (d : Desc) : Option (Nat × Nat) :=
  match nextOp s q with
  | none => some (0x06, 8)
  | some (slot, opid) =>
    if d.opid ≠ opid then some (0x06, 8)
    else if d.sched ≠ slot then some (0x06, 11)
    else match zsiOp s slot opid with
      | none => some (0x06, 8)
      | some z =>
        let data := isData z.opcode
        let coll := decide (z.opcode ≤ 0x0A)
        let copyFmt : Option Nat := match z.extra with
          | .update u => some u.ofmt
          | .wpull w => (shardOf s (queueGet s q).job w.wtensor w.e0 w.count).map fun h => h.sdef.ofmt
          | _ => none
        let tensor : Option Nat := match z.extra with
          | .wgrad g => some g.wtensor
          | .stash w => some w
          | .update u => some u.wtensor
          | .wpull w => some w.wtensor
          | _ => none
        let root : Bool := match z.extra with
          | .wpull w => w.single && dRoot d ≠ w.root
          | _ => (z.opcode == 2 || z.opcode == 5) && dRoot d ≠ z.root
        (firstBad
          [(1, d.opcode ≠ z.opcode), (12, d.group ≠ z.group), (14, data && d.fmt ≠ z.fmt),
           (15, (data && d.ofmt ≠ z.ofmt) || (copyFmt.map fun f => decide (d.ofmt ≠ f)).getD false),
           (16, coll && dCount d ≠ z.count), (21, isReduction z.opcode && dRedop d ≠ z.redop),
           (22, z.opcode == 0x0A && dK d ≠ z.k), (23, z.opcode == 0x0A && dSegl d ≠ z.segl), (24, root),
           (26, coll && dNsteps d ≠ z.nsteps), (28, coll && dChl d ≠ z.chl),
           (36, (tensor.map fun w => decide (d.tensorId ≠ BitVec.ofNat 32 w)).getD false)]).map fun o => (0x03, o)

/-- R131 for a collective that carries data, in byte order; an MX block of a REDSCAT is whole groups too (R68). -/
def checkCounts (n : Nat) (d : Desc) : List (Nat × Bool) :=
  let c := dCount d
  let mx := isMx d.fmt || isMx d.ofmt
  [(16, c == 0 || decide (2 ^ 32 < c) || (d.opcode == 3 && c % n ≠ 0) || (mx && c % 1024 ≠ 0) ||
      (d.opcode == 3 && isMx d.ofmt && c / n % 1024 ≠ 0) ||
      (d.opcode == 0x0A && decide (dSegl d ≤ 24) && c % 2 ^ dSegl d ≠ 0)),
   (22, d.opcode == 0x0A && !decide (1 ≤ dK d ∧ dK d ≤ 16)), (23, d.opcode == 0x0A && decide (24 < dSegl d)),
   (24, (d.opcode == 2 || d.opcode == 5) && decide (n ≤ dRoot d))]

/-- R75: SCALE is a positive normal FP32 value, and 1.0 for integer results. -/
def scaleBad (d : Desc) : Bool :=
  if isData d.opcode && isInt d.ofmt then decide (d.scale ≠ 0x3F800000)
  else (isData d.opcode || d.opcode == 0x10 || d.opcode == 0x12) && !fp32PosNormal d.scale

/-- R206 for an UPDATE, in byte order. -/
def checkUpdate (u : UpdateDef) (d : Desc) : List (Nat × Bool) :=
  let bc := fun b => !fp32AtLeastOne b || (decide (u.opt < 2) && decide (b ≠ 0x3F800000))
  [(16, !fp32ZeroOrNormal (dLr d)), (20, !fp32PosNormal (dGscale d)), (24, bc (dBc1 d)), (28, bc (dBc2 d)),
   (44, decide (d.elemBase ≠ u.e0))]

/-- R219: a re-issued UPDATE carries the step values that were recorded for its range and STEP. -/
def checkStepRec (h : Shard) (u : UpdateDef) (d : Desc) : List (Nat × Bool) :=
  match h.stepRecs.find? fun r => recordOf u r && decide (r.step = d.step) with
  | some r =>
    if h.epoch = d.step then
      [(16, decide (dLr d ≠ r.lr)), (20, decide (dGscale d ≠ r.gscale)), (24, decide (dBc1 d ≠ r.bc1)),
       (28, decide (dBc2 d ≠ r.bc2))]
    else []
  | none => []

/-- The job's loaded ZSIs have DET=1 (R234). -/
def jobIsDet (s : State) (job : Nat) : Bool :=
  s.zsis.any fun e => match e.2 with | some z => z.job == job && z.det | none => false

/-- Check 6: the value rules of R75, R131, R206, R215, R216 and R219 (reason 0x04), and the DET rule of R81
(reason 0x08), the first field in byte order. DEDUCED (log entry 52): R81 ignores ENTSR unless RMODE is SR, so ENTSR with another RMODE
is no error under DET=1 either. -/
def checkValues (s : State) (q : Nat) (d : Desc) (z : ZsiOp) : Option (Nat × Nat) :=
  let job := (queueGet s q).job
  let rules : List (Nat × Bool) := match z.extra with
    | .update u =>
      checkUpdate u d ++ match shardOf s job u.wtensor u.e0 u.count with
        | some h => checkStepRec h u d ++ [(40, decide (h.epoch.toNat < d.step.toNat) || d.step == 0xFFFFFFFF)]
        | none => []
    | .wpull w =>
      [(44, decide (d.elemBase ≠ w.e0))] ++ match shardOf s job w.wtensor w.e0 w.count with
        | some h => [(40, decide (h.epoch.toNat + 1 < d.step.toNat))]
        | none => []
    | _ => if isData d.opcode then checkCounts (groupGet s d.group).nmem d else []
  let all := (32, scaleBad d) :: rules
  let bad := all.filterMap fun r => if r.2 then some r.1 else none
  let first := match bad with | [] => none | b :: bs => some (bs.foldl min b)
  let det := d.entsr && d.rmode == 2 && jobIsDet s job
  match first with
  | none => if det then some (0x08, 2) else none
  | some o => if det then some (0x08, 2) else some (0x04, o)

/-- Two tile blocks of one tensor share a tile (R168). -/
def blocksMeet (a b : WgradDef) : Bool :=
  decide (a.rowp0 < b.rowp0 + b.nrowp) && decide (b.rowp0 < a.rowp0 + a.nrowp) &&
  decide (a.colp0 < b.colp0 + b.ncolp) && decide (b.colp0 < a.colp0 + a.ncolp)

/-- Check 7: another WGRAD that was started and not discarded, and whose UPDATE has not completed, has the
WTENSOR, the STEP and a tile in common (R200): its OPID. -/
def checkTied (s : State) (d : Desc) (z : ZsiOp) : Option Nat :=
  match z.extra with
  | .wgrad g =>
    ((s.ops ++ s.sources).find? fun o =>
      match o.zop.extra with
      | .wgrad h => !(o.slot == d.sched && o.zop.opid == d.opid) && h.wtensor == g.wtensor && decide (o.desc.step = d.step) &&
          blocksMeet g h && o.opened && (o.status.isNone || o.status == some 0)
      | _ => false).map (·.zop.opid)
  | _ => none

/-- What checking a descriptor answers: the operation it starts, or the status and DETAIL it completes with
and whether the queue goes to ERROR. -/
inductive DescCheck where
  | starts (z : ZsiOp)
  | fails (status : Nat) (detail : Word)
  | stale (z : ZsiOp) (epoch : BitVec 32)
  deriving DecidableEq, Repr

/-- The UPDATE that follows a shard's epoch has opened its first apply frame: the slot of the older epoch is no longer served, in
this run (R216) or in one resumed after some block was written (R219, R226). -/
def applyOpened (h : Shard) : Bool := h.firstApply.isSome || h.blocks.any fun b => decide (h.epoch.toNat < b.epoch.toNat)

/-- The current epoch that makes a good descriptor STALE_EPOCH (R215, R216). -/
def staleEpoch (s : State) (q : Nat) (d : Desc) (z : ZsiOp) : Option (BitVec 32) :=
  let job := (queueGet s q).job
  match z.extra with
  | .update u =>
    (shardOf s job u.wtensor u.e0 u.count).bind fun h => if d.step.toNat < h.epoch.toNat then some h.epoch else none
  | .wpull w =>
    (shardOf s job w.wtensor w.e0 w.count).bind fun h =>
      if d.step.toNat + 1 < h.epoch.toNat then some h.epoch
      else if d.step.toNat + 1 = h.epoch.toNat ∧ applyOpened h then some h.epoch
      else none
  | _ => none

/-- The checks of R255 in order for a fetched descriptor of a queue. -/
def descCheck (s : State) (q : Nat) (d : Desc) : DescCheck :=
  let fail := fun (p : Nat × Word) => DescCheck.fails p.1 p.2
  if d.ver ≠ 2 then .fails 9 (BitVec.ofNat 32 d.ver)
  else match checkReserved s d with
  | some o => fail (malformed 0x01 o)
  | none => match checkCodes d with
  | some o => fail (malformed 0x02 o)
  | none =>
    if !(groupGet s d.group).valid then fail (malformed 0x07 12)
    else match checkZsi s q d with
    | some (r, o) => fail (malformed r o)
    | none => match zsiOp s d.sched d.opid with
    | none => fail (malformed 0x06 8)
    | some z => match checkValues s q d z with
    | some (r, o) => fail (malformed r o)
    | none => match checkTied s d z with
    | some opid => .fails 7 (BitVec.ofNat 32 opid)
    | none => match staleEpoch s q d z with
    | some e => .stale z e
    | none => .starts z

end Sys2Proof.Machine
end

