-- ==== Sys2Proof/Machine/Plan.lean ====
section
/-! DEFINITION. Planned work: capacities of a frame, the frames a chunk is attempted in, and the claims of an
operation against its group's capo (R34, R38, R53, R55, R65, R151 to R154). -/

set_option Elab.async false

namespace Sys2Proof.Machine

/-! ## Capacities (R38, R53) -/

/-- Capacity of a resource in a neck, in bytes per nanosecond (R38): UCIe modules, reduction-buffer write
ports, soundboard, HBM, cascade port. -/
def capacity (res neck : Nat) : Nat :=
  match res with
  | 0 => 4096
  | 1 => 3200
  | 2 => 4000
  | 3 => 4000
  | 4 => if neck % 4 = 0 then 425 else 0
  | _ => 0

/-- The usable part of a frame of `len` units of 250 ns (R53). -/
def usableNs (len : Nat) : Nat := len * 250 - 40

/-- Bytes a resource carries in the usable part of a frame. -/
def capacityBytes (len res neck : Nat) : Nat := capacity res neck * usableNs len

/-- Every planned chunk of a body with its operation. -/
def planned (b : ZsiBody) : List (ZsiOp × ChunkPlan) := b.ops.flatMap fun o => o.chunks.map fun c => (o, c)

/-! ## What a group looks like (R137, R142, R152) -/

/-- A valid copy of a group: its header and entries. -/
abbrev GroupView := Group × List Entry

/-- The copies, current and shadow, in which a group is VALID. -/
def groupViews (s : State) (g : Nat) : List GroupView :=
  ([s.chord.cur, s.chord.shadow].map fun c => (groupIn c g, entriesIn c g)).filter fun v => v.1.valid

/-- The neck that serves an entry (R9, R11). -/
def entryNeck (e : Entry) : Nat := portNeck e.port

/-- The entries by which contributions reach the island. -/
def inEntries (es : List Entry) : List Entry := es.filter fun e => e.kind ≠ 4

/-- The ordinals that entries cover, sorted. -/
def coveredOrds (n : Nat) (es : List Entry) : List Nat := sortNat (es.flatMap (entryOrds n))

/-- Values that a neck other than the top forwards to it: one node, or each covered leaf (R159). -/
def forwardedValues (n : Nat) (es : List Entry) (neck : Nat) : Nat :=
  let ords := coveredOrds n ((inEntries es).filter fun e => entryNeck e == neck)
  if ords.isEmpty then 0 else if (alignedNode n ords).isSome then 1 else ords.length

/-- The top neck of a group (R159). -/
def topNeck (es : List Entry) : Nat :=
  match upEntry es with
  | some u => entryNeck u
  | none => ((es.head?).map entryNeck).getD 0

/-! ## Where tree nodes are combined (R34) -/

/-- The neck whose reduction buffer the contribution of an ordinal is staged in. -/
def leafNeck (n : Nat) (es : List Entry) (ord : Nat) : Option Nat :=
  ((inEntries es).find? fun e => e.kind ≠ 2 && (entryOrds n e).contains ord).map entryNeck

/-- The neck of a node that its two inputs stand in: theirs where they agree, else the one the ZSI names; 16 where it names
none. -/
def joinNecks (named : List NodePlan) (l j : Nat) : Option Nat → Option Nat → Option Nat
  | some a, some b => if a = b then some a else some (((named.find? fun x => x.l == l && x.j == j).map (·.neck)).getD 16)
  | some a, none => some a
  | none, b => b

/-- The tree that an island combines: the node at its top, and for a local partial the ordinals whose ranks are its leaves
(R106, R111, R143). -/
structure IslandTree where
  l     : Nat
  j     : Nat
  ranks : Option (List Nat) := none

/-- The tree that an island combines of an operation: the whole one on the root island; on another, of a floating-point sum,
its own node or, where it is not aligned, a local partial's; none where it forwards terms as they came (R111, R142, R143,
R145). -/
def islandTree (det sum : Bool) (n : Nat) (es : List Entry) : Option IslandTree :=
  match upEntry es with
  | none => some { l := treeDepth n, j := 0 }
  | some _ =>
    let ords := coveredOrds n (inEntries es)
    if !sum || ords.isEmpty then none
    else match alignedNode n ords with
    | some (l, j) => some { l, j }
    | none => if det then none else some { l := treeDepth ords.length, j := 0, ranks := some ords }

/-- The neck of a node that is received: the entry it comes by. In a local partial it stands at the rank of its first
ordinal. -/
def recvNeck (es : List Entry) (l ord : Nat) : Option Nat :=
  (es.find? fun e => e.kind == 2 && e.lvl == l && e.ord == ord).map entryNeck

/-- The neck of a leaf of an island's tree. -/
def treeLeafNeck (n : Nat) (es : List Entry) (t : IslandTree) (j : Nat) : Option Nat :=
  match t.ranks with
  | none => leafNeck n es j
  | some os => os[j]?.bind fun o => (leafNeck n es o).orElse fun _ => (es.find? fun e => e.kind == 2 && e.ord == o).map entryNeck

/-- The neck in which a node of an island's tree stands: where its contribution or the node itself is received, or where its
inputs are combined (R34); none for a node of which the island has nothing. -/
def nodeNeck (n : Nat) (es : List Entry) (t : IslandTree) (named : List NodePlan) : Nat → Nat → Option Nat
  | 0, j => treeLeafNeck n es t j
  | l + 1, j =>
    match if t.ranks.isSome then none else recvNeck es (l + 1) (j * 2 ^ (l + 1)) with
    | some k => some k
    | none => joinNecks named (l + 1) j (nodeNeck n es t named l (2 * j)) (nodeNeck n es t named l (2 * j + 1))

/-- The necks in which an island combines the nodes of its tree at and below (l, j), each with its node; 16 for a node whose
inputs lie in different necks and for which the ZSI names none (R34). -/
def combineNecks (n : Nat) (es : List Entry) (t : IslandTree) (named : List NodePlan) : Nat → Nat → List (Nat × Nat × Nat)
  | 0, _ => []
  | l + 1, j =>
    if t.ranks.isNone && (recvNeck es (l + 1) (j * 2 ^ (l + 1))).isSome then []
    else
      let below := combineNecks n es t named l (2 * j) ++ combineNecks n es t named l (2 * j + 1)
      match nodeNeck n es t named l (2 * j), nodeNeck n es t named l (2 * j + 1) with
      | some a, some b => below ++ [((joinNecks named (l + 1) j (some a) (some b)).getD 16, l + 1, j)]
      | _, _ => below

/-- The necks from which an input of a named node crosses the soundboard into the node's. -/
def crossers (n : Nat) (es : List Entry) (t : IslandTree) (named : List NodePlan) (x : NodePlan) : List Nat :=
  if x.l = 0 then []
  else [2 * x.j, 2 * x.j + 1].filterMap fun j => (nodeNeck n es t named (x.l - 1) j).filter fun k => decide (k ≠ x.neck)

/-- Bytes of one such input: raw contributions below the leaves' first combine, C64 values above. -/
def crossSpan (z : ZsiOp) (x : NodePlan) : Nat := 2 ^ z.chl * if x.l = 1 then elemBits z.fmt / 8 else 8

/-- Neck and bytes of each input that crosses the soundboard for the nodes a plan names (R34). -/
def crossSends (n : Nat) (es : List Entry) (t : IslandTree) (z : ZsiOp) (named : List NodePlan) : List (Nat × Nat) :=
  named.flatMap fun x => (crossers n es t named x).map fun k => (k, crossSpan z x)

/-! ## Strings, frets and tiles of a plan (R14, R15, R20, R187) -/

/-- Tiles of a WGRAD operation's block. -/
def blockTiles (g : WgradDef) : Nat := g.nrowp * g.ncolp

/-- Passes of a full chunk (R173). -/
def passesPerChunk (g : WgradDef) : Nat := g.chm * g.nmb * g.tok / 32

/-- The chunk that a pass belongs to. -/
def passChunk (g : WgradDef) (q : Nat) : Nat := if passesPerChunk g = 0 then 0 else q / passesPerChunk g

/-- The tile steps of a slice: pass and tile. -/
def sliceSteps (p : ChunkPlan) : List (Nat × Nat) :=
  p.runs.flatMap fun r => (List.range (r.hi - r.lo)).map fun t => (r.pass, r.lo + t)

/-- The chunks of a WGRAD that the island computes. -/
def islandChunks (z : ZsiOp) (g : WgradDef) : List Nat :=
  sortNat ((z.chunks.flatMap fun p => p.runs.map fun r => passChunk g r.pass).eraseDups)

/-- The tile ID of a tile of a chunk: the chunks take the operation's chunk blocks in turn (R15, R186). -/
def chunkTile (z : ZsiOp) (g : WgradDef) (chunk t : Nat) : Nat :=
  rangesAt g.tileIds ((islandChunks z g).idxOf chunk % max 1 g.parallel * blockTiles g + t)

/-- The tile ID of a running tile: they follow the chunk blocks. -/
def runningTile (z : ZsiOp) (g : WgradDef) (t : Nat) : Nat :=
  rangesAt g.tileIds ((if z.chunks.isEmpty then 0 else g.parallel) * blockTiles g + t)

/-- The tile IDs that a plan works on: those of a slice's tile steps, or the claimed ones. -/
def planTiles (z : ZsiOp) (p : ChunkPlan) : List (Nat × Nat) :=
  match z.extra with
  | .wgrad g => (sliceSteps p).map fun x => let t := chunkTile z g (passChunk g x.1) x.2; (t, t + 1)
  | _ => p.tiles

/-- The frets that a plan works on, as ranges of fret IDs (R20): those of a slice's tiles, else those of its strings. -/
def planFrets (z : ZsiOp) (p : ChunkPlan) : List (Nat × Nat) :=
  if p.kind = 1 then ((planTiles z p).map fun t => (t.1 / 8, t.1 / 8 + 1)).eraseDups
  else p.strings.map fun k => (16 * k, 16 * k + 16)

/-- The role in which a plan's frets do its work (R14): 1 REDUCE, 2 WGRAD, 3 UPDATE; a delivery takes none. -/
def planRole (p : ChunkPlan) : Nat :=
  match p.kind with
  | 0 => 1
  | 1 => 2
  | 2 | 3 => 3
  | _ => 0

/-- The necks that a plan works in. -/
def planNecks (p : ChunkPlan) : List Nat :=
  p.neck :: p.necks ++ p.dies.map (· / 4) ++ p.strings.map (· / 64) ++ p.nodes.map (·.neck)

/-- Reduction buffer and staging SRAM of a plan, in KiB, and its accumulator tiles. -/
def planRbuf (p : ChunkPlan) : Nat := (p.claims.map (·.rbuf)).sum
def planStage (p : ChunkPlan) : Nat := (p.claims.map (·.stage)).sum
def planTileCount (p : ChunkPlan) : Nat := rangesLen p.tiles

/-! ## Demand (R38, R189, R214) -/

/-- Bytes that `n` elements of a format take in a stream (R68, R178). -/
def streamSpan (c n : Nat) : Nat := if isMx c then n * mxGroupBytes c / 1024 else n * elemBits c / 8

/-- Bytes of island HBM that tile steps of a slice read (R189): each string reads a panel slice of a pass once for all its tiles. -/
def stepReads (z : ZsiOp) (g : WgradDef) (steps : List (Nat × Nat)) : Nat :=
  let at_ := steps.map fun x => (chunkTile z g (passChunk g x.1) x.2 / 128, x.1, x.2)
  let rows := (at_.map fun x => (x.1, x.2.1, x.2.2 / g.ncolp)).eraseDups.length
  let cols := (at_.map fun x => (x.1, x.2.1, x.2.2 % g.ncolp)).eraseDups.length
  rows * streamSpan g.xfmt 2048 + cols * (streamSpan g.dfmt 2048 + if g.mask = 0 then 0 else 256)

def sliceReads (z : ZsiOp) (g : WgradDef) (p : ChunkPlan) : Nat := stepReads z g (sliceSteps p)

/-- Bytes of island HBM that an update block reads, its state and dW from scratch, and writes, the new state and copy twice: into
the journal and in place (R214). -/
def blockReads (u : UpdateDef) (scratch : Bool) : Nat := 4096 * (8 + 4 * min u.opt 2 + if scratch then 8 else 0)
def blockWrites (u : UpdateDef) : Nat := 4096 * 2 * (8 + 4 * min u.opt 2 + elemBits u.ofmt / 8)

/-- Bytes of island HBM that an apply slice moves (R214). -/
def applyBytes (u : UpdateDef) (scratch : Bool) (p : ChunkPlan) : Nat := (p.hi - p.lo) * (blockReads u scratch + blockWrites u)

/-- The source of an UPDATE of a body stands in dW scratch: it is not the undrained tiles of a WGRAD. -/
def sourceScratch (b : ZsiBody) (u : UpdateDef) : Bool :=
  match b.ops.find? fun z => z.opid == u.src with
  | some z => match z.extra with
    | .wgrad g => g.drain
    | _ => true
  | none => true

/-- Bytes that cross the soundboard for the nodes that a plan names (R34), in the copy of the group with the most. -/
def crossBytes (s : State) (z : ZsiOp) (p : ChunkPlan) (neck : Nat) : Nat :=
  ((groupViews s z.group).map fun v => match islandTree false (isFloatSum z) v.1.nmem v.2 with
    | some t => ((p.nodes.filter fun x => x.neck == neck).map fun x =>
        crossSpan z x * (crossers v.1.nmem v.2 t p.nodes x).length).sum
    | none => 0).foldl max 0

/-- Everything that a plan puts in its frame: what the ZSI states, and what the rules count. -/
def planUses (s : State) (b : ZsiBody) (z : ZsiOp) (p : ChunkPlan) : List Use :=
  p.uses ++ match p.kind, z.extra with
    | 0, _ => ((p.nodes.map (·.neck)).eraseDups).map fun k => { neck := k, res := 2, bytes := crossBytes s z p k }
    | 1, .wgrad g => [{ neck := p.neck, res := 3, bytes := sliceReads z g p }]
    | 3, .update u => [{ neck := p.neck, res := 3, bytes := applyBytes u (sourceScratch b u) p }]
    | _, _ => []

/-- Everything that a body puts in one of its frames. -/
def frameUses (s : State) (b : ZsiBody) (frame : Nat) : List Use :=
  ((b.demand.filter fun d => d.frame == frame).map fun d => { neck := d.neck, res := d.res, bytes := d.bytes }) ++
  ((planned b).filter fun p => p.2.frame == frame).flatMap fun p => planUses s b p.1 p.2

/-- What uses come to on a resource in a neck. -/
def usesOn (l : List Use) (neck res : Nat) : Nat := ((l.filter fun u => u.neck == neck && u.res == res).map (·.bytes)).sum

/-! ## Attempts (R55, R65) -/

/-- The ZSI frame in progress for a job: frames since F₀ (R65). -/
def zsiFrame (s : State) (job : Nat) : Option Nat :=
  (jobGet s job).f0.bind fun f0 => if f0 ≤ frameNo s then some (frameNo s - f0) else none

/-- The loaded ZSIs whose job runs, with the ZSI frame that an absolute frame is for them. DESIGN CHOICE (log entry 67): a ZSI loaded
for a job that runs already is one of them, whatever SLOTMASK its START_JOB had. -/
def runningAt (s : State) (frame : Nat) : List (ZsiSlot × Nat) :=
  s.zsis.filterMap fun e => e.2.bind fun z =>
    (jobGet s z.job).f0.bind fun f0 => if f0 ≤ frame then some (z, frame - f0) else none

/-- The roles that the ZSIs give in an absolute frame, with their jobs (R14). -/
def zsiRoles (s : State) (frame : Nat) : List (Nat × RolePlan) :=
  (runningAt s frame).flatMap fun z => (z.1.body.roles.filter fun r => r.frame == z.2).map fun r => (z.1.job, r)

/-- The role of a fret among planned ones: IDLE where none is given (R14). -/
def roleAmong (rs : List (Nat × RolePlan)) (fret : Nat) : Nat :=
  ((rs.find? fun r => decide (r.2.lo ≤ fret) && decide (fret < r.2.hi)).map (·.2.role)).getD 0

/-- Frets of ranges, one by one. -/
def fretList (rs : List (Nat × Nat)) : List Nat := rs.flatMap fun r => (List.range (r.2 - r.1)).map (· + r.1)

/-- The ZSI leaves a plan's frets to it in a frame: each has the plan's role or none (R14, R55). -/
def fretsOpen (rs : List (Nat × RolePlan)) (z : ZsiOp) (p : ChunkPlan) : Bool :=
  (fretList (planFrets z p)).all fun f => roleAmong rs f == 0 || roleAmong rs f == planRole p

/-- The frets of a plan hold its role in the frame in progress (R14, R187). -/
def rolesHold (s : State) (z : ZsiOp) (p : ChunkPlan) : Bool :=
  (fretList (planFrets z p)).all fun f => roleAmong s.roles f == planRole p

/-- The frets that hold the running tiles of a WGRAD. -/
def runningFrets (z : ZsiOp) (g : WgradDef) : List Nat := ((List.range (blockTiles g)).map fun t => runningTile z g t / 8).eraseDups

/-- The frets of a WGRAD's running tiles hold the WGRAD role in the frame in progress, in strings in service (R14, R18, R59, R401). -/
def runningHold (s : State) (z : ZsiOp) (g : WgradDef) : Bool :=
  (runningFrets z g).all fun f =>
    let x : Str := Table.get {} s.strs (f / 16)
    let d : Die := Table.get {} s.dies (f / 256)
    roleAmong s.roles f == 2 && !x.out && !x.repair && d.state == 0 && d.rejoin.isNone

/-- A WGRAD slice may run in a frame (R189): a frame of the job's ZSIs gives some fret of the neck the WGRAD role. DESIGN CHOICE (log
entry 68): frames after the last planned one carry work of it as well. -/
def wgradFrame (s : State) (job frame neck : Nat) (rs : List (Nat × RolePlan)) : Bool :=
  !((runningAt s frame).any fun z => z.1.job == job && decide (z.2 < z.1.body.nframes)) ||
  rs.any fun r => r.2.role == 2 && decide (r.2.lo < 1024 * neck + 1024) && decide (1024 * neck < r.2.hi)

/-- The body of a job's loaded ZSI that holds an operation. -/
def bodyOf (s : State) (job opid : Nat) : ZsiBody :=
  (((s.zsis.filterMap (·.2)).find? fun z => z.job == job && z.body.ops.any fun o => o.opid == opid).map (·.body)).getD
    { nframes := 0, sbase := 0, scnt := 0, ops := [], queues := [] }

/-- The planned work of an absolute frame leaves a chunk's frets, tiles, transposing slices and capacities free (R19, R55). -/
def frameFree (s : State) (job : Nat) (z : ZsiOp) (p : ChunkPlan) (frame : Nat) : Bool :=
  let zs := runningAt s frame
  let mineIs := fun (x : Nat × ZsiOp × ChunkPlan) => x.1 == job && x.2.1.opid == z.opid
  let others := (zs.flatMap fun x => ((planned x.1.body).filter fun c => c.2.frame == x.2).map fun c => (x.1.job, c)).filter fun c =>
    !(mineIs c && decide (c.2.2 = p))
  let sliceMet := fun (x : Nat × ZsiOp × ChunkPlan) =>
    !mineIs x && p.kind == 1 && x.2.2.kind == 1 && x.2.2.strings.any fun k => p.strings.contains k
  let us := zs.flatMap fun x => frameUses s x.1.body x.2
  let mine := planUses s (bodyOf s job z.opid) z p
  let rs := zsiRoles s frame
  others.all (fun c => !rangesShare (planFrets c.2.1 c.2.2) (planFrets z p) && !rangesShare (planTiles c.2.1 c.2.2) (planTiles z p) &&
    !sliceMet c) &&
  fretsOpen rs z p && (p.kind ≠ 1 || wgradFrame s job frame p.neck rs) &&
  mine.all fun u => decide (usesOn us u.neck u.res + usesOn mine u.neck u.res ≤ capacityBytes s.time.cur u.res u.neck)

/-- The ZSI frame is one in which the plan is attempted: its own, or a retry frame that is not passed over. -/
def attemptFrame (s : State) (job : Nat) (z : ZsiOp) (p : ChunkPlan) (n : Nat) : Bool :=
  n == p.frame || (decide (p.frame < n) && decide (0 < p.stride) && (n - p.frame) % p.stride == 0 &&
    frameFree s job z p (((jobGet s job).f0).getD 0 + n))

/-- The first attempt frame of a plan at or after ZSI frame `n` (R55). Beyond the frames the loaded ZSIs plan,
every retry frame is free, so the search ends. -/
def nextAttempt (s : State) (job : Nat) (z : ZsiOp) (p : ChunkPlan) (n : Nat) : Nat :=
  let last := (s.zsis.filterMap fun e => e.2.map fun z => z.body.nframes + ((jobGet s z.job).f0).getD 0).foldl max 0
  let span := last + 2 + p.stride
  ((List.range (span + 1)).map (· + n) |>.find? fun m => attemptFrame s job z p m).getD (n + span)

/-! ## Who has a tile (R15) -/

/-- An operation still has the tiles that belong to it: it is in flight or a LEVEL makes it compute again, a discard has not been
released yet, or it keeps running tiles for its UPDATE that are not drained (R15, R191, R195). -/
def tilesHeld (s : State) (t : TileOwn) : Bool :=
  (s.ops.any fun o => opIs t.queue t.dseq o && o.opened &&
    (opWorks o || o.release || (opKeeps o && o.drained.isNone))) ||
  s.sources.any fun o => opIs t.queue t.dseq o && o.drained.isNone

/-- Operations in flight take their tiles, unless one of them belongs to another operation still: each tile belongs to at most one
(R15). DESIGN CHOICE (log entry 69): an operation waits for a tile that is not free, and takes its tiles all at once. -/
def claimTiles (s : State) : State :=
  let live := s.tileOwn.filter (tilesHeld s)
  let take := fun (l : List TileOwn) (o : Op) =>
    let ids := opTileIds o.zop
    if !o.opened || !opWorks o || ids.isEmpty || l.any (fun t => opIs t.queue t.dseq o || rangesShare t.ids ids) then l
    else l ++ [{ queue := o.queue, dseq := o.dseq, ids }]
  { s with tileOwn := s.ops.foldl take live }

/-- An operation has the tiles it works on. -/
def ownsTiles (s : State) (o : Op) : Bool := (opTileIds o.zop).isEmpty || s.tileOwn.any fun t => opIs t.queue t.dseq o

/-- The operation that a tile belongs to (R15). -/
def tileOwner (s : State) (id : Nat) : Option (Nat × BitVec 32) :=
  ((s.tileOwn.filter (tilesHeld s)).find? fun t => rangesHave t.ids id).map fun t => (t.queue, t.dseq)

/-- The accumulator memory of a fret: what stands in each of its 8 tiles (R13, R20). A tile that belongs to no operation, or that its
operation has not written, is zero (R16). -/
def fretMemory (s : State) (fret : Nat) : List (List Val) :=
  (List.range 8).map fun i =>
    let id := 8 * fret + i
    let o := (s.ops ++ s.sources).find? fun o => tileOwner s id == some (o.queue, o.dseq)
    (o.bind fun o => match o.zop.extra with
      | .wgrad g => o.tiles.findSome? fun t => t.tiles.findSome? fun c =>
          let at_ := match t.chunk with | some k => chunkTile o.zop g k c.1 | none => runningTile o.zop g c.1
          if at_ = id then some c.2 else none
      | _ => none).getD (List.replicate 4096 {})

/-! ## Claims (R152, R154) -/

/-- What operations claim against a capo (R151). -/
structure Claim where
  rbuf  : Nat := 0
  tiles : Nat := 0
  stage : Nat := 0
  deriving DecidableEq, Repr

/-- The claim of a plan. -/
def planClaim (p : ChunkPlan) : Claim := { rbuf := planRbuf p, tiles := planTileCount p, stage := planStage p }

/-- The sum of claims. -/
def claimSum (l : List Claim) : Claim :=
  { rbuf := (l.map (·.rbuf)).sum, tiles := (l.map (·.tiles)).sum, stage := (l.map (·.stage)).sum }

/-- The greater of two claims in each field. -/
def claimMax (a b : Claim) : Claim :=
  { rbuf := max a.rbuf b.rbuf, tiles := max a.tiles b.tiles, stage := max a.stage b.stage }

/-- The greatest claim of plans in any one frame. -/
def claimPeak (ps : List ChunkPlan) : Claim :=
  ((ps.map (·.frame)).eraseDups.map fun f => claimSum ((ps.filter fun p => p.frame == f).map planClaim)).foldl claimMax {}

/-- Tiles that a WGRAD claims on an island (R186): a block for each chunk that may be in progress at once, where the
island computes chunks, and the running tiles on the root island. -/
def wgradTiles (z : ZsiOp) (g : WgradDef) (root : Bool) : Nat :=
  blockTiles g * ((if z.chunks.isEmpty then 0 else g.parallel) + if root then 1 else 0)

/-- What an operation claims (log entry 16): for a WGRAD its tiles; else the chunks that have begun and are not done,
and the greatest claim of the others in any one frame. -/
def opClaim (o : Op) : Claim :=
  match o.zop.extra with
  | .wgrad g => { tiles := wgradTiles o.zop g o.home }
  | _ =>
  let open_ := o.chunks.filter fun c => c.state ≠ .done
  let begun := open_.filter fun c => c.state ≠ .waiting
  let rest := open_.filter fun c => c.state = .waiting
  claimSum [claimSum (begun.map fun c => planClaim c.plan), claimPeak (rest.map (·.plan))]

/-- Running tiles that a completed WGRAD keeps for its UPDATE (R195); drained ones release their claim. -/
def keptTiles (o : Op) : Nat :=
  match o.zop.extra with
  | .wgrad g => if g.drain then 0 else g.nrowp * g.ncolp
  | _ => 0

/-- The operations of a group that hold claims: started, and not finished or not yet released. -/
def holders (s : State) (g : Nat) : List Op :=
  s.ops.filter fun o => o.group == g && o.opened && (o.status.isNone || o.release)

/-- The capo field that one more operation would exceed, as the byte offset in the group header (R154, R259). -/
def capoExceeded (s : State) (g : Group) (group : Nat) (o : Op) : Option Nat :=
  let hs := (holders s group).filter fun h => !opIs o.queue o.dseq h
  let kept := ((s.sources.filter fun x => x.group == group).map keptTiles).sum
  let c := claimSum ({ tiles := kept } :: (o :: hs).map opClaim)
  let pizz := (hs.filter fun h => h.zop.pizz).length
  if g.ops < hs.length + 1 then some 16
  else if g.rbuf < c.rbuf then some 20
  else if g.tiles < c.tiles then some 24
  else if g.stage < c.stage then some 28
  else if o.zop.pizz ∧ g.pizz < pizz + 1 then some 40
  else none

end Sys2Proof.Machine
end

