-- ==== Sys2Proof/Machine/Chunks.lean ====
section
/-! DEFINITION. The chunks of an operation: the elements they cover, where each contribution is read, where each
result goes, and the READs that fetch contributions (R109, R128, R130, R133, R146, R148, R149, R321). -/

set_option Elab.async false

namespace Sys2Proof.Machine

/-! ## Sizes (R146) -/

/-- Bytes of one element of a scalar format. -/
def elemBytes (c : Nat) : Nat := elemBits c / 8

/-- Elements of a chunk. -/
def chunkElems (z : ZsiOp) : Nat := 2 ^ z.chl

/-- Chunks of a block of C elements. -/
def chunksPerBlock (z : ZsiOp) : Nat := (z.count + chunkElems z - 1) / chunkElems z

/-- The operation's chunks run per block of C elements (R146). -/
def perBlock (z : ZsiOp) : Bool := z.opcode == 4 || z.opcode == 6

/-- The weight range of an UPDATE that pushes, or of a WPULL: its elements (R216, R218). -/
def copyCount (z : ZsiOp) : Option Nat :=
  match z.extra with
  | .update u => some u.count
  | .wpull w => some w.count
  | _ => none

/-- Chunks of an operation in a group of n (R146, R170). A weight copy travels in chunks of an update block (log
entry 17). -/
def chunkCount (n : Nat) (z : ZsiOp) : Nat :=
  match z.extra with
  | .wgrad g => if g.chm = 0 then 0 else (n + g.chm - 1) / g.chm
  | _ => match copyCount z with
    | some c => c / 4096
    | none => if perBlock z then n * chunksPerBlock z else chunksPerBlock z

/-- The elements a chunk covers within its block of C: first and end. -/
def chunkSpan (z : ZsiOp) (chunk : Nat) : Nat × Nat :=
  match copyCount z with
  | some _ => (4096 * chunk, 4096 * chunk + 4096)
  | none =>
    let c := if perBlock z then chunk % chunksPerBlock z else chunk
    (c * chunkElems z, min ((c + 1) * chunkElems z) z.count)

/-- Elements a chunk covers per member. -/
def chunkLen (z : ZsiOp) (chunk : Nat) : Nat := (chunkSpan z chunk).2 - (chunkSpan z chunk).1

/-- The block a chunk of ALLGATHER or ALLTOALL belongs to. -/
def chunkBlock (z : ZsiOp) (chunk : Nat) : Nat := if perBlock z then chunk / chunksPerBlock z else 0

/-- Whether the member of an ordinal contributes to a chunk (R128). -/
def contributes (z : ZsiOp) (chunk ord : Nat) : Bool :=
  match z.opcode with
  | 4 => ord == chunkBlock z chunk
  | 5 => ord == z.root
  | _ => true

/-- The first element of a chunk in a member's operand for a step: steps follow one another (R133, log entry 17),
and block j of an ALLTOALL is for member j. -/
def sourceElem (z : ZsiOp) (chunk step : Nat) : Nat :=
  let b := if z.opcode = 6 then chunkBlock z chunk else 0
  (step + b) * z.count + (chunkSpan z chunk).1

/-! ## Results (R127, R128, R130, R148) -/

/-- Who receives a part of a result. -/
inductive Who where
  | all | one (ord : Nat) | allBut (ord : Nat)
  deriving DecidableEq, Repr

/-- The member of an ordinal receives the part. -/
def Who.has (w : Who) (ord : Nat) : Bool :=
  match w with
  | .all => true
  | .one o => ord == o
  | .allBut o => ord ≠ o

/-- A part of a chunk's result: its block, its units within the chunk (elements, or entries of R127), the offset of
the first in the destination, and who receives it. -/
structure Part where
  block : Nat
  off   : Nat
  len   : Nat
  dst   : Nat
  who   : Who
  deriving DecidableEq, Repr

/-- The operation writes entries of 16 bytes (R127). -/
def isEntry (z : ZsiOp) : Bool := z.opcode == 8 || z.opcode == 9 || z.opcode == 0x0A

/-- The format of an operation's results. -/
def outFmt (o : Op) : Nat := o.desc.ofmt

/-- The byte position of unit `u` of a result. -/
def unitPos (o : Op) (u : Nat) : Nat := if isEntry o.zop then 16 * u else elemPos (outFmt o) u

/-- Units that travel whole: 1, or an MX group. -/
def unitGrain (o : Op) : Nat := if !isEntry o.zop && isMx (outFmt o) then 1024 else 1

/-- The parts of a chunk's result in a group of n (R128, R130, R216). -/
def parts (n : Nat) (o : Op) (chunk : Nat) : List Part :=
  let z := o.zop
  let (e0, e1) := chunkSpan z chunk
  let b := chunkBlock z chunk
  let one := fun (dst : Nat) (w : Who) => [{ block := 0, off := 0, len := e1 - e0, dst, who := w : Part }]
  match z.opcode with
  | 2 => one (unitPos o e0) (.one z.root)
  | 3 =>
    let size := z.count / n
    ((List.range n).map fun i => (i, max e0 (i * size), min e1 ((i + 1) * size))).filterMap fun p =>
      if p.2.1 < p.2.2 then
        some { block := p.1, off := p.2.1 - e0, len := p.2.2 - p.2.1, dst := unitPos o (p.2.1 - p.1 * size), who := .one p.1 }
      else none
  | 4 => [{ block := b, off := 0, len := e1 - e0, dst := unitPos o (b * z.count + e0), who := .all }]
  | 5 => one (unitPos o e0) (.allBut z.root)
  | 6 => (List.range n).map fun i =>
      { block := i, off := 0, len := e1 - e0, dst := unitPos o (i * z.count + e0), who := .one b }
  | 0x0A =>
    let seg := 2 ^ z.segl
    let (s0, s1) := (e0 / seg, e1 / seg)
    if s0 < s1 then [{ block := 0, off := 0, len := (s1 - s0) * z.k, dst := 16 * z.k * s0, who := .all }] else []
  | _ =>
    let who := match z.extra with
      | .wpull w => if w.single then Who.one w.root else .all
      | _ => .all
    one (unitPos o e0) who

/-- The operation delivers results to members: a bound sum only when it is marked DELIVER (R204), an UPDATE only
when it pushes (R218). -/
def delivers (z : ZsiOp) : Bool :=
  match z.extra with
  | .plain => z.opcode ≠ 7 && (z.bound.isNone || z.deliver)
  | .update u => u.push
  | .wpull _ => true
  | _ => false

/-- The class of an operation's results: TC4 for weight copies, else TC2 (R27, R310). -/
def resultClass (z : ZsiOp) : Nat := if (copyCount z).isSome then 4 else 2

/-- The ordinals an entry covers, those of the whole downstream island for a DOWN_RAW (R137). -/
def islandOrds (n : Nat) (es : List Entry) (e : Entry) : List Nat :=
  if e.kind = 1 then [e.ord] else ((downs es).filter fun x => x.chip == e.chip).flatMap (entryOrds n)

/-- An entry needs a part (R149). -/
def wants (n : Nat) (es : List Entry) (p : Part) (e : Entry) : Bool := (islandOrds n es e).any p.who.has

/-- The ordinals this island covers, in order (R135). -/
def covered (n : Nat) (es : List Entry) : List Nat := sortNat ((es.filter fun e => e.kind ≠ 4).flatMap (entryOrds n))

/-! ## Opening an operation (R109) -/

/-- Settle the chord epoch of an operation that has not opened yet (R109). -/
def fixEpoch (q : Nat) (d : BitVec 32) (e : BitVec 8) (s : State) : State :=
  opModify q d (fun o =>
    if o.fixed then o
    else
      let o := { o with fixed := true, cepoch := e }
      if o.opened && o.status.isNone && e ≠ s.chord.epoch then withEntries (entriesAt s e o.group) o else o) s

/-! ## Fetching contributions (R321) -/

/-- Elements of a READ of contributions: as many whole units as 4,096 bytes hold. -/
def readGrain (c : Nat) : Nat := if isMx c then 1024 * (4096 / mxGroupBytes c) else 4096 / elemBytes c

/-- READ one member's contribution to a chunk, for one step (R130, R321). -/
def fetchMember (o : Op) (chunk step : Nat) (e : Entry) (s : State) : State :=
  let c := o.zop.fmt
  let n := chunkLen o.zop chunk
  let g := readGrain c
  let first := sourceElem o.zop chunk step
  (List.range ((n + g - 1) / g)).foldl (fun s i =>
    let off := g * i
    let len := min g (n - off)
    sendRead 2 e.chip (e.base + o.desc.srcOff + elemPos c (first + off)) (fmtBytes c len) o.job (some o.group) (entryPorts e)
      (opEpoch s o) (.contribution o.queue o.dseq step chunk e.ord off len) s) s

/-- READ every contribution of the island's own members to a chunk. -/
def fetchChunk (o : Op) (chunk : Nat) (s : State) : State :=
  let es := (members (opEntries s o)).filter fun e => contributes o.zop chunk e.ord
  (List.range o.zop.nsteps).foldl (fun s step => es.foldl (fun s e => fetchMember o chunk step e s) s) s

/-- The first planned stage of a chunk that combines its contributions, once its fetch point has come. -/
def fetchDue (s : State) (o : Op) (i : Nat) : Bool :=
  match o.chunks[i]?, zsiFrame s o.job with
  | some c, some n => c.plan.kind == 0 && !c.asked && c.state ≠ .done && decide (c.plan.fetchFrame ≤ n)
  | _, _ => false

/-- Mark every stage of a chunk as fetched. -/
def markAsked (chunk : Nat) (o : Op) : Op :=
  { o with chunks := o.chunks.map fun c => if c.plan.kind = 0 ∧ c.plan.chunk = chunk then { c with asked := true } else c }

/-- Fetch what is due for one operation (R321). -/
def fetchOp (q : Nat) (d : BitVec 32) (s : State) : State :=
  match opFind s q d with
  | none => s
  | some o =>
    if !o.opened || o.status.isSome || o.zop.pizz then s
    else (List.range o.chunks.length).foldl (fun s i => withOp q d (fun o s =>
      if fetchDue s o i then
        let chunk := ((o.chunks[i]?).map (·.plan.chunk)).getD 0
        opModify q d (markAsked chunk) (fetchChunk o chunk s)
      else s) s) s

/-- Fetch what is due for every operation. -/
def fetchAll (s : State) : State := (s.ops.map fun o => (o.queue, o.dseq)).foldl (fun s k => fetchOp k.1 k.2 s) s

end Sys2Proof.Machine
end

