-- ==== Sys2Proof/Machine/Deliver.lean ====
section
/-! DEFINITION. Results on their way to members and downstream islands, the completion fields that go with them, and
the end of an operation (R91, R92, R120, R148 to R150, R204, R216, R218, R311, R314). -/

set_option Elab.async false

namespace Sys2Proof.Machine

/-- Send a packet of an operation on an entry (R330). -/
def sendOp (o : Op) (e : Entry) (tc : Nat) (x : Ext) (payload : List Byte) (why : Purpose) (s : State) : State :=
  sendEntry e tc o.job o.group (opEpoch s o) x payload why s

/-- Count the bytes of a packet that the island received for an operation (R431). -/
def bytesFor (q : Nat) (d : BitVec 32) (n : Nat) (s : State) : State :=
  opModify q d (fun o => { o with bytesIn := o.bytesIn + n }) s

/-! ## Results (R148, R149) -/

/-- The index of a member's record. -/
def recordIndex (o : Op) (e : Entry) : Nat := (o.records.findIdx? fun r => r.chip == e.chip && r.base == e.base).getD 0

/-- Write units of a part to one member (R130). -/
def writeUnits (o : Op) (p : Part) (off : Nat) (bs : List Byte) (e : Entry) (s : State) : State :=
  let at_ := e.base + o.desc.dstOff + p.dst + (unitPos o off - unitPos o p.off)
  sendOp o e (resultClass o.zop) (.write at_) bs (.data o.queue o.dseq (recordIndex o e)) s

/-- Send units of a part to one downstream island as a RESULT. -/
def passUnits (o : Op) (chunk : Nat) (p : Part) (off len : Nat) (bs : List Byte) (e : Entry) (s : State) : State :=
  let x : NodeExt := { group := o.group, queue := o.queue, dseq := o.dseq, chunk, eoff := off, ecnt := len, nodej := p.block }
  sendOp o e (resultClass o.zop) (.node .result x) bs (.forward o.queue o.dseq) s

/-- Copy units of a part to every MEMBER and DOWN entry that needs them (R149). -/
def deliverUnits (o : Op) (chunk : Nat) (p : Part) (off len : Nat) (bs : List Byte) (s : State) : State :=
  let es := opEntries s o
  let n := (opGroup s o).nmem
  let s := ((members es).filter (wants n es p)).foldl (fun s e => writeUnits o p off bs e s) s
  ((downOnce es).filter (wants n es p)).foldl (fun s e => passUnits o chunk p off len bs e s) s

/-- Units of one packet: as many whole ones as 4,096 bytes hold. -/
def packetUnits (o : Op) : Nat :=
  let g := unitGrain o
  if unitPos o g = 0 then 1 else g * (4096 / unitPos o g)

/-- Cut units of a part and their bytes into packets: offset, length and bytes of each. -/
def packetRanges (o : Op) (off len : Nat) (bs : List Byte) : List (Nat × Nat × List Byte) :=
  let per := packetUnits o
  (List.range ((len + per - 1) / per)).map fun i =>
    let a := off + per * i
    let m := min per (len - per * i)
    (a, m, (bs.drop (unitPos o a - unitPos o off)).take (unitPos o (a + m) - unitPos o a))

/-- Deliver a whole part. -/
def deliverPart (o : Op) (chunk : Nat) (p : Part) (bs : List Byte) (s : State) : State :=
  (packetRanges o p.off p.len bs).foldl (fun s r => deliverUnits o chunk p r.1 r.2.1 r.2.2 s) s

/-- A delivery stage serves a chunk (R147): its chunk, or for a weight copy a range of blocks. -/
def serves (z : ZsiOp) (p : ChunkPlan) (chunk : Nat) : Bool :=
  p.kind == 4 && if (copyCount z).isSome then decide (p.lo ≤ chunk) && decide (chunk < p.hi) else p.chunk == chunk

/-- Results of a chunk wait for a stage that delivers them. -/
def deliveryPlanned (o : Op) (chunk : Nat) : Bool := o.chunks.any fun c => serves o.zop c.plan chunk

/-- Stage a result for the stage that delivers it (R147). -/
def stageResult (chunk block off len : Nat) (bs : List Byte) (o : Op) : Op :=
  { o with pieces := o.pieces ++ [{ step := 0, chunk, place := .result block, off, len, data := .elems bs }] }

/-- A whole part of a result that this island formed: staged, or delivered now (R148). -/
def issuePart (o : Op) (chunk : Nat) (p : Part) (bs : List Byte) (s : State) : State :=
  if !delivers o.zop then s
  else if deliveryPlanned o chunk then opModify o.queue o.dseq (stageResult chunk p.block p.off p.len bs) s
  else deliverPart o chunk p bs s

/-- The staged results of a chunk. -/
def stagedResults (o : Op) (chunk : Nat) : List Piece :=
  o.pieces.filter fun p => p.chunk == chunk && (match p.place with | .result _ => true | _ => false)

/-- The part that units of a block lie in. -/
def partAt (n : Nat) (o : Op) (chunk block off len : Nat) : Option Part :=
  (parts n o chunk).find? fun p => p.block == block && decide (p.off ≤ off) && decide (off + len ≤ p.off + p.len)

/-- Deliver one staged result. -/
def deliverPiece (o : Op) (n : Nat) (p : Piece) (s : State) : State :=
  match p.place, p.data with
  | .result b, .elems bs => match partAt n o p.chunk b p.off p.len with
    | some q => (packetRanges o p.off p.len bs).foldl (fun s r => deliverUnits o p.chunk q r.1 r.2.1 r.2.2 s) s
    | none => s
  | _, _ => s

/-- Deliver the staged results of a chunk. -/
def deliverStaged (q : Nat) (d : BitVec 32) (chunk : Nat) (s : State) : State :=
  withOp q d (fun o s =>
    let ps := stagedResults o chunk
    let s := opModify q d (fun o => { o with pieces := o.pieces.filter fun p => !ps.contains p }) s
    ps.foldl (fun s p => deliverPiece o (opGroup s o).nmem p s) s) s

/-- Results that came before the descriptor go on as soon as it is here, where no stage delivers them (R257). -/
def deliverEarly (q : Nat) (d : BitVec 32) (s : State) : State :=
  withOp q d (fun o s =>
    let cs := (o.pieces.filterMap fun p => match p.place with
      | .result _ => if deliveryPlanned o p.chunk then none else some p.chunk
      | _ => none).eraseDups
    if o.opened && o.status.isNone then cs.foldl (fun s c => deliverStaged q d c s) s else s) s

/-! ## Completion fields (R91, R92, R120, R148) -/

/-- Change one entry of a replay map. -/
def mapSet (m : List Nat) (chunk level : Nat) : List Nat :=
  if level = 0 then m else (m ++ List.replicate (chunk + 1 - m.length) 0).set chunk level

/-- Send an operation's completion fields to every downstream island on a revision-2 port (R148, R314). Those of a
pizzicato operation go in TC4 (DESIGN CHOICE, log entry 44). -/
def sendMeta (o : Op) (s : State) : State :=
  let x := Ext.resultMeta o.group o.queue o.dseq o.flags.byte o.rlvl
  let bs := (extensionBytes o).take 1296
  ((downOnce (opEntries s o)).filter fun e => portRev s e.port == 2).foldl
    (fun s e => sendOp o e (if o.zop.pizz then 4 else resultClass o.zop) x bs (.forward o.queue o.dseq) s) s

/-- Take the completion fields that came from above. -/
def takeMeta (f : BitVec 8) (rlvl : Nat) (bs : List Byte) (o : Op) : Op :=
  let w := fun i => fld bs (i + 3) i
  let levels := (List.range 4096).map fun c => (bs.getD (256 + c / 4) 0).toNat >>> (2 * (c % 4)) % 4
  { o with meta_ := true, flags := Flags.ofByte f, rlvl, hist := (List.range 64).map fun i => w (4 * i),
           rmap := if levels.all (· = 0) then [] else levels,
           epochRec := if (copyCount o.zop).isSome then some (BitVec.ofNat 32 (w 1280), BitVec.ofNat 32 (w 1284)) else none,
           skipped := bit (w 1288) 0 }

/-! ## The end of an operation (R148, R150, R194, R204) -/

/-- Ranges of a list, sorted by their start, cover from `pos` up to `top`. -/
def rangesCover (top : Nat) : Nat → List (Nat × Nat) → Bool
  | pos, [] => decide (top ≤ pos)
  | pos, (a, n) :: r => if pos < a then decide (top ≤ pos) else rangesCover top (max pos (a + n)) r

/-- Ranges in any order cover `len` units from `off`. -/
def covers (off len : Nat) (rs : List (Nat × Nat)) : Bool :=
  rangesCover (off + len) off (sortBy (fun a b => decide (a.1 ≤ b.1)) rs)

/-- The whole of a part has come from above. -/
def partCame (o : Op) (chunk : Nat) (p : Part) : Bool :=
  covers p.off p.len ((o.got.filter fun g => g.1 == p.block && g.2.1 == chunk).map fun g => (g.2.2.1, g.2.2.2))

/-- Every part of a chunk that this island needs has come from above. -/
def chunkCame (s : State) (o : Op) (chunk : Nat) : Bool :=
  let es := opEntries s o
  let n := (opGroup s o).nmem
  (parts n o chunk).all fun p => !(es.any fun e => e.kind ≠ 4 && wants n es p e) || partCame o chunk p

/-- The root island has formed every chunk of a collective: each is planned and done. -/
def allFormed (n : Nat) (o : Op) : Bool :=
  (List.range (chunkCount n o.zop)).all fun c => o.chunks.any fun x => x.plan.kind == 0 && x.plan.chunk == c

/-- An operation other than the root's is over here: its stages are done, the completion fields have come where its
port carries them, and so have the results it passes on (R148, R314). -/
def endsBelow (s : State) (o : Op) : Bool :=
  let rev1 := match upEntry (opEntries s o) with | some e => portRev s e.port == 1 | none => false
  plansDone o && (o.meta_ || rev1) &&
  (!delivers o.zop || o.skipped || (List.range (chunkCount (opGroup s o).nmem o.zop)).all (chunkCame s o))

/-- A collective, a WPULL or a pushing UPDATE ends with OK on this island once nothing of it is left to do. On the
root island of a collective that is when every chunk is formed; its completion fields then go down. WPULL and UPDATE
end on their home island by their own rules. -/
def endCheck (q : Nat) (d : BitVec 32) (s : State) : State :=
  withOp q d (fun o s =>
    if !o.opened || opOver o || o.zop.pizz then s
    else if o.home then
      (match o.zop.extra with
        | .plain => if plansDone o && allFormed (opGroup s o).nmem o then opEnd q d (sendMeta o s) else s
        | _ => s)
    else match o.zop.extra with
      | .plain => if endsBelow s o then opEnd q d s else s
      | .update u => if if u.push then endsBelow s o else plansDone o then opEnd q d s else s
      | .wpull _ => if endsBelow s o then opEnd q d s else s
      | _ => s) s

end Sys2Proof.Machine
end

