-- ==== Sys2Proof/Machine/Combine.lean ====
section
/-! DEFINITION. What a chunk of a collective computes from its staged inputs: nodes of the canonical tree, running
results over steps, integer and bitwise combines, selection, and the results as written (R72, R73, R76, R80, R85 to
R93, R106 to R127, R142, R143, R146). -/

set_option Elab.async false

namespace Sys2Proof.Machine

/-! ## Staged inputs (R54, R106, R111, R143) -/

/-- The staged pieces of a chunk and step at a place, by offset; where two hold an element the first to come counts. -/
def piecesAt (o : Op) (chunk step : Nat) (p : Place) : List Piece :=
  sortBy (fun a b => decide (a.off ≤ b.off))
    (o.pieces.filter fun x => x.chunk == chunk && x.step == step && decide (x.place = p))

/-- Join ranges sorted by offset into one list from `pos` upward. -/
def joinRanges {α : Type} : Nat → List (Nat × List α) → List α
  | _, [] => []
  | pos, (off, xs) :: r => xs.drop (pos - off) ++ joinRanges (max pos (off + xs.length)) r

/-- The tree node of a place. -/
def placeNode : Place → Nat × Nat
  | .leaf o => (0, o)
  | .node l j => (l, j)
  | .loc o => (0, o)
  | .result b => (0, b)

/-- The places with input pieces of a chunk and step. -/
def placesOf (o : Op) (chunk step : Nat) : List Place :=
  ((o.pieces.filter fun x => x.chunk == chunk && x.step == step).map (·.place)).eraseDups.filter fun p =>
    match p with | .result _ => false | _ => true

/-- The ordinals whose contributions a place stands for: a local partial for all of the island it came from (R143). -/
def placeOrds (n : Nat) (es : List Entry) : Place → List Nat
  | .leaf o => [o]
  | .node l j => nodeOrds n l j
  | .loc o => match (downs es).find? fun e => (entryOrds n e).contains o with
    | some e => islandOrds n es e
    | none => [o]
  | .result _ => []

/-- The contribution of an ordinal to a chunk and step is staged whole. -/
def ordStaged (n : Nat) (es : List Entry) (o : Op) (chunk step ord : Nat) : Bool :=
  covers 0 (chunkLen o.zop chunk)
    ((o.pieces.filter fun x => x.chunk == chunk && x.step == step && (placeOrds n es x.place).contains ord).map
      fun x => (x.off, x.len))

/-- Every contribution that this island needs of a chunk is staged (R54). -/
def chunkStaged (n : Nat) (es : List Entry) (o : Op) (chunk : Nat) : Bool :=
  let need := (covered n es).filter (contributes o.zop chunk)
  (List.range o.zop.nsteps).all fun step => need.all (ordStaged n es o chunk step)

/-- The operand bytes staged at a leaf. -/
def leafBytes (o : Op) (chunk step ord : Nat) : List Byte :=
  joinRanges 0 ((piecesAt o chunk step (.leaf ord)).filterMap fun x => match x.data with
    | .elems bs => some (elemPos o.zop.fmt x.off, bs)
    | .vals _ => none)

/-- The operand elements staged at a leaf. -/
def leafElems (o : Op) (chunk step ord : Nat) : List Elem :=
  readElems o.zop.fmt (leafBytes o chunk step ord) (chunkLen o.zop chunk)

/-- The values at a place, entered at a level (R72, R111). -/
def placeVals (o : Op) (lv : Lv) (chunk step : Nat) (p : Place) : List Val :=
  joinRanges 0 ((piecesAt o chunk step p).map fun x => (x.off, match x.data with
    | .elems bs => (readElems o.zop.fmt bs x.len).map (enter lv (o.zop.fmt == 1))
    | .vals vs => vs))

/-- The highest level of a chunk's forwarded inputs (R118). -/
def inputLevel (o : Op) (chunk : Nat) : Nat :=
  ((o.pieces.filter fun x => x.chunk == chunk).map (·.level)).foldl max 0

/-! ## Floating-point sums (R99 to R123, R142, R143) -/

/-- Combine two nodes element by element. -/
def combineVals (lv : Lv) (a b : List Val) : List Val := List.zipWith (combine lv) a b

/-- A value beyond the exhaustion threshold (R104, R119). -/
def beyondT3 (v : Val) : Bool := v.cls == .fin && decide (threshold 3 < qabs v.hi.q)

/-- What is placed in the tree of a step (R106, R111). -/
def placed (o : Op) (lv : Lv) (chunk step : Nat) : List ((Nat × Nat) × List Val) :=
  (placesOf o chunk step).map fun p => (placeNode p, placeVals o lv chunk step p)

/-- Look a node up among the placed ones. -/
def placedAt (t : List ((Nat × Nat) × List Val)) (l j : Nat) : Option (List Val) :=
  (t.find? fun x => x.1 == (l, j)).map (·.2)

/-- A node of a step's tree, and whether a node below it or it lies beyond T₃ (R106, R119). -/
def stepNode (lv : Lv) (t : Nat → Nat → Option (List Val)) (l j : Nat) : List Val × Bool :=
  ((treeNode (combineVals lv) t l j).getD [],
   lv.k == 3 && treeAny (fun vs => vs.any beyondT3) (combineVals lv) t l j)

/-- The inputs of a local partial: the covered ordinals by rank, a received node at the rank of its first ordinal
(R143). -/
def rankedAt (ords : List Nat) (t : List ((Nat × Nat) × List Val)) (l j : Nat) : Option (List Val) :=
  if l ≠ 0 then none
  else (ords[j]?).bind fun o => (t.find? fun x => x.1.2 * 2 ^ x.1.1 == o).map (·.2)

/-- The running results over the roots of steps from step `i` on (R108, R115): the step after which some running
result has class OVF with the results before it, or none; the results; whether any lies beyond T₃. -/
def runSteps (lv : Lv) : Nat → List Val → Bool → List (List Val × Bool) → Option (Nat × List Val) × List Val × Bool
  | _, run, b, [] => (none, run, b)
  | i, run, b, (r, rb) :: rs =>
    let new := if run.isEmpty then r else combineVals lv run r
    if lv.k < 3 ∧ (new.any fun v => v.cls == .ovf) then (some (i, run), run, b)
    else runSteps lv (i + 1) new (b || rb || (lv.k == 3 && new.any beyondT3)) rs

/-- The running results of the root island's chunk (R108, R115). -/
def rootSum (n : Nat) (o : Op) (lv : Lv) (c : ChunkSt) : Option (Nat × List Val) × List Val × Bool :=
  let chunk := c.plan.chunk
  let steps := (List.range (o.zop.nsteps - c.resume)).map fun i =>
    stepNode lv (placedAt (placed o lv chunk (c.resume + i))) (treeDepth n) 0
  runSteps lv c.resume c.running false steps

/-- The word range of arrival-order accumulation and of the pizzicato path: level 3 from the start, or level 0 under CAP0
(R123, R314). -/
def wideLv (o : Op) : Lv := if o.zop.cap0 then { k := 0, cap0 := true } else { k := 3 }

/-- A term of arrival-order accumulation combined into the running values of the elements it holds (R110). -/
def arriveInto (lv : Lv) (o : Op) (run : List (Option Val)) (p : Piece) : List (Option Val) :=
  let vs := match p.data with
    | .elems bs => (readElems o.zop.fmt bs p.len).map (enter lv (o.zop.fmt == 1))
    | .vals vs => vs
  run.mapIdx fun i r => if p.off ≤ i ∧ i < p.off + p.len then combineOpt (combine lv) r vs[i - p.off]? else r

/-- The greatest magnitude of a list of values. -/
def peakOf (vs : List (Option Val)) : Rat :=
  vs.foldl (fun m v => match v with | some x => max m (qabs x.hi.q) | none => m) 0

/-- Arrival-order accumulation over the staged pieces of a chunk that `keep` selects: every contribution in the order it
came; the values, the level of the result by every term and running value and by the levels received, and whether some
value lies beyond T₃ (R110, R119, R123). -/
def arrivalSum (o : Op) (chunk : Nat) (keep : Piece → Bool) : List Val × Nat × Bool :=
  let lv := wideLv o
  let ps := o.pieces.filter fun p => p.chunk == chunk && keep p && (match p.place with | .result _ => false | _ => true)
  let none_ : List (Option Val) := List.replicate (chunkLen o.zop chunk) none
  let step := fun (acc : List (Option Val) × Rat) (p : Piece) =>
    let run := arriveInto lv o acc.1 p
    (run, max acc.2 (max (peakOf (arriveInto lv o none_ p)) (peakOf run)))
  let (run, m) := ps.foldl step (none_, 0)
  let vs := run.map fun v => v.getD {}
  if o.zop.cap0 then (vs, 0, false)
  else (vs, if vs.any (fun v => v.ov) then 3 else max (inputLevel o chunk) (levelFor m), decide (threshold 3 < m))

/-! ## Writing results (R73, R76, R80, R86, R88, R92, R120, R127) -/

/-- The seed of an operation's draws (R80, R81). -/
def opSeed (s : State) (o : Op) : BitVec 64 :=
  if o.desc.entsr ∧ o.desc.rmode = 2 then o.seed else (jobGet s o.job).seed

/-- The rounding mode of an operation for an element of its tensor (R77, R80). -/
def opMode (s : State) (o : Op) (e : Nat) : RMode := rmodeAt o.desc.rmode (opSeed s o) o.desc.tensorId o.desc.step e

/-- SCALE of an operation. -/
def opScale (o : Op) : Rat := fp32Val o.desc.scale

/-- What a chunk of a result holds: bytes of each block, flags, and the elements that the histogram counts. -/
structure Made where
  blocks : List (Nat × List Byte)
  flags  : Flags := {}
  hist   : List Elem := []

/-- Floating-point values written from an element of the result on. -/
def madeFloats (s : State) (o : Op) (pos : Nat) (vs : List OutVal) : List Byte × Flags × List Elem :=
  writeFloats (outFmt o) o.desc.satfin (opMode s o) (o.desc.elemBase + pos) vs

/-- A result of one block written from floating-point values. -/
def madeOne (s : State) (o : Op) (block pos : Nat) (vs : List OutVal) : Made :=
  let (bs, f, es) := madeFloats s o pos vs
  { blocks := [(block, bs)], flags := f, hist := es }

/-- The exact value of a selection's winner on its way out (R76, R86, R124). -/
def elemOut (scale : Rat) (e : Elem) : OutVal :=
  match e with
  | .fin w => { q := scale * w.q, neg0 := decide (w.q = 0) && w.neg0 }
  | .int i => { q := i }
  | .inf neg => { special := some (.inf neg) }
  | .nan => { special := some .nan, flags := { nv := true } }

/-- The members whose operands a copying operation puts into a chunk of its result (R73, R128). -/
def copiedOrds (z : ZsiOp) (n chunk : Nat) : List Nat :=
  match z.opcode with
  | 4 => [chunkBlock z chunk]
  | 5 => [z.root]
  | _ => List.range n

/-- The level of a chunk of copies that are converted: as a single-input result, a value beyond the FP32 range overflows on
entry and the chunk takes the level that brings every element into range (R72, R73, R85, R120). DEDUCED (log entry 58): no
rule gives a copy a retry frame, so the chunk is formed at its final level at once. -/
def copyLevel (o : Op) (n chunk : Nat) : Nat :=
  if outFmt o = o.zop.fmt ∨ isInt o.zop.fmt ∨ o.zop.cap0 then 0
  else ([0, 1, 2].find? fun k => (copiedOrds o.zop n chunk).all fun ord =>
    (leafElems o chunk 0 ord).all fun e => (enter { k } (o.zop.fmt == 1) e).cls ≠ .ovf).getD 3

/-- A copied element as a single-input result at a level: entered into C64, and converted once (R72, R73, R76, R120). -/
def copyOut (scale : Rat) (lv : Lv) (fp64In : Bool) (e : Elem) : OutVal :=
  match e with
  | .int i => { q := i }
  | e => outVal scale lv.k false (enter lv fp64In e)

/-- The result of a sum at a level (R76, R85, R120). -/
def madeSum (s : State) (o : Op) (chunk k : Nat) (vs : List Val) (exhausted : Bool) : Made :=
  let m := madeOne s o 0 (chunkSpan o.zop chunk).1 (vs.map (outVal (opScale o) k false))
  { m with flags := Flags.or m.flags { of := exhausted } }

/-- Copied elements of one member (R73): their bits where OFMT is FMT, else converted once at a level. -/
def madeCopy (s : State) (o : Op) (k chunk ord block pos : Nat) : Made :=
  let c := o.zop.fmt
  if outFmt o = c then
    { blocks := [(block, leafBytes o chunk 0 ord)], hist := if isInt c then [] else leafElems o chunk 0 ord }
  else madeOne s o block pos ((leafElems o chunk 0 ord).map (copyOut (opScale o) { k, cap0 := o.zop.cap0 } (c == 1)))

/-- Two results together. -/
def Made.and (a b : Made) : Made :=
  { blocks := a.blocks ++ b.blocks, flags := Flags.or a.flags b.flags, hist := a.hist ++ b.hist }

/-- The integer of an element. -/
def elemInt : Elem → Int
  | .int i => i
  | _ => 0

/-- A bitwise combine of integers of a width (R89). -/
def bitwise (redop w : Nat) (a b : Int) : Int :=
  let x := unsigned w a
  let y := unsigned w b
  signed w (match redop with | 3 => Nat.land x y | 4 => Nat.lor x y | _ => Nat.xor x y)

/-- Combine lists by a function; an empty one stands for nothing yet. -/
def foldLists {α : Type} (f : α → α → α) (ls : List (List α)) : List α :=
  ls.foldl (fun acc l => if acc.isEmpty then l else List.zipWith f acc l) []

/-- The leaves of a chunk, every step and ordinal. -/
def leavesOf (o : Op) (ords : List Nat) : List (Nat × Nat) :=
  (List.range o.zop.nsteps).flatMap fun step => ords.map fun o => (step, o)

/-- Integer sums and bitwise combines (R88, R89). -/
def madeInts (o : Op) (chunk : Nat) (ords : List Nat) : Made :=
  let w := elemBits o.zop.fmt
  let f : Int → Int → Int := if o.zop.redop = 0 then (· + ·) else bitwise o.zop.redop w
  let xs := foldLists f ((leavesOf o ords).map fun l => (leafElems o chunk l.1 l.2).map elemInt)
  let (bs, fl) := writeInts (outFmt o) xs
  { blocks := [(0, bs)], flags := fl }

/-- A candidate as written: VALUE in OFMT, its flags, and what the histogram counts (R76, R88, R127). -/
def writeCand (s : State) (o : Op) (pos : Nat) (e : Elem) : List Byte × Flags × List Elem :=
  if isInt (outFmt o) then ((writeInts (outFmt o) [elemInt e]).1, {}, [])
  else madeFloats s o pos [elemOut (opScale o) e]

/-- An entry of R127. -/
def entry16 (value : List Byte) (idx ord : Nat) : List Byte := slice value 0 8 ++ le 5 idx ++ le 2 ord ++ [0]

/-- An entry of a candidate, or the empty entry. -/
def madeEntry (s : State) (o : Op) (pos : Nat) (c : Option Cand) : List Byte × Flags × List Elem :=
  match c with
  | some c =>
    let (v, f, es) := writeCand s o pos c.elem
    (entry16 v c.idx c.ord, f, es)
  | none => (entry16 [] 0xFFFFFFFFFF 0xFFFF, {}, [])

/-- Entries one after another, from a position of the result. -/
def madeEntries (s : State) (o : Op) (pos : Nat) (cs : List (Option Cand)) : Made :=
  let ms := cs.mapIdx fun i c => madeEntry s o (pos + i) c
  { blocks := [(0, ms.flatMap (·.1))], flags := ms.foldl (fun a m => Flags.or a m.2.1) {}, hist := ms.flatMap (·.2.2) }

/-- The best candidates of a chunk over every contribution (R125). -/
def bestOf (o : Op) (chunk : Nat) (ords : List Nat) (min : Bool) : List Cand :=
  let e0 := (chunkSpan o.zop chunk).1
  foldLists (better min) ((leavesOf o ords).map fun l =>
    (leafElems o chunk l.1 l.2).mapIdx fun i e => { elem := e, ord := l.2, idx := o.desc.elemBase + e0 + i })

/-- Some contribution of a chunk is NaN (R86). -/
def anyNan (o : Op) (chunk : Nat) (ords : List Nat) : Bool :=
  (leavesOf o ords).any fun l => (leafElems o chunk l.1 l.2).contains .nan

/-- MAX and MIN (R86, R125): the winner's value as R76 states, or exactly for integers. -/
def madeSelect (s : State) (o : Op) (chunk : Nat) (ords : List Nat) : Made :=
  let cs := bestOf o chunk ords (o.zop.redop == 2)
  if isInt (outFmt o) then { blocks := [(0, (writeInts (outFmt o) (cs.map fun c => elemInt c.elem)).1)] }
  else
    let m := madeOne s o 0 (chunkSpan o.zop chunk).1 (cs.map fun c => elemOut (opScale o) c.elem)
    { m with flags := Flags.or m.flags { nv := anyNan o chunk ords } }

/-- ARGMAX and ARGMIN (R125, R127). -/
def madeArg (s : State) (o : Op) (chunk : Nat) (ords : List Nat) : Made :=
  let cs := bestOf o chunk ords (o.zop.opcode == 9)
  let m := madeEntries s o (chunkSpan o.zop chunk).1 (cs.map some)
  { m with flags := Flags.or m.flags { nv := anyNan o chunk ords } }

/-- The elements of a member from `lo` up to and not including `hi` of its operand, over the chunks that hold them. -/
def operandRange (o : Op) (ord lo hi : Nat) : List Elem :=
  let ch := chunkElems o.zop
  (List.range ((hi + ch - 1) / ch - lo / ch)).flatMap fun i =>
    let c := lo / ch + i
    ((leafElems o c 0 ord).take (hi - c * ch)).drop (lo - c * ch)

/-- The first k candidates of a segment (R126, R146). -/
def topSegment (o : Op) (ords : List Nat) (seg : Nat) : List Cand :=
  let size := 2 ^ o.zop.segl
  ords.foldl (fun acc ord =>
    topMerge o.zop.k acc ((operandRange o ord (seg * size) ((seg + 1) * size)).mapIdx fun i e =>
      { elem := e, ord, idx := o.desc.elemBase + seg * size + i })) []

/-- TOPK: the segments that end in a chunk (R126, R128, R146). -/
def madeTop (s : State) (o : Op) (chunk : Nat) (ords : List Nat) : Made :=
  let size := 2 ^ o.zop.segl
  let (e0, e1) := chunkSpan o.zop chunk
  let segs := (List.range (e1 / size - e0 / size)).map (· + e0 / size)
  let cs := segs.flatMap fun g =>
    let best := topSegment o ords g
    best.map some ++ List.replicate (o.zop.k - best.length) none
  let nan := segs.any fun g => ords.any fun d => (operandRange o d (g * size) ((g + 1) * size)).contains .nan
  let m := madeEntries s o (e0 / size * o.zop.k) cs
  { m with flags := Flags.or m.flags { nv := nan } }

/-- What the root island makes of a chunk of a copying operation, and the level of the chunk (R73, R120). -/
def madeCopies (s : State) (o : Op) (n chunk : Nat) : Made × Nat :=
  let z := o.zop
  let k := copyLevel o n chunk
  let b := chunkBlock z chunk
  let e0 := (chunkSpan z chunk).1
  (match z.opcode with
   | 4 => madeCopy s o k chunk b b (b * z.count + e0)
   | 5 => madeCopy s o k chunk z.root 0 e0
   | _ => (List.range n).foldl (fun m i => m.and (madeCopy s o k chunk i i (i * z.count + e0))) { blocks := [] }, k)

/-- What the root island makes of a chunk of an operation that combines and is not a floating-point sum (R88, R89, R125 to
R127). -/
def madeOther (s : State) (o : Op) (n chunk : Nat) : Made :=
  let z := o.zop
  let ords := List.range n
  match z.opcode with
  | 8 | 9 => madeArg s o chunk ords
  | 0x0A => madeTop s o chunk ords
  | _ => if z.redop = 1 ∨ z.redop = 2 then madeSelect s o chunk ords else madeInts o chunk ords

/-- What the root island makes of a chunk of an operation that is not a floating-point sum, and the level of the chunk
(R73, R120). -/
def madeChunk (s : State) (o : Op) (n chunk : Nat) : Made × Nat :=
  if [4, 5, 6].contains o.zop.opcode then madeCopies s o n chunk else (madeOther s o n chunk, 0)

/-- The bytes of a part in what a chunk made: parts of one block share its bytes. -/
def partBytes (o : Op) (m : Made) (p : Part) : List Byte :=
  let perBlockBytes := o.zop.opcode == 6 || o.zop.opcode == 4
  let bs := ((m.blocks.find? fun b => !perBlockBytes || b.1 == p.block).map (·.2)).getD []
  (bs.drop (unitPos o p.off)).take (unitPos o (p.off + p.len) - unitPos o p.off)

/-- The completion fields of an operation after a chunk of its result (R90 to R93, R114, R120). -/
def addMade (n k chunk : Nat) (c : ChunkSt) (m : Made) (o : Op) : Op :=
  let ps := o.pieces.filter fun p => p.chunk == chunk
  let sum := isFloatSum o.zop
  let extra : Flags :=
    { of := c.ofSeen || ps.any (·.of), nv := ps.any (·.nv), sa := decide (0 < k),
      bx := sum && decide (2 ^ 20 < n * o.zop.nsteps) }
  { o with flags := Flags.or o.flags (Flags.or m.flags extra), rlvl := max o.rlvl k, rmap := mapSet o.rmap chunk k,
           hist := if isInt (outFmt o) then o.hist else histCount o.desc.hbase o.hist m.hist }

end Sys2Proof.Machine
end

