-- ==== Sys2Proof/Machine/Pizzicato.lean ====
section
/-! DEFINITION. The pizzicato path: inputs as they are placed, the value an island sends up, the result of the root island,
and its way down (R123, R128, R148, R149, R156 to R167, R314). -/

set_option Elab.async false

namespace Sys2Proof.Machine

/-! ## The operation on the path -/

/-- Change the pizzicato part of an operation. -/
def pizzModify (q : Nat) (d : BitVec 32) (f : PizzOp → PizzOp) (s : State) : State :=
  { s with pizzOps := s.pizzOps.map fun p => if p.queue = q ∧ p.dseq = d then f p else p }

/-- Give an operation a pizzicato part under its epoch, where it has none yet. -/
def pizzOpen (o : Op) (s : State) : State :=
  match pizzFind s o.queue o.dseq with
  | some _ => s
  | none => { s with pizzOps := s.pizzOps ++ [{ queue := o.queue, group := o.group, dseq := o.dseq, cepoch := opEpoch s o, job := o.job }] }

/-- The timeout in nanoseconds (R164). -/
def pizzTmoNs (s : State) : Nat := 1000 * s.ctl.pizzTmo

/-- The island's value is overdue: PIZZ_TMO has passed since the first contribution, and nothing has gone up (R164). -/
def pizzOverdue (s : State) (p : PizzOp) : Bool :=
  !p.sent && match p.firstAt with | some t => decide (t + pizzTmoNs s ≤ s.time.gcount) | none => false

/-- The operation as one chunk: its COUNT is at most 256 elements (R156). -/
def pizzView (o : Op) : Op := { o with zop := { o.zop with chl := 12, nsteps := 1 } }

/-- The ordinals whose inputs this island waits for (R128, R159). -/
def pizzNeeds (n : Nat) (es : List Entry) (o : Op) : List Nat :=
  (covered n es).filter fun ord => o.zop.opcode ≠ 5 || ord == o.zop.root

/-! ## Values (R123, R160, R161) -/

/-- The level of a node: the smallest at which no value of it overflows, the levels received taken in, or 3 (R123, R160).
R161 asks for the level of the bulk path, which an overflow that an infinity or a NaN absorbs does not raise (R115), and
R123 closes with the same words; they are taken over R123's "no node" (log entry 61). -/
def pizzLevel (o : Op) (l j : Nat) : Nat :=
  if o.zop.cap0 then 0
  else ([0, 1, 2].find? fun k => decide (inputLevel o 0 ≤ k) &&
    !((stepNode { k } (placedAt (placed (pizzView o) { k } 0 0)) l j).1.any fun v => v.cls == .ovf)).getD 3

/-- Value and level of a node of this island, and whether some value lies beyond T₃. On the level's own range a finite
value has the bits of the level-3 range (R104), and OV is that of the bulk path. -/
def pizzNode (o : Op) (l j : Nat) : List Val × Nat × Bool :=
  let k := pizzLevel o l j
  let lv : Lv := { k, cap0 := o.zop.cap0 }
  let (vs, beyond) := stepNode lv (placedAt (placed (pizzView o) lv 0 0)) l j
  (vs, k, beyond)

/-- C64X values as they travel in a PIZZ node: 16 bytes each, the class in the high word. -/
def pizzBytes (vs : List Val) : List Byte := vs.flatMap (valBytes 3)

/-- A value from its 16 bytes. -/
def pizzVal (nx : Bool) (bs : List Byte) : Val := valOfBytes 3 bs none nx

/-- PFLAGS of a value: NV, OF, NX and the level (R311). -/
def pizzFlags (nv of nx : Bool) (k : Nat) : BitVec 8 := BitVec.ofNat 8 (flag nv 4 + flag of 3 + flag nx 2 + k)

/-- PFLAGS of a node that goes up: those of its values and of the inputs they came from. -/
def pizzCarried (o : Op) (vs : List Val) (k : Nat) (beyond : Bool) : BitVec 8 :=
  pizzFlags (vs.any (fun v => v.cls == .nan) || o.pieces.any (·.nv))
    (vs.any (·.ov) || o.pieces.any (·.of) || decide (0 < k) || beyond) (vs.any (·.nx)) k

/-! ## Upward (R145, R159, R160) -/

/-- Elements of a term of an operation: a BARRIER carries no data (R128, R156). -/
def pizzCount (o : Op) : Nat := if o.zop.opcode = 7 then 0 else o.zop.count

/-- The fields of a PIZZ packet of an operation. -/
def pizzBase (o : Op) (sub : Nat) : PizzExt :=
  { group := o.group, queue := o.queue, dseq := o.dseq, sub, ecnt := pizzCount o }

/-- Send a PIZZ packet of an operation on an entry. -/
def sendPizz (o : Op) (e : Entry) (x : PizzExt) (bs : List Byte) (s : State) : State :=
  sendOp o e 0 (.pizz x) bs (.pizz o.queue o.dseq) s

/-- Send what is placed as it came: leaves as raw terms, runs of one ordinal, and received nodes at their node. -/
def sendPizzTerms (o : Op) (e : Entry) (s : State) : State :=
  let ps := sortBy (fun (a b : Place) => decide ((placeNode a).2 * 2 ^ (placeNode a).1 ≤ (placeNode b).2 * 2 ^ (placeNode b).1))
    (placesOf o 0 0)
  ps.foldl (fun s p => match p with
    | .leaf ord => sendPizz o e { pizzBase o 3 with nodej := ord, rcnt := 1 } (leafBytes (pizzView o) 0 0 ord) s
    | .node l j =>
      let xs := piecesAt o 0 0 p
      let k := (xs.map (·.level)).foldl max 0
      sendPizz o e { pizzBase o 2 with nodel := l, nodej := j, pflags := pizzFlags (xs.any (·.nv)) (xs.any (·.of)) (xs.any (·.nx)) k }
        (pizzBytes (placeVals (pizzView o) (wideLv o) 0 0 p)) s
    | _ => s) s

/-- An island other than the root's sends its value: one node where it is aligned and the operation is a floating-point
sum, raw terms otherwise (R160). -/
def pizzUp (o : Op) (e : Entry) (s : State) : State :=
  let n := (opGroup s o).nmem
  match alignedNode n (covered n (opEntries s o)) with
  | some (l, j) =>
    if isFloatSum o.zop then
      let (vs, k, beyond) := pizzNode o l j
      sendPizz o e { pizzBase o 2 with nodel := l, nodej := j, pflags := pizzCarried o vs k beyond } (pizzBytes vs) s
    else sendPizzTerms o e s
  | none => sendPizzTerms o e s

/-! ## The root island (R73, R76, R92, R123, R159) -/

/-- The level of a gathered result whose elements are converted: the highest that a member's copies ask for (R73, R123). -/
def pizzCopyLevel (v : Op) (n : Nat) : Nat :=
  ((List.range n).map fun i => copyLevel { v with zop := { v.zop with opcode := 5, root := i } } n 0).foldl max 0

/-- The result of the root island, as one run of bytes, and its level. -/
def pizzMade (s : State) (o : Op) (n : Nat) : Made × Nat :=
  let v := pizzView o
  match o.zop.opcode with
  | 7 => ({ blocks := [] }, 0)
  | 4 =>
    let k := pizzCopyLevel v n
    ((List.range n).foldl (fun m i => m.and (madeCopy s v k 0 i i (i * o.zop.count))) { blocks := [] }, k)
  | _ =>
    if isFloatSum o.zop then
      let (vs, k, beyond) := pizzNode o (treeDepth n) 0
      (madeSum s v 0 k vs beyond, k)
    else madeChunk s v n 0

/-- A chunk state that stands for the one chunk of the operation. -/
def pizzChunk (k : Nat) : ChunkSt :=
  { plan := { chunk := 0, frame := 0, commit := 0, workEnd := 0, stride := 1, neck := 0 }, attempt := 0, ofSeen := decide (0 < k) }

/-- Who receives the result (R128). -/
def pizzWho (z : ZsiOp) : Who := match z.opcode with | 2 => .one z.root | 5 => .allBut z.root | _ => .all

/-- An entry of the island leads to a recipient. -/
def pizzWants (n : Nat) (es : List Entry) (o : Op) (e : Entry) : Bool := (islandOrds n es e).any (pizzWho o.zop).has

/-- The multicast of a result in TC0: to members as WRITEs, to downstream islands as PIZZ results (R149). -/
def pizzCast (o : Op) (bs : List Byte) (pflags : BitVec 8) (s : State) : State :=
  let es := opEntries s o
  let n := (opGroup s o).nmem
  let ms := if bs.isEmpty then [] else (members es).filter (pizzWants n es o)
  let s := ms.foldl (fun s e => sendOp o e 0 (.write (e.base + o.desc.dstOff)) bs (.data o.queue o.dseq (recordIndex o e)) s) s
  ((downOnce es).filter (pizzWants n es o)).foldl (fun s e => sendPizz o e { pizzBase o 4 with pflags } bs s) s

/-- The root island has every input: it forms the result, and sends it and the completion fields (R123, R148). -/
def pizzRoot (o : Op) (s : State) : State :=
  let n := (opGroup s o).nmem
  let (m, k) := pizzMade s o n
  let bs := m.blocks.flatMap (·.2)
  let done := fun (o : Op) => { addMade n k 0 (pizzChunk k) m o with pieces := [] }
  let s := opModify o.queue o.dseq done s
  let s := pizzModify o.queue o.dseq (fun p => { p with sent := true, passed := true, ending := true }) s
  withOp o.queue o.dseq (fun o s => sendMeta o (pizzCast o bs (pizzFlags o.flags.nv o.flags.of o.flags.nx k) s)) s

/-! ## Downward (R148, R149, R314) -/

/-- The completion fields come with RESULT_META, unless the UP port has revision 1 (R313, R314). -/
def metaComes (s : State) (o : Op) : Bool := match upEntry (opEntries s o) with | some e => portRev s e.port ≠ 1 | none => true

/-- A result that has come from above, staged with its PFLAGS. -/
def pizzResult (o : Op) : Option (List Byte × BitVec 8) :=
  (o.pieces.find? fun p => match p.place with | .result _ => true | _ => false).bind fun p => match p.data with
    | .elems bs => some (bs, pizzFlags p.nv p.of p.nx p.level)
    | .vals _ => none

/-- The completion fields a result carries, for an island that gets no others. -/
def pizzFields (f : BitVec 8) (o : Op) : Op :=
  let k := f.toNat % 4
  { o with flags := { nv := f.getLsbD 4, of := f.getLsbD 3, nx := f.getLsbD 2, sa := decide (0 < k) }, rlvl := k, rmap := mapSet o.rmap 0 k }

/-- Pass a result on (R159). -/
def pizzPass (o : Op) (s : State) : State :=
  match pizzResult o with
  | some (bs, f) =>
    let s := if metaComes s o then s else opModify o.queue o.dseq (pizzFields f) s
    let s := pizzModify o.queue o.dseq (fun p => { p with passed := true }) s
    withOp o.queue o.dseq (fun o s => pizzCast o bs f s) s
  | none => s

/-- An island below has nothing left to send or to pass on. -/
def pizzOverBelow (s : State) (o : Op) (p : PizzOp) : Bool :=
  let es := opEntries s o
  let n := (opGroup s o).nmem
  let wanted := es.any fun e => e.kind ≠ 4 && pizzWants n es o e
  (p.sent || (pizzNeeds n es o).isEmpty) && (o.meta_ || !metaComes s o) && (!wanted || p.passed)

/-- Every input that this island waits for is here. -/
def pizzComplete (s : State) (o : Op) (p : PizzOp) : Bool :=
  let need := pizzNeeds (opGroup s o).nmem (opEntries s o) o
  !need.isEmpty && need.all p.arrived.contains

/-- Additions that the island's part of the tree takes (R428). -/
def pizzAdds (o : Op) : Nat := if isFloatSum o.zop then ((placesOf o 0 0).length - 1) * o.zop.count else 0

/-- The values that each other neck forwards to the top neck cross the soundboard, in C64X (R159, R428). -/
def pizzCrosses (o : Op) (s : State) : State :=
  let es := opEntries s o
  let necks := (List.range 16).filter fun k => k ≠ topNeck es
  necks.foldl (fun s k => countCross k (16 * o.zop.count * forwardedValues (opGroup s o).nmem es k) o.job s) s

/-- The island's value goes up, or on the root island its result is formed, once every input is here, its descriptor too,
and its time is not over (R159, R164). -/
def pizzSend (o : Op) (s : State) : State :=
  match pizzFind s o.queue o.dseq with
  | none => s
  | some p =>
    if p.sent || pizzOverdue s p || !pizzComplete s o p then s
    else
      let s := pizzCrosses o (count 0x14 (topNeck (opEntries s o)) (pizzAdds o) (opCtx o) s)
      if o.home then pizzRoot o s
      else match upEntry (opEntries s o) with
        | some e => pizzModify o.queue o.dseq (fun p => { p with sent := true }) (pizzUp o e s)
        | none => s

/-- What can happen to a pizzicato operation now. -/
def pizzCheck (q : Nat) (d : BitVec 32) (s : State) : State :=
  let live := fun (o : Op) => o.zop.pizz && o.opened && o.status.isNone
  let s := withOp q d (fun o s => if live o then pizzSend o s else s) s
  let s := withOp q d (fun o s =>
    let fresh := match pizzFind s q d with | some p => !p.passed | none => false
    if live o && !o.home && fresh then pizzPass o s else s) s
  withOp q d (fun o s => match pizzFind s q d with
    | some p =>
      if live o && !o.home && !p.ending && pizzOverBelow s o p then pizzModify q d (fun p => { p with ending := true }) s else s
    | none => s) s

end Sys2Proof.Machine
end

