-- ==== Sys2Proof/Machine/Streams.lean ====
section
/-! DEFINITION. The streams of WGRAD as they are stored: member regions, units, halves, and when a MASKSTASH is
satisfied (R168, R177 to R183, R196, R198). -/

set_option Elab.async false

namespace Sys2Proof.Machine

/-! ## Member regions (R177) -/

/-- The weight tensor whose streams an operation uses. -/
def streamTensor (z : ZsiOp) : Option Nat :=
  match z.extra with
  | .wgrad g => some g.wtensor
  | .stash w => some w
  | _ => none

/-- The WGRAD operation of a job's loaded ZSIs that gives the layout of a tensor's streams. -/
def tensorDef (s : State) (job w : Nat) : Option (ZsiOp × WgradDef) :=
  ((s.zsis.filterMap (·.2)).filter fun z => z.job == job).findSome? fun z =>
    z.body.ops.findSome? fun o => (wgradOf o).bind fun g => if g.wtensor = w then some (o, g) else none

/-- Every WGRAD of a job's loaded ZSIs of a tensor. -/
def tensorDefs (s : State) (job w : Nat) : List WgradDef :=
  ((s.zsis.filterMap (·.2)).filter fun z => z.job == job).flatMap fun z =>
    (z.body.ops.filterMap fun o => wgradOf o).filter fun g => g.wtensor == w

/-- Bytes of a row of X, of dZ and of the mask (R177). -/
def rowX (g : WgradDef) : Nat := fmtBytes g.xfmt g.kin
def rowD (g : WgradDef) : Nat := fmtBytes g.dfmt g.kout
def rowM (g : WgradDef) : Nat := g.kout / 8

/-- Bytes of a member region by kind: 1 X, 2 dZ, 3 mask. -/
def regionSize (g : WgradDef) (kind : Nat) : Nat :=
  g.nmb * g.tok * match kind with | 1 => rowX g | 2 => rowD g | _ => rowM g

/-- The feature of the element that a byte of a row belongs to (R68, R177). -/
def rowFeature (c p : Nat) : Nat :=
  if isMx c then
    let i := p % mxGroupBytes c
    p / mxGroupBytes c * 1024 + if i < 32 then 32 * i else (i - 32) * 8 / elemBits c
  else p * 8 / elemBits c

/-- The panel of 64 features that a byte of a member region belongs to (R177). -/
def bytePanel (g : WgradDef) (kind off : Nat) : Nat :=
  (match kind with
   | 1 => if g.xlayout = 1 then off / (g.tok * elemBytes g.xfmt) % g.kin else rowFeature g.xfmt (off % rowX g)
   | 2 => rowFeature g.dfmt (off % rowD g)
   | _ => 8 * (off % rowM g)) / 64

/-- Bytes of a stream write that go into the window of an operation: those whose panels its block includes (R178). -/
def panelCopy (g : WgradDef) (kind off n : Nat) : Nat :=
  (List.range n).countP fun i =>
    let p := bytePanel g kind (off + i)
    if kind = 1 then decide (g.rowp0 ≤ p) && decide (p < g.rowp0 + g.nrowp) else decide (g.colp0 ≤ p) && decide (p < g.colp0 + g.ncolp)

/-- Count the copies of a stream write that reached the island in a neck: into the window of every operation of the tensor that needs
them, across the soundboard where that lies in another neck (R178, R428). What a byte holds is the same in every copy, and is kept
once. -/
def countCopiesOf (gs : List WgradDef) (neck kind off n job : Nat) (s : State) : State :=
  gs.foldl (fun s g =>
    let k := panelCopy g kind off n
    countWrite g.neck k job (if g.neck = neck then s else countCross neck k job s)) s

/-! ## Halves and units (R179, R180) -/

/-- The stream set of a job's tensor. -/
def streamSet (s : State) (job w : Nat) : Option StreamSet := s.streams.find? fun t => t.job == job && t.wtensor == w

/-- The half that a step's data goes to. -/
def halfIndex (t : StreamSet) (step : BitVec 32) : Nat := step.toNat % max 1 t.nbuf

/-- The half that has a step's data. -/
def halfOf (t : StreamSet) (step : BitVec 32) : Option Half :=
  (t.halves[halfIndex t step]?).bind fun h => if h.step = some step then some h else none

/-- The bytes that have arrived of a chip and kind under a chord epoch. -/
def halfBytes (h : Half) (e : BitVec 8) (chip kind : Nat) : List Host.Cell :=
  ((h.data.find? fun d => d.chip == chip && d.kind == kind && decide (d.epoch = e)).map (·.bytes)).getD []

/-- The epoch of units of a step that differs from an operation's (R181). -/
def foreignIn (t : StreamSet) (step : BitVec 32) (e : BitVec 8) : Option (BitVec 8) :=
  (halfOf t step).bind fun h => (h.data.find? fun d => decide (d.epoch ≠ e)).map (·.epoch)

/-- Drop the units of a step that another epoch than an operation's wrote; the operations of a list know of it (R181). -/
def dropForeign (step : BitVec 32) (e : BitVec 8) (found : BitVec 8) (told : List (Nat × Nat)) (t : StreamSet) : StreamSet :=
  { t with
    halves := t.halves.map fun h => if h.step = some step then { h with data := h.data.filter fun d => decide (d.epoch = e) } else h
    foreign := t.foreign ++ [{ step, epoch := found, told }] }

/-- Every byte from `a` up to and not including `b` has arrived. -/
def arrivedRange (cs : List Host.Cell) (a b : Nat) : Bool :=
  (cs.filter fun c => decide (a ≤ c.1) && decide (c.1 < b)).length == b - a

/-- Unit `u` of a region of a size is present (R179). -/
def unitPresent (cs : List Host.Cell) (size u : Nat) : Bool := arrivedRange cs (4096 * u) (min (4096 * (u + 1)) size)

/-- Every unit that bytes `a` to `b - 1` of a region lie in is present. -/
def unitsPresent (cs : List Host.Cell) (size a b : Nat) : Bool :=
  (List.range ((b + 4095) / 4096 - a / 4096)).all fun i => unitPresent cs size (a / 4096 + i)

/-- What a byte holds after a write: a repeated write of another value leaves it undefined (R179), a free value. -/
def mergeByte (n : Nat) (old : Option Byte) (new : Byte) : Byte :=
  match old with
  | some v => if v = new then new else Config.freeByte n
  | none => new

/-- Write bytes at an offset of a region. -/
def regionWrite (n : Nat) (cs : List Host.Cell) (off : Nat) (bs : List Byte) : List Host.Cell :=
  let old := cs.filter fun c => decide (off ≤ c.1) && decide (c.1 < off + bs.length)
  (cs.filter fun c => decide (c.1 < off)) ++
  (bs.mapIdx fun i b => (off + i, mergeByte (n + i) ((old.find? fun c => c.1 == off + i).map (·.2)) b)) ++
  cs.filter fun c => decide (off + bs.length ≤ c.1)

/-- Write bytes of a step, chip and kind into a half under an epoch; the first write of another step empties it (R180). -/
def halfWrite (n : Nat) (step : BitVec 32) (e : BitVec 8) (chip kind off : Nat) (bs : List Byte) (h : Half) : Half :=
  let h := if h.step = some step then h else {}
  let others := h.data.filter fun d => !(d.chip == chip && d.kind == kind && decide (d.epoch = e))
  { step := some step, held := true
    data := others ++ [{ chip, kind, epoch := e, bytes := regionWrite n (halfBytes h e chip kind) off bs }] }

/-! ## Masks (R182) -/

/-- Every mask unit of every member of this island is present for the step of a MASKSTASH. -/
def masksPresent (s : State) (o : Op) (w : Nat) : Bool :=
  match tensorDef s o.job w with
  | none => true
  | some (_, g) =>
    let size := regionSize g 3
    match (streamSet s o.job w).bind fun t => halfOf t o.desc.step with
    | some h => (members (opEntries s o)).all fun e => unitsPresent (halfBytes h (opEpoch s o) e.chip 3) size 0 size
    | none => (members (opEntries s o)).isEmpty || size == 0

/-- Send a CTRL message of an operation on its UP entry. -/
def opUp (o : Op) (ctype : Nat) (s : State) : State :=
  match upEntry (opEntries s o) with
  | some e => sendCtrl e o.job o.group o.queue o.dseq (opEpoch s o) ctype 0 [] s
  | none => s

/-- MASKSTASH: the root island completes it once every island is satisfied; another island reports once its own members
and every island below it are (R182). -/
def stashCheck (q : Nat) (d : BitVec 32) (s : State) : State :=
  withOp q d (fun o s =>
    match o.zop.extra with
    | .stash w =>
      if !o.opened || opOver o || !masksPresent s o w || !(downChips (opEntries s o)).all o.masksIn.contains then s
      else
        let s := opModify q d (fun o => { o with satisfied := true }) s
        opEnd q d (if o.home then s else opUp o 0x05 s)
    | _ => s) s

/-- Check every MASKSTASH of a job's tensor and step. -/
def stashChecks (job w : Nat) (step : BitVec 32) (s : State) : State :=
  ((s.ops.filter fun o => o.job == job && streamTensor o.zop == some w && decide (o.desc.step = step)).map
    fun o => (o.queue, o.dseq)).foldl (fun s k => stashCheck k.1 k.2 s) s

/-! ## WGRAD on an island other than the root's (R190, R198) -/

/-- A WGRAD is over on an island other than the root's once its slices are done; with ORDER 1 its half is released. -/
def wgradBelow (q : Nat) (d : BitVec 32) (s : State) : State :=
  withOp q d (fun o s =>
    match o.zop.extra with
    | .wgrad _ => if o.home || !o.opened || opOver o || !plansDone o then s else opEnd q d s
    | _ => s) s

/-- What streams that came before its descriptor mean for an operation that starts. -/
def streamChecks (q : Nat) (d : BitVec 32) (s : State) : State := wgradBelow q d (stashCheck q d s)

end Sys2Proof.Machine
end

