-- ==== Sys2Proof/Machine/Queues.lean ====
section
/-! DEFINITION. Communication queues: ring writes, doorbells, starting descriptors, relays, queue states and
the reports that complete an operation (R154, R242 to R263, R396 to R398, R403, R430). -/

set_option Elab.async false

namespace Sys2Proof.Machine

/-! ## Errors of a queue (R250, R251, R253, R255, R262) -/

/-- QUEUE_ERROR about a descriptor (R276). -/
def queueErrorNotice (q group : Nat) (d : BitVec 32) (detail : Word) : Notice :=
  { kind := 1, sev := 2, queue := q, group, dseq := d, detail := le 4 detail.toNat }

/-- The record the poster is owed. -/
def posterRec (x : QueueCtx) : Option RecSt := some { chip := x.poster, base := 0 }

/-- An operation that ends without being started: it has no member record, and the home island owes the
poster's. -/
def unstartedOp (s : State) (q : Nat) (x : QueueCtx) (dseq : BitVec 32) (d : Desc) (status : Nat) (detail : Word) : Op :=
  { queue := q, dseq, group := x.group, job := x.job, slot := d.sched,
    zop := { opid := d.opid, opcode := d.opcode, group := x.group }, desc := d, home := true, cepoch := s.chord.epoch,
    startAt := s.time.gcount, status := some status, detail, poster := posterRec x }

/-- The end that an operation has had before its descriptor came. -/
def earlyEnd (s : State) (q : Nat) (d : BitVec 32) : Option EarlyEnd := s.earlyEnds.find? fun e => e.queue == q && decide (e.dseq = d)

/-- Put an operation that ends without being started in place of what was known of it: an end that it has had already stands (R61,
R398), and the member records begun then are written all the same; what was staged for it goes. -/
def placeUnstarted (o : Op) (s : State) : State :=
  let told := match opFind s o.queue o.dseq with | some x => x.records | none => []
  let o := match earlyEnd s o.queue o.dseq with
    | some e => { o with status := some e.status, detail := e.detail, records := told }
    | none => { o with records := told }
  let s := opRemove o.queue o.dseq (pizzEnd o.queue o.dseq s)
  { s with ops := s.ops ++ [o], earlyEnds := s.earlyEnds.filter fun e => !(e.queue == o.queue && decide (e.dseq = o.dseq)) }

/-- A descriptor fails a check: it completes with a status, its queue goes to ERROR, and QUEUE_ERROR is sent
(R251, R253, R255). -/
def failDesc (q : Nat) (dseq : BitVec 32) (d : Desc) (status : Nat) (detail : Word) (s : State) : State :=
  let x := queueGet s q
  let s := placeUnstarted (unstartedOp s q x dseq d status detail) s
  notice (queueErrorNotice q x.group dseq detail) (queueError q 1 dseq s)

/-- An operation in flight ends with MALFORMED on every island; its queue goes to ERROR with a cause, and QUEUE_ERROR is sent (R242,
R251, R255). -/
def failStarted (cause : Nat) (detail : Word) (o : Op) (s : State) : State :=
  let s := discardWith 5 (discardArg 5 s.ctl.id.chip detail) none detail o s
  notice (queueErrorNotice o.queue o.group o.dseq detail) (queueError o.queue cause o.dseq s)

/-! ## Ring and doorbells (R243, R249 to R251) -/

/-- The queue whose descriptor ring on this island holds a range of island HBM (R243). -/
def ringQueue (s : State) (off len : Nat) : Option (Nat × QueueCtx) :=
  s.queues.find? fun e => e.2.home && e.2.state ≠ .absent && decide (e.2.ring ≤ off) &&
    decide (off + len ≤ e.2.ring + 64 * 2 ^ e.2.log2sz)

/-- Write island HBM (R25). Unlisted bytes read 0. -/
def hbmWrite (off : Nat) (bs : List Byte) (s : State) : State := { s with hbm := Table.putAll 0 s.hbm off bs }

/-- Read island HBM. -/
def hbmRead (s : State) (off n : Nat) : List Byte := Table.range (0 : Byte) s.hbm off n

/-- A WRITE whose offset is neither the doorbell nor the sync target, or a packet of a TYPE that no table defines. -/
def ringWrite? (a : Arrival) : Option Nat :=
  match a.pkt.ext with
  | .reserved _ => some 0
  | .write off => if off = doorbellOff ∨ off = syncOff then none else some off
  | _ => none

/-- DESCRIPTOR_RING_WRITE (R26, R209, R243, R307): a TC1 WRITE into a ring from its POSTER is stored; any other
WRITE to the island is refused. A packet of a TYPE that R310 reserves comes by this row too, and step 3 of R316 drops it. -/
def execDescriptorRingWrite (a : Arrival) (s : State) : Host.Outcome State Fault Refusal :=
  .next (match ringWrite? a with
    | none => s
    | some off =>
      onReceive a s fun s =>
        let n := a.pkt.payload.length
        match ringQueue s off n with
        | some (q, x) =>
          if a.pkt.hdr.tc = 1 ∧ a.pkt.hdr.src = x.poster then
            commit a (hbmWrite off a.pkt.payload (countWrite (q % 16) n a.pkt.hdr.job s))
          else protErr a s
        | none => protErr a s)

/-- A doorbell (R249). -/
structure Doorbell where
  ver   : Nat
  ninl  : Nat
  queue : Nat
  tail  : BitVec 32
  rsvd  : Bool
  inl   : List (List Byte)
  deriving DecidableEq, Repr

/-- Read a doorbell (R249). -/
def doorbellParse (b : List Byte) : Doorbell :=
  { ver := fld b 0 0, ninl := fld b 1 1, queue := bits (fld b 3 2) 12 0, tail := BitVec.ofNat 32 (fld b 7 4),
    rsvd := decide (fld b 3 2 / 8192 ≠ 0) || !zeroBytes b 31 8,
    inl := cut 64 (b.length / 64 + 1) (b.drop 32) }

/-- Rule 1 of R250: the doorbell is dropped. -/
def doorbellDropped (x : QueueCtx) (src len : Nat) (d : Doorbell) : Bool :=
  !x.home || decide (src ≠ x.poster) || x.state = .absent || x.state = .draining || decide (d.ver ≠ 2) || d.rsvd ||
  decide (4 < d.ninl) || decide (len ≠ 32 + 64 * d.ninl)

/-- The tail a doorbell leaves by rules 2 to 4 of R250; none where it overruns the ring. -/
def doorbellTail (x : QueueCtx) (t : BitVec 32) : Option (BitVec 32) :=
  let ahead := (t - x.tail).toNat
  if ahead = 0 ∨ 2 ^ 31 ≤ ahead then some x.tail
  else if 2 ^ x.log2sz < (t - x.head).toNat then none
  else some t

/-- The descriptor lies before head, or has its completion. -/
def alreadyDone (x : QueueCtx) (d : BitVec 32) : Bool := dseqBefore d x.head || x.done.contains d

/-- The greater of two sequence numbers in modular order. -/
def dseqMax (a b : BitVec 32) : BitVec 32 := if dseqBefore a b then b else a

/-- Take an inline descriptor: it is written into its ring slot and counts as fetched (R251). -/
def takeInline (q : Nat) (bs : List Byte) (s : State) : State :=
  let x := queueGet s q
  let d := descParse bs
  if alreadyDone x d.dseq || x.cache.any (fun f => decide (f.dseq = d.dseq)) then s
  else
    let x := { x with cache := x.cache ++ [{ dseq := d.dseq, desc := d }], inlineTop := dseqMax x.inlineTop (d.dseq + 1) }
    let x := if d.dseq = x.startNext then { x with rereadSince := none, rereadAt := none } else x
    queuePut q x (hbmWrite (x.ring + 64 * dseqSlot d.dseq x.log2sz) bs (countWrite (q % 16) 64 x.job s))

/-- The inline part of an accepted doorbell (R251). -/
def doorbellInline (q : Nat) (d : Doorbell) (s : State) : State :=
  let want := (List.range d.ninl).map fun i => d.tail - BitVec.ofNat 32 d.ninl + BitVec.ofNat 32 i
  let got := d.inl.map fun b => (descParse b).dseq
  if got = want then d.inl.foldl (fun s b => takeInline q b s) s
  else
    d.inl.foldl (fun s b =>
      let x := queueGet s q
      let p := descParse b
      if 2 ^ x.log2sz ≤ (p.dseq - x.head).toNat ∨ alreadyDone x p.dseq then s
      else match opFind s q p.dseq with
        | some o =>
          if o.opened || o.poster.isSome then (if o.status.isSome then s else failStarted 1 (malformed 0x05 0).2 o s)
          else failDesc q p.dseq p 5 (malformed 0x05 0).2 s
        | none => failDesc q p.dseq p 5 (malformed 0x05 0).2 s) s

/-- A doorbell for a communication queue takes effect (R250, R262). -/
def doorbellTake (q : Nat) (d : Doorbell) (s : State) : State :=
  let x := queueGet s q
  match doorbellTail x d.tail with
  | none =>
    let s := count 0x41 (q % 16) 1 { queue := some q } s
    notice (queueErrorNotice q x.group 0 0) (queueError q 2 d.tail s)
  | some t =>
    let s := queuePut q { x with tail := t } s
    let s := doorbellInline q d s
    let x := queueGet s q
    if x.state = .idle ∧ x.tail ≠ x.head then relayState q (queuePut q { x with state := .active } s) else s

/-- The arrival is a WRITE to the doorbell target. -/
def isDoorbell (a : Arrival) : Bool := a.pkt.ext == .write doorbellOff

/-- DOORBELL for a queue other than 0 (R250, R251, R307). -/
def execDoorbell (a : Arrival) (s : State) : Host.Outcome State Fault Refusal :=
  let d := doorbellParse a.pkt.payload
  .next (if !isDoorbell a || d.queue = 0 then s
    else onReceive a s fun s =>
      if a.pkt.hdr.tc ≠ 1 then protErr a s
      else
        let x := queueGet s d.queue
        if doorbellDropped x a.pkt.hdr.src a.pkt.payload.length d then
          commit a (count 0x40 (d.queue % 16) 1 { queue := some d.queue } s)
        else settle (doorbellTake d.queue d (commit a s)))

/-! ## Starting (R154, R242, R252, R257) -/

/-- The state of a planned chunk when its descriptor starts: attempted next in its planned frame, or in the
first retry frame whose commit point has not passed (R55, R257), and not in the frame in progress where that gave its frets no role
(R59). -/
def chunkStart (s : State) (job slot : Nat) (z : ZsiOp) (i : Nat) (p : ChunkPlan) : ChunkSt :=
  let attempt := match zsiFrame s job with
    | none => p.frame
    | some n =>
      let n := if s.time.gcount % frameNs s < p.commit ∧ rolesHold s z p then n else n + 1
      nextAttempt s job z p n
  let slips := match s.early.find? fun e => e.1 == slot && e.2.1 == z.opid && e.2.2.1 == i with
    | some e => e.2.2.2.2
    | none => 0
  { plan := p, attempt, slips }

/-- An operation as it starts (R257). -/
def mkOp (s : State) (q : Nat) (x : QueueCtx) (d : Desc) (z : ZsiOp) (home : Bool) : Op :=
  withEntries (entriesIn s.chord.cur z.group)
    { queue := q, dseq := d.dseq, group := z.group, job := x.job, slot := d.sched, zop := z, desc := d, home,
      cepoch := s.chord.epoch, opened := true, startAt := s.time.gcount,
      chunks := z.chunks.mapIdx fun i p => chunkStart s x.job d.sched z i p,
      poster := if home then posterRec x else none, sampled := sampleSelects s q d.dseq }

/-- What an earlier UPDATE of the same range and STEP recorded (R219). -/
def earlierStep (s : State) (o : Op) : Option StepRec :=
  match o.zop.extra with
  | .update u => (shardOf s o.job u.wtensor u.e0 u.count).bind fun h =>
      if h.epoch = o.desc.step then h.stepRecs.find? fun r => recordOf u r && decide (r.step = o.desc.step) else none
  | _ => none

/-- The operation draws its seed from the entropy source (R81). -/
def wantsEntropy (o : Op) : Bool := o.desc.entsr && o.desc.rmode == 2 && o.home

/-- An operation with its seed: the recorded one, or one from the entropy source where ENTSR asks for it (R81, R219); a re-issued
UPDATE takes the flags of the blocks that are written already (R230). -/
def seeded (s : State) (o : Op) : Op :=
  match earlierStep s o with
  | some r => { o with seed := if wantsEntropy o then r.seed else o.seed, flags := r.flags }
  | none => if wantsEntropy o then { o with seed := Config.entropy s.freeCtr } else o

/-- The entropy source has been read for an operation, and ENTSR_USED shows that a descriptor with ENTSR was accepted (R235). -/
def seedTaken (o : Op) (s : State) : State :=
  let s := if o.desc.entsr then noteSet .entsr { s with ctl := { s.ctl with entsrUsed := true } } else s
  if wantsEntropy o && (earlierStep s o).isNone then drawn s else s

/-- Why an operation that starts ends at once with DISCARDED: its ZSI slot is lost (R408), its planned string is
retired (R403), its stream step is broken (R180), or the tiles it consumes were destroyed (R401). -/
def startFailure (s : State) (o : Op) : Option Word :=
  match (zsiGet s o.slot).bind (·.lost) with
  | some r => some r
  | none =>
    let outOf := fun (k : Nat) => let x : Str := Table.get {} s.strs k; if x.out then some (x.outSeq) else none
    let out := (opStrings o.zop).findSome? outOf
    let broken := fun w => s.streams.any fun t => t.wtensor == w && t.job == o.job && t.broken.contains o.desc.step
    let gone : Option Word := match o.zop.extra with
      | .wgrad g => if broken g.wtensor then some 0 else none
      | .stash w => if broken w then some 0 else none
      | .update u => (s.lostSrc.find? fun l => l.1 == o.slot && l.2.1 == u.src && decide (l.2.2.1 = o.desc.step)).map fun l => l.2.2.2
      | _ => none
    out.orElse fun _ => gone

/-- The epoch of units of the operation's stream step that were dropped, and for which it has not ended yet (R181). -/
def foreignEpoch (s : State) (o : Op) : Option (BitVec 8) :=
  (streamTensor o.zop).bind fun w => (streamSet s o.job w).bind fun t =>
    (t.foreign.find? fun f => decide (f.step = o.desc.step) && !f.told.contains (o.slot, o.zop.opid)).map (·.epoch)

/-- An operation has ended for the units of its step that were dropped: its re-issue does not end for them again. -/
def foreignTold (o : Op) (s : State) : State :=
  match streamTensor o.zop with
  | some w => streamModify o.job w (fun t => { t with foreign := t.foreign.map fun f =>
      if f.step = o.desc.step then { f with told := f.told ++ [(o.slot, o.zop.opid)] } else f }) s
  | none => s

/-- An operation that opens finds units of its step under another epoch than its own: they are dropped and it ends with DISCARDED
and a notice (R181). A MASKSTASH has no chunk that opens it: it holds to the current epoch until it ends (log entry 19). -/
def streamGate (q : Nat) (d : BitVec 32) (s : State) : State :=
  withOp q d (fun o s =>
    match streamTensor o.zop with
    | none => s
    | some w =>
      if !o.opened || o.status.isSome || !(o.fixed || o.zop.opcode == 0x11) then s
      else match (streamSet s o.job w).bind fun t => foreignIn t o.desc.step (opEpoch s o) with
      | some e =>
        let s := streamModify o.job w (dropForeign o.desc.step (opEpoch s o) e [(o.slot, o.zop.opid)]) s
        notice (epochNotice e (opEpoch s o) (some o)) (discardOp 0 o s)
      | none => s) s

/-- Every operation that has opened meets the units of its step. -/
def streamGates (s : State) : State := (s.ops.map fun o => (o.queue, o.dseq)).foldl (fun s k => streamGate k.1 k.2 s) s

/-- The range of a shard that an UPDATE or a WPULL names: tensor, first element, elements. -/
def shardRange (z : ZsiOp) : Option (Nat × Nat × Nat) :=
  match z.extra with
  | .update u => some (u.wtensor, u.e0, u.count)
  | .wpull w => some (w.wtensor, w.e0, w.count)
  | _ => none

/-- The shard of an operation of the home island. -/
def opShard (s : State) (o : Op) : Option Shard :=
  if o.home then (shardRange o.zop).bind fun r => shardOf s o.job r.1 r.2.1 r.2.2 else none

/-- The shard whose state an UPDATE or a WPULL needs is lost (R221): the shard and its first lost block. -/
def lostShard (s : State) (o : Op) : Option (Shard × Nat) :=
  (opShard s o).bind fun h => ((h.blocks.zipIdx.find? fun b => b.1.lost).map (·.2)).map fun b => (h, b)

/-- The slot of an epoch in a block is damaged: it is the other slot than that of the block's own epoch (R221). -/
def slotDamaged (e : BitVec 32) (b : Block) : Bool := b.prevLost && decide (e + 1 = b.epoch)

/-- A WPULL needs the damaged slot of a block of its range (R221). -/
def lostSlot (s : State) (o : Op) : Option Shard :=
  match o.zop.extra with
  | .wpull w => (opShard s o).bind fun h =>
    let mine := (h.blocks.drop ((w.e0 - h.sdef.e0) / 4096)).take (w.count / 4096)
    if mine.any (slotDamaged o.desc.step) then some h else none
  | _ => none

/-- UPDATE_LOST about a block (R221, R276). -/
def lostNotice (h : Shard) (b : Nat) : Notice :=
  { kind := 9, sev := 3, detail := le 4 h.sdef.wtensor ++ le 5 (h.sdef.e0 + 4096 * b) }

/-- The UPDATE_LOST that an UPDATE or a WPULL sends as it is discarded (R221): it concerns the operation's queue, group and DSEQ (R274;
DEDUCED, log entry 66). -/
def opLostNotice (h : Shard) (b : Nat) (o : Op) : Notice := { lostNotice h b with queue := o.queue, group := o.group, dseq := o.dseq }

/-- What ends an operation right as it starts on an island (R180, R181, R221, R401, R403, R408). -/
def startChecks (o : Op) (s : State) : State :=
  match startFailure s o, lostShard s o, lostSlot s o with
  | some r, _, _ => discardOp r o s
  | none, some (h, b), _ => notice (opLostNotice h b o) (discardOp h.lostSeq o s)
  | none, none, some h => discardOp h.lostSeq o s
  | none, none, none =>
    match foreignEpoch s o with
    | some e => notice (epochNotice e s.chord.epoch (some o)) (discardOp 0 o (foreignTold o s))
    | none => streamGate o.queue o.dseq s

/-- A WGRAD that starts again replaces the results and the loss of an earlier one of its step, and what an island
other than the root's kept of it. What is kept of another step stays: its tiles, levels and discards still pass here (R190, R191,
R201). -/
def renewSource (o : Op) (s : State) : State :=
  { s with
    lostSrc := s.lostSrc.filter fun l => !(l.1 == o.slot && l.2.1 == o.zop.opid && decide (l.2.2.1 = o.desc.step)),
    ended := s.ended.filter fun l => !(l.1 == o.slot && l.2.1 == o.zop.opid && decide (l.2.2.1 = o.desc.step)),
    sources := s.sources.filter fun x => !(sameOp x o && decide (x.desc.step = o.desc.step))
    ops := s.ops.filter fun x => !(sameOp x o && keepsForLevel x && decide (x.desc.step = o.desc.step)) }

/-- Once an operation has started, no slips are counted for another descriptor of it that has not come: the list begins
again without frames of its own (DEDUCED, log entry 53). -/
def earlyOver (o : Op) (s : State) : State :=
  let rest := s.early.filter fun e => !(e.1 == o.slot && e.2.1 == o.zop.opid)
  { s with early := rest ++ (List.range o.zop.chunks.length).map fun i => (o.slot, o.zop.opid, i, 2 ^ 64, 0) }

/-- Put a started operation in place; inputs that came before its descriptor stay with it (R54, R109), and so do the member records
of a pizzicato operation that has ended before its descriptor came. -/
def enterOp (o : Op) (s : State) : State :=
  let s := earlyOver o (renewSource o s)
  let o := match opFind s o.queue o.dseq with
    | some shell =>
      if shell.status.isSome then { o with records := shell.records } else
      let o := if shell.fixed then withEntries (entriesAt s shell.cepoch o.group) { o with fixed := true, cepoch := shell.cepoch }
        else o
      { o with pieces := shell.pieces, got := shell.got, tiles := shell.tiles, bytesIn := shell.bytesIn,
               arrived := shell.arrived, meta_ := shell.meta_, flags := shell.flags, rlvl := shell.rlvl,
               rmap := shell.rmap, hist := shell.hist, epochRec := shell.epochRec, skipped := shell.skipped }
    | none => o
  let s' := opRemove o.queue o.dseq s
  claimTiles (seedTaken o { s' with ops := s'.ops ++ [seeded s o] })

/-- An operation that has ended before its descriptor came ends as it starts (R164, R257): its discard has been passed on then, and
what is told to its members is not told again. -/
def endEarly (e : EarlyEnd) (writing : Bool) (s : State) : State :=
  let s := { s with earlyEnds := s.earlyEnds.filter fun x => !(x.queue == e.queue && decide (x.dseq = e.dseq)) }
  let s := if e.told && !writing then opModify e.queue e.dseq (fun o => { o with records := [] }) s else s
  pizzEnd e.queue e.dseq (opFinish e.queue e.dseq e.status e.detail s)

/-- CAPO_EXCEEDED for a queue (R154): ERROR, and the notice with the offset of the field. -/
def capoNotice (o : Op) (off : Nat) : Notice :=
  { kind := 3, sev := 2, queue := o.queue, group := o.group, dseq := o.dseq, detail := le 4 off }

/-- The home island starts a descriptor that passes its checks (R154, R242, R257, R430). -/
def startHome (q : Nat) (d : Desc) (z : ZsiOp) (stale : Option (BitVec 32)) (s : State) : State :=
  let x := queueGet s q
  let o := mkOp s q x d z true
  match capoExceeded s (groupGet s z.group) z.group o with
  | some off =>
    let s := recordStep (seeded s o) (if (shardRange z).isSome then seedTaken o s else s)
    let s := placeUnstarted (unstartedOp s q x d.dseq d 4 (BitVec.ofNat 32 off)) s
    notice (capoNotice o off) (queueError q 4 d.dseq s)
  | none =>
    let writing := (opFind s q d.dseq).isSome
    let cache := x.cache.map fun f => if f.dseq = d.dseq then { f with started := true } else f
    let s := queuePut q { x with cache, listPos := x.listPos + 1 } s
    let s := count 0x0A (q % 16) 1 (opCtx o) (enterOp o s)
    let es := downOnce (entriesIn s.chord.cur z.group)
    let s := sendCtrls es x.job z.group q d.dseq s.chord.epoch 0x01 0 (descBytes d) s
    match earlyEnd s q d.dseq, stale with
    | some e, _ => endEarly e writing s
    | none, some e => withOp q d.dseq (discardWith 2 (discardArg 2 s.ctl.id.chip e) none e) (withOp q d.dseq startChecks s)
    | none, none => pizzCheck q d.dseq (streamChecks q d.dseq (fetchOp q d.dseq (withOp q d.dseq startChecks s)))

/-- Relays of the queue that a receiving island has not ended yet (R244). -/
def openRelays (s : State) (q : Nat) : Nat :=
  (s.ops.filter fun o => o.queue == q && o.opened && !downsReported o).length

/-- Check and start a fetched descriptor, if nothing holds it back (R242, R255). -/
def startFetched (q : Nat) (f : Fetched) (s : State) : State :=
  let x := queueGet s q
  if x.prefetch ≤ openRelays s q then s
  else
    let s := queuePut q { x with startNext := f.dseq + 1, rereadSince := none, rereadAt := none } s
    match descCheck s q f.desc with
    | .fails st detail => failDesc q f.dseq f.desc st detail s
    | .stale z e => startHome q f.desc z (some e) s
    | .starts z => startHome q f.desc z none s

/-- Read the ring entry of a DSEQ (R245, R252). -/
def ringEntry (s : State) (x : QueueCtx) (d : BitVec 32) : Desc :=
  descParse (hbmRead s (x.ring + 64 * dseqSlot d x.log2sz) 64)

/-- A ring entry that was read: it has arrived and is fetched, or it is read again 1 µs later (R252, R253). -/
def fetchEntry (q : Nat) (d : BitVec 32) (s : State) : State :=
  let x := queueGet s q
  let e := ringEntry s x d
  let s := countRead (q % 16) 64 x.job s
  if e.dseq = d then
    queuePut q { x with cache := x.cache ++ [{ dseq := d, desc := e }], rereadSince := none, rereadAt := none } s
  else
    let now := s.time.gcount
    queuePut q { x with rereadSince := some (x.rereadSince.getD now), rereadAt := some (now + 1000) } s

/-- The queue may start descriptors (R262). -/
def queueStarts (x : QueueCtx) : Bool := x.home && x.state = .active

/-- The fetched descriptor of the next DSEQ to start. -/
def nextFetched (x : QueueCtx) : Option Fetched := x.cache.find? fun f => decide (f.dseq = x.startNext)

/-- The island may read the ring entry of the next DSEQ (R252). -/
def mayFetch (x : QueueCtx) : Bool :=
  x.rereadSince.isNone && dseqBefore x.startNext x.tail && decide (x.cache.length < x.prefetch)

/-- DESCRIPTOR_START (R252, R255, R257): the next descriptor of a queue is fetched where it is not, checked,
and started. -/
def execDescriptorStart (q : Nat) (s : State) : Host.Outcome State Fault Refusal :=
  .next (
    let x := queueGet s q
    if !queueStarts x || s.ctl.state = .faulted then s
    else
      let s := match nextFetched x with
        | some _ => s
        | none => if mayFetch x then fetchEntry q x.startNext s else s
      match nextFetched (queueGet s q) with
      | some f => settle (startFetched q f s)
      | none => s)

/-- DESCRIPTOR_REREAD (R253): an entry that had not arrived is read again; 64 µs after the first read it ends
with MALFORMED, reason 0x05. -/
def execDescriptorReread (q : Nat) (s : State) : Host.Outcome State Fault Refusal :=
  .next (
    let x := queueGet s q
    match x.rereadAt, x.rereadSince with
    | some t, some since =>
      if !queueStarts x || s.time.gcount < t then s
      else
        let d := x.startNext
        let s := fetchEntry q d s
        let y := queueGet s q
        if y.rereadAt.isSome ∧ since + 64000 ≤ s.time.gcount then
          let s := queuePut q { y with rereadAt := none, rereadSince := none, startNext := d + 1 } s
          settle (failDesc q d (ringEntry s y d) 5 (malformed 0x05 0).2 s)
        else s
    | _, _ => s)

/-! ## Relays (R242, R244) -/

/-- The fields of a CTRL message of a type, or of a CTYPE that no table defines: group, queue, DSEQ and ARG. -/
def ctrlOf (ctype : Nat) (a : Arrival) : Option (Nat × Nat × BitVec 32 × BitVec 64) :=
  match a.pkt.ext with
  | .ctrl g q d c arg => if c = ctype || unlisted a.pkt.ext then some (g, q, d, arg) else none
  | _ => none

/-- A CTRL row: the packet is received and committed, and its message takes effect. -/
def ctrlRow (ctype : Nat) (a : Arrival) (s : State) (f : Nat → Nat → BitVec 32 → BitVec 64 → State → State) : State :=
  match ctrlOf ctype a with
  | none => s
  | some (g, q, d, arg) => onReceive a s fun s => f g q d arg (commit a s)

/-- Send a CTRL message on the UP entry of a group. -/
def sendUp (g q : Nat) (d : BitVec 32) (ctype : Nat) (arg : BitVec 64) (s : State) : State :=
  match upEntry (entriesIn s.chord.cur g) with
  | some e => sendCtrl e (queueGet s q).job g q d s.chord.epoch ctype arg [] s
  | none => s

/-- The queue after the relay of a DSEQ has come: the DSEQs that have come without a gap move its place in the list on. -/
def relayCame (x : QueueCtx) (d : BitVec 32) : QueueCtx :=
  if dseqBefore d x.startNext then x
  else
    let (n, l) := headAdvance (x.done.length + 1) x.startNext (d :: x.done)
    { x with startNext := n, done := l, listPos := x.listPos + (n - x.startNext).toNat }

/-- A relay that the island takes: the operation starts here and is relayed on (R154, R242, R257). -/
def startRelay (g q : Nat) (d : Desc) (z : ZsiOp) (s : State) : State :=
  let x := queueGet s q
  let writing := (opFind s q d.dseq).isSome
  let o := mkOp s q x d z false
  let s := queuePut q (relayCame x d.dseq) s
  let capo := capoExceeded s (groupGet s g) g o
  let s := enterOp o s
  let s := sendCtrls (downOnce (entriesIn s.chord.cur g)) x.job g q d.dseq s.chord.epoch 0x01 0 (descBytes d) s
  if draining s q then
    opFinish q d.dseq (if x.drainTo = some .idle then 1 else 6) 0 s
  else match earlyEnd s q d.dseq, capo with
    | some e, _ => endEarly e writing s
    | none, some off =>
      let s := withOp q d.dseq (discardWith 4 (discardArg 4 s.ctl.id.chip (BitVec.ofNat 32 off)) none (BitVec.ofNat 32 off)) s
      notice (capoNotice o off) (queueToError q 4 d.dseq s)
    | none, none =>
      pizzCheck q d.dseq (streamChecks q d.dseq
        (endCheck q d.dseq (deliverEarly q d.dseq (fetchOp q d.dseq (withOp q d.dseq startChecks s)))))

/-- DESCRIPTOR_RELAY (R242): an island of the group starts the relayed descriptor, or reports that it cannot. One of a stopped job is
dropped and counted (R296). -/
def execDescriptorRelay (a : Arrival) (s : State) : Host.Outcome State Fault Refusal :=
  .next (ctrlRow 0x01 a s fun g q dseq _ s =>
    let d := descParse a.pkt.payload
    let x := queueGet s q
    if (jobGet s a.pkt.hdr.job).stopped.isSome then dropWith 0x32 (arrivalCtx s a) a s
    else match zsiOp s d.sched d.opid with
    | none => sendUp g q dseq 0x02 0 (if x.home then s else queuePut q (relayCame x dseq) s)
    | some z =>
      if x.state = .absent then sendUp g q dseq 0x02 0 s
      else if x.home || (opFind s q dseq).any (·.opened) then s
      else settle (startRelay g q d z s))

/-- RELAY_REFUSED (R242): the home island ends the operation with MALFORMED, reason 0x09, everywhere; another
island passes the refusal up. The island that refused has started nothing, so no report of it is waited for. -/
def execRelayRefused (a : Arrival) (s : State) : Host.Outcome State Fault Refusal :=
  .next (ctrlRow 0x02 a s fun g q dseq _ s =>
    let s := opModify q dseq (downsGone (· == a.pkt.hdr.src)) s
    if !(queueGet s q).home then sendUp g q dseq 0x02 0 s
    else match opFind s q dseq with
      | none => s
      | some o =>
        if o.status.isSome then s else settle (failStarted 1 (malformed 0x09 0).2 o s))

/-! ## Discards, reports and states (R260, R262, R396 to R398) -/

/-- An operation of which this island knows nothing but what a packet says. -/
def strangeOp (s : State) (h : Hdr) (group q : Nat) (d : BitVec 32) : Op :=
  let z : ZsiOp := { opid := 0, opcode := 0, group }
  { queue := q, dseq := d, group, job := h.job, slot := 0, zop := z, desc := blankDesc d 0 z, home := false, cepoch := h.cepoch,
    fixed := true, startAt := s.time.gcount }

/-- An operation of a queue and DSEQ has no end on this island yet. -/
def unended (s : State) (q : Nat) (d : BitVec 32) : Bool :=
  match opFind s q d with
  | some o => o.status.isNone
  | none => notStarted s q d && !endedEarly s q d

/-- A discard message takes effect on this island (R396 to R398): the operation ends with its status and DETAIL, and the discard is
passed on; one whose descriptor has not come ends when it comes. A message about an operation that cannot be here is dropped and
counted (R316). -/
def takeDiscard (a : Arrival) (group q : Nat) (d : BitVec 32) (status : Nat) (detail : Word) (tell : Op → State → State) (s : State) : State :=
  match knownOp s q d with
  | some o => discardTold tell status detail o s
  | none =>
    if unended s q d then
      let s := tell (strangeOp s a.pkt.hdr group q d) s
      { s with earlyEnds := s.earlyEnds ++ [{ queue := q, dseq := d, status, detail }] }
    else dropWith 0x32 (arrivalCtx s a) a s

/-- ERRCAUSE of a queue for the status that an operation of it ends with elsewhere (R57, R154, R242, R483): none where that leaves the
queue as it is (R396). -/
def statusCause (st : Nat) : Option Nat := if st = 3 ∨ st = 4 then some st else if st = 5 then some 1 else none

/-- The queue of an operation goes to ERROR on this island: its home island tells the others (R262). -/
def queueOut (q cause : Nat) (d : BitVec 32) (s : State) : State :=
  if (queueGet s q).home then queueError q cause d s else queueToError q cause d s

/-- DISCARD (R396, R397). OVERRUN, CAPO_EXCEEDED and MALFORMED set the queue to ERROR as where they were found (R57, R154, R242). -/
def execDiscard (a : Arrival) (s : State) : Host.Outcome State Fault Refusal :=
  .next (ctrlRow 0x04 a s fun g q d arg s =>
    let st := arg.toNat % 256
    let t := takeDiscard a g q d st (BitVec.ofNat 32 (arg.toNat / 2 ^ 32)) (tellDiscard arg (some a.pkt.hdr.src)) s
    settle (match (if unended s q d then statusCause st else none) with
      | some c => queueOut q c d t
      | none => t))

/-- OPERATION_DONE (R260): a downstream island's records are written, for its whole subtree. -/
def execOperationDone (a : Arrival) (s : State) : Host.Outcome State Fault Refusal :=
  .next (ctrlRow 0x06 a s fun _ q d _ s =>
    let mark := fun (p : Nat × Bool) => if p.1 = a.pkt.hdr.src then (p.1, true) else p
    settle (opModify q d (fun o => { o with downs := o.downs.map mark }) s))

/-- POSTER_COMPLETION (R260, R261): the home island writes the poster's record when it is due. -/
def execPosterCompletion (q : Nat) (d : BitVec 32) (s : State) : Host.Outcome State Fault Refusal :=
  .next (match opFind s q d with
    | some o => if posterDue o then settle (writePoster o s) else s
    | none => s)

end Sys2Proof.Machine
end

