-- ==== Sys2Proof/Machine/Regions.lean ====
section
/-! DEFINITION. Island HBM: where an address lies, and the regions that the admission controller allocates in the neck windows
(R25, R26). -/

set_option Elab.async false

namespace Sys2Proof.Machine

/-! ## Addresses (R25) -/

/-- Bytes of a neck's window of island HBM, of the island area at its start, and the top of island HBM (R25, R26). -/
def neckWindow : Nat := 0x1800000000
def islandArea : Nat := 0x10000000
def hbmTop : Nat := 0x18000000000

/-- The stack that holds an address: within a window, 4 KiB blocks alternate between the neck's two stacks, the even one
first (R25). -/
def addrStack (a : Nat) : Nat := 2 * (a / neckWindow) + a % neckWindow / 4096 % 2

/-- The offset of an address within its stack. -/
def addrWithin (a : Nat) : Nat := a % neckWindow / 8192 * 4096 + a % 4096

/-- The pseudo-channel that holds an address: 256-byte units rotate across the stack's (R25). How many a stack has no rule says
(log entry 7). -/
def addrChannel (a : Nat) : Nat := addrWithin a / 256 % max 1 Config.pseudoChannels

/-! ## Regions (R26) -/

/-- Round up to 4 KiB. -/
def pageUp (n : Nat) : Nat := (n + 4095) / 4096 * 4096

/-- Two address ranges meet. -/
def rangesMeet (a n b m : Nat) : Bool := decide (a < b + m) && decide (b < a + n)

/-- What occupies a region is still there. -/
def regionLive (s : State) (r : Region) : Bool :=
  match r.use with
  | .ring q => let x := queueGet s q; x.home && x.state ≠ .absent
  | .streams slot _ | .forwarded slot _ | .scratch slot _ | .zsi slot => (zsiGet s slot).isSome
  | .shard job w e0 => s.shards.any fun h => h.job == job && h.sdef.wtensor == w && h.sdef.e0 == e0
  | .journal neck => s.shards.any fun h => h.sdef.neck == neck
  | .image => s.net.image.isSome
  | .freed => true

/-- The regions that are allocated. -/
def liveRegions (s : State) : List Region := s.regions.filter (regionLive s)

/-- The region of a use. -/
def regionOf (s : State) (u : RegionUse) : Option Region := (liveRegions s).find? fun r => decide (r.use = u)

/-- Space that is needed in a neck's window: in its island area, or outside it. -/
structure Need where
  neck : Nat
  size : Nat
  area : Bool := false
  use  : RegionUse
  deriving DecidableEq, Repr

/-- The places for `size` bytes in a space at an end of one of its holes: beside the space's own ends, or beside a region. -/
def holeEnds (lo hi size : Nat) (rs : List Region) : List Nat :=
  (lo :: (hi - size) :: rs.flatMap fun r => [pageUp (r.base + r.size), r.base - size]).filter fun a =>
    decide (lo ≤ a) && decide (a + size ≤ hi) && !rs.any fun r => rangesMeet a size r.base (pageUp r.size)

/-- Where a need finds room beside the regions allocated: at the end of a hole that the admission controller chooses (a free value,
log entry 7). What is left of the space stays whole, so that the island accepts all that fits in it (R4). -/
def placeNeed (draw : Nat) (rs : List Region) (x : Need) : Option Region :=
  let lo := neckWindow * x.neck + if x.area then 0 else islandArea
  let hi := if x.area then lo + islandArea else neckWindow * (x.neck + 1)
  let places := holeEnds lo hi (pageUp x.size) rs
  places[Config.placement draw % places.length]?.map fun base => { base, size := x.size, use := x.use }

/-- Place needs in order beside the regions allocated: all of them, or the first that finds no room. -/
def placeNeeds : Nat → List Region → List Need → Except Need (List Region)
  | _, rs, [] => .ok rs
  | draw, rs, x :: xs =>
    if x.size = 0 then placeNeeds draw rs xs
    else match placeNeed draw rs x with
    | none => .error x
    | some r => placeNeeds (draw + 1) (rs ++ [r]) xs

/-- Allocate regions. -/
def setRegions (n : Nat) (rs : List Region) (s : State) : State := { s with regions := rs, freeCtr := s.freeCtr + n }

/-- STOP_JOB gives up shards, journals and dW scratch: their regions are zeroized before they are allocated again (R225). -/
def zeroizes (u : RegionUse) : Bool :=
  match u with
  | .shard _ _ _ | .journal _ | .scratch _ _ => true
  | _ => false

/-- The regions that are to be zeroized. -/
def freedRegions (s : State) : List Region := s.regions.filter fun r => decide (r.use = .freed)

/-- What was allocated before and no longer holds anything waits for its zeroization where R225 asks for it. -/
def freeRegions (was : List Region) (s : State) : State :=
  let gone := was.filter fun r => zeroizes r.use && !regionLive s r
  { s with regions := liveRegions s ++ gone.map fun r => { r with use := .freed }, zeroize := s.zeroize + gone.length }

/-- Zeroization is over: island HBM reads 0 there, and the space can be allocated (R225). -/
def zeroizeFreed (s : State) : State :=
  let gone := freedRegions s
  { s with
    zeroize := 0
    regions := s.regions.filter fun r => decide (r.use ≠ .freed)
    hbm := s.hbm.filter fun c => !gone.any fun r => decide (r.base ≤ c.1) && decide (c.1 < r.base + r.size) }

/-- An address lies in the region of a use. -/
def inRegion (s : State) (u : RegionUse) (a : Nat) : Bool :=
  match regionOf s u with
  | some r => decide (r.base ≤ a) && decide (a < r.base + r.size)
  | none => false

end Sys2Proof.Machine
end

