-- ==== Sys2Proof/Machine/Admin.lean ====
section
/-! DEFINITION. The admin queue and the admin commands over queues, jobs, epochs, registers and faults (R62 to
R64, R140, R241 to R244, R262 to R273, R280, R296, R331, R337, R395, R465, R468). -/

set_option Elab.async false

namespace Sys2Proof.Machine

/-! ## Commands as bytes (R265, R270, R271) -/

/-- A field of an admin command by its bytes. -/
def AdminCmd.arg (c : AdminCmd) (hi lo : Nat) : Nat := fld c.bytes hi lo

/-- The argument bytes of an ACODE as (high, low) pairs (R271); none for an undefined code. -/
def adminArgs : Nat → Option (List (Nat × Nat))
  | 0x01 => some [(13, 8)]
  | 0x02 => some [(47, 8)]
  | 0x03 => some [(9, 8)]
  | 0x04 => some [(13, 8)]
  | 0x05 => some [(31, 16), (8, 8)]
  | 0x06 => some [(31, 16), (11, 10), (8, 8)]
  | 0x07 => some [(31, 16), (11, 8)]
  | 0x08 => some [(9, 8)]
  | 0x09 => some [(23, 16), (9, 8)]
  | 0x0A => some [(23, 18), (13, 8)]
  | 0x0B => some [(19, 8)]
  | 0x0C => some [(29, 22), (20, 10), (8, 8)]
  | 0x0D => some [(29, 22), (20, 10), (8, 8)]
  | 0x0E => some [(23, 16), (11, 10), (8, 8)]
  | 0x0F => some [(11, 10), (8, 8)]
  | 0x10 => some [(11, 8)]
  | _ => none

/-- The first reserved byte of a command that is not 0 (R265, R271), the reserved bits of QFLAGS included. -/
def adminReserved (b : List Byte) : Option Nat :=
  let named := fun (i : Nat) => match adminArgs (fld b 1 1) with
    | some l => l.any fun r => decide (r.2 ≤ i) && decide (i ≤ r.1)
    | none => true
  (3 :: (List.range 48).map (· + 8)).find? fun i =>
    (decide (i = 3) || !named i) && decide (fld b i i ≠ 0) ||
    (fld b 1 1 == 2 && decide (i = 15) && decide (8 ≤ fld b 15 15))

/-- The checks every command meets, in order (R270): VER, reserved fields, ACODE. -/
def adminFailure (b : List Byte) : Option (Nat × Word) :=
  if fld b 0 0 ≠ 2 then some (9, BitVec.ofNat 32 (fld b 0 0))
  else match adminReserved b with
    | some i => some (malformed 0x01 i)
    | none => if (adminArgs (fld b 1 1)).isNone then some (malformed 0x02 1) else none

/-- The island state permits the command (R387, R412). -/
def adminAllowed : IslState → Nat → Bool
  | .dormant, c => [0x01, 0x03, 0x08, 0x0A, 0x0B, 0x0E, 0x0F, 0x10].contains c
  | .faulted, c => [0x01, 0x0A, 0x0B, 0x10].contains c
  | _, _ => true

/-! ## Arrival (R264, R266 to R269) -/

/-- The 76 bytes that the MAC covers (R266). -/
def macInput (s : State) (b : List Byte) : List Byte :=
  slice b 0 56 ++ le 4 s.ctl.bootnonce.toNat ++ le 8 s.ctl.id.islandId.toNat ++ le 8 s.ctl.id.pegseq.toNat

/-- The MAC of a command (R266). -/
def macOf (s : State) (b : List Byte) : List Byte := (hmacSha256 s.ctl.id.adminKey (macInput s b)).take 8

/-- Manager-list entry SLOT is valid and names the chip (R266, R268). -/
def managerIs (s : State) (slot chip : Nat) : Bool :=
  let m := s.ctl.id.managers.getD slot {}
  m.valid && m.chip == chip

/-- A command that fails authentication is dropped (R266). -/
def authFail (slot chip : Nat) (s : State) : State :=
  notice { kind := 0x0B, sev := 2, detail := le 2 chip ++ le 1 slot } (count 0x42 0 1 {} s)

/-- The next expected ASEQ of a slot (R267): 1 after RESET. -/
def nextAseq (s : State) (slot : Nat) : BitVec 32 := Table.get 1 s.admin.next slot

/-- Advance the expected ASEQ of a slot by 1. -/
def advanceAseq (slot : Nat) (s : State) : State :=
  { s with admin := { s.admin with next := Table.put 1 s.admin.next slot (nextAseq s slot + 1) } }

/-- A command becomes executable (R269): one that fails the checks of R270 completes, any other takes its place
in the order of execution. -/
def adminReady (c : AdminCmd) (s : State) : State :=
  match adminFailure c.bytes with
  | some (st, d) => adminDone c st d 0 s
  | none => { s with admin := { s.admin with ready := s.admin.ready ++ [c] } }

/-- Take what a slot has staged, as long as it holds the expected ASEQ (R267). -/
def takeStaged (slot : Nat) : Nat → State → State
  | 0, s => s
  | n + 1, s =>
    let mine := fun (c : AdminCmd) => c.slot == slot && decide (c.aseq = nextAseq s slot)
    match s.admin.staged.find? mine with
    | none => s
    | some c =>
      let s := { s with admin := { s.admin with staged := s.admin.staged.filter fun x => !mine x } }
      takeStaged slot n (adminReady c (advanceAseq slot s))

/-- An authenticated command meets the ASEQ order of its slot (R267). -/
def adminOrder (c : AdminCmd) (s : State) : State :=
  let ahead := (c.aseq - nextAseq s c.slot).toNat
  if ahead = 0 then takeStaged c.slot 64 (adminReady c (advanceAseq c.slot s))
  else if 64 ≤ ahead ∨ s.admin.staged.any (fun x => x.slot == c.slot && decide (x.aseq = c.aseq)) then
    count 0x43 0 1 {} s
  else { s with admin := { s.admin with staged := s.admin.staged ++ [c] } }

/-- One inline admin command from a chip (R266 to R268). -/
def adminArrive (chip : Nat) (b : List Byte) (s : State) : State :=
  let slot := fld b 2 2
  let c : AdminCmd := { slot, src := chip, bytes := b, since := s.time.gcount }
  if fld b 1 1 = 1 then
    if !managerIs s slot chip then authFail slot chip s
    else if fld b 0 0 = 0 ∨ 15 < fld b 0 0 then s
    else { s with admin := { s.admin with ready := s.admin.ready ++ [c] } }
  else if managerIs s slot chip && slice b 56 8 == macOf s b then adminOrder c s
  else authFail slot chip s

/-- A doorbell for queue 0 that R249 does not allow is dropped. -/
def adminDoorbellBad (d : Doorbell) (len : Nat) : Bool :=
  decide (d.ver ≠ 2) || d.rsvd || decide (d.ninl = 0) || decide (4 < d.ninl) || decide (d.tail ≠ 0) ||
  decide (len ≠ 32 + 64 * d.ninl)

/-- ADMIN_DOORBELL (R249, R264, R266 to R268): its inline commands are authenticated, and staged, made
executable or dropped. -/
def execAdminDoorbell (a : Arrival) (s : State) : Host.Outcome State Fault Refusal :=
  let d := doorbellParse a.pkt.payload
  .next (if !isDoorbell a || d.queue ≠ 0 then s
    else onReceive a s fun s =>
      if a.pkt.hdr.tc ≠ 1 then protErr a s
      else if adminDoorbellBad d a.pkt.payload.length then commit a (count 0x40 0 1 { queue := some 0 } s)
      else d.inl.foldl (fun s b => adminArrive a.pkt.hdr.src b s) (commit a s))

/-- ADMIN_ASEQ_TIMEOUT (R267): a staged command has waited 1 ms for a missing predecessor; the missing ASEQ
completes with MALFORMED, reason 0x05, and is passed. -/
def execAdminAseqTimeout (slot : Nat) (s : State) : Host.Outcome State Fault Refusal :=
  .next (if s.admin.staged.any fun c => c.slot == slot && decide (c.since + 1000000 ≤ s.time.gcount) then
      takeStaged slot 64 (advanceAseq slot (adminComplete slot (nextAseq s slot) 5 (malformed 0x05 0).2 0 s))
    else s)

/-! ## Execution (R269, R270) -/

/-- Put a command back at the front: it goes on when its row comes again. -/
def adminAgain (c : AdminCmd) (s : State) : State :=
  { s with admin := { s.admin with ready := c :: s.admin.ready } }

/-- The oldest executable command, if it has this ACODE, is taken and executed, or refused where the island
state does not permit it (R269, R387, R412). -/
def adminRow (acode : Nat) (s : State) (f : AdminCmd → State → State) : State :=
  match s.admin.ready with
  | c :: rest =>
    if fld c.bytes 1 1 ≠ acode then s
    else
      let s := { s with admin := { s.admin with ready := rest } }
      if adminAllowed s.ctl.state acode then f c s else adminDone c 5 notPermitted 0 s
  | [] => s

/-- Complete with MALFORMED, a reason and an offset (R256). -/
def adminBad (c : AdminCmd) (reason off : Nat) (s : State) : State := adminDone c 5 (malformed reason off).2 0 s

/-- The identity block (R273). -/
def identityBlock (s : State) (slot : Nat) : List Byte :=
  slice (le 8 2 ++ le 8 s.ctl.id.islandId.toNat ++ le 2 0x0A64 ++ le 2 0x00A2 ++ le 1 3 ++ le 1 (stateCode s.ctl.state) ++
    le 2 s.ctl.id.chip ++ le 4 s.ctl.bootnonce.toNat ++ le 4 (nextAseq s slot).toNat ++ le 8 s.ctl.id.pegseq.toNat) 0 256

/-- IDENTIFY (R268, R273): the identity block is written at DATA_OFF in the sender's memory. -/
def execIdentify (s : State) : Host.Outcome State Fault Refusal :=
  .next (adminRow 0x01 s fun c s => sendWrite 1 c.src (c.arg 13 8) 0 (identityBlock s c.slot) .other s)

/-! ## Queues (R152, R242 to R244, R263) -/

/-- The copies, current and shadow, in which a group is VALID. -/
def validCopies (s : State) (g : Nat) : List Group :=
  ([groupIn s.chord.cur g, groupIn s.chord.shadow g]).filter fun x => x.valid

/-- Descriptor-cache entries that the queues of a group hold (R244). -/
def descClaims (s : State) (g : Nat) : Nat :=
  ((s.queues.filter fun e => e.2.group == g && e.2.state ≠ .absent).map fun e => e.2.prefetch).sum

/-- Why CREATE_QUEUE fails: STATUS and DETAIL (R152, R242, R271). -/
def createFailure (s : State) (c : AdminCmd) : Option (Nat × Word) :=
  let q := c.arg 9 8
  let g := c.arg 11 10
  let home := bit (c.arg 15 15) 0
  let cs := validCopies s g
  if ¬ (1 ≤ q ∧ q ≤ 8191) then some (malformed 0x04 8)
  else if ¬ (6 ≤ c.arg 14 14 ∧ c.arg 14 14 ≤ 16) then some (malformed 0x04 14)
  else if ¬ (4 ≤ c.arg 17 16 ∧ c.arg 17 16 ≤ 256) then some (malformed 0x04 16)
  else if (queueGet s q).state ≠ .absent then some (malformed 0x0A 8)
  else if cs.isEmpty then some (malformed 0x07 10)
  else if home && cs.any fun x => !x.root then some (malformed 0x0A 15)
  else if cs.any fun x => decide (x.desc < descClaims s g + c.arg 17 16) then some (8, BitVec.ofNat 32 g)
  else none

/-- The compute die whose descriptor cache holds a queue's entries, as the job's loaded ZSIs name it (R21, R244). -/
def cacheDie (bs : List ZsiBody) (q : Nat) : Option Nat :=
  (bs.flatMap (·.cacheDies)).findSome? fun d => if d.1 = q then some d.2 else none

/-- The bodies of loaded ZSIs. -/
def loadedBodies (s : State) : List ZsiBody := s.zsis.filterMap fun e => e.2.map (·.body)

/-- Descriptor-cache entries that queues claim on a compute die: 4 MiB hold 65,536 of 64 bytes (R21, R244). -/
def cacheClaims (s : State) (bs : List ZsiBody) (die : Nat) : Nat :=
  ((s.queues.filter fun e => e.2.state ≠ .absent && cacheDie bs e.1 == some die).map (·.2.prefetch)).sum

/-- The descriptor cache of the queue's compute die has no room for its claim. -/
def cacheFull (s : State) (q prefetch : Nat) : Bool :=
  match cacheDie (loadedBodies s) q with
  | some d => decide (65536 < cacheClaims s (loadedBodies s) d + prefetch)
  | none => false

/-- CREATE_QUEUE (R242 to R244, R271). -/
def execCreateQueue (s : State) : Host.Outcome State Fault Refusal :=
  .next (adminRow 0x02 s fun c s =>
    match createFailure s c with
    | some (st, d) => adminDone c st d 0 s
    | none =>
      let q := c.arg 9 8
      let fl := c.arg 15 15
      let home := bit fl 0
      let d0 := BitVec.ofNat 32 (c.arg 23 20)
      let size := 64 * 2 ^ c.arg 14 14
      let place := placeNeed s.freeCtr (liveRegions s) { neck := q % 16, size, use := .ring q }
      if cacheFull s q (c.arg 17 16) || (home && place.isNone) then adminDone c 8 (BitVec.ofNat 32 (c.arg 11 10)) 0 s
      else
      let ring := if home then (place.map (·.base)).getD 0 else 0
      let s := match home, place with
        | true, some r => setRegions 1 (liveRegions s ++ [r]) s
        | _, _ => s
      let x : QueueCtx :=
        { state := .idle, job := c.arg 13 12, group := c.arg 11 10, poster := c.arg 19 18, home, pext := bit fl 1,
          mext := bit fl 2, log2sz := c.arg 14 14, prefetch := c.arg 17 16, ring, pcqOff := c.arg 29 24,
          mcqOff := c.arg 41 36, pxOff := c.arg 35 30, mxOff := c.arg 47 42, head := d0, tail := d0, startNext := d0,
          inlineTop := d0 }
      adminDone c 0 0 ring (queuePut q x s))

/-- The descriptors that a queue still owes a completion for, from head to the greater of tail and the highest
inline DSEQ (R263). -/
def owedDescs (x : QueueCtx) : List (BitVec 32) :=
  if !x.home then []
  else
    let top := dseqMax x.tail x.inlineTop
    let n := (top - x.head).toNat
    if 2 ^ 31 ≤ n then []
    else ((List.range n).map fun i => x.head + BitVec.ofNat 32 i).filter fun d => !x.done.contains d

/-- The descriptor in a ring slot or the cache, as far as the island holds it. -/
def heldDesc (s : State) (x : QueueCtx) (d : BitVec 32) : Desc :=
  match x.cache.find? fun f => decide (f.dseq = d) with
  | some f => f.desc
  | none => { ringEntry s x d with dseq := d }

/-- A descriptor ends that was not started (R263). -/
def endUnstarted (q : Nat) (x : QueueCtx) (status : Nat) (detail : Word) (s : State) (d : BitVec 32) : State :=
  placeUnstarted (unstartedOp s q x d (heldDesc s x d) status detail) s

/-- End every descriptor of a queue with a status (R263): the operations in flight here and, by discard messages,
on the other islands, and the descriptors that were not started. The number of descriptors ended. -/
def endDescs (q status : Nat) (detail : Word) (s : State) : Nat × State :=
  let x := queueGet s q
  let live := s.ops.filter fun o => o.queue == q && o.status.isNone
  let s := live.foldl (fun s o =>
    withOp q o.dseq (discardWith status (discardArg status s.ctl.id.chip detail) none detail) s) s
  let rest := (owedDescs x).filter fun d => !(opFind s q d).any fun o => o.opened || o.poster.isSome
  ((live.filter (·.opened)).length + rest.length, rest.foldl (endUnstarted q x status detail) s)

/-- A queue starts to drain (R262, R263): its descriptors end, and `dest` is the state that follows. -/
def drainQueue (q status : Nat) (dest : QState) (slot : Option (Nat × BitVec 32)) (next : BitVec 32) (s : State) : State :=
  let (n, s) := endDescs q status 0 s
  let x := queueGet s q
  let s := { s with
    earlyEnds := s.earlyEnds.filter fun e => e.queue ≠ q
    ops := s.ops.filter fun o => !(o.queue == q && keepsForLevel o)
    pizzOps := s.pizzOps.filter fun p => p.queue ≠ q }
  relayState q (queuePut q
    { x with state := .draining, drainTo := some dest, drainSlot := slot, ended := if status = 1 then n else 0, nextDseq := next, cache := [],
             rereadAt := none, rereadSince := none } s)

/-- The queue state of a code (R312 CTYPE 0x07). -/
def queueStateOf : Nat → QState
  | 1 => .idle | 2 => .active | 3 => .error | 4 => .draining | _ => .absent

/-- A queue in the state that its home island relays: once it has drained there, its list begins again at the DSEQ named (R263), and
ERRCAUSE is cleared. An ERROR that no operation here has shown has a cause that the relay does not give: a failed check, DB_OVERRUN or a
queue-context error (R483; a free value, log entry 11). -/
def takeState (n : Nat) (x : QueueCtx) (t : QState) (d : BitVec 32) : QueueCtx :=
  match t with
  | .absent => {}
  | .draining => { x with state := .draining, drainTo := none }
  | .error => if x.state = .error then x else { x with state := .error, errDseq := d, errCause := [1, 2, 6].getD (Config.queueCause n).val 1 }
  | _ => if x.state = .draining then { x with state := t, startNext := d, done := [], listPos := 0, errCause := 0 } else { x with state := t }

/-- QUEUE_STATE (R262): the state of the home island is taken over and passed on. A queue that this island
drains itself, or does not hold, keeps its state; one that is to be ABSENT ends what is left of it first. -/
def execQueueState (a : Arrival) (s : State) : Host.Outcome State Fault Refusal :=
  .next (ctrlRow 0x07 a s fun g q d arg s =>
    let x := queueGet s q
    let t := queueStateOf (arg.toNat % 256)
    if x.home || x.state = .absent || draining s q then s
    else
      let s := if t = .absent ∧ s.ops.any (fun o => o.queue == q) then drainQueue q 6 .absent none 0 s
        else drawn (queuePut q (takeState s.freeCtr x t d) s)
      sendCtrls (downOnce (entriesIn s.chord.cur g)) x.job g q d s.chord.epoch 0x07 arg [] s)

/-- RESET_QUEUE and DESTROY_QUEUE are refused for an ABSENT or a DRAINING queue (R263). -/
def drainRefused (s : State) (q : Nat) : Bool :=
  (queueGet s q).state = .absent || (queueGet s q).state = .draining

/-- DESTROY_QUEUE (R263). -/
def execDestroyQueue (s : State) : Host.Outcome State Fault Refusal :=
  .next (adminRow 0x03 s fun c s =>
    let q := c.arg 9 8
    if drainRefused s q then adminDone c 5 notPermitted 0 s
    else settle (drainQueue q 6 .absent (some (c.slot, c.aseq)) 0 s))

/-- RESET_QUEUE (R263). -/
def execResetQueue (s : State) : Host.Outcome State Fault Refusal :=
  .next (adminRow 0x04 s fun c s =>
    let q := c.arg 9 8
    if drainRefused s q then adminDone c 5 notPermitted 0 s
    else settle (drainQueue q 1 .idle (some (c.slot, c.aseq)) (BitVec.ofNat 32 (c.arg 13 10)) s))

/-- Everything of a draining queue has ended and is released (R262). -/
def drained (s : State) (q : Nat) : Bool :=
  draining s q && !s.ops.any fun o => o.queue == q

/-- The STOP_JOBs whose queues have all drained complete (R263, R296). -/
def stopsDone (s : State) : State :=
  let waits := fun (j : Nat) => s.queues.any fun e => e.2.job == j && e.2.state = .draining
  let go := s.admin.stops.filter fun x => !waits x.2.1
  let s := { s with admin := { s.admin with stops := s.admin.stops.filter fun x => waits x.2.1 } }
  go.foldl (fun s x => adminDone x.1 0 0 x.2.2 s) s

/-- QUEUE_DRAINED (R262, R263): IDLE after RESET_QUEUE, with head and tail at NEXT_DSEQ and the list at its
first operation; ABSENT otherwise. The admin completion is written. -/
def execQueueDrained (q : Nat) (s : State) : Host.Outcome State Fault Refusal :=
  .next (if !drained s q then s
    else
      let x := queueGet s q
      let reset := x.drainTo = some .idle
      let y : QueueCtx :=
        if reset then
          { x with state := .idle, drainTo := none, drainSlot := none, ended := 0, head := x.nextDseq, tail := x.nextDseq,
                   startNext := x.nextDseq, inlineTop := x.nextDseq, listPos := 0, done := [], errCause := 0 }
        else {}
      let s := if reset then relayState q (queuePut q y s) else queuePut q y (relayState q (queuePut q { x with state := .absent } s))
      let s := match x.drainSlot with
        | some (slot, aseq) => adminComplete slot aseq 0 0 x.ended s
        | none => s
      stopsDone s)

/-! ## Jobs (R62 to R64, R280, R296, R385, R388) -/

/-- A pending SLEEP of the whole island takes effect before a count (R385, R388). -/
def sleepsBefore (s : State) (start : Nat) : Bool := s.admin.sleeps.any fun x => x.2.1 == 0 && decide (x.2.2.2 < start)

/-- The slots that a SLOTMASK names. -/
def maskSlots (m : Nat) : List Nat := (List.range 16).filter fun i => bit m i

/-- START_JOB fits (R63, R64). -/
def startFits (s : State) (job start mask : Nat) : Bool :=
  decide (s.time.gcount + 10000 ≤ start) && decide (mask ≠ 0) &&
  (maskSlots mask).all (fun k => match zsiGet s k with
    | some z => z.job == job && z.flen == s.time.cur
    | none => false) &&
  s.time.lenAt.isNone && timeOk s && !jobRunning (jobGet s job) && (jobGet s job).armed.isNone

/-- START_JOB (R62 to R64, R381, R388). -/
def execStartJob (s : State) : Host.Outcome State Fault Refusal :=
  .next (adminRow 0x07 s fun c s =>
    let start := c.arg 23 16
    let job := c.arg 9 8
    if !isTick s start then adminBad c 0x04 16 s
    else if sleepsBefore s start then adminDone c 5 notPermitted 0 s
    else if !startFits s job start (c.arg 11 10) then adminDone c 8 0xFFFFFFFF 0 s
    else
      let j : Job := { seed := BitVec.ofNat 64 (c.arg 31 24), armed := some start, mask := c.arg 11 10 }
      adminDone c 0 0 (start / frameNs s) (jobPut job j s))

/-- The queues of a job. -/
def jobQueues (s : State) (j : Nat) : List Nat :=
  (s.queues.filter fun e => e.2.job == j && e.2.state ≠ .absent).map fun e => e.1

/-- Claims that operations of a job hold are released at once (R296 step 4). -/
def releaseJob (j : Nat) (s : State) : State :=
  let free := fun (o : Op) =>
    if o.job = j then { o with release := false, chunks := [], pieces := [], tiles := [] } else o
  { s with ops := (s.ops.filter fun o => !(o.job == j && keepsForLevel o)).map free }

/-- The pizzicato operations of a job are discarded (R167). -/
def discardPizz (j : Nat) (s : State) : State :=
  (s.ops.filter fun o => o.job == j && o.zop.pizz && o.status.isNone).foldl (fun s o => discardOp 0 o s) s

/-- Steps 1 to 5 of R296. -/
def stopJob (j : Nat) (s : State) : State :=
  let s := discardPizz j s
  let s := (jobQueues s j).foldl (fun s q =>
    if draining s q then queuePut q { queueGet s q with drainTo := some .absent } s
    else drainQueue q 6 .absent none 0 s) s
  let owns := fun (c : Nat) => (ctrGet s c).owner == some j
  let n := (s.waiters.filter fun w => owns w.ctr).length
  let s := releaseIf (fun w => owns w.ctr) 6 0x20 s
  let s := notice { kind := 0x23, sev := 1, detail := le 2 0 ++ le 2 j ++ le 4 n } s
  let slots := (s.zsis.filter fun e => match e.2 with | some z => z.job == j | none => false).map fun e => e.1
  let was := liveRegions s
  let s := releaseJob j s
  let s := { s with
    pizzOps := s.pizzOps.filter fun p => p.job ≠ j
    streams := s.streams.filter fun t => t.job ≠ j
    shards := s.shards.filter fun h => h.job ≠ j
    zsis := s.zsis.filter fun e => !slots.contains e.1
    sources := s.sources.filter fun o => o.job ≠ j
    lostSrc := s.lostSrc.filter fun l => !slots.contains l.1
    ended := s.ended.filter fun l => !slots.contains l.1
    early := s.early.filter fun e => !slots.contains e.1 }
  let s := clearCounters (fun x => x.owner == some j) (freeRegions was s)
  settleState (jobPut j { stopped := some s.time.gcount } s)

/-- STOP_JOB (R263, R296): its completion is written when the job's queues have drained. -/
def execStopJob (s : State) : Host.Outcome State Fault Refusal :=
  .next (adminRow 0x08 s fun c s =>
    let s := settle (stopJob (c.arg 9 8) s)
    stopsDone { s with admin := { s.admin with stops := s.admin.stops ++ [(c, c.arg 9 8, s.time.gcount)] } })

/-- HBM_ZEROIZE_DONE (R225, R387): the regions of stopped jobs are zeroized; not while the stacks are in
self-refresh. -/
def execHbmZeroizeDone (s : State) : Host.Outcome State Fault Refusal :=
  .next (if s.zeroize = 0 ∨ s.ctl.state = .dormant then s else zeroizeFreed s)

/-! ## Epochs (R140, R331, R337) -/

/-- A SET_EPOCH is accepted for a table (R140, R331): the next epoch, a later frame tick, the shadow open and no
swap set. While a change of FRAME_LEN is pending, the length in force at acceptance says which counts are frame ticks
(DESIGN CHOICE, log entry 67). -/
def epochAccepted {α : Type} (s : State) (x : Epochs α) (epoch tick : Nat) : Bool :=
  decide (BitVec.ofNat 8 epoch = x.epoch + 1) && decide (s.time.gcount < tick) && isTick s tick && x.open_ && x.swapAt.isNone

/-- The other islands of the cascade domain by their CASC_ID: cascade port and chip (R335, R351). -/
def domainPeers (s : State) : List (Nat × Nat) :=
  ((List.range 4).filter fun c => c ≠ s.ctl.id.ownCasc && (Table.get {} s.ctl.id.wiring (512 + c) : Wiring).kind == 3).map
    fun c => (c, (Table.get {} s.ctl.id.wiring (512 + c) : Wiring).chip)

/-- A CTRL message to an island of the domain over its cascade port (R337). -/
def sendDomain (p : Nat × Nat) (ctype : Nat) (arg : BitVec 64) (payload : List Byte) (s : State) : State :=
  sendCtrl { kind := 4, chip := p.2, port := 512 + p.1 } 0 0 0 0 s.chord.epoch ctype arg payload s

/-- SET_EPOCH with TABLE 0, or a TABLE that is neither 0 nor 1 (R140, R271, R337). -/
def execSetEpochChord (s : State) : Host.Outcome State Fault Refusal :=
  .next (match s.admin.ready with
    | c0 :: _ =>
      if fld c0.bytes 8 8 = 1 then s
      else adminRow 0x09 s fun c s =>
        let tick := c.arg 23 16
        if c.arg 8 8 ≠ 0 then adminBad c 0x04 8 s
        else if s.admin.domain.isSome then adminAgain c s
        else if inDomain s && !isMaster s then adminBad c 0x0D 0 s
        else if !epochAccepted s s.chord (c.arg 9 9) tick then adminDone c 2 (s.chord.epoch.setWidth 32) 0 s
        else
          let s := { s with chord := { s.chord with swapAt := some tick } }
          let s := if isMaster s then
              (domainPeers s).foldl (fun s p => sendDomain p 0x09 (BitVec.ofNat 64 (tick / frameNs s)) [] s) s
            else s
          adminDone c 0 0 0 s
    | [] => s)

/-- SET_EPOCH with TABLE 1 (R331). -/
def execSetEpochRouting (s : State) : Host.Outcome State Fault Refusal :=
  .next (match s.admin.ready with
    | c0 :: _ =>
      if fld c0.bytes 8 8 ≠ 1 then s
      else adminRow 0x09 s fun c s =>
        let tick := c.arg 23 16
        if !epochAccepted s s.routing (c.arg 9 9) tick then adminDone c 2 (s.routing.epoch.setWidth 32) 0 s
        else adminDone c 0 0 0 { s with routing := { s.routing with swapAt := some tick } }
    | [] => s)

/-! ## Registers (R271, R465, R468, R469) -/

/-- Read registers upward from an address. -/
def regReads : Nat → Nat → State → List Word × State
  | 0, _, s => ([], s)
  | n + 1, a, s =>
    let (v, s) := regRead a s
    let (vs, s) := regReads n (a + 4) s
    (v :: vs, s)

/-- An admin command completes once what it wrote is acknowledged: its RESULT and STATUS (R271). -/
def adminAwait (c : AdminCmd) (status : Nat) (result : Nat) (s : State) : State :=
  { s with admin := { s.admin with acked := s.admin.acked ++ [(c, status, BitVec.ofNat 64 result)] } }

/-- The purpose of a command's data. -/
def adminData (c : AdminCmd) : Purpose := .regData c.slot c.aseq

/-- Complete the commands whose data has been acknowledged. -/
def adminSettle (s : State) : State :=
  let clear := fun (x : AdminCmd × Nat × BitVec 64) => purposeClear s (adminData x.1)
  let go := s.admin.acked.filter clear
  let s := { s with admin := { s.admin with acked := s.admin.acked.filter fun x => !clear x } }
  go.foldl (fun s x => adminDone x.1 x.2.1 0 x.2.2.toNat s) s

/-- READ_REG (R271, R465, R469). -/
def execReadReg (s : State) : Host.Outcome State Fault Refusal :=
  .next (adminRow 0x0A s fun c s =>
    let a := c.arg 11 8
    let n := c.arg 13 12
    if a % 4 ≠ 0 then adminBad c 0x04 8 s
    else if ¬ (1 ≤ n ∧ n ≤ 1024) then adminBad c 0x04 12 s
    else if !(List.range n).all fun i => inBlock (a + 4 * i) then adminBad c 0x0C 8 s
    else
      let (vs, s) := regReads n a s
      let s := sendWrites 1 c.src (c.arg 23 18) 0 (vs.flatMap fun v => le 4 v.toNat) (adminData c) s
      adminSettle (adminAwait c 0 (vs.headD 0).toNat s))

/-- WRITE_REG (R271, R465, R467, R468): its RESULT is what a read returns right after. -/
def execWriteReg (s : State) : Host.Outcome State Fault Refusal :=
  .next (adminRow 0x0B s fun c s =>
    let a := c.arg 11 8
    if a % 4 ≠ 0 then adminBad c 0x04 8 s
    else if !inBlock a then adminBad c 0x0C 8 s
    else
      let s := regWrite { addr := a, value := BitVec.ofNat 32 (c.arg 15 12), mask := BitVec.ofNat 32 (c.arg 19 16) } s
      adminDone c 0 0 (regValue s a).toNat s)

/-! ## CLEAR_FAULT (R395) -/

/-- Some die still reads less than 5 °C below its warning threshold (R448). -/
def hotHolds (s : State) : Bool :=
  s.power.temps.any fun e => e.2.valid && decide (16 * (warnOf s e.1 : Int) - 80 < e.2.temp.toInt)

/-- The classes whose cause no longer holds. -/
def clearable (s : State) : Word :=
  let hot := if hotHolds s then 0 else 0x400#32
  let time := if timeOk s && s.time.holdover.isNone && !s.fault.gcLimit then 0x40000#32 else 0
  0x3FF#32 ||| hot ||| time

/-- CLEAR_FAULT (R395, R413, R415). -/
def execClearFault (s : State) : Host.Outcome State Fault Refusal :=
  .next (adminRow 0x10 s fun c s =>
    let gone := s.fault.classes &&& BitVec.ofNat 32 (c.arg 11 8) &&& clearable s
    let left := s.fault.classes &&& ~~~ gone
    let s := { s with fault := { s.fault with classes := left } }
    let s := report { kind := 0x18, sev := 0, detail := le 4 gone.toNat ++ le 4 left.toNat }
      { rkind := 5, rseq := 0, xdata := BitVec.ofNat 64 (gone.toNat + left.toNat * 2 ^ 32) } s
    let s := if s.ctl.state = .faulted && !anyFatal s then beginErase (settleState (setState .ready s)) else s
    adminDone c 0 0 left.toNat s)

end Sys2Proof.Machine
end

