-- ==== Sys2Proof/Machine/Flows.lean ====
section
/-! DEFINITION. Flows that fail, and what goes on after an acknowledgement (R317 to R319, R344, R357, R410). -/

set_option Elab.async false

namespace Sys2Proof.Machine

/-- What waited for acknowledgements goes on: held packets, records, reports, counts, admin completions. -/
def afterAck (dst tc : Nat) (s : State) : State := adminSettle (settle (drain dst tc s))

/-! ## Failed flows (R317, R319, R410) -/

/-- The reads whose packets are given up. -/
def lostReads (ps : List Packet) (s : State) : List ReadReq :=
  let tags := ps.filterMap fun p => match p.ext with | .read _ _ t => some t | _ => none
  s.net.reads.filter fun r => tags.contains r.rtag

/-- The flow after it failed: its unacknowledged packets are dropped, and it starts again with the next incarnation
(R317, R319). -/
def flowRestart (f : TxFlow) : TxFlow := { f with incarn := f.incarn + 1, psn := 0, unacked := [], credit := none }

/-- A flow has failed (R319, R410): it is restarted, its READs are lost, and every operation with an unacknowledged packet
on it, or with one that waited for a port and is given up with it, is discarded, with one PATH_LOST notice. The report of an island to which the discard does not get is not waited
for (DEDUCED, log entry 29). -/
def flowFail (f : TxFlow) (gone : List Held) (s : State) : State :=
  let ks := f.unacked.filterMap packetOp ++ gone.filterMap heldOp
  let fs := f.unacked.filterMap fun u => match u.why with | .forward q d => some (q, d) | _ => none
  let rs := lostReads (f.unacked.map (·.pkt) ++ gone.map (·.pkt)) s
  let s := txPut (flowRestart f) s
  let s := { s with net := { s.net with reads := s.net.reads.filter fun r => !rs.any fun x => decide (x.rtag = r.rtag) } }
  let s := rs.foldl (fun s r => readLost r true s) s
  let s := pathLost f.dst f.tc (fun o => (if o.status.isNone then ks else fs).contains (o.queue, o.dseq)) s
  let s := if f.tc = 1 then ks.foldl (fun s k => opModify k.1 k.2 (downsGone (· == f.dst)) s) s else s
  afterAck f.dst f.tc s

/-! ## Ports that leave UP (R344, R357, R410) -/

/-- A flow has a packet that can leave only by ports that are not UP. -/
def heldStranded (s : State) (h : Held) : Bool :=
  stranded s h.ports { h.pkt with hdr := { h.pkt.hdr with repoch := s.routing.epoch } }
def flowStranded (s : State) (f : TxFlow) : Bool :=
  f.unacked.any (fun u => stranded s u.ports u.pkt) || f.held.any (heldStranded s)

/-- Every flow whose packets can leave only by ports that are not UP fails at once (R344, R357, R410). -/
def failStranded (s : State) : State :=
  let fs := s.net.tx.filter (flowStranded s)
  (fs.map fun f => (f.dst, f.tc)).foldl (fun s k =>
    match s.net.tx.find? fun f => f.dst == k.1 && f.tc == k.2 with
    | some f => flowFail { f with held := f.held.filter fun h => !heldStranded s h } (f.held.filter (heldStranded s)) s
    | none => s) s

end Sys2Proof.Machine
end

