-- ==== Sys2Proof/Machine/ChordLoad.lean ====
section
/-! DEFINITION. Loading the chord table: reading an image, the checks of LOAD_CHORD, the capo totals, and the
sections of a cascade domain (R138, R139, R151, R152, R272, R337, R338). -/

set_option Elab.async false

namespace Sys2Proof.Machine

/-! ## Images (R272, R311, R408) -/

/-- The bytes of an image that have come, in order. -/
def imageBytes (i : ImageRead) : List Byte :=
  (sortBy (fun a b => decide (a.1 ≤ b.1)) i.got).flatMap (·.2)

/-- The place of an image in an island area (R26), in a neck that the admission controller chooses (a free value, log entry 7). -/
def imagePlace (len : Nat) (s : State) : Option Region :=
  (List.range 16).findSome? fun i =>
    placeNeed (s.freeCtr + 1) (liveRegions s) { neck := (Config.placement s.freeCtr + i) % 16, size := len, area := true, use := .image }

/-- An image has its place while it is read (R26); one that no area holds has none. -/
def placeImage (len : Nat) (s : State) : State :=
  (imagePlace len s).elim s fun r => setRegions 2 (liveRegions s ++ [r]) s

/-- The image of a command: its READs are sent when there is none yet; while it is incomplete, or the space it
needs is still held, the command waits at the front; once it is complete, or has failed, the command goes
on (R272). -/
def withImage (tc chip off len : Nat) (hold : List Byte → State → Bool) (c : AdminCmd) (s : State)
    (f : List Byte → State → State) : State :=
  match s.net.image with
  | none =>
    let s := placeImage len s
    let s := { s with net := { s.net with image := some { want := len } } }
    adminAgain c (sendReads tc chip off len 0 (fun i => .image i) s)
  | some i =>
    if i.failed then adminBad c 0x0F 0 (dropImage s)
    else
      let bs := imageBytes i
      if bs.length < i.want then adminAgain c s
      else if i.damaged then adminBad c 0x0B 0 (dropImage s)
      else if hold bs s then adminAgain c s
      else f bs (dropImage s)

/-- The image of LOAD_CHORD or LOAD_SCHEDULE, whose CRC is checked before anything else (R271, R272). -/
def withLoad (hold : List Byte → State → Bool) (c : AdminCmd) (s : State) (f : List Byte → State → State) : State :=
  withImage 1 (c.arg 17 16) (c.arg 23 18) (c.arg 27 24) hold c s fun bs s =>
    if (crc32 bs).toNat = c.arg 31 28 then f bs s else adminBad c 0x0B 0 s

/-! ## Records (R136 to R138, R272) -/

/-- A group record as bytes: the header and the member entries. -/
abbrev GroupRecord := List Byte × List (List Byte)

/-- Cut a chord image into its records; none where its length is not the sum of records (R272). -/
def recordsParse : Nat → List Byte → Option (List GroupRecord)
  | 0, b => if b.isEmpty then some [] else none
  | n + 1, b =>
    if b.isEmpty then some []
    else
      let e := bits (fld b 15 12) 16 0
      if b.length < 64 + 16 * e then none
      else (recordsParse n (b.drop (64 + 16 * e))).map fun l => (b.take 64, cut 16 e ((b.drop 64).take (16 * e))) :: l

/-- The records of an image. -/
def chordRecords (b : List Byte) : Option (List GroupRecord) := recordsParse (b.length / 64 + 1) b

/-- Bytes of a record. -/
def recordLen (r : GroupRecord) : Nat := 64 + 16 * r.2.length

/-- GROUP of a record. -/
def recordGroup (r : GroupRecord) : Nat := bits (fld r.1 1 0) 12 0

/-- The first field of a group header whose reserved bits are not 0, by its offset (R136, R138). D and ALIGNED are no reserved
fields: the island fills them whatever the image holds. -/
def headerReserved (b : List Byte) : Option Nat :=
  firstBad
    [(0, decide (fld b 1 0 / 8192 ≠ 0)), (3, decide (fld b 3 3 % 16 ≠ 0)), (7, decide (fld b 7 7 ≠ 0)),
     (8, decide (fld b 11 8 / 2 ^ 20 ≠ 0)), (12, decide (fld b 15 12 / 2 ^ 17 ≠ 0)), (52, !zeroBytes b 63 52)]

/-- The first capo field outside its range of R151. -/
def capoRange (x : Group) : Option Nat :=
  firstBad
    [(16, x.ops = 0 || decide (8192 < x.ops)), (20, decide (3145728 < x.rbuf)), (24, decide (131072 < x.tiles)),
     (28, decide (786432 < x.stage)), (32, decide (4194304 < x.desc)), (36, decide (65535 < x.win)),
     (40, decide (1024 < x.pizz)), (44, decide (3145728 < x.rbuf + x.rresRb)),
     (48, decide (131072 < x.tiles + x.rresTiles))]

/-- What is wrong with a member entry by itself on the island of a CASC_ID: reason and offset (R137, R138,
R338). -/
def entryFault (own n : Nat) (b : List Byte) (e : Entry) : Option (Nat × Nat) :=
  if fld b 7 6 / 1024 ≠ 0 then some (0x01, 7)
  else if ¬ (1 ≤ e.kind ∧ e.kind ≤ 4) then some (0x02, 15)
  else if e.kind = 2 ∧ treeDepth n < e.lvl then some (0x04, 15)
  else if e.kind = 2 ∧ e.ord % 2 ^ e.lvl ≠ 0 then some (0x04, 11)
  else if (e.kind = 2 ∨ e.kind = 4) ∧ n ≤ e.ord then some (0x04, 11)
  else if 515 < e.port ∨ (e.port < 512 ∧ 511 < e.port + e.prun) then some (0x04, 6)
  else if 512 ≤ e.port ∧ e.prun ≠ 0 then some (0x04, 8)
  else if e.port = 512 + own then some (0x04, 6)
  else none

/-- Check the entries of a record in order, with the ordinals covered so far: reason, offset and the index of
the first offending entry, or the ordinals covered (R138). -/
def entriesCheck (own n : Nat) : Nat → List Nat → List (List Byte) → Except (Nat × Nat × Nat) (List Nat)
  | _, seen, [] => .ok seen
  | i, seen, b :: bs =>
    let e := entryParse b
    match entryFault own n b e with
    | some (r, o) => .error (r, o, i)
    | none =>
      let c := entryOrds n e
      if c.any fun o => decide (n ≤ o) || seen.contains o then .error (0x04, 11, i)
      else entriesCheck own n (i + 1) (seen ++ c) bs

/-- What a failed record gives: STATUS, DETAIL, and the offset of the structure within the record. -/
abbrev RecordFault := Nat × Word × Nat

/-- A MALFORMED of a record. -/
def recordBad (reason off at_ : Nat) : RecordFault := (5, BitVec.ofNat 32 (reason * 256 + off), at_)

/-- Check one record, and the group and entries that it loads; none for a record that removes its group (R138,
R139). -/
def recordCheck (own : Nat) (r : GroupRecord) : Except RecordFault (Option (Group × List Entry)) :=
  let x := groupParse r.1
  if fld r.1 2 2 ≠ 2 then .error (9, BitVec.ofNat 32 (fld r.1 2 2), 0)
  else match headerReserved r.1 with
  | some o => .error (recordBad 0x01 o 0)
  | none =>
    if !x.valid then .ok none
    else if ¬ (2 ≤ x.nmem ∧ x.nmem ≤ 32768) then .error (recordBad 0x04 4 0)
    else if 1048576 < x.ebase + x.ecnt then .error (recordBad 0x04 8 0)
    else match capoRange x with
    | some o => .error (recordBad 0x04 o 0)
    | none => match entriesCheck own x.nmem 0 [] r.2 with
    | .error (re, o, i) => .error (recordBad re o (64 + 16 * i))
    | .ok seen =>
      let es := r.2.map entryParse
      let ups := es.filter fun e => e.kind == 4
      let cov := sortNat seen
      let d := treeDepth x.nmem
      let badUp := es.findIdx? fun e => e.kind == 4 && decide (e.lvl ≠ 0xF) &&
        (decide (d < e.lvl) || decide (e.ord % 2 ^ e.lvl ≠ 0) ||
          decide (nodeOrds x.nmem e.lvl (e.ord / 2 ^ e.lvl) ≠ cov))
      if (x.root ∧ !ups.isEmpty) ∨ (!x.root ∧ ups.length ≠ 1) then .error (recordBad 0x04 3 0)
      else if x.root ∧ cov.length ≠ x.nmem then .error (recordBad 0x04 3 0)
      else match badUp with
      | some i => .error (recordBad 0x04 11 (64 + 16 * i))
      | none => .ok (some ({ x with d, aligned := x.root || (alignedNode x.nmem cov).isSome }, es))

/-- Check records in order: the first that fails with the image offset of the offending structure, or what each
loads by group number. -/
def recordsCheck (own : Nat) : Nat → List GroupRecord → Except RecordFault (List (Nat × Option (Group × List Entry)))
  | _, [] => .ok []
  | base, r :: rs =>
    match recordCheck own r with
    | .error (st, d, at_) => .error (st, d, base + at_)
    | .ok x => match recordsCheck own (base + recordLen r) rs with
      | .error f => .error f
      | .ok l => .ok ((recordGroup r, x) :: l)

/-- Put a record into a copy: its header and entries are written, and what no record names stays (R139). -/
def copyPut (c : ChordCopy) (g : Nat) (x : Option (Group × List Entry)) : ChordCopy :=
  match x with
  | none => { c with groups := Table.put {} c.groups g {} }
  | some (h, es) => { groups := Table.put {} c.groups g h, entries := Table.putAll {} c.entries h.ebase es }

/-! ## Capo totals (R151, R152) -/

/-- The totals of R151 over the groups valid in either of two copies, each counted once with the larger value,
stay within the island's. -/
def totalsFit (a b : ChordCopy) : Bool :=
  let gs := (a.groups.map (·.1) ++ b.groups.map (·.1)).eraseDups
  let valid := fun (x : Group) (f : Group → Nat) => if x.valid then f x else 0
  let total := fun (f : Group → Nat) => (gs.map fun g => max (valid (groupIn a g) f) (valid (groupIn b g) f)).sum
  decide (total (·.ops) ≤ 8192) && decide (total (fun x => x.rbuf + x.rresRb) ≤ 3145728) &&
  decide (total (fun x => x.tiles + x.rresTiles) ≤ 131072) && decide (total (·.stage) ≤ 786432) &&
  decide (total (·.desc) ≤ 4194304) && decide (total (·.pizz) ≤ 1024)

/-- A record's own limits of R152 are broken. -/
def recordNofit (x : Option (Group × List Entry)) : Bool :=
  match x with
  | none => false
  | some (h, es) =>
    decide (h.rbuf < h.win * (es.filter fun e => e.kind ≠ 4).length) || (decide (h.pizz ≠ 0) && !h.pizzOk)

/-- The shadow after a load, or the group number of the first record, in image order, at which a check of R152
fails. -/
def shadowAfter (s : State) (l : List (Nat × Option (Group × List Entry))) : Except Nat ChordCopy :=
  let put := fun (c : ChordCopy) (p : Nat × Option (Group × List Entry)) => copyPut c p.1 p.2
  let final := l.foldl put s.chord.shadow
  let exceeds := !totalsFit s.chord.cur final
  let bad := (List.range l.length).find? fun i =>
    (match l[i]? with | some p => recordNofit p.2 | none => false) ||
    (exceeds && !totalsFit s.chord.cur ((l.take (i + 1)).foldl put s.chord.shadow))
  match bad.bind fun i => l[i]? with
  | some p => .error p.1
  | none => .ok final

/-- A load of an epoch is stale (R139): not the next epoch, or the shadow not open. -/
def loadStale (s : State) (epoch : Nat) : Bool :=
  decide (BitVec.ofNat 8 epoch ≠ s.chord.epoch + 1) || !s.chord.open_

/-- Write the shadow. -/
def setShadow (c : ChordCopy) (s : State) : State := { s with chord := { s.chord with shadow := c } }

/-- Complete a LOAD_CHORD with a record's fault at an image offset (R138). -/
def loadFault (c : AdminCmd) (f : RecordFault) (s : State) : State :=
  adminDone c f.1 f.2.1 (if f.1 = 5 then f.2.2 else 0) s

/-! ## One island's image -/

/-- LOAD_CHORD on an island outside a cascade domain, its image read and its CRC good (R138, R139, R152, R272). -/
def loadRecords (c : AdminCmd) (bs : List Byte) (s : State) : State :=
  match chordRecords bs with
  | none => adminBad c 0x0B 0 s
  | some rs => match recordsCheck s.ctl.cascId 0 rs with
    | .error f => loadFault c f s
    | .ok l => match shadowAfter s l with
      | .error g => adminDone c 8 (BitVec.ofNat 32 g) 0 s
      | .ok sh => adminDone c 0 0 rs.length (setShadow sh s)

/-! ## The image of a cascade domain (R337) -/

/-- A section of a domain chord image: its CASC_ID, the image offset of its header, its bytes, and its records. -/
structure Section where
  casc    : Nat
  at_     : Nat
  bytes   : List Byte
  records : List GroupRecord
  deriving DecidableEq, Repr

/-- Check a section header: STATUS and DETAIL of what fails (R337). -/
def sectionHeader (b : List Byte) : Option (Nat × Word) :=
  if fld b 0 0 ≠ 2 then some (9, BitVec.ofNat 32 (fld b 0 0))
  else (firstBad [(1, decide (4 ≤ fld b 1 1)), (2, decide (fld b 3 2 ≠ 0)), (8, !zeroBytes b 15 8)]).map (malformed 0x01)

/-- Cut a domain image into its sections by their LENGTHs; the last may be cut short, and the records of one that does not parse
are none (R337). -/
def sectionsCut : Nat → Nat → List Byte → List (Section × Bool)
  | 0, _, _ => []
  | n + 1, at_, b =>
    if b.isEmpty then []
    else
      let len := 16 + fld b 7 4
      let rs := if b.length < len then none else chordRecords ((b.take len).drop 16)
      ({ casc := fld b 1 1, at_, bytes := b.take len, records := rs.getD [] }, rs.isSome) :: sectionsCut n (at_ + len) (b.drop len)

/-- The chip of an island of the domain, this island's own included. -/
def domainChip (s : State) (casc : Nat) : Option Nat :=
  if casc = s.ctl.id.ownCasc then some s.ctl.id.chip
  else ((domainPeers s).find? fun p => p.1 == casc).map (·.2)

/-- The ordinals that the DOWN entries of a list naming a chip cover, sorted. -/
def downOrds (n chip : Nat) (es : List Entry) : List Nat :=
  sortNat (((downs es).filter fun e => e.chip == chip).flatMap (entryOrds n))

/-- The entries of a group that an image's section gives an island. -/
def domainEntries (l : List Section) (casc g : Nat) : List Entry :=
  match l.find? fun x => x.casc == casc with
  | some x => match x.records.find? fun r => recordGroup r == g && (groupParse r.1).valid with
    | some r => r.2.map entryParse
    | none => []
  | none => []

/-- The UP entries of a section that name an island of the domain cover what the upstream island's DOWN entries
say (R337). -/
def upsAgree (s : State) (l : List Section) (casc : Nat) (rs : List (Nat × Option (Group × List Entry))) : Bool :=
  rs.all fun r => match r.2 with
    | none => true
    | some (h, es) => es.all fun e =>
      match (List.range 4).find? fun k => k ≠ casc && domainChip s k == some e.chip with
      | some k =>
        e.kind ≠ 4 || decide (sortNat (es.flatMap (entryOrds h.nmem)) =
          downOrds h.nmem ((domainChip s casc).getD 0) (domainEntries l k r.1))
      | none => true

/-- Check one section of an image: its header, its length, its records by R138, its CASC_ID and its UP entries (R337). -/
def sectionCheck (s : State) (l : List Section) (x : Section) (whole : Bool) : Except RecordFault (List (Nat × Option (Group × List Entry))) :=
  match sectionHeader x.bytes with
  | some (st, d) => .error (st, d, x.at_)
  | none =>
    if x.bytes.length < 16 ∨ !whole then .error (5, 0x0B00, 0)
    else match recordsCheck x.casc (x.at_ + 16) x.records with
    | .error f => .error f
    | .ok r =>
      if (domainChip s x.casc).isNone || (l.filter fun y => y.casc == x.casc).length ≠ 1 then .error (recordBad 0x04 1 x.at_)
      else if !upsAgree s l x.casc r then .error (recordBad 0x04 11 (x.at_ + 16))
      else .ok r

/-- Check the sections of an image in order: the first failing section's fault, or what the island of a CASC_ID loads (R337). -/
def sectionsCheck (s : State) (l : List Section) (own : Nat) : List (Section × Bool) → Except RecordFault (List (Nat × Option (Group × List Entry)))
  | [] => .ok []
  | x :: xs => match sectionCheck s l x.1 x.2, sectionsCheck s l own xs with
    | .error f, _ => .error f
    | _, .error f => .error f
    | .ok r, .ok rest => .ok (if x.1.casc = own then r else rest)

/-- Send a section to an island in parts of 4,096 bytes (R337, CTYPE 0x08). -/
def sendSection (p : Nat × Nat) (epoch : Nat) (bs : List Byte) (s : State) : State :=
  ((cut 4096 (bs.length / 4096 + 1) bs).zipIdx).foldl (fun s q =>
    sendDomain p 0x08 (BitVec.ofNat 64 (4096 * q.2 + epoch * 2 ^ 32)) q.1 s) s

/-- The master's own section exceeds a capo. -/
def failsOwn (sh : Except Nat ChordCopy) : Bool := match sh with | .error _ => true | .ok _ => false

/-- The first failing section of a domain's image, as far as the islands have reported: none, the master's own, or another's. -/
def firstFailed (own : Nat) (d : DomainLoad) : Option (Nat × Nat × Nat) :=
  d.order.findSome? fun k => if k = own ∧ failsOwn d.shadow then some (k, 8, 0) else d.failed.find? fun f => f.1 == k

/-- The LOAD_CHORD of a domain completes: OK with the master's shadow written when every section has passed, else with the status of
the first failing section in the image (R337). -/
def finishDomain (d : DomainLoad) (s : State) : State :=
  let s := { s with admin := { s.admin with domain := none } }
  match firstFailed s.ctl.id.ownCasc d, d.shadow with
  | none, .ok sh => adminDone d.cmd 0 0 d.groups (setShadow sh s)
  | none, .error g => adminDone d.cmd 8 (BitVec.ofNat 32 g) 0 s
  | some (k, st, reason), sh =>
    match sh, decide (k = s.ctl.id.ownCasc) with
    | .error g, true => adminDone d.cmd 8 (BitVec.ofNat 32 g) 0 s
    | _, _ =>
      let free := (Config.domainDetail s.freeCtr).toNat
      let detail := if st = 5 then BitVec.ofNat 32 (reason * 256 + free % 256) else BitVec.ofNat 32 free
      let result := if st = 5 then (Config.domainResult s.freeCtr).toNat else 0
      adminDone d.cmd st detail result (drawn s)

/-- LOAD_CHORD of the master, its image read and its CRC good: every section is checked, the master's own shadow is made ready,
and the other islands get their sections (R337). Where the master's own section exceeds a capo, the sections before it decide first
(R152). -/
def loadDomain (c : AdminCmd) (bs : List Byte) (s : State) : State :=
  let cut := sectionsCut (bs.length / 16 + 1) 0 bs
  let l := cut.map (·.1)
  match sectionsCheck s l s.ctl.id.ownCasc cut with
  | .error f => loadFault c f s
  | .ok mine =>
    let sh := shadowAfter s mine
    let others := l.filter fun x => x.casc ≠ s.ctl.id.ownCasc
    let d : DomainLoad :=
      { cmd := c, shadow := sh, order := l.map (·.casc), waitFor := others.map (·.casc), groups := (l.map fun x => x.records.length).sum }
    if others.isEmpty || (failsOwn sh && d.order.head? == some s.ctl.id.ownCasc) then finishDomain d s
    else others.foldl (fun s x => match (domainPeers s).find? fun p => p.1 == x.casc with
      | some p => sendSection p (c.arg 8 8) x.bytes s
      | none => s) { s with admin := { s.admin with domain := some d } }

/-- LOAD_CHORD (R138, R139, R152, R272, R337). A non-master of a cascade domain refuses it; while the domain still
checks an earlier load it waits. -/
def execLoadChord (s : State) : Host.Outcome State Fault Refusal :=
  .next (adminRow 0x05 s fun c s =>
    if s.admin.domain.isSome then adminAgain c s
    else withLoad (fun _ _ => false) c s fun bs s =>
      if inDomain s && !isMaster s then adminBad c 0x0D 0 s
      else if loadStale s (c.arg 8 8) then adminDone c 2 (s.chord.epoch.setWidth 32) 0 s
      else if isMaster s then loadDomain c bs s else loadRecords c bs s)

/-! ## The other islands of the domain (R337) -/

/-- The arrival comes from the domain's master over its cascade port. -/
def fromMaster (s : State) (a : Arrival) : Bool :=
  inDomain s && !isMaster s && decide (a.link = .cascade s.ctl.id.masterCasc)

/-- Report a section's outcome to the master (CTYPE 0x0A). -/
def reportSection (status reason : Nat) (s : State) : State :=
  let m := s.ctl.id.masterCasc
  sendDomain (m, (Table.get {} s.ctl.id.wiring (512 + m) : Wiring).chip) 0x0A
    (BitVec.ofNat 64 (status + reason * 256)) [] s

/-- A whole section is checked and written to the shadow, and the outcome reported. -/
def takeSection (epoch : BitVec 8) (bs : List Byte) (s : State) : State :=
  let fault := fun (f : RecordFault) => reportSection f.1 (if f.1 = 5 then f.2.1.toNat / 256 else 0) s
  if loadStale s epoch.toNat then reportSection 2 0 s
  else match sectionHeader bs with
  | some (st, d) => fault (st, d, 0)
  | none => match chordRecords (bs.drop 16) with
    | none => reportSection 5 0x0B s
    | some rs => match recordsCheck s.ctl.id.ownCasc 16 rs with
      | .error f => fault f
      | .ok l => match shadowAfter s l with
        | .error _ => reportSection 8 0 s
        | .ok sh => reportSection 0 0 (setShadow sh s)

/-- The bytes of a section in, and whether it is whole: its header gives its length (R337). -/
def sectionBytes (x : SectionIn) : List Byte :=
  (sortBy (fun a b => decide (a.1 ≤ b.1)) x.got).flatMap (·.2)

/-- CHORD_SECTION_DATA (R337): a part of this island's section; the whole section is checked once its last part
has come. -/
def execChordSectionData (a : Arrival) (s : State) : Host.Outcome State Fault Refusal :=
  .next (ctrlRow 0x08 a s fun _ _ _ arg s =>
    if !fromMaster s a then s
    else
      let e := BitVec.ofNat 8 (arg.toNat / 2 ^ 32)
      let old : SectionIn := match s.admin.section_ with
        | some x => if x.epoch = e then x else { epoch := e }
        | none => { epoch := e }
      let x : SectionIn := { old with got := old.got ++ [(arg.toNat % 2 ^ 32, a.pkt.payload)] }
      let bs := sectionBytes x
      if bs.length < 16 ∨ bs.length < 16 + fld bs 7 4 then { s with admin := { s.admin with section_ := some x } }
      else takeSection e bs { s with admin := { s.admin with section_ := none } })

/-- CHORD_EPOCH_RELAY (R337): the master's swap tick is set here too. -/
def execChordEpochRelay (a : Arrival) (s : State) : Host.Outcome State Fault Refusal :=
  .next (ctrlRow 0x09 a s fun _ _ _ arg s =>
    if fromMaster s a then { s with chord := { s.chord with swapAt := some (arg.toNat * frameNs s) } } else s)

/-- SECTION_CHECKED (R337): an island of the domain reports to the master. -/
def execSectionChecked (a : Arrival) (s : State) : Host.Outcome State Fault Refusal :=
  .next (ctrlRow 0x0A a s fun _ _ _ arg s =>
    match s.admin.domain, a.link with
    | some d, .cascade k =>
      let st := arg.toNat % 256
      let failed := if st = 0 then d.failed else d.failed ++ [(k, st, arg.toNat / 256 % 256)]
      let d : DomainLoad := { d with waitFor := d.waitFor.filter (· ≠ k), failed }
      if d.waitFor.isEmpty then finishDomain d s else { s with admin := { s.admin with domain := some d } }
    | _, _ => s)

end Sys2Proof.Machine
end

