-- ==== Sys2Proof/Machine/Schedule.lean ====
section
/-! DEFINITION. LOAD_SCHEDULE and the admission of a ZSI (R38, R52, R53, R71, R110, R121, R146, R152, R153, R156
to R159, R168 to R170, R178, R186, R198 to R200, R203 to R205, R225, R234 to R239, R272, R280, R293, R313,
R314, R390, R403, R409, R487). -/

set_option Elab.async false

namespace Sys2Proof.Machine

/-! ## What a group looks like (R158, R159) -/

/-- The least of a list, 0 for an empty one. -/
def leastOf (l : List Nat) : Nat := match l with | [] => 0 | x :: xs => xs.foldl min x

/-- The greatest of a list, 0 for an empty one. -/
def greatestOf (l : List Nat) : Nat := l.foldl max 0

/-! ## Pizzicato (R156, R158) -/

/-- Result per member of a pizzicato operation in bytes (R156). -/
def pizzResultBytes (n : Nat) (z : ZsiOp) : Nat :=
  match z.opcode with
  | 1 | 2 | 5 => z.count * elemBytes z.ofmt
  | 4 => n * z.count * elemBytes z.ofmt
  | 8 | 9 => 16 * z.count
  | 0x0A => 16 * z.k * z.count / 2 ^ z.segl
  | _ => 0

/-- A pizzicato operation meets the limits of R156. -/
def pizzFits (n : Nat) (z : ZsiOp) : Bool :=
  [1, 2, 4, 5, 7, 8, 9, 0x0A].contains z.opcode && z.nsteps == 1 &&
  (z.opcode == 7 || (!isMx z.fmt && !isMx z.ofmt && decide (z.count * elemBytes z.fmt ≤ 256) &&
    decide (pizzResultBytes n z ≤ if z.opcode ≤ 2 ∨ z.opcode = 5 then 256 else 4096)))

/-- The need of a pizzicato operation in a neck in bytes (R158). -/
def pizzNeed (v : GroupView) (z : ZsiOp) (neck : Nat) : Nat :=
  let s := elemBytes z.fmt
  let mine := (inEntries v.2).filter fun e => entryNeck e == neck
  let ins := (mine.map fun e => match e.kind with
    | 2 => 16 * z.count
    | 3 => e.cnt * z.count * s
    | _ => z.count * s).sum
  let top := topNeck v.2
  let fwd := ((List.range 16).filter fun x => x ≠ top).map (forwardedValues v.1.nmem v.2)
  if mine.isEmpty ∧ neck ≠ top then 0
  else ins + pizzResultBytes v.1.nmem z + if neck = top then 16 * z.count * fwd.sum else 0

/-- Cells of a pizzicato operation in a neck; a BARRIER needs none (R158). -/
def pizzCells (v : GroupView) (z : ZsiOp) (neck : Nat) : Nat :=
  if z.opcode = 7 then 0 else (pizzNeed v z neck + 2047) / 2048

/-- The cells that groups reserve in a neck for the operations of a list (R158). -/
def cellsReserved (s : State) (zs : List ZsiOp) (neck : Nat) : Nat :=
  let ps := zs.filter (·.pizz)
  let gs := (ps.map (·.group)).eraseDups
  (gs.map fun g =>
    greatestOf ((groupViews s g).map fun v =>
      v.1.pizz * greatestOf ((ps.filter fun z => z.group == g).map fun z => pizzCells v z neck))).sum

/-! ## Space in the neck windows (R25, R26, R178, R186, R195, R203, R204, R207, R214) -/

/-- Bytes of streams and masks that a WGRAD operation claims in its neck (R178). -/
def streamBytes (v : GroupView) (z : ZsiOp) (g : WgradDef) : Nat :=
  let n := v.1.nmem
  let m := ((members v.2).filter fun e => decide (e.ord / max 1 g.chm < chunkCount n z)).length
  m * g.nbuf * g.nmb * (streamSpan g.xfmt (g.tok * 64 * g.nrowp) + streamSpan g.dfmt (g.tok * 64 * g.ncolp) +
    g.tok * 8 * g.ncolp)

/-- Bytes that a WGRAD operation claims for forwarded chunk tiles: on the root island 64 KiB a tile for each chunk computed
elsewhere (R186). -/
def forwardedBytes (v : GroupView) (z : ZsiOp) (g : WgradDef) : Nat :=
  let own := (List.range (chunkCount v.1.nmem z)).filter fun c => (members v.2).any fun e => e.ord / g.chm == c
  if v.1.root then 65536 * blockTiles g * (chunkCount v.1.nmem z - own.length) else 0

/-- Bytes per block of the arrays of a shard, in order (R207). -/
def shardArrays (opt ofmt : Nat) : List Nat :=
  [64, 32768] ++ List.replicate (min opt 2) 16384 ++ List.replicate 2 (4096 * elemBytes ofmt)

/-- Bytes of a shard's region (R207). -/
def shardSpan (d : ShardDef) : Nat := ((shardArrays d.opt d.ofmt).map fun b => pageUp (d.nb * b)).sum

/-- The declared or loaded shard of a job that holds a range of a tensor. -/
def declaredShard (s : State) (job : Nat) (b : ZsiBody) (wtensor e0 count : Nat) : Option ShardDef :=
  let ds := b.shards ++ (s.shards.filter fun h => h.job == job).map (·.sdef)
  ds.find? fun d => d.wtensor == wtensor && decide (d.e0 ≤ e0) && decide (e0 + count ≤ d.e0 + 4096 * d.nb)

/-- The operation of a job by OPID: in the body being loaded, or in a loaded ZSI. -/
def jobOp (s : State) (job : Nat) (b : ZsiBody) (opid : Nat) : Option ZsiOp :=
  (b.ops.find? fun z => z.opid == opid).orElse fun _ =>
    ((loadedZsis s).filter fun e => e.2.job == job).findSome? fun e => e.2.body.ops.find? fun z => z.opid == opid

/-- The home neck of an UPDATE by OPID on this island: that of its shard. -/
def updateNeck (s : State) (job : Nat) (b : ZsiBody) (upd : Nat) : Option Nat :=
  (jobOp s job b upd).bind fun z => match z.extra with
    | .update u => (declaredShard s job b u.wtensor u.e0 u.count).map (·.neck)
    | _ => none

/-- The dW region of a drained WGRAD (R195), or the dW scratch of a bound sum (R204), on the root island: at most 16 bytes, C64X, for
an element (log entry 23). -/
def scratchNeed (s : State) (job : Nat) (b : ZsiBody) (slot : Nat) (v : GroupView) (z : ZsiOp) : List Need :=
  if !v.1.root then []
  else match z.extra, z.bound with
  | .wgrad g, _ => if g.drain then [{ neck := g.neck, size := 65536 * blockTiles g, use := .scratch slot z.opid }] else []
  | _, some u => match updateNeck s job b u with
    | some k => [{ neck := k, size := 16 * z.count, use := .scratch slot z.opid }]
    | none => []
  | _, none => []

/-- What an operation needs in island HBM. -/
def opNeeds (s : State) (job : Nat) (b : ZsiBody) (slot : Nat) (z : ZsiOp) : List Need :=
  match groupViews s z.group with
  | [] => []
  | v :: _ => (match z.extra with
    | .wgrad g => [{ neck := g.neck, size := streamBytes v z g, use := .streams slot z.opid },
        { neck := g.neck, size := forwardedBytes v z g, use := .forwarded slot z.opid }]
    | _ => []) ++ scratchNeed s job b slot v z

/-- The dW scratch of bound sums of the job's loaded ZSIs whose UPDATE the body brings (R204). -/
def lateNeeds (s : State) (job : Nat) (b : ZsiBody) : List Need :=
  ((loadedZsis s).filter fun e => e.2.job == job).flatMap fun e => e.2.body.ops.flatMap fun z =>
    match groupViews s z.group, (regionOf s (.scratch e.1 z.opid)).isSome with
    | v :: _, false => scratchNeed s job b e.1 v z
    | _, _ => []

/-- What a body needs: a region for each shard the island does not hold yet, a journal in the neck of the first, what its
operations need, and the body itself in an island area (R26, R203, R214). -/
def bodyNeeds (s : State) (job slot len : Nat) (b : ZsiBody) : List Need :=
  let new := b.shards.filter fun d => !s.shards.any fun h => h.job == job && h.sdef.wtensor == d.wtensor && h.sdef.e0 == d.e0
  let homes := ((new.map (·.neck)).eraseDups).filter fun k => !s.shards.any fun h => h.sdef.neck == k
  new.map (fun d => { neck := d.neck, size := shardSpan d, use := .shard job d.wtensor d.e0 }) ++
  homes.map (fun k => { neck := k, size := 8388608, use := .journal k }) ++
  b.ops.flatMap (opNeeds s job b slot) ++ lateNeeds s job b ++ [{ neck := slot % 16, size := len, area := true, use := .zsi slot }]

/-- The operation of a body that a need belongs to, for DETAIL (R152). -/
def needOp (b : ZsiBody) (x : Need) : Option Nat :=
  match x.use with
  | .streams _ o | .forwarded _ o | .scratch _ o => some o
  | .shard _ w _ => (b.ops.find? fun z => match z.extra with | .update u => u.wtensor == w | .wpull p => p.wtensor == w | _ => false).map (·.opid)
  | _ => none

/-! ## Demand and claims in a frame (R14, R15, R18, R19, R21, R38, R152) -/

/-- A body's claim in a frame on a compute die, in KiB. -/
def dieClaim (b : ZsiBody) (f : DieClaim → Nat) (frame die : Nat) : Nat :=
  (((planned b).filter fun p => p.2.frame == frame).flatMap fun p => (p.2.claims.filter fun c => c.die == die).map f).sum

/-- The compute dies that a body claims something on. -/
def diesOf (b : ZsiBody) : List Nat := ((planned b).flatMap fun p => p.2.claims.map (·.die)).eraseDups

/-- A quantity in a frame, over the bodies of a job aligned by frame number, and for each other job the greatest
of its frames (R38). -/
def alignedLoad (s : State) (job : Nat) (b : ZsiBody) (f : ZsiBody → Nat → Nat) (frame : Nat) : Nat :=
  let zs := (loadedZsis s).map (·.2)
  let mine := b :: (zs.filter fun z => z.job == job).map (·.body)
  let others := ((zs.filter fun z => z.job ≠ job).map (·.job)).eraseDups
  let peak := fun (j : Nat) =>
    let bs := (zs.filter fun z => z.job == j).map (·.body)
    greatestOf ((List.range (greatestOf (bs.map (·.nframes)))).map fun k => (bs.map fun x => f x k).sum)
  (mine.map fun x => f x frame).sum + (others.map peak).sum

/-- A frame of a body exceeds a capacity of R38 in some neck, or the reduction buffer or the staging SRAM of a compute die, which
are 48 MiB and 12 MiB (R21). -/
def frameExceeds (s : State) (job flen : Nat) (b : ZsiBody) (frame : Nat) : Bool :=
  let spots := ((frameUses s b frame).map fun u => (u.neck, u.res)).eraseDups
  spots.any (fun k => decide (capacityBytes flen k.2 k.1 < alignedLoad s job b (fun x fr => usesOn (frameUses s x fr) k.1 k.2) frame)) ||
  (diesOf b).any fun d =>
    decide (49152 < alignedLoad s job b (fun x fr => dieClaim x (·.rbuf) fr d) frame) ||
    decide (12288 < alignedLoad s job b (fun x fr => dieClaim x (·.stage) fr d) frame)

/-- The other planned chunks that may share a frame with a plan of an operation: in its own frame those of the same job, in any
frame those of other jobs (R38). -/
def besides (s : State) (job : Nat) (b : ZsiBody) (z : ZsiOp) (p : ChunkPlan) : List (ZsiOp × ChunkPlan) :=
  let zs := (loadedZsis s).map (·.2)
  ((planned b).filter fun c => c.2.frame == p.frame && !(c.1.opid == z.opid && decide (c.2 = p))) ++
  ((zs.filter fun x => x.job == job).flatMap fun x => (planned x.body).filter fun c => c.2.frame == p.frame) ++
  (zs.filter fun x => x.job ≠ job).flatMap fun x => planned x.body

/-- Two plans take the same fret, the same tile, or as WGRAD slices the same string's transposing slice (R15, R19, R38). -/
def plansClash (a b : ZsiOp × ChunkPlan) : Bool :=
  rangesShare (planFrets a.1 a.2) (planFrets b.1 b.2) || rangesShare (planTiles a.1 a.2) (planTiles b.1 b.2) ||
  (a.2.kind == 1 && b.2.kind == 1 && a.2.strings.any fun k => b.2.strings.contains k)

/-- The frets of a plan hold its role in its frame, and no other chunk takes them or its tiles (R14, R15, R19, R38). -/
def fretsLeft (s : State) (job : Nat) (b : ZsiBody) (z : ZsiOp) (p : ChunkPlan) : Bool :=
  let bodies := b :: ((loadedZsis s).filter fun e => e.2.job == job).map (·.2.body)
  let rs := (bodies.flatMap (·.roles)).filter fun r => r.frame == p.frame
  (fretList (planFrets z p)).all (fun f => roleAmong (rs.map fun r => (job, r)) f == planRole p) &&
  !(besides s job b z p).any (plansClash (z, p))

/-- The tiles of an operation belong to no other operation of a loaded ZSI, nor to another of its body (R15, R38). -/
def tilesLeft (s : State) (b : ZsiBody) (z : ZsiOp) : Bool :=
  !(((b.ops.filter fun x => x.opid ≠ z.opid) ++ (loadedBodies s).flatMap (·.ops)).any fun x => rangesShare (opTileIds x) (opTileIds z))

/-- Operations and claims of a group in a frame of a body. -/
def groupOps (g : Nat) (b : ZsiBody) (frame : Nat) : Nat :=
  (b.ops.filter fun z => z.group == g && z.chunks.any fun c => c.frame == frame).length

/-- The claim of a group's chunks in a frame, by a field. -/
def groupClaim (g : Nat) (f : ChunkPlan → Nat) (b : ZsiBody) (frame : Nat) : Nat :=
  (((planned b).filter fun p => p.1.group == g && p.2.frame == frame).map fun p => f p.2).sum

/-- The tiles of a group's operations with work in a frame: for a WGRAD all that it claims (R186). -/
def groupTiles (root : Bool) (g : Nat) (b : ZsiBody) (frame : Nat) : Nat :=
  ((b.ops.filter fun z => z.group == g && z.chunks.any fun c => c.frame == frame).map fun z => match z.extra with
    | .wgrad w => wgradTiles z w root
    | _ => ((z.chunks.filter fun c => c.frame == frame).map planTileCount).sum).sum

/-- A group's work in a frame exceeds its capo in some valid copy (R152). -/
def capoExceeds (s : State) (job : Nat) (b : ZsiBody) (g frame : Nat) : Bool :=
  (groupViews s g).any fun v =>
    decide (v.1.ops < alignedLoad s job b (groupOps g) frame) ||
    decide (v.1.rbuf < alignedLoad s job b (groupClaim g planRbuf) frame) ||
    decide (v.1.tiles < alignedLoad s job b (groupTiles v.1.root g) frame) ||
    decide (v.1.stage < alignedLoad s job b (groupClaim g planStage) frame)

/-- The unit is in service (R390, R403, R409). -/
def dieUp (s : State) (d : Nat) : Bool := (Table.get {} s.dies d : Die).state == 0

/-- A string that has not been retired. -/
def stringUp (s : State) (k : Nat) : Bool := !(Table.get {} s.strs k : Str).out

/-- Two role plans give one fret different roles in a frame (R14). -/
def rolesMeet (a b : RolePlan) : Bool :=
  decide (a.role ≠ b.role) && decide (a.lo < b.hi) && decide (b.lo < a.hi)

/-- The roles of a body agree with each other, with those of the job's other ZSIs in the same frame, and with
those of other jobs in any frame (R14, R38). -/
def rolesAgree (s : State) (job : Nat) (b : ZsiBody) : Bool :=
  b.roles.all fun r => (b.roles.all fun q => q.frame ≠ r.frame || !rolesMeet r q) &&
    (loadedZsis s).all fun e => e.2.body.roles.all fun q =>
      (e.2.job == job && q.frame ≠ r.frame) || !rolesMeet r q

/-- The role of a fret by logical ID in the frame in progress (R14, R59): IDLE where the frame gave none. -/
def fretRole (s : State) (fret : Nat) : Nat := roleAmong s.roles fret

/-- No role plan names a fret of a retired string or of a compute die out of service (R18, R390, R409). -/
def rolesServed (s : State) (b : ZsiBody) : Bool :=
  b.roles.all fun r => r.role == 0 || (decide (r.hi ≤ 16384) &&
    (List.range (r.hi / 16 + 1 - r.lo / 16)).all fun i =>
      let k := r.lo / 16 + i
      decide (r.hi ≤ 16 * k) || decide (r.hi ≤ r.lo) || (stringUp s k && dieUp s (k / 16)))

/-! ## One operation (R71, R129, R146, R152, R170, R178, R198, R203 to R205, R487) -/

/-- Passes of a chunk of a WGRAD: first and end (R173). -/
def chunkPasses (n : Nat) (g : WgradDef) (chunk : Nat) : Nat × Nat :=
  let per := g.nmb * g.tok / 32
  (chunk * g.chm * per, min ((chunk + 1) * g.chm) n * per)

/-- A WGRAD slice is a set of tile steps, none of them twice nor two of one tile of a chunk, on tiles of the operation in neck
NECK, and it names their strings and compute dies (R36, R187, R188). -/
def sliceOk (n : Nat) (z : ZsiOp) (p : ChunkPlan) : Bool :=
  match z.extra with
  | .wgrad g =>
    let steps := sliceSteps p
    let ks := sortNat ((steps.map fun x => chunkTile z g (passChunk g x.1) x.2 / 128).eraseDups)
    let own := (steps.map fun x => (passChunk g x.1, x.2))
    !steps.isEmpty && decide (own.eraseDups.length = own.length) &&
    steps.all (fun x => decide (x.1 < n * (g.nmb * g.tok / 32)) && decide (x.2 < blockTiles g)) &&
    p.neck == g.neck && decide (ks = sortNat p.strings) && decide (sortNat ((ks.map (· / 16)).eraseDups) = sortNat p.dies) &&
    ks.all fun k => k / 64 == g.neck
  | _ => false

/-- The slices of an operation: one in a frame, every tile step of every chunk that has one once, and those of a tile in
ascending depth, each in a later frame than the one before (R173, R187, R188). -/
def slicesWhole (n : Nat) (z : ZsiOp) (g : WgradDef) : Bool :=
  let ps := z.chunks.filter fun p => p.kind == 1
  let steps := ps.flatMap fun p => (sliceSteps p).map fun x => (x.1, x.2, p.frame)
  let frames := ps.map (·.frame)
  decide (frames.eraseDups.length = frames.length) &&
  (islandChunks z g).all fun c =>
    let (a, b) := chunkPasses n g c
    (List.range (blockTiles g)).all fun t =>
      let mine := sortBy (fun (x y : Nat × Nat) => decide (x.1 ≤ y.1)) ((steps.filter fun x => passChunk g x.1 == c && x.2.1 == t).map fun x => (x.1, x.2.2))
      decide (mine.map (·.1) = (List.range (b - a)).map (· + a)) && decide ((mine.map (·.2)).Pairwise (· < ·))

/-- The accumulator tiles of a WGRAD operation: as many as it claims, each once, in neck NECK, in strings in service (R15, R18, R36,
R186). -/
def tilesOk (s : State) (z : ZsiOp) (g : WgradDef) (root : Bool) : Bool :=
  let ids := g.tileIds
  rangesLen ids == wgradTiles z g root && rangesDistinct ids &&
  ids.all (fun r => decide (8192 * g.neck ≤ r.1) && decide (r.2 ≤ 8192 * g.neck + 8192)) &&
  (List.range 64).all fun i =>
    let k := 64 * g.neck + i
    !rangesShare ids [(128 * k, 128 * k + 128)] || (stringUp s k && dieUp s (k / 16))

/-- The stages that the ZSI plans for a chunk of a reduction. -/
def stagesOf (z : ZsiOp) (chunk : Nat) : List ChunkPlan := z.chunks.filter fun p => p.kind == 0 && p.chunk == chunk

/-- The operation combines contributions in a tree: a reduction or a selection (R94, R125, R126). -/
def combines (c : Nat) : Bool := isReduction c || c == 8 || c == 9 || c == 0x0A

/-- A plan's neck is the lowest in which it places work, as of a chunk that has no tree node on the island (R420). -/
def lowestNeck (p : ChunkPlan) : Bool := (planNecks p).all fun k => decide (p.neck ≤ k)

/-- The necks in which the island combines a chunk fit its plan: the ZSI names one for every node whose inputs lie in different
necks, it plans frets in each of them, and the chunk's neck is that of its highest node, or the lowest with work of it where the
island combines no node (R34, R420). -/
def nodesNamed (det : Bool) (z : ZsiOp) (v : GroupView) (chunk : Nat) : Bool :=
  let ps := stagesOf z chunk
  let named := ps.flatMap (·.nodes)
  match islandTree det (isFloatSum z) v.1.nmem v.2 with
  | none => ps.all lowestNeck
  | some t =>
    let ks := combineNecks v.1.nmem v.2 t named t.l t.j
    let top := ks.foldl (fun (m : Option (Nat × Nat × Nat)) x => match m with | some y => if y.2.1 ≤ x.2.1 then some x else m | none => some x) none
    ks.all (fun x => decide (x.1 < 16) && ps.any fun p => p.strings.any fun i => i / 64 == x.1) &&
    match top with
    | some x => ps.all fun p => p.neck == x.1
    | none => ps.all lowestNeck

/-- The plan of a chunk is one the island can run: inside the ZSI's frames and the usable part of the frame (R53,
R54), with a stride of R55, on units in service, claims on its compute dies, and strings for what frets do (R14, R36, R37). -/
def planOk (s : State) (flen nframes n : Nat) (z : ZsiOp) (p : ChunkPlan) : Bool :=
  decide (p.frame < nframes) && decide (p.commit ≤ p.workEnd) && decide (p.workEnd ≤ usableNs flen) &&
  decide (1 ≤ p.stride) && decide (p.stride ≤ 255) && decide (p.neck < 16) &&
  (p.kind ≠ 0 || decide (p.chunk < chunkCount n z)) && (p.kind ≠ 1 || sliceOk n z p) &&
  (match p.kind with
    | 0 => if combines z.opcode then !p.strings.isEmpty else lowestNeck p
    | 1 => true
    | 2 | 3 => !p.strings.isEmpty && p.strings.all fun k => k / 64 == p.neck
    | _ => p.strings.isEmpty && lowestNeck p) &&
  p.nodes.all (fun x => decide (x.neck < 16) && (p.necks.contains x.neck || x.neck == p.neck)) &&
  p.claims.all (fun c => p.dies.contains c.die || p.strings.any fun k => k / 16 == c.die) &&
  p.dies.all (fun d => decide (d < 64) && dieUp s d) &&
  p.tiles.all (fun t => decide (t.2 ≤ 131072) && (List.range ((t.2 + 127) / 128 - t.1 / 128)).all fun i => p.strings.contains (t.1 / 128 + i)) &&
  p.strings.all fun k => decide (k < 1024) && stringUp s k && dieUp s (k / 16)

/-- Formats, REDOP, steps and chunk size of a collective (R71, R121, R127, R129, R133, R146). -/
def collectiveOk (n : Nat) (z : ZsiOp) : Bool :=
  let ints := isInt z.fmt
  let mx := isMx z.fmt || isMx z.ofmt
  (z.nsteps == 1 || (isReduction z.opcode && decide (1 ≤ z.nsteps) && decide (z.nsteps ≤ 4096))) &&
  (!isData z.opcode ||
    (fmtDefined z.fmt && fmtDefined z.ofmt && ints == isInt z.ofmt && (!ints || z.fmt == z.ofmt) &&
     (!isReduction z.opcode || decide (z.redop ≤ 2) || (decide (z.redop ≤ 5) && ints)) &&
     (decide (z.opcode < 8) || !isMx z.ofmt) &&
     (z.pizz || (decide ((if mx then 10 else 8) ≤ z.chl) && decide (z.chl ≤ 20) &&
       decide (chunkCount n z ≤ if isFloatSum z then 4096 else 65536)))))

/-- The fields of R168 in their ranges, and the limits of R170 and R198. DESIGN CHOICE (log entry 73): a block of no row panel or no column
panel is refused. -/
def wgradOk (v : GroupView) (z : ZsiOp) (g : WgradDef) : Bool :=
  let n := v.1.nmem
  let panel := fun (x : Nat) => decide (64 ≤ x) && decide (x ≤ 65536) && x % 64 == 0
  let mine := (members v.2).map (·.ord)
  let islands := mine :: ((downChips v.2).map fun c => coveredOrds n ((downs v.2).filter fun e => e.chip == c))
  let whole := fun (c : Nat) =>
    let os := (List.range g.chm).map (· + c * g.chm) |>.filter (· < n)
    islands.all fun l => os.all (fun o => l.contains o) || os.all fun o => !l.contains o
  decide (g.wtensor < 65536) && panel g.kin && panel g.kout && panel g.tok && decide (1 ≤ g.nmb) && decide (g.nmb ≤ 64) &&
  isFloat g.xfmt && isFloat g.dfmt && decide (g.xlayout ≤ 1) && decide (g.mask ≤ 1) &&
  decide (1 ≤ g.nrowp) && decide (1 ≤ g.ncolp) && decide (g.rowp0 + g.nrowp ≤ g.kin / 64) &&
  decide (g.colp0 + g.ncolp ≤ g.kout / 64) && decide (1 ≤ g.chm) && decide (g.chm ≤ 32768) &&
  decide (2 ^ Nat.log2 g.chm = g.chm) && decide (g.neck < 16) && decide (g.nbuf = 1 ∨ g.nbuf = 2) && decide (g.order ≤ 1) &&
  decide (g.nrowp * g.ncolp ≤ 8192) && decide (chunkCount n z ≤ 4096) &&
  (!isMx g.xfmt || (g.kin % 1024 == 0 && g.xlayout == 0)) && (!isMx g.dfmt || g.kout % 1024 == 0) &&
  (List.range (chunkCount n z)).all whole &&
  (g.order == 0 || g.nbuf == 1) &&
  (!v.1.root || g.consumer.isNone || g.consumerNeck == g.neck)

/-- A range of whole blocks. -/
def blockRange (e0 count : Nat) : Bool := decide (0 < count) && e0 % 4096 == 0 && count % 4096 == 0

/-- The constants of an UPDATE (R205): those that OPT uses in their ranges, the others 0. -/
def constantsOk (u : UpdateDef) : Bool :=
  let m := u.opt == 1
  let a := u.opt == 2
  let unit := fun (use : Bool) (c : BitVec 32) => if use then fp32Unit c else c == 0
  unit a u.b1 && unit a u.ob1 && unit a u.b2 && unit a u.ob2 && unit m u.mu &&
  (if a then fp32PosNormal u.eps else u.eps == 0) && fp32ZeroOrNormal u.wd

/-- The gradient source of an UPDATE on the root island is a WGRAD in the shard's neck, or a sum rooted here that the ZSI binds to
it (R170, R204). -/
def sourceOk (s : State) (job : Nat) (b : ZsiBody) (upd : Nat) (u : UpdateDef) (d : ShardDef) : Bool :=
  match jobOp s job b u.src with
  | none => false
  | some z => match z.extra with
    | .wgrad g => g.neck == d.neck
    | _ => isReduction z.opcode && z.bound == some upd && (groupViews s z.group).all fun v => v.1.root

/-- The plans of a kind cover every block of an operation's range (R211, R215, R216). -/
def plansCover (kind count : Nat) (z : ZsiOp) : Bool :=
  (List.range (count / 4096)).all fun b => z.chunks.any fun p =>
    p.kind == kind && ((decide (p.lo ≤ b) && decide (b < p.hi)) || (kind == 2 && p.hi == 0))

/-- UPDATE and WPULL (R203 to R205, R216, R218): an UPDATE with PUSH plans its deliveries as a WPULL does. -/
def tensorOk (s : State) (job : Nat) (b : ZsiBody) (v : GroupView) (z : ZsiOp) : Bool :=
  match z.extra with
  | .update u =>
    decide (u.wtensor < 65536) && decide (u.opt ≤ 2) && [3, 5, 6].contains u.ofmt && blockRange u.e0 u.count && constantsOk u &&
    (!v.1.root || match declaredShard s job b u.wtensor u.e0 u.count with
      | some d => d.opt == u.opt && d.ofmt == u.ofmt && sourceOk s job b z.opid u d &&
        z.chunks.all (fun p => (p.kind ≠ 2 && p.kind ≠ 3) || p.neck == d.neck) && plansCover 2 u.count z && plansCover 3 u.count z &&
        (!u.push || plansCover 4 u.count z)
      | none => false)
  | .wpull w =>
    blockRange w.e0 w.count && (!v.1.root || ((declaredShard s job b w.wtensor w.e0 w.count).isSome && plansCover 4 w.count z))
  | _ => true

/-- The reduction buffer that a chunk of a reduction claims at level 0 on the island: over all its stages (R153). -/
def chunkRbuf (z : ZsiOp) (chunk : Nat) : Nat := ((z.chunks.filter fun p => p.kind == 0 && p.chunk == chunk).map planRbuf).sum

/-- The chunks that the ZSI plans of an operation here. -/
def plannedChunks (z : ZsiOp) : List Nat := ((z.chunks.filter fun p => p.kind == 0).map (·.chunk)).eraseDups

/-- A chunk's DET allowance is at most a quarter of its ingest claim on the island (R239). -/
def allowanceOk (z : ZsiOp) (chunk : Nat) : Bool :=
  let ps := z.chunks.filter fun p => p.kind == 0 && p.chunk == chunk
  decide (4 * (ps.map (·.detAllow)).sum ≤ (ps.map (·.ingest)).sum)

/-- The completion counter of an operation lies in the job's range, and not on a non-home island for an operation
without member records (R293). -/
def counterOk (s : State) (job : Nat) (b : ZsiBody) (v : GroupView) (z : ZsiOp) : Bool :=
  match z.ccounter with
  | none => true
  | some c =>
    ((decide (b.sbase ≤ c) && decide (c < b.sbase + b.scnt)) || (ctrGet s c).owner == some job) &&
    (!recordless z || v.1.root)

/-- An operation can be admitted by itself (R487 step 3). DESIGN CHOICE (log entry 73): the chunks of ALLREDUCE, REDUCE and REDSCAT alone
are reduction chunks for CAPO_RRES_RB, since no other chunk is replayed; the member count of the first copy in which the group is VALID
bounds the result of a PIZZ ALLGATHER. -/
def opAdmits (s : State) (det : Bool) (flen job : Nat) (b : ZsiBody) (z : ZsiOp) : Bool :=
  let vs := groupViews s z.group
  match vs with
  | [] => false
  | v :: _ =>
    let n := v.1.nmem
    let wgrads := match z.extra with
      | .wgrad g => slicesWhole n z g && vs.all fun v => wgradOk v z g && tilesOk s z g v.1.root &&
          decide (wgradTiles z g v.1.root ≤ v.1.tiles) && decide (2 * blockTiles g ≤ v.1.rresTiles)
      | .stash w => decide (w < 65536)
      | _ => true
    opcodeDefined z.opcode && decide (z.redop ≤ 5) && collectiveOk n z && wgrads &&
    (match z.opcode, z.extra with
      | 0x10, .wgrad _ => true | 0x11, .stash _ => true | 0x12, .update _ => true | 0x13, .wpull _ => true
      | 0x14, .fence _ => true | c, .plain => decide (c ≤ 0x0A) | _, _ => false) &&
    z.chunks.all (planOk s flen b.nframes n z) &&
    (!z.arrival || (isFloatSum z && !z.pizz && !det)) &&
    (!det || (plannedChunks z).all (allowanceOk z)) &&
    (!combines z.opcode || z.pizz || vs.all fun v => (plannedChunks z).all (nodesNamed det z v)) &&
    (!isReduction z.opcode || z.pizz || vs.all fun v =>
      decide (greatestOf ((plannedChunks z).map (chunkRbuf z)) ≤ v.1.rresRb)) &&
    (if z.pizz then pizzFits n z && z.chunks.isEmpty && vs.all fun v => v.1.pizzOk && decide (v.1.pizz ≠ 0) else true) &&
    tensorOk s job b v z && counterOk s job b v z

/-- A floating-point sum of the bulk path in a job with DET=0 sends local partials up a port of revision 1, which has no
LOCAL (R143, R313). -/
def localRev1 (s : State) (det : Bool) (z : ZsiOp) : Bool :=
  !det && isFloatSum z && !z.pizz && (groupViews s z.group).any fun v =>
    let ords := covered v.1.nmem v.2
    !ords.isEmpty && (alignedNode v.1.nmem ords).isNone &&
    match upEntry v.2 with | some e => portRev s e.port == 1 | none => false

/-- The operation needs on a revision-1 port what that revision lacks (R199, R313, R314). -/
def opVersion (s : State) (det : Bool) (z : ZsiOp) : Bool :=
  let rev1 := fun (members : Bool) => (groupViews s z.group).any fun v => v.2.any fun e =>
    (members || e.kind ≠ 1) && (entryPorts e).any fun p => (portGet s p).rev == 1
  (rev1 false && ((isFloatSum z && !z.cap0) || z.opcode == 0x10 || z.opcode == 0x11 || z.opcode == 0x14)) || localRev1 s det z ||
  (rev1 true && (z.opcode == 0x10 || z.opcode == 0x11))

/-! ## Ties between operations (R198, R200) -/

/-- WTENSORs given to WGRAD by operations. -/
def wgradTensors (zs : List ZsiOp) : List Nat :=
  zs.filterMap fun z => match z.extra with | .wgrad g => some g.wtensor | _ => none

/-- An operation is tied to another by R200: an UPDATE that a sum feeds whose tensor a WGRAD forms as well, a WGRAD whose
tensor such an UPDATE has, or a WGRAD whose tensor shares its master-weight region with another's. -/
def tied (s : State) (job : Nat) (b : ZsiBody) (z : ZsiOp) : Bool :=
  let all := (job, b) :: (loadedZsis s).map fun e => (e.2.job, e.2.body)
  let ws := wgradTensors (all.flatMap (·.2.ops))
  let sumFed := fun (c : Nat × ZsiBody) (x : ZsiOp) => match x.extra with
    | .update u => (match (c.2.ops.find? fun z => z.opid == u.src).orElse fun _ => jobOp s c.1 b u.src with
      | some y => isReduction y.opcode
      | none => false)
    | _ => false
  let ds := (all.flatMap (·.2.shards)).filter fun d => ws.contains d.wtensor
  match z.extra with
  | .update u => ws.contains u.wtensor && sumFed (job, b) z
  | .wgrad g =>
    (all.any fun x => x.2.ops.any fun y => (match y.extra with | .update u => u.wtensor == g.wtensor | _ => false) && sumFed x y) ||
    ds.any fun d => d.wtensor == g.wtensor && ds.any fun e => e.wtensor ≠ g.wtensor && e.region == d.region
  | _ => false

/-- A WGRAD of ORDER 1 breaks a condition of R198: a PHASE_FENCE covers it, or a tile step of it or its UPDATE is placed at or
after the first planned arrival of the streams of the next WGRAD on a queue of its. -/
def orderBroken (b : ZsiBody) (z : ZsiOp) : Bool :=
  match z.extra with
  | .wgrad g =>
    g.order == 1 &&
    ((b.ops.any fun x => match x.extra with | .fence c => c.contains z.opid | _ => false) ||
     b.queues.any fun q =>
      let after := ((q.2.dropWhile (· ≠ z.opid)).drop 1).findSome? fun o => (b.ops.find? fun x => x.opid == o).bind fun x => match x.extra with
        | .wgrad n => some n.arrive
        | _ => none
      let upd := (g.consumer.bind fun u => b.ops.find? fun x => x.opid == u).map (·.chunks)
      match after with
      | some f => (z.chunks ++ upd.getD []).any fun p => decide (f ≤ p.frame)
      | none => false)
  | _ => false

/-! ## The checks in order (R487) -/

/-- LOAD_NOFIT that belongs to no single operation. -/
def nofitWhole : Nat × Word := (8, 0xFFFFFFFF)

/-- LOAD_NOFIT of an operation. -/
def nofitOp (opid : Nat) : Nat × Word := (8, BitVec.ofNat 32 opid)

/-- The ZSI header and the SLOT (R272, R487 steps 1 and 2). -/
def headerFault (s : State) (slot : Nat) (h : List Byte) : Option (Nat × Word) :=
  if fld h 0 0 ≠ 2 then some (9, BitVec.ofNat 32 (fld h 0 0))
  else match firstBad [(2, decide (2 ≤ fld h 2 2)), (3, decide (fld h 3 3 ≠ 0)), (16, !zeroBytes h 63 16)] with
  | some o => some (malformed 0x01 o)
  | none =>
    if fld h 1 1 ≠ 0x5A then some (malformed 0x02 1)
    else if 15 < slot then some (malformed 0x04 8)
    else if (zsiGet s slot).isSome then some (5, notPermitted)
    else none

/-- The checks of the whole body (R18, R52, R71, R203, R234, R235, R280, R487): what belongs to no single operation. DESIGN CHOICE (log
entry 67): FLEN is compared with CUR, the length in force, while a change of length is pending. -/
def bodyFits (s : State) (job : Nat) (h : List Byte) (b : ZsiBody) : Bool :=
  let det := bit (fld h 2 2) 0
  let ids := b.ops.map (·.opid)
  decide (fld h 15 12 = b.ops.length) && decide (fld h 11 8 = b.nframes) && decide (fld h 7 4 = s.time.cur) &&
  decide (ids.eraseDups.length = ids.length) && b.queues.all (fun q => q.2.all fun o => ids.contains o) &&
  ((loadedZsis s).all fun e => e.2.job ≠ job || e.2.det == det) && (det || s.ctl.allowDet0) &&
  decide (b.sbase + b.scnt ≤ 65536) &&
  ((List.range b.scnt).all fun i => match (ctrGet s (b.sbase + i)).owner with | some j => j == job | none => true) &&
  b.shards.all (fun d => d.e0 % 4096 == 0 && [3, 5, 6].contains d.ofmt && decide (d.neck < 16)) &&
  b.cacheDies.all (fun d => decide (d.2 < 64) && d.2 / 4 == d.1 % 16 &&
    decide (cacheClaims s (b :: loadedBodies s) d.2 ≤ 65536)) &&
  rolesAgree s job b && rolesServed s b

/-- An operation has work in a frame that exceeds a capacity or its group's capo, or on frets or tiles that are not left to it
(R14, R15, R38, R152). DESIGN CHOICE (log entry 73): where several operations exceed a frame together, DETAIL of LOAD_NOFIT names the
first of them in the body. -/
def overloaded (s : State) (job flen : Nat) (b : ZsiBody) (z : ZsiOp) : Bool :=
  z.chunks.any fun c => frameExceeds s job flen b c.frame || capoExceeds s job b z.group c.frame || !fretsLeft s job b z c

/-- A frame exceeds a capacity without any planned chunk in it. -/
def overloadedWhole (s : State) (job flen : Nat) (b : ZsiBody) : Bool :=
  (List.range b.nframes).any (frameExceeds s job flen b)

/-- The first check that an operation fails: LOAD_NOFIT, VERSION or LOAD_TIED (R152, R487 step 3). -/
def opFault (s : State) (det : Bool) (flen job : Nat) (b : ZsiBody) (z : ZsiOp) : Option (Nat × Word) :=
  if !opAdmits s det flen job b z then some (nofitOp z.opid)
  else if opVersion s det z then some (9, 1)
  else if tied s job b z then some (7, BitVec.ofNat 32 z.opid)
  else if orderBroken b z || !tilesLeft s b z || overloaded s job flen b z then some (nofitOp z.opid)
  else none

/-- What LOAD_SCHEDULE finds in an image, by the order of R487: STATUS and DETAIL of the first failure, or the regions of island
HBM with what the body needs. -/
def admitFault (s : State) (job slot len : Nat) (h : List Byte) (body : Option ZsiBody) : Except (Nat × Word) (List Region) :=
  match headerFault s slot h with
  | some f => .error f
  | none => match body with
  | none => .error nofitWhole
  | some b =>
    let det := bit (fld h 2 2) 0
    let flen := fld h 7 4
    if !bodyFits s job h b then .error nofitWhole
    else match b.ops.findSome? (opFault s det flen job b) with
    | some f => .error f
    | none =>
      let all := b.ops ++ (loadedZsis s).flatMap fun e => e.2.body.ops
      if (List.range 16).any fun k => decide (2048 < cellsReserved s all k) then .error nofitWhole
      else if overloadedWhole s job flen b then .error nofitWhole
      else match placeNeeds s.freeCtr (liveRegions s) (bodyNeeds s job slot len b) with
      | .error x => .error (match needOp b x with | some o => nofitOp o | none => nofitWhole)
      | .ok rs => .ok rs

/-! ## Loading (R177, R203, R280) -/

/-- The stream set that an operation needs. -/
def streamNeed (z : ZsiOp) : Option (Nat × Nat) :=
  match z.extra with
  | .wgrad g => some (g.wtensor, g.nbuf)
  | .stash w => some (w, 1)
  | _ => none

/-- Add a stream set of a job's tensor, or give an existing one more halves (R177). -/
def addStream (job : Nat) (p : Nat × Nat) (l : List StreamSet) : List StreamSet :=
  let grow := fun (t : StreamSet) =>
    if t.job = job ∧ t.wtensor = p.1 ∧ t.nbuf < p.2 then
      { t with nbuf := p.2, halves := t.halves ++ List.replicate (p.2 - t.nbuf) {} } else t
  if l.any fun t => t.job == job && t.wtensor == p.1 then l.map grow
  else l ++ [{ wtensor := p.1, job, nbuf := p.2, halves := List.replicate p.2 {} }]

/-- Add a declared shard, its region zeroized (R203, R225). DESIGN CHOICE (log entry 73): a shard of the job that holds the tensor and E0
already stays as it was first declared. -/
def addShard (job : Nat) (d : ShardDef) (l : List Shard) : List Shard :=
  if l.any fun h => h.job == job && h.sdef.wtensor == d.wtensor && h.sdef.e0 == d.e0 then l
  else l ++ [{ sdef := d, job, blocks := List.replicate d.nb {} }]

/-- A BARRIER runs on the pizzicato path whether marked or not (R128). -/
def normalBody (b : ZsiBody) : ZsiBody :=
  { b with ops := b.ops.map fun z => { z with pizz := z.pizz || z.opcode == 7 } }

/-- Load a ZSI into its slot: counters are taken, stream sets and shards allocated, and a stopped job's number is
in use again (R177, R203, R280, R297). -/
def loadZsi (job slot : Nat) (h : List Byte) (b : ZsiBody) (s : State) : State :=
  let z : ZsiSlot := { job, det := bit (fld h 2 2) 0, flen := fld h 7 4, body := b }
  let s := { s with zsis := Table.put none s.zsis slot (some z) }
  let s := (List.range b.scnt).foldl (fun s i => takeCounter job (b.sbase + i) s) s
  let s := jobPut job { jobGet s job with stopped := none } s
  { s with
    streams := (b.ops.filterMap streamNeed).foldl (fun l p => addStream job p l) s.streams
    shards := b.shards.foldl (fun l d => addShard job d l) s.shards }

/-- The body needs space in island HBM that zeroization may still hold (R225). -/
def needsSpace (body : Option ZsiBody) : Bool :=
  match body with
  | some b => !b.shards.isEmpty || b.ops.any fun z => (streamNeed z).isSome || z.bound.isSome
  | none => false

/-- LOAD_SCHEDULE (R272, R487): the body that the image holds is the command's operand (log entry 6). -/
def execLoadSchedule (body : Option ZsiBody) (s : State) : Host.Outcome State Fault Refusal :=
  .next (adminRow 0x06 s fun c s =>
    let body := body.map normalBody
    withLoad (fun _ s => needsSpace body && decide (0 < s.zeroize)) c s fun bs s =>
      let h := slice bs 0 64
      if bs.length < 64 then adminBad c 0x0B 0 s
      else match admitFault s (c.arg 11 10) (c.arg 8 8) bs.length h body with
      | .error (st, d) => adminDone c st d 0 s
      | .ok rs => match body with
        | some b => adminDone c 0 0 b.ops.length (loadZsi (c.arg 11 10) (c.arg 8 8) h b (setRegions (rs.length - (liveRegions s).length) rs s))
        | none => s)

end Sys2Proof.Machine
end

