-- ==== Sys2Proof/Machine/Shards.lean ====
section
/-! DEFINITION. Shards as they are stored: block headers, the region, the journal, and the SNAPSHOT and RESTORE of
sections (R207, R208, R214, R219, R221 to R224, R300). -/

set_option Elab.async false

namespace Sys2Proof.Machine

/-! ## Blocks and regions (R207, R208) -/

/-- Change a shard of a job by its tensor and first element. -/
def shardModify (job wtensor e0 : Nat) (f : Shard → Shard) (s : State) : State :=
  { s with shards := s.shards.map fun h =>
      if h.job = job ∧ h.sdef.wtensor = wtensor ∧ h.sdef.e0 = e0 then f h else h }

/-- A shard of a job by its tensor and first element. -/
def shardGet (s : State) (job wtensor e0 : Nat) : Option Shard :=
  s.shards.find? fun h => h.job == job && h.sdef.wtensor == wtensor && h.sdef.e0 == e0

/-- A block header as 64 bytes (R208). -/
def blockHeader (d : ShardDef) (b : Nat) (x : Block) : List Byte :=
  le 4 x.epoch.toNat ++ le 4 d.wtensor ++ le 4 (d.e0 / 4096 + b) ++ le 1 2 ++ le 1 (flag x.lost 7 + flag x.prevLost 6) ++
  le 2 0 ++ le 4 x.cscale0.toNat ++ le 4 x.cscale1.toNat ++ le 40 0

/-- A block's bytes in each array of its shard, in the order of R207. -/
def blockArrays (d : ShardDef) (b : Nat) (x : Block) : List (List Byte) :=
  let n := 4096 * elemBytes d.ofmt
  [blockHeader d b x, slice (x.master.flatMap (valBytes 0)) 0 32768] ++
  ([x.mom1, x.mom2].take d.opt).map (fun m => slice (m.flatMap fun c => le 4 c.toNat) 0 16384) ++
  [slice x.copy0 0 n, slice x.copy1 0 n]

/-- A shard's region byte for byte (R207): each array begins on a 4 KiB boundary. -/
def shardRegion (h : Shard) : List Byte :=
  let bs := h.blocks.zipIdx.map fun p => blockArrays h.sdef p.2 p.1
  (List.range (shardArrays h.sdef.opt h.sdef.ofmt).length).flatMap fun i =>
    let a := bs.flatMap fun b => b.getD i []
    slice a 0 (pageUp a.length)

/-- A stored C64 value (R74, R101): a special class stands in its high word. -/
def storedVal (bs : List Byte) : Val :=
  match fpDecode fp32 (fld bs 3 0), fpDecode fp32 (fld bs 7 4) with
  | .fin h, .fin l => { hi := h, lo := l }
  | .inf neg, _ => { cls := if neg then .ninf else .pinf }
  | _, _ => { cls := .nan }

/-- Read a block from its arrays (R207, R208). -/
def blockParse (d : ShardDef) (a : List (List Byte)) : Block :=
  let h := a.getD 0 []
  let moms := (a.drop 2).map fun m => (cut 4 4096 m).map fun c => BitVec.ofNat 32 (unle c)
  let copies := a.drop (2 + min d.opt 2)
  { epoch := BitVec.ofNat 32 (fld h 3 0), lost := bit (fld h 13 13) 7, prevLost := bit (fld h 13 13) 6,
    cscale0 := BitVec.ofNat 32 (fld h 19 16), cscale1 := BitVec.ofNat 32 (fld h 23 20),
    master := (cut 8 4096 (a.getD 1 [])).map storedVal,
    mom1 := if 1 ≤ d.opt then moms.getD 0 [] else [], mom2 := if d.opt = 2 then moms.getD 1 [] else [],
    copy0 := copies.getD 0 [], copy1 := copies.getD 1 [] }

/-- Where each array of a region begins, with its bytes per block. -/
def arrayStarts (d : ShardDef) : List (Nat × Nat) :=
  (shardArrays d.opt d.ofmt).foldl (fun (acc : List (Nat × Nat) × Nat) b =>
    (acc.1 ++ [(acc.2, b)], acc.2 + pageUp (d.nb * b))) ([], 0) |>.1

/-- Read a region's blocks. -/
def regionParse (d : ShardDef) (bs : List Byte) : List Block :=
  (List.range d.nb).map fun b => blockParse d ((arrayStarts d).map fun a => slice bs (a.1 + b * a.2) a.2)

/-- The offset of the first reserved field that is not 0 in the block headers of a region (R208). -/
def regionReserved (d : ShardDef) (bs : List Byte) : Option Nat :=
  (List.range d.nb).findSome? fun b =>
    let h := slice bs (64 * b) 64
    firstBad [(13, decide (fld h 13 13 % 64 ≠ 0)), (14, decide (fld h 15 14 ≠ 0)), (24, !zeroBytes h 63 24)]

/-! ## The journal (R214) -/

/-- Step 3 of R214 for an entry: its block is written in place, unless it has been. -/
def entryInPlace (bs : List Block) (e : JournalEntry) : List Block :=
  bs.modify e.block fun b => if b.epoch = e.data.epoch then b else e.data

/-- Step 3 of R214 for every entry of a shard whose commit mark is set, and step 4; the others are ignored. -/
def completeJournal (h : Shard) : Shard :=
  { h with blocks := (h.journal.filter (·.commit)).foldl entryInPlace h.blocks, journal := [] }

/-- Complete the journals of every neck. -/
def completeJournals (s : State) : State := { s with shards := s.shards.map completeJournal }

/-! ## The recorded step (R219, R222) -/

/-- The bytes of each field of a recorded step, and of the bytes left over. -/
def stepSizes : List Nat := [5, 5, 4, 4, 4, 4, 4, 4, 1, 8, 1] ++ List.replicate 20 1

/-- The fields of a recorded step, each in its byte order (R6). -/
def stepFields (r : StepRec) : List (List Byte) :=
  [le 5 r.e0, le 5 r.count, le 4 r.step.toNat, le 4 r.lr.toNat, le 4 r.gscale.toNat, le 4 r.bc1.toNat, le 4 r.bc2.toNat,
   le 4 r.scale.toNat, le 1 r.ctl.toNat, le 8 r.seed.toNat, le 1 r.flags.byte.toNat] ++ List.replicate 20 (le 1 0)

/-- A recorded step as the 64 bytes of a section: its fields and the bytes left over, which are 0, in an order no rule gives (log
entry 7); 0 if there is none. Of several ranges the section holds the newest (log entry 66). -/
def stepBytes (r : Option StepRec) : List Byte :=
  match r with
  | none => le 64 0
  | some r => (List.finRange 31).flatMap fun i => (stepFields r).getD (Config.recOrder i).val []

/-- Where a field of a recorded step begins in the section. -/
def stepAt (k : Fin 31) : Nat :=
  (((List.finRange 31).take (Config.recOrder.symm k).val).map fun i => stepSizes.getD (Config.recOrder i).val 0).sum

/-- Read the recorded step of a section. -/
def stepParse (bs : List Byte) : Option StepRec :=
  if bs.all (· = 0) then none
  else
    let v := fun (k : Fin 31) => unle (slice bs (stepAt k) (stepSizes.getD k.val 0))
    let w := fun (k : Fin 31) => BitVec.ofNat 32 (v k)
    some { e0 := v 0, count := v 1, step := w 2, lr := w 3, gscale := w 4, bc1 := w 5, bc2 := w 6, scale := w 7,
           ctl := BitVec.ofNat 8 (v 8), seed := BitVec.ofNat 64 (v 9), flags := Flags.ofByte (BitVec.ofNat 8 (v 10)) }

/-! ## Sections (R222, R223) -/

/-- A section header (R223). -/
def sectionHead (kind opt ofmt tensor epoch e0 nb seed : Nat) (body : List Byte) : List Byte :=
  le 1 2 ++ le 1 kind ++ le 1 opt ++ le 1 ofmt ++ le 20 0 ++ le 4 tensor ++ le 4 epoch ++ le 3 0 ++ le 5 e0 ++ le 4 nb ++
  le 4 (crc32 body).toNat ++ le 8 body.length ++ le 8 seed

/-- The counters of a job, by number. -/
def jobCounters (s : State) (job : Nat) : List (Nat × Ctr) := s.ctrs.filter fun e => e.2.owner == some job

/-- The body of a job section (R222). -/
def jobBody (s : State) (job : Nat) : List Byte :=
  (jobCounters s job).flatMap fun e => le 4 e.1 ++ le 4 0 ++ le 8 e.2.value.toNat

/-- The body of a shard section: the recorded step, then the region (R222). -/
def shardBody (h : Shard) : List Byte := stepBytes h.stepRecs.getLast? ++ shardRegion h

/-- Write a section in TC4; the command completes with its LENGTH once it is acknowledged (R222, R271). -/
def writeSection (c : AdminCmd) (head body : List Byte) (s : State) : State :=
  let s := sendWrites 4 (c.arg 23 22) (c.arg 29 24) 0 (head ++ body) (adminData c) s
  adminSettle (adminAwait c 0 body.length s)

/-- The first lost block of a shard. -/
def firstLost (h : Shard) : Option Nat := h.blocks.findIdx? (·.lost)

/-- The shard that a SNAPSHOT or RESTORE names. -/
def cmdShard (s : State) (c : AdminCmd) : Option Shard := shardGet s (c.arg 11 10) (c.arg 15 12) (c.arg 20 16)

/-- SNAPSHOT (R221, R222, R300): a job section is written at once; a shard section waits for its tick. -/
def execSnapshot (s : State) : Host.Outcome State Fault Refusal :=
  .next (adminRow 0x0C s fun c s =>
    let job := c.arg 11 10
    match c.arg 8 8 with
    | 1 =>
      if (jobCounters s job).any fun e => e.2.err then adminDone c 1 0 0 s
      else
        let body := jobBody s job
        writeSection c (sectionHead 1 0 0 0 0 0 0 (jobGet s job).seed.toNat body) body s
    | 2 =>
      let s := completeJournals s
      match cmdShard s c with
      | none => adminBad c 0x04 16 s
      | some h => match firstLost h with
        | some b => notice (lostNotice h b) (adminDone c 1 h.lostSeq 0 s)
        | none => { s with admin := { s.admin with snaps := s.admin.snaps ++ [c] } }
    | _ => adminBad c 0x02 8 s)

/-- The operation works on a shard of its job. -/
def opOnShard (h : Shard) (o : Op) : Bool :=
  o.job == h.job && match o.zop.extra with
    | .update u => u.wtensor == h.sdef.wtensor && decide (h.sdef.e0 ≤ u.e0) && decide (u.e0 < h.sdef.e0 + 4096 * h.sdef.nb)
    | .wpull w => w.wtensor == h.sdef.wtensor && decide (h.sdef.e0 ≤ w.e0) && decide (w.e0 < h.sdef.e0 + 4096 * h.sdef.nb)
    | _ => false

/-- The operation has begun: some chunk of it has been committed. -/
def opBegun (o : Op) : Bool := o.status.isNone && o.chunks.any fun c => c.state ≠ .waiting && c.state ≠ .slipped

/-- A SNAPSHOT of the shard waits, or its section is not yet written (R222). -/
def snapPending (s : State) (h : Shard) : Bool :=
  let names := fun (c : AdminCmd) => fld c.bytes 1 1 == 0x0C && c.arg 8 8 == 2 && c.arg 11 10 == h.job &&
    c.arg 15 12 == h.sdef.wtensor && c.arg 20 16 == h.sdef.e0
  s.admin.snaps.any names || s.admin.acked.any fun x => names x.1

/-- A RESTORE of a shard has begun: it is the oldest command, and its section is being read (R224). -/
def restoring (s : State) (h : Shard) : Bool :=
  s.net.image.isSome && match s.admin.ready with
    | c :: _ => fld c.bytes 1 1 == 0x0D && c.arg 8 8 == 2 && cmdShard s c == some h
    | [] => false

/-- A waiting SNAPSHOT whose shard has no UPDATE, WPULL or RESTORE in flight. -/
def snapReady (s : State) (c : AdminCmd) : Bool :=
  match cmdShard s c with
  | some h => !restoring s h && !s.ops.any fun o => opOnShard h o && opBegun o
  | none => true

/-- SNAPSHOT_SECTION_START (R222): at the first tick at which the shard has no UPDATE, WPULL or RESTORE in flight,
its section is written. -/
def execSnapshotSectionStart (s : State) : Host.Outcome State Fault Refusal :=
  .next (if !isTick s s.time.gcount then s
    else match s.admin.snaps.find? (snapReady s) with
      | none => s
      | some c =>
        let s := completeJournals { s with admin := { s.admin with snaps := s.admin.snaps.filter (· ≠ c) } }
        match cmdShard s c with
        | none => adminDone c 1 0 0 s
        | some h => match firstLost h with
          | some b => notice (lostNotice h b) (adminDone c 1 h.lostSeq 0 s)
          | none =>
            let body := shardBody h
            let d := h.sdef
            writeSection c (sectionHead 2 d.opt d.ofmt d.wtensor h.epoch.toNat d.e0 d.nb 0 body) body s)

/-! ## RESTORE (R224, R300) -/

/-- What a section header gives for a RESTORE: STATUS and DETAIL of the first check that fails (R224). -/
def restoreFault (s : State) (c : AdminCmd) (h : List Byte) : Option (Nat × Word) :=
  let job := c.arg 11 10
  let shard := cmdShard s c
  if fld h 0 0 ≠ 2 then some (9, BitVec.ofNat 32 (fld h 0 0))
  else if jobRunning (jobGet s job) ∨ (jobGet s job).armed.isSome then some (5, notPermitted)
  else match firstBad [(4, !zeroBytes h 23 4), (32, !zeroBytes h 34 32)] with
  | some o => some (malformed 0x01 o)
  | none =>
    if ¬ (fld h 1 1 = 1 ∨ fld h 1 1 = 2) then some (malformed 0x02 1)
    else
      let want : Nat × Nat × Nat × Nat × Nat × Nat := match shard with
        | some x => (2, x.sdef.opt, x.sdef.ofmt, x.sdef.wtensor, x.sdef.e0, x.sdef.nb)
        | none => (1, 0, 0, 0, 0, 0)
      let want := if c.arg 8 8 = 1 then (1, 0, 0, 0, 0, 0) else want
      let isShard := c.arg 8 8 == 2
      match firstBad
        [(1, fld h 1 1 ≠ want.1), (2, fld h 2 2 ≠ want.2.1), (3, isShard && fld h 3 3 ≠ want.2.2.1),
         (24, fld h 27 24 ≠ want.2.2.2.1), (35, isShard && fld h 39 35 ≠ want.2.2.2.2.1),
         (40, fld h 43 40 ≠ want.2.2.2.2.2)] with
      | some o => some (malformed 0x04 o)
      | none =>
        let len := fld h 55 48
        let good := match shard with
          | some x => if isShard then decide (len = 64 + shardSpan x.sdef) else len % 16 == 0 && decide (len ≤ 16 * 65536)
          | none => len % 16 == 0 && decide (len ≤ 16 * 65536)
        if good then none else some (5, 0x0B00)

/-- Restore a job section: the seed, and each named counter (R224, R300). -/
def restoreJob (c : AdminCmd) (h body : List Byte) (s : State) : State :=
  let job := c.arg 11 10
  let es := (cut 16 (body.length / 16) body).map fun e => (fld e 3 0, BitVec.ofNat 64 (fld e 15 8), fld e 7 4)
  if es.any fun e => e.2.2 ≠ 0 then adminBad c 0x01 4 s
  else if es.any fun e => (ctrGet s e.1).owner ≠ some job then adminBad c 0x03 0 s
  else
    let s := jobPut job { jobGet s job with seed := BitVec.ofNat 64 (fld h 63 56) } s
    let s := es.foldl (fun s e => ctrChange e.1 { value := e.2.1, sat := decide (e.2.1 = ctrMax), owner := some job } s) s
    adminDone c 0 0 0 s

/-- Restore a shard section: the region, the recorded step and the epoch (R224). -/
def restoreShard (c : AdminCmd) (x : Shard) (h body : List Byte) (s : State) : State :=
  let region := body.drop 64
  match regionReserved x.sdef region with
  | some o => adminBad c 0x01 o s
  | none =>
    let put := fun (y : Shard) =>
      { y with blocks := regionParse x.sdef region, epoch := BitVec.ofNat 32 (fld h 31 28), journal := [],
               stepRecs := (stepParse (body.take 64)).toList, firstApply := none }
    adminDone c 0 0 0 (shardModify x.job x.sdef.wtensor x.sdef.e0 put s)

/-- Ask for the rest of a section once its header is there (R224). -/
def wantBody (c : AdminCmd) (len : Nat) (s : State) : State :=
  let s := { s with net := { s.net with image := s.net.image.map fun i => { i with want := 64 + len } } }
  adminAgain c (sendReads 5 (c.arg 23 22) (c.arg 29 24 + 64) len 0 (fun i => .image (64 + i)) s)

/-- RESTORE with a section's header, and its body as far as it is there. -/
def restoreWith (c : AdminCmd) (bs : List Byte) (s : State) : State :=
  let h := bs.take 64
  match restoreFault s c h with
  | some (st, d) => adminDone c st d 0 (dropImage s)
  | none =>
    let len := fld h 55 48
    if bs.length < 64 + len then wantBody c len s
    else
      let s := completeJournals (dropImage s)
      let body := bs.drop 64
      if (crc32 body).toNat ≠ fld h 47 44 then adminBad c 0x0B 0 s
      else match c.arg 8 8, cmdShard s c with
        | 2, some x => restoreShard c x h body s
        | _, _ => restoreJob c h body s

/-- A RESTORE waits while a SNAPSHOT of its shard waits or its section is not yet written (R222). -/
def restoreHeld (s : State) (c : AdminCmd) : Bool :=
  c.arg 8 8 == 2 && s.net.image.isNone && (cmdShard s c).any (snapPending s)

/-- RESTORE (R222, R224): the section's header is read first, then what follows it. -/
def execRestore (s : State) : Host.Outcome State Fault Refusal :=
  .next (adminRow 0x0D s fun c s =>
    if ¬ (c.arg 8 8 = 1 ∨ c.arg 8 8 = 2) then adminBad c 0x02 8 s
    else if c.arg 8 8 = 2 ∧ (cmdShard s c).isNone then adminBad c 0x04 16 s
    else if restoreHeld s c then adminAgain c s
    else match s.net.image with
      | none =>
        let s := { s with net := { s.net with image := some { want := 64 } } }
        adminAgain c (sendReads 5 (c.arg 23 22) (c.arg 29 24) 64 0 (fun i => .image i) s)
      | some i =>
        if i.failed then adminBad c 0x0F 0 (dropImage s)
        else if (imageBytes i).length < i.want then adminAgain c s
        else restoreWith c (imageBytes i) s)

end Sys2Proof.Machine
end

