-- ==== Sys2Proof/Machine/Sleep.lean ====
section
/-! DEFINITION. SLEEP and WAKE of the island, of a compute die and of a cascade port (R385 to R390). -/

set_option Elab.async false

namespace Sys2Proof.Machine

/-! ## Conditions (R385) -/

/-- A loaded ZSI claims a fret, tile, reduction buffer or staging of a die. -/
def dieClaimed (s : State) (d : Nat) : Bool :=
  (loadedZsis s).any fun e =>
    ((planned e.2.body).any fun p =>
      p.2.dies.contains d || (p.2.claims.any fun c => c.die == d) || p.2.strings.any fun k => k / 16 == d) ||
    (e.2.body.ops.any fun z => rangesShare (opTileIds z) (dieTileIds d)) ||
    e.2.body.roles.any fun r => r.role ≠ 0 && decide (r.lo < 256 * d + 256) && decide (256 * d < r.hi)

/-- A chord copy or a routing table names a port. -/
def chordNames (c : ChordCopy) (p : Nat) : Bool := c.entries.any fun e => (entryPorts e.2).contains p
def routesName (t : Table Route) (p : Nat) : Bool := t.any fun e => e.2.portList.contains p

/-- Some copy of either table names a port. -/
def portNamed (s : State) (p : Nat) : Bool :=
  chordNames s.chord.cur p || chordNames s.chord.shadow p || routesName s.routing.cur p || routesName s.routing.shadow p ||
  (match s.chord.retiring with | some (c, _, _) => chordNames c p | none => false) ||
  (match s.routing.retiring with | some (t, _, _) => routesName t p | none => false)

/-- The target of a SLEEP permits it (R385). -/
def sleepAllowed (s : State) (target unit tick : Nat) : Bool :=
  match target with
  | 0 => s.ctl.state == .ready &&
      s.jobs.all fun j => match j.2.armed with | some t => decide (tick < t) | none => true
  | 1 => dieUp s unit && !dieClaimed s unit
  | _ => !portNamed s (512 + unit)

/-- UNIT is one of the target's (R385). -/
def unitOk (target unit : Nat) : Bool :=
  match target with
  | 0 => unit == 0
  | 1 => decide (unit < 64)
  | _ => decide (unit < 4)

/-- A SLEEP or WAKE row: the command at the front has the row's target. A TARGET that is none is refused in the
row of TARGET 0. -/
def targetRow (acode target : Nat) (s : State) (f : AdminCmd → Nat → State → State) : State :=
  match s.admin.ready with
  | c0 :: _ =>
    let t := c0.arg 8 8
    if (if 2 < t then 0 else t) ≠ target then s
    else adminRow acode s fun c s =>
      if 2 < t then adminBad c 0x04 8 s
      else if !unitOk target (c.arg 11 10) then adminBad c 0x04 10 s
      else f c (c.arg 11 10) s
  | [] => s

/-- SLEEP (R385): checked now, and again at its TICK. -/
def sleepRow (target : Nat) (s : State) : State :=
  targetRow 0x0E target s fun c unit s =>
    let tick := c.arg 23 16
    if !isTick s tick ∨ tick < s.time.gcount + 10000 then adminBad c 0x04 16 s
    else if !sleepAllowed s target unit tick then adminDone c 5 notPermitted 0 s
    else { s with admin := { s.admin with sleeps := s.admin.sleeps ++ [(c, target, unit, tick)] } }

/-- SLEEP_ISLAND, SLEEP_DIE and SLEEP_PORT (R385). -/
def execSleepIsland (s : State) : Host.Outcome State Fault Refusal := .next (sleepRow 0 s)
def execSleepDie (s : State) : Host.Outcome State Fault Refusal := .next (sleepRow 1 s)
def execSleepPort (s : State) : Host.Outcome State Fault Refusal := .next (sleepRow 2 s)

/-! ## Taking effect (R386, R390) -/

/-- Change a die. -/
def dieModify (d : Nat) (f : Die → Die) (s : State) : State := { s with dies := Table.modify {} s.dies d f }

/-- Change every die. -/
def diesAll (f : Die → Die) (s : State) : State := (List.range 64).foldl (fun s d => dieModify d f s) s

/-- Power-gated compute dies are not sampled: VALID of their TEMP_DIE is 0 (R454). -/
def gateTemps (p : Nat → Bool) (s : State) : State :=
  { s with power := { s.power with temps := s.power.temps.filter fun e => !(decide (16 ≤ e.1) && decide (e.1 < 80) && p (e.1 - 16)) } }

/-- All compute dies are power-gated (R386, R449), those that are out with the rest. -/
def gateDies (s : State) : State :=
  let s := gateTemps (fun _ => true) (diesAll (fun d => if d.state = 0 then { d with state := 1, rejoin := none } else d) s)
  { s with power := { s.power with gated := true } }

/-- Change every module in a state. -/
def modsFrom (a b : Nat) (s : State) : State :=
  { s with mods := s.mods.map fun m => if m.2.state = a then (m.1, { m.2 with state := b }) else m }

/-- DORMANT is entered (R386): journals complete, every die in service is power-gated, the modules enter L1. -/
def enterDormant (s : State) : State :=
  let s := completeJournals (dropImage s)
  setState .dormant (modsFrom 1 3 (gateDies s))

/-- A cascade port goes to sleep (R390): DOWN, and every bit of its CASC_CTL set. The flows that can leave only by it fail (R357). -/
def sleepPortNow (c : Nat) (s : State) : State :=
  let p := 512 + c
  let x := portGet s p
  let state := if strapsAgree s then 0 else x.state
  let s' := lanesChange c (fun k => wakeLanes k 0xFFFF 0xFFFF) (portPut p { x with state, rev := 0, passed := none, confirmed := none } s)
  if portUp s p then failStranded (parentLost p s') else s'

/-- A SLEEP takes effect. -/
def sleepNow (target unit : Nat) (s : State) : State :=
  match target with
  | 0 => enterDormant s
  | 1 => gateTemps (· == unit) (dieModify unit (fun d => { d with state := 1, rejoin := none }) s)
  | _ => sleepPortNow unit s

/-- The tick of a SLEEP has come, and every step of R60 is done (R385). -/
def sleepDue (s : State) (x : AdminCmd × Nat × Nat × Nat) : Bool :=
  decide (x.2.2.2 < s.time.gcount) ||
  (decide (x.2.2.2 = s.time.gcount) && decide (s.time.lastTick = some s.time.gcount))

/-- One due SLEEP is checked again and completes (R385). -/
def sleepFinish (x : AdminCmd × Nat × Nat × Nat) (s : State) : State :=
  if sleepAllowed s x.2.1 x.2.2.1 x.2.2.2 then adminDone x.1 0 0 0 (sleepNow x.2.1 x.2.2.1 s)
  else adminDone x.1 5 notPermitted 0 s

/-- SLEEP_TICK (R385, R386). -/
def execSleepTick (s : State) : Host.Outcome State Fault Refusal :=
  .next (
    let go := s.admin.sleeps.filter (sleepDue s)
    let s := { s with admin := { s.admin with sleeps := s.admin.sleeps.filter fun x => !sleepDue s x } }
    go.foldl (fun s x => sleepFinish x s) s)

/-! ## WAKE (R388 to R390) -/

/-- A die wakes or returns: its generation number is incremented, and it rejoins at the first tick after it has
taken the current table epoch (R389). -/
def dieBack (g : Nat) (d : Die) : Die := { d with gen := d.gen + 1, state := 0, rejoin := some g }

/-- What the die SRAM held is released as discarded (R16, R389): operations with staged inputs or tiles end, and
finished tiles that waited for an UPDATE are lost. -/
def loseDieClaims (p : Op → Bool) (rseq : BitVec 32) (s : State) : State :=
  let holds := fun (o : Op) => p o && (!o.pieces.isEmpty || !o.tiles.isEmpty)
  let gone := s.sources.filter fun o => p o && !o.tiles.isEmpty
  let s := { s with
    sources := s.sources.filter fun o => !(p o && !o.tiles.isEmpty)
    lostSrc := s.lostSrc ++ gone.map fun o => (o.slot, o.zop.opid, o.desc.step, rseq) }
  settle (discardIf holds rseq s)

/-- The island wakes from DORMANT (R388). -/
def wakeNow (s : State) : State :=
  let s := completeJournals (modsFrom 3 1 { s with power := { s.power with gated := false } })
  let g := s.time.gcount
  let s := diesAll (fun d => if 2 ≤ d.state then { d with gen := d.gen + 1 } else dieBack g d) s
  loseDieClaims (fun _ => true) 0 (settleState (setState .ready s))

/-- WAKE (R388): a pending SLEEP of the same target is cancelled; a target that is not asleep stays as it is. -/
def wakeRow (target : Nat) (s : State) (wake : Nat → State → State) : State :=
  targetRow 0x0F target s fun c unit s =>
    let s := dropSleeps (fun x => x.2.1 == target && x.2.2.1 == unit) s
    adminDone c 0 0 0 (wake unit s)

/-- WAKE_ISLAND (R388). -/
def execWakeIsland (s : State) : Host.Outcome State Fault Refusal :=
  .next (wakeRow 0 s fun _ s => if s.ctl.state = .dormant then wakeNow s else s)

/-- WAKE_DIE (R389, R390): nothing the die held before is used again. -/
def execWakeDie (s : State) : Host.Outcome State Fault Refusal :=
  .next (wakeRow 1 s fun d s =>
    if (Table.get {} s.dies d : Die).state = 1 then
      loseDieClaims (usesDie d) 0 (dieModify d (dieBack s.time.gcount) s)
    else s)

/-- A cascade port is asleep: every bit of its CASC_CTL is set. -/
def portAsleep (s : State) (c : Nat) : Bool :=
  let k : Casc := Table.get {} s.casc c
  k.rxslp == 0xFFFF && k.txslp == 0xFFFF

/-- WAKE_PORT (R390): the sleep bits clear, and the port aligns on its kept boundaries. -/
def execWakePort (s : State) : Host.Outcome State Fault Refusal :=
  .next (wakeRow 2 s fun c s =>
    if portAsleep s c then sleepBits c 0 0 s else s)

end Sys2Proof.Machine
end

