-- ==== Sys2Proof/Machine/Bulk.lean ====
section
/-! DEFINITION. Bulk collectives: inputs and results that arrive from other islands, and what a stage does when it
completes (R54, R108 to R120, R141 to R149, R237, R311). -/

set_option Elab.async false

namespace Sys2Proof.Machine

/-! ## The operation that a packet names (R109, R141, R257, R316) -/

/-- A packet of another chord epoch than its operation's (R141): dropped and counted, and the operation ends. -/
def foreignPacket (a : Arrival) (o : Op) (s : State) : State :=
  let own := opEpoch s o
  let s := commit a (count 0x36 (linkNeck a.link) 1 { job := some o.job, group := some o.group } s)
  settle (notice (epochNotice a.pkt.hdr.cepoch own (some o)) (discardOp 0 o s))

/-- Open an operation under the epoch that an input carries, or meet a foreign one (R109, R141). -/
def epochGate (a : Arrival) (o : Op) (s : State) (f : Op → State → State) : State :=
  let e := a.pkt.hdr.cepoch
  let opens := if o.fixed then decide (e = o.cepoch) else (chordAt s e).isSome
  if opens then
    withOp o.queue o.dseq f (bytesFor o.queue o.dseq (pktLen a.pkt) (fixEpoch o.queue o.dseq e s))
  else foreignPacket a o s

/-- Run the rules of a packet for the operation it names. A packet of an operation that has ended, or that this island
cannot have, is late (R316). -/
def onOp (a : Arrival) (q : Nat) (d : BitVec 32) (s : State) (f : Op → State → State) : State :=
  match knownOp s q d with
  | some o => if o.status.isSome then lateDrop a s else epochGate a o (if (opFind s q d).isSome then s else { s with ops := s.ops ++ [o] }) f
  | none => lateDrop a s

/-! ## Inputs from other islands (R111, R143 to R145, R237, R311) -/

/-- Add staged pieces to an operation. -/
def stagePieces (q : Nat) (d : BitVec 32) (ps : List Piece) (s : State) : State :=
  opModify q d (fun o => { o with pieces := o.pieces ++ ps }) s

/-- The chunk, step and elements that an input names exist. -/
def inputFits (n : Nat) (o : Op) (x : NodeExt) : Bool :=
  decide (x.chunk < chunkCount n o.zop) && decide (x.stepno < o.zop.nsteps) && decide (x.eoff + x.ecnt ≤ chunkLen o.zop x.chunk)

/-- The values of a PARTIAL. -/
def partialVals (x : NodeExt) (payload : List Byte) : List Val :=
  payloadVals (x.pflags.toNat % 4) x.ecnt (x.pflags.getLsbD 6) (x.pflags.getLsbD 2) payload

/-- A PARTIAL as a staged piece: at its node, or for a local partial at its lowest ordinal (R111, R143). -/
def partialPiece (x : NodeExt) (payload : List Byte) : Piece :=
  { step := x.stepno, chunk := x.chunk, place := if x.pflags.getLsbD 7 then .loc x.nodej else .node x.nodel x.nodej,
    off := x.eoff, len := x.ecnt, level := x.pflags.toNat % 4, nv := x.pflags.getLsbD 4, of := x.pflags.getLsbD 3,
    nx := x.pflags.getLsbD 2, data := .vals (partialVals x payload) }

/-- A local partial in a job with DET=1 (R237): dropped and counted, and the operation ends. -/
def detDrop (a : Arrival) (o : Op) (s : State) : State :=
  let s := commit a (count 0x37 (linkNeck a.link) 1 { job := some o.job, group := some o.group } s)
  let n : Notice := { kind := 8, sev := 2, queue := o.queue, group := o.group, dseq := o.dseq, detail := le 2 a.pkt.hdr.src }
  settle (notice n (discardOp 0 o s))

/-- PARTIAL that is not a chunk tile (R111, R141, R143, R237): its values are staged at their node. -/
def execPartialPkt (a : Arrival) (s : State) : Host.Outcome State Fault Refusal :=
  .next (match a.pkt.ext with
    | .node .partialNode x =>
      if x.pflags.getLsbD 5 then s
      else onReceive a s fun s => onOp a x.queue x.dseq s fun o s =>
        if x.pflags.getLsbD 7 && jobIsDet s o.job then detDrop a o s
        else if !inputFits (opGroup s o).nmem o x then commit a s
        else stagePieces o.queue o.dseq [partialPiece x a.pkt.payload] (commit a s)
    | _ => s)

/-- The length and the grain that the elements of a RAW or RESULT need in their format (R311). -/
def elemsForm (c : Nat) (x : NodeExt) (runs len : Nat) : Bool :=
  (!isMx c || (x.ecnt % 1024 == 0 && x.eoff % 1024 == 0)) && runs * fmtBytes c x.ecnt == len

/-- RAW (R145): the terms of a run of ordinals are staged, each at its leaf. -/
def execRaw (a : Arrival) (s : State) : Host.Outcome State Fault Refusal :=
  .next (match a.pkt.ext with
    | .node .raw x =>
      onReceive a s fun s => onOp a x.queue x.dseq s fun o s =>
        let c := o.zop.fmt
        if !elemsForm c x x.rcnt a.pkt.payload.length then dropWith 0x2A (arrivalPC s a) a s
        else if !inputFits (opGroup s o).nmem o x then commit a s
        else
          let size := fmtBytes c x.ecnt
          let ps := (List.range x.rcnt).map fun r =>
            { step := x.stepno, chunk := x.chunk, place := .leaf (x.nodej + r), off := x.eoff, len := x.ecnt,
              data := .elems ((a.pkt.payload.drop (r * size)).take size) : Piece }
          stagePieces o.queue o.dseq ps (commit a s)
    | _ => s)

/-! ## Results from above (R147 to R149) -/

/-- Take units of a result: on to those that need them, or staged for the stage that delivers them. -/
def takeResult (o : Op) (x : NodeExt) (p : Part) (bs : List Byte) (s : State) : State :=
  let s := opModify o.queue o.dseq (fun o => { o with got := o.got ++ [(x.nodej, x.chunk, x.eoff, x.ecnt)] }) s
  let s := if !o.opened || deliveryPlanned o x.chunk then
      opModify o.queue o.dseq (stageResult x.chunk x.nodej x.eoff x.ecnt bs) s
    else deliverUnits o x.chunk p x.eoff x.ecnt bs s
  settle (endCheck o.queue o.dseq s)

/-- Bytes of units of a result. -/
def unitBytes (o : Op) (off len : Nat) : Nat := unitPos o (off + len) - unitPos o off

/-- RESULT (R148, R149): an island other than the root's passes it on unchanged. -/
def execResult (a : Arrival) (s : State) : Host.Outcome State Fault Refusal :=
  .next (match a.pkt.ext with
    | .node .result x =>
      onReceive a s fun s => onOp a x.queue x.dseq s fun o s =>
        let grain := !isMx (outFmt o) || isEntry o.zop || (x.ecnt % 1024 == 0 && x.eoff % 1024 == 0)
        if !grain || a.pkt.payload.length ≠ unitBytes o x.eoff x.ecnt then dropWith 0x2A (arrivalPC s a) a s
        else match partAt (opGroup s o).nmem o x.chunk x.nodej x.eoff x.ecnt with
          | some p => if o.home then commit a s else takeResult o x p a.pkt.payload (commit a s)
          | none => commit a s
    | _ => s)

/-- RESULT_META (R148): the completion fields are taken over and passed down unchanged. -/
def execResultMeta (a : Arrival) (s : State) : Host.Outcome State Fault Refusal :=
  .next (match a.pkt.ext with
    | .resultMeta _ q d f r =>
      onReceive a s fun s => onOp a q d s fun o s =>
        if o.home then commit a s
        else
          let s := opModify q d (takeMeta f r a.pkt.payload) (commit a s)
          let down := (downOnce (opEntries s o)).filter fun e => portRev s e.port == 2
          let s := down.foldl (fun s e => sendOp o e a.pkt.hdr.tc a.pkt.ext a.pkt.payload (.forward q d) s) s
          settle (pizzCheck q d (endCheck q d s))
    | _ => s)

/-! ## Forwarding up (R111, R142 to R145) -/

/-- Earlier inputs or passes of a chunk overflowed, so OF of its partials is set whatever their values (R91, R111). -/
def chunkOf (o : Op) (c : ChunkSt) (beyond : Bool) : Bool :=
  (o.pieces.any fun p => p.chunk == c.plan.chunk && p.of) || c.ofSeen || beyond

/-- The flags NV, OF and NX of a packet of values (R111, R311). -/
def partialFlags (of : Bool) (vs : List Val) : Nat :=
  flag (vs.any fun v => v.cls == .nan) 4 + flag (of || vs.any (·.ov)) 3 + flag (vs.any (·.nx)) 2

/-- Elements per PARTIAL: what 4,096 bytes hold, with the tag map where some element needs one (R144). -/
def partialGrain (k : Nat) (tags : Bool) : Nat :=
  let w := if k = 0 then 8 else 16
  if tags then 8192 / (2 * w + 1) / 2 * 2 else 4096 / w

/-- Values cut into packets of at most a packet's elements, each with its first element (R144). -/
def partialCuts (k : Nat) (tags : Bool) (vs : List Val) : List (Nat × List Val) :=
  let per := partialGrain k tags
  let cuts := cut per (vs.length / per + 1) vs
  (cuts.foldl (fun (acc : Nat × List (Nat × List Val)) c => (acc.1 + c.length, acc.2 ++ [(acc.1, c)])) (0, [])).2

/-- Send values up as PARTIALs (R111, R144). `base` is the packet's fields but those of its range. A PARTIAL of revision 1
has no tag map and no LOCAL: its words alone give the classes, and its header OV (R313, R314). -/
def sendPartials (o : Op) (e : Entry) (base : NodeExt) (k : Nat) (of : Bool) (vs : List Val) (s : State) : State :=
  let rev1 := portRev s e.port == 1
  (partialCuts k (!rev1 && needTags vs) vs).foldl (fun s p =>
    let tagged := !rev1 && needTags p.2
    let bs := p.2.flatMap (valBytes k) ++ (if tagged then tagMap p.2 else [])
    let high := if rev1 then 0 else base.pflags.toNat + flag tagged 6
    let x := { base with eoff := base.eoff + p.1, ecnt := p.2.length,
                         pflags := BitVec.ofNat 8 (high + partialFlags of p.2 + k) }
    sendOp o e 2 (.node .partialNode x) bs (.forward o.queue o.dseq) s) s

/-- The fields of an input packet of a chunk and step. -/
def upBase (o : Op) (chunk step : Nat) : NodeExt :=
  { group := o.group, queue := o.queue, dseq := o.dseq, chunk, eoff := 0, ecnt := 0, stepno := step }

/-- Send one ordinal's terms up as RAW, runs of one ordinal (R145, log entry 18). -/
def sendRaw (o : Op) (e : Entry) (chunk step ord : Nat) (s : State) : State :=
  let c := o.zop.fmt
  let n := chunkLen o.zop chunk
  let g := readGrain c
  let bs := leafBytes o chunk step ord
  (List.range ((n + g - 1) / g)).foldl (fun s i =>
    let off := g * i
    let len := min g (n - off)
    let x := { upBase o chunk step with eoff := off, ecnt := len, nodej := ord, rcnt := 1 }
    sendOp o e 2 (.node .raw x) ((bs.drop (elemPos c off)).take (fmtBytes c len)) (.forward o.queue o.dseq) s) s

/-- Forward what is staged as it came: terms of ordinals as RAW, and nodes received from below at their node (R142,
R145). -/
def sendTerms (o : Op) (e : Entry) (chunk : Nat) (s : State) : State :=
  (List.range o.zop.nsteps).foldl (fun s step =>
    let ps := sortBy (fun (a b : Place) => decide ((placeNode a).2 * 2 ^ (placeNode a).1 ≤ (placeNode b).2 * 2 ^ (placeNode b).1))
      (placesOf o chunk step)
    ps.foldl (fun s p => match p with
      | .leaf ord => sendRaw o e chunk step ord s
      | .node l j =>
        let xs := piecesAt o chunk step p
        let k := (xs.map (·.level)).foldl max 0
        sendPartials o e { upBase o chunk step with nodel := l, nodej := j } k (xs.any (·.of))
          (placeVals o { k, cap0 := o.zop.cap0 } chunk step p) s
      | _ => s) s) s

/-! ## Completing a stage (R54, R108 to R120, R148) -/

/-- Change a planned chunk of an operation. -/
def chunkModify (q : Nat) (d : BitVec 32) (i : Nat) (f : ChunkSt → ChunkSt) (s : State) : State :=
  opModify q d (fun o => { o with chunks := o.chunks.modify i f }) s

/-- A stage is done. -/
def chunkDone (q : Nat) (d : BitVec 32) (i : Nat) (s : State) : State :=
  let g := s.time.gcount
  opModify q d (fun o => { o with lastAt := some g }) (chunkModify q d i (fun c => { c with state := .done }) s)

/-- A chunk becomes replay-pending (R115): step `resume` is recomputed one level higher, with the running results
kept from the step before it. -/
def chunkPending (o : Op) (i : Nat) (level resume : Nat) (running : List Val) (s : State) : State :=
  let n := ((zsiFrame s o.job).getD 0) + 1
  chunkModify o.queue o.dseq i (fun c =>
    { c with state := .replayPending, level := level + 1, resume, running, ofSeen := true,
             attempt := nextAttempt s o.job o.zop c.plan n }) s

/-- The level a stage runs at (R104, R118, R314). -/
def stageLevel (o : Op) (c : ChunkSt) : Lv :=
  if o.zop.cap0 then { k := 0, cap0 := true } else { k := min 3 (max c.level (inputLevel o c.plan.chunk)) }

/-- Forget the staged inputs of a chunk once it is done. TOPK keeps them for the chunks of the same segment. -/
def dropInputs (chunk : Nat) (o : Op) : Op :=
  if o.zop.opcode = 0x0A then o
  else { o with pieces := o.pieces.filter fun p =>
    p.chunk ≠ chunk || (match p.place with | .result _ => true | _ => false) }

/-- The root island has formed a chunk of a result (R148). The values of a bound sum are kept unrounded (R204). -/
def rootFormed (o : Op) (i : Nat) (c : ChunkSt) (k : Nat) (kept : List Val) (m : Made) (s : State) : State :=
  let n := (opGroup s o).nmem
  let chunk := c.plan.chunk
  let s := opModify o.queue o.dseq (fun o => dropInputs chunk (addMade n k chunk c m o)) s
  let s := chunkModify o.queue o.dseq i (fun c => { c with level := k, running := if o.zop.bound.isSome then kept else [] }) s
  let s := chunkDone o.queue o.dseq i s
  (parts n o chunk).foldl (fun s p => issuePart o chunk p (partBytes o m p) s) s

/-- The root island completes a floating-point sum's chunk, or finds that it overflows (R108, R110, R115). -/
def rootSumDone (o : Op) (i : Nat) (c : ChunkSt) (s : State) : State :=
  let n := (opGroup s o).nmem
  let chunk := c.plan.chunk
  if o.zop.arrival then
    let (vs, k, beyond) := arrivalSum o chunk fun _ => true
    rootFormed o i { c with ofSeen := c.ofSeen || decide (0 < k) } k vs (madeSum s o chunk k vs beyond) s
  else
    let lv := stageLevel o c
    match rootSum n o lv c with
    | (some (step, run), _, _) => chunkPending o i lv.k step run s
    | (none, vs, beyond) => rootFormed o i c lv.k vs (madeSum s o chunk lv.k vs beyond) s

/-- The node of each step that an island forwards: of its own node where it is aligned, else its local partial (R111,
R143). -/
def upNodes (o : Op) (lv : Lv) (chunk : Nat) (ords : List Nat) (node : Option (Nat × Nat)) : List (List Val × Bool) :=
  (List.range o.zop.nsteps).map fun step =>
    let t := placed o lv chunk step
    match node with
    | some (l, j) => stepNode lv (placedAt t) l j
    | none => stepNode lv (rankedAt ords t) (treeDepth ords.length) 0

/-- The value of each step that an island with arrival-order accumulation forwards, and the level of the highest (R110,
R123). -/
def upArrivals (o : Op) (chunk : Nat) : List (List Val × Bool) × Nat :=
  let rs := (List.range o.zop.nsteps).map fun step => arrivalSum o chunk fun p => p.step == step
  (rs.map fun r => (r.1, r.2.2), (rs.map (·.2.1)).foldl max 0)

/-- Where an island's partials stand: its own node where it is aligned, else a local partial at its lowest ordinal (R142,
R143). -/
def upPlace (o : Op) (chunk : Nat) (ords : List Nat) : Option (Nat × Nat) → NodeExt
  | some (l, j) => { upBase o chunk 0 with nodel := l, nodej := j }
  | none => { upBase o chunk 0 with nodej := ords.headD 0, pflags := 0x80 }

/-- Forward a value of each step at a level, and end the stage. -/
def upForward (o : Op) (i : Nat) (c : ChunkSt) (e : Entry) (place : NodeExt) (k : Nat) (nodes : List (List Val × Bool))
    (s : State) : State :=
  let s := nodes.zipIdx.foldl (fun s r => sendPartials o e { place with stepno := r.2 } k (chunkOf o c r.1.2) r.1.1 s) s
  chunkDone o.queue o.dseq i (opModify o.queue o.dseq (dropInputs c.plan.chunk) s)

/-- An island other than the root's completes a floating-point sum's chunk and forwards it, or finds that it
overflows (R110, R111, R115, R142, R143). DESIGN CHOICE (log entry 60): the root of R115 of a chunk on such an island is
the node of each step that it forwards, so it replays the whole chunk as soon as one of them has class OVF. -/
def upSumDone (o : Op) (i : Nat) (c : ChunkSt) (e : Entry) (s : State) : State :=
  let chunk := c.plan.chunk
  let ords := covered (opGroup s o).nmem (opEntries s o)
  let node := alignedNode (opGroup s o).nmem ords
  if node.isNone && jobIsDet s o.job then
    chunkDone o.queue o.dseq i (opModify o.queue o.dseq (dropInputs chunk) (sendTerms o e chunk s))
  else if o.zop.arrival then
    let (nodes, k) := upArrivals o chunk
    upForward o i { c with ofSeen := c.ofSeen || decide (0 < k) } e (upPlace o chunk ords node) k nodes s
  else
    let lv := stageLevel o c
    let nodes := upNodes o lv chunk ords node
    if lv.k < 3 ∧ nodes.any fun r => r.1.any fun v => v.cls == .ovf then chunkPending o i lv.k 0 [] s
    else upForward o i c e (upPlace o chunk ords node) lv.k nodes s

/-- A node that a replay keeps instead of recomputing it (R116). -/
def keptVal (v : Val) : Bool := v.cls == .fin && !v.ov

/-- What is placed in the tree that an island combines: by node, or by rank in a local partial (R106, R143). -/
def islandAt (t : IslandTree) (o : Op) (lv : Lv) (chunk step : Nat) : Nat → Nat → Option (List Val) :=
  match t.ranks with
  | none => placedAt (placed o lv chunk step)
  | some os => rankedAt os (placed o lv chunk step)

/-- The level of the pass that a replay of a step follows, where the step was computed before: every step on an island that
forwards, the one that overflowed on the root island (R115). -/
def passBefore (o : Op) (c : ChunkSt) (lv : Lv) (step : Nat) : Option Lv :=
  if c.ofSeen && decide (0 < lv.k) && (!o.home || step == c.resume) then some { lv with k := lv.k - 1 } else none

/-- Additions of C64 values at the nodes of a step's tree that an island combines, by neck (R34, R99, R428): every element, or on a
replay those that are not kept (R116). -/
def stepAdds (n : Nat) (es : List Entry) (t : IslandTree) (named : List NodePlan) (o : Op) (c : ChunkSt) (lv : Lv) (step : Nat) :
    List (Nat × Nat) :=
  let chunk := c.plan.chunk
  let at_ := fun (lv : Lv) => treeNode (combineVals lv) (islandAt t o lv chunk step)
  (combineNecks n es t named t.l t.j).filterMap fun x =>
    match at_ lv (x.2.1 - 1) (2 * x.2.2), at_ lv (x.2.1 - 1) (2 * x.2.2 + 1), passBefore o c lv step with
    | some a, some _, none => some (x.1, a.length)
    | some _, some _, some b => some (x.1, ((at_ b x.2.1 x.2.2).getD []).countP fun v => !keptVal v)
    | _, _, _ => none

/-- Additions of the roots of steps into the running results, from the first step of a pass up to and not including `stop`
(R108, R116, R428). -/
def runningAdds (n : Nat) (o : Op) (c : ChunkSt) (lv : Lv) (stop : Nat) : Nat :=
  let chunk := c.plan.chunk
  let first := if c.resume = 0 then 0 else match passBefore o c lv c.resume with
    | some b => (combineVals b c.running (stepNode b (placedAt (placed o b chunk c.resume)) (treeDepth n) 0).1).countP fun v => !keptVal v
    | none => chunkLen o.zop chunk
  first + (stop - c.resume - 1) * chunkLen o.zop chunk

/-- Additions of arrival-order accumulation: every contribution to an element but the first (R110). -/
def arrivalAdds (o : Op) (chunk : Nat) : Nat :=
  let lens := fun (keep : Piece → Bool) =>
    ((o.pieces.filter fun p => p.chunk == chunk && keep p && (match p.place with | .result _ => false | _ => true)).map (·.len)).sum - chunkLen o.zop chunk
  if o.home then lens fun _ => true else ((List.range o.zop.nsteps).map fun st => lens fun p => p.step == st).sum

/-- Additions of C64 values that a pass over a chunk takes, each with its neck (R34, R99, R428): the steps from the one it resumes at,
up to one that overflows. An island that forwards terms as they came adds none. -/
def addsOf (s : State) (o : Op) (c : ChunkSt) : List (Nat × Nat) :=
  let n := (opGroup s o).nmem
  let es := opEntries s o
  let lv := stageLevel o c
  match islandTree (jobIsDet s o.job) true n es with
  | none => []
  | some t =>
    if o.zop.arrival then [(c.plan.neck, arrivalAdds o c.plan.chunk)]
    else
      let named := (o.chunks.filter fun x => x.plan.kind == 0 && x.plan.chunk == c.plan.chunk).flatMap (·.plan.nodes)
      let stop := if o.home then (match (rootSum n o lv c).1 with | some x => x.1 + 1 | none => o.zop.nsteps) else o.zop.nsteps
      ((List.range (stop - c.resume)).flatMap fun i => stepAdds n es t named o c lv (c.resume + i)) ++
      if o.home then [(c.plan.neck, runningAdds n o c lv stop)] else []

/-- A later stage of this island combines the same chunk. -/
def laterStage (o : Op) (i : Nat) (c : ChunkSt) : Bool :=
  (o.chunks.drop (i + 1)).any fun x => x.plan.kind == 0 && x.plan.chunk == c.plan.chunk

/-- A stage of a collective that combines contributions completes: the last of the chunk's forms the result on the
root island, and forwards it up on the others (R142, R146, R148). -/
def combineDone (o : Op) (i : Nat) (c : ChunkSt) (s : State) : State :=
  let sum := isFloatSum o.zop
  let sends := match islandTree (jobIsDet s o.job) sum (opGroup s o).nmem (opEntries s o) with
    | some t => crossSends (opGroup s o).nmem (opEntries s o) t o.zop c.plan.nodes
    | none => []
  let s := sends.foldl (fun s x => countCross x.1 x.2 o.job s) s
  if laterStage o i c then chunkDone o.queue o.dseq i s
  else
    let s := if sum then (addsOf s o c).foldl (fun t x => count 0x14 x.1 x.2 (opCtx o) t) s else s
    let s := match upEntry (opEntries s o) with
      | some e =>
        if sum then upSumDone o i c e s
        else chunkDone o.queue o.dseq i (opModify o.queue o.dseq (dropInputs c.plan.chunk) (sendTerms o e c.plan.chunk s))
      | none =>
        if sum then rootSumDone o i c s
        else
          let (m, k) := madeChunk s o (opGroup s o).nmem c.plan.chunk
          rootFormed o i { c with ofSeen := c.ofSeen || decide (0 < k) } k [] m s
    settle (endCheck o.queue o.dseq s)

/-- A stage that delivers staged results completes (R147, R149). -/
def deliverDone (o : Op) (i : Nat) (c : ChunkSt) (s : State) : State :=
  let chunks := if (copyCount o.zop).isSome then (List.range (c.plan.hi - c.plan.lo)).map (· + c.plan.lo) else [c.plan.chunk]
  let s := chunks.foldl (fun s k => deliverStaged o.queue o.dseq k s) s
  settle (endCheck o.queue o.dseq (chunkDone o.queue o.dseq i s))

/-! ## What a stage waits for (R54, R146, R147) -/

/-- An earlier stage of the same chunk on this island is done. -/
def earlierDone (o : Op) (i : Nat) (c : ChunkSt) : Bool :=
  (o.chunks.take i).all fun x => x.plan.kind ≠ 0 || x.plan.chunk ≠ c.plan.chunk || x.state == .done

/-- The chunks that hold the segments which end in a chunk of TOPK are staged (R146). -/
def segmentsStaged (n : Nat) (es : List Entry) (o : Op) (chunk : Nat) : Bool :=
  let size := 2 ^ o.zop.segl
  let first := (chunkSpan o.zop chunk).1 / size * size / chunkElems o.zop
  (List.range (chunk - first)).all fun k => chunkStaged n es o (first + k)

/-- Every input of a stage that combines contributions is staged (R54). -/
def combineStaged (s : State) (o : Op) (i : Nat) (c : ChunkSt) : Bool :=
  let es := opEntries s o
  let n := (opGroup s o).nmem
  chunkStaged n es o c.plan.chunk && earlierDone o i c &&
  (o.zop.opcode ≠ 0x0A || !o.home || segmentsStaged n es o c.plan.chunk)

/-- Every result that a stage delivers has come (R147). -/
def deliverStagedAll (s : State) (o : Op) (c : ChunkSt) : Bool :=
  let es := opEntries s o
  let n := (opGroup s o).nmem
  let whole := fun (chunk : Nat) => (parts n o chunk).all fun p =>
    !(es.any fun e => e.kind ≠ 4 && wants n es p e) ||
    covers p.off p.len ((stagedResults o chunk).filterMap fun x => match x.place with
      | .result b => if b = p.block then some (x.off, x.len) else none
      | _ => none)
  if (copyCount o.zop).isSome then ((List.range (c.plan.hi - c.plan.lo)).map (· + c.plan.lo)).all whole else whole c.plan.chunk

end Sys2Proof.Machine
end

