-- ==== Sys2Proof/Machine/Sync.lean ====
section
/-! DEFINITION. The sync rows SYNC_ADD, SYNC_SET, CLRFAIL, WAIT and WAIT_TIMEOUT (R281 to R291, R297). -/

set_option Elab.async false

namespace Sys2Proof.Machine

/-- A sync message (R282): the fields of its 32 bytes, `rsvd` whether a reserved field of the layout its
SOP selects is non-zero. -/
structure SyncMsg where
  ver    : Nat
  sop    : Nat
  ctr    : Nat
  job    : Nat
  tag    : BitVec 32
  tmo    : Nat
  retOff : Nat
  value  : BitVec 64
  rsvd   : Bool
  deriving DecidableEq, Repr

/-- Read a sync message (R282). -/
def syncParse (b : List Byte) : SyncMsg :=
  let sop := fld b 1 1
  let fixed := fld b 3 2 ≠ 0 || fld b 23 22 ≠ 0
  let update := fld b 21 8 ≠ 0
  { ver := fld b 0 0, sop, ctr := fld b 5 4, job := fld b 7 6, tag := BitVec.ofNat 32 (fld b 11 8),
    tmo := fld b 15 12, retOff := fld b 21 16, value := BitVec.ofNat 64 (fld b 31 24),
    rsvd := fixed || (sop ≠ 3 && update) || (sop == 4 && fld b 31 24 ≠ 0) }

/-- The groups of a job on the island: those its queues and its loaded ZSIs name. -/
def jobGroups (s : State) (j : Nat) : List Nat :=
  (s.queues.filter fun e => e.2.job == j).map (·.2.group) ++
  s.zsis.flatMap fun z => match z.2 with
    | some z => if z.job = j then z.body.ops.map (·.group) else []
    | none => []

/-- A chip may send sync messages to the counters of a job (R281). -/
def syncSender (s : State) (j chip : Nat) : Bool :=
  s.ctl.id.managers.any (fun m => m.valid && m.chip == chip) ||
  s.queues.any (fun e => e.2.job == j && e.2.state ≠ .absent && e.2.poster == chip) ||
  (jobGroups s j).any fun g => (members (entriesIn s.chord.cur g)).any fun e => e.chip == chip

/-- A job is stopped and its number not yet used again (R296 step 1, R297). -/
def jobStopped (s : State) (j : Nat) : Bool := (jobGet s j).stopped.isSome

/-- What checks 1, 3, 4 and 5 of R283 find: the STATUS and REASON of the first that fails. -/
def syncFailure (s : State) (m : SyncMsg) : Option (Nat × Nat) :=
  if m.ver ≠ 2 then some (9, 0)
  else if m.rsvd then some (5, 1)
  else if (ctrGet s m.ctr).owner ≠ some m.job then some (5, 3)
  else if m.sop = 3 ∧ (1000000 < m.tmo ∨ m.retOff % 32 ≠ 0) then some (5, 4)
  else none

/-- A message that has passed every check takes effect (R284, R287). -/
def syncEffect (m : SyncMsg) (chip : Nat) (s : State) : State :=
  match m.sop with
  | 1 => syncAddApply m.ctr m.job chip m.value s
  | 2 => syncSetApply m.ctr m.job chip m.value s
  | 3 => syncWaitApply m.ctr m.job chip m.retOff m.tmo m.tag m.value s
  | _ => syncClrfailApply m.ctr m.job s

/-- A message from a permitted sender: its checks, then its effect; a WAIT that fails a check is released
at once, an update dropped (R283). -/
def syncMessage (m : SyncMsg) (chip : Nat) (s : State) : State :=
  match syncFailure s m with
  | none => syncEffect m chip s
  | some (st, r) =>
    if m.sop = 3 then sendRelease st r m.ctr m.job m.tag (ctrGet s m.ctr) chip m.retOff s
    else syncDrop m.ctr m.job s

/-- The arrival is a WRITE to the sync target. -/
def isSync (a : Arrival) : Bool := a.pkt.ext == .write syncOff

/-- SOP values of R282. -/
def sopDefined (sop : Nat) : Bool := decide (1 ≤ sop ∧ sop ≤ 4)

/-- A sync message of one SOP arrives. A payload that is not 32 bytes or has an undefined SOP is dropped
under any of the rows (R283); a message of another SOP is another row's. -/
def syncRow (sop : Nat) (a : Arrival) (s : State) : State :=
  let m := syncParse a.pkt.payload
  let bad := a.pkt.payload.length ≠ 32 || !sopDefined m.sop
  if !isSync a || (!bad && m.sop ≠ sop) then s
  else onReceive a s fun s =>
    if a.pkt.hdr.tc ≠ 1 then protErr a s
    else if bad || jobStopped s m.job then commit a (syncDrop m.ctr m.job s)
    else
      let job := ((ctrGet s m.ctr).owner).getD m.job
      if !syncSender s job a.pkt.hdr.src then protErr a s
      else syncMessage m a.pkt.hdr.src (commit a s)

/-- SYNC_ADD (R284, R286). -/
def execSyncAdd (a : Arrival) (s : State) : Host.Outcome State Fault Refusal := .next (syncRow 1 a s)

/-- SYNC_SET (R284, R285). -/
def execSyncSet (a : Arrival) (s : State) : Host.Outcome State Fault Refusal := .next (syncRow 2 a s)

/-- CLRFAIL (R284). -/
def execClrfail (a : Arrival) (s : State) : Host.Outcome State Fault Refusal := .next (syncRow 4 a s)

/-- WAIT (R287, R290). -/
def execSyncWait (a : Arrival) (s : State) : Host.Outcome State Fault Refusal := .next (syncRow 3 a s)

/-- A held WAIT of a counter and tag whose TMO has expired (R290). -/
def waitDue (s : State) (ctr : Nat) (tag : BitVec 32) (w : Waiter) : Bool :=
  w.ctr == ctr && w.tag == tag && (match w.expiry with | some t => decide (t ≤ s.time.gcount) | none => false)

/-- WAIT_TIMEOUT (R289): the held WAIT of a counter and TAG whose TMO has expired is released with
DISCARDED 0x10. -/
def execWaitTimeout (ctr : Nat) (tag : BitVec 32) (s : State) : Host.Outcome State Fault Refusal :=
  .next (releaseIf (waitDue s ctr tag) 1 0x10 s)

end Sys2Proof.Machine
end

