-- ==== Sys2Proof/Machine/Wgrad.lean ====
section
/-! DEFINITION. The weight-gradient engine: stream writes, tile steps and slices, chunk tiles across islands, running
tiles, levels, masks and fences (R168 to R202). -/

set_option Elab.async false

namespace Sys2Proof.Machine

/-! ## Stream writes (R177 to R181, R202, R296) -/

/-- The chip is a member of the group on this island. -/
def streamSender (s : State) (g chip : Nat) : Bool := (members (entriesIn s.chord.cur g)).any fun e => e.chip == chip

/-- The operations in flight that use a tensor's streams of a step. -/
def streamOps (s : State) (job w : Nat) (step : BitVec 32) : List Op :=
  s.ops.filter fun o => o.job == job && streamTensor o.zop == some w && decide (o.desc.step = step) && o.opened && o.status.isNone

/-- The notices STREAM_FAULT and STREAM_EARLY (R276). -/
def streamNotice (kind sev g w : Nat) (step : BitVec 32) (chip : Nat) : Notice :=
  { kind, sev, group := g, detail := le 2 w ++ le 4 step.toNat ++ le 2 chip }

/-- A stream write of another epoch (R181, R141): dropped, and the operation of its step ends, now or when it starts. -/
def streamForeign (a : Arrival) (g w : Nat) (step : BitVec 32) (s : State) : State :=
  let e := a.pkt.hdr.cepoch
  let job := a.pkt.hdr.job
  let s := commit a (count 0x36 (linkNeck a.link) 1 { job := some job, group := some g } s)
  let os := streamOps s job w step
  let s := streamModify job w (fun t => { t with foreign := t.foreign ++ [{ step, epoch := e, told := os.map fun o => (o.slot, o.zop.opid) }] }) s
  settle (os.foldl (fun s o => notice (epochNotice e (opEpoch s o) (some o)) (discardOp 0 o s)) s)

/-- The write carries an epoch that the operations of its step do not open under. -/
def streamEpochBad (s : State) (job w : Nat) (step : BitVec 32) (e : BitVec 8) : Bool :=
  match streamOps s job w step with
  | [] => (chordAt s e).isNone
  | os => os.any fun o => decide (opEpoch s o ≠ e)

/-- The WGRAD of an earlier step with ORDER 1 has completed with OK: on an island other than the root's, which is not told, the first
stream write of a later step shows it, since a member waits for that completion (R198; DESIGN CHOICE, log entry 19). -/
def orderOver (s : State) (job w : Nat) (step : BitVec 32) : Bool :=
  s.ops.any fun o => keepsForLevel o && o.job == job && decide (o.desc.step = step) && match o.zop.extra with
    | .wgrad g => g.wtensor == w && g.order == 1
    | _ => false

/-- What an island keeps of WGRADs of ORDER 1 of a tensor goes once a later step shows that they are over (R198). -/
def dropOver (job w : Nat) (step : BitVec 32) (s : State) : State :=
  { s with ops := s.ops.filter fun o => !(keepsForLevel o && o.job == job && decide (o.desc.step.toNat < step.toNat) && match o.zop.extra with
      | .wgrad g => g.wtensor == w && g.order == 1
      | _ => false) }

/-- A stream write into a half (R179, R180). -/
def streamPut (a : Arrival) (g w kind : Nat) (step : BitVec 32) (off neck : Nat) (t : StreamSet) (s : State) : State :=
  let job := a.pkt.hdr.job
  let chip := a.pkt.hdr.src
  let bs := a.pkt.payload
  let c : Ctx := { job := some job, group := some g }
  let h := (t.halves[halfIndex t step]?).getD {}
  let held := if h.held && h.step ≠ some step then h.step.filter fun x => !(decide (x.toNat < step.toNat) && orderOver s job w x) else none
  match held with
  | some x =>
    if x.toNat < step.toNat then
      let s := streamModify job w (fun t => { t with broken := t.broken ++ [step] }) (commit a (count 0x3B neck 1 c s))
      notice (streamNotice 7 2 g w step chip) s
    else commit a (count 0x3C neck 1 c s)
  | none =>
    let put := fun (t : StreamSet) =>
      { t with halves := t.halves.modify (halfIndex t step) (halfWrite s.freeCtr step a.pkt.hdr.cepoch chip kind off bs) }
    let s := countCopiesOf (tensorDefs s job w) (linkNeck a.link) kind off bs.length job s
    let s := commit a { dropOver job w step (streamModify job w put s) with freeCtr := s.freeCtr + bs.length }
    if kind = 3 then settle (stashChecks job w step s) else s

/-- STREAM (R177 to R181): bytes of X, dZ or a mask for a step's half. -/
def execStream (a : Arrival) (s : State) : Host.Outcome State Fault Refusal :=
  .next (match a.pkt.ext with
    | .stream g w kind step off =>
      onReceive a s fun s =>
        let job := a.pkt.hdr.job
        if jobStopped s job then lateDrop a s
        else if !streamSender s g a.pkt.hdr.src then protErr a s
        else
          let out := fun (neck : Nat) (s : State) =>
            notice (streamNotice 6 1 g w step a.pkt.hdr.src)
              (commit a (count 0x3A neck 1 { job := some job, group := some g } s))
          match tensorDef s job w, streamSet s job w with
          | some (_, d), some t =>
            if regionSize d kind < off + a.pkt.payload.length then out d.neck s
            else if streamEpochBad s job w step a.pkt.hdr.cepoch then streamForeign a g w step s
            else streamPut a g w kind step off d.neck t s
          | _, _ => out 0 s
    | _ => s)

/-! ## Products (R95 to R97, R102, R103, R171, R172, R177) -/

/-- Element of a row of X or dZ. -/
def rowElem (c : Nat) (cs : List Host.Cell) (row f : Nat) : Elem :=
  if isMx c then readElem c (Table.range 0 cs (row + f / 1024 * mxGroupBytes c) (mxGroupBytes c)) (f % 1024)
  else readElem c (Table.range 0 cs (row + f * elemBytes c) (elemBytes c)) 0

/-- Where the bytes of the 64 features of a panel stand in a row: start and length of each range (R68, R177). -/
def panelBytes (c row f : Nat) : List (Nat × Nat) :=
  if isMx c then
    let g := row + f / 1024 * mxGroupBytes c
    let b := f % 1024 / 32
    [(g + b, 2), (g + 32 + b * (4 * elemBits c), 8 * elemBits c)]
  else [(row + f * elemBytes c, 64 * elemBytes c)]

/-- Offset of an X element by feature and token (XLAYOUT 1). -/
def featureOffset (g : WgradDef) (b t f : Nat) : Nat := ((b * g.kin + f) * g.tok + t) * elemBytes g.xfmt

/-- X[o, b, t, f] in a member's region. -/
def xElem (g : WgradDef) (cs : List Host.Cell) (b t f : Nat) : Elem :=
  if g.xlayout = 1 then rowElem g.xfmt cs (featureOffset g b t f) 0
  else rowElem g.xfmt cs ((b * g.tok + t) * rowX g) f

/-- dZ[o, b, t, f] in a member's region. -/
def dElem (g : WgradDef) (cs : List Host.Cell) (b t f : Nat) : Elem := rowElem g.dfmt cs ((b * g.tok + t) * rowD g) f

/-- The mask keeps (o, b, t, f): there is no mask, or its bit is 1. -/
def maskKeeps (g : WgradDef) (cs : List Host.Cell) (b t f : Nat) : Bool :=
  g.mask = 0 || bit (Table.get (0 : Byte) cs ((b * g.tok + t) * rowM g + f / 8)).toNat (f % 8)

/-- The streams of one member and where a pass reads them: X, dZ and mask bytes, micro-batch, first token. -/
structure PassSrc where
  x  : List Host.Cell
  d  : List Host.Cell
  m  : List Host.Cell
  b  : Nat
  t0 : Nat

/-- The elements of 64 features of a panel at the 32 tokens of a pass, token by token. -/
def panel (p : PassSrc) (f0 : Nat) (elem : Nat → Nat → Elem) : List (List Elem) :=
  (List.range 32).map fun k => (List.range 64).map fun i => elem (p.t0 + k) (f0 + i)

/-- The 32 products of element (i, j) of a tile in a pass, in ascending depth, from the panels of X and dZ and the mask rows:
+0 where it is masked, without looking at its operands (R172). -/
def passProducts (xs ds : List (List Elem)) (ms : List (List Bool)) (i j : Nat) : List Elem :=
  (List.range 32).map fun k =>
    if (ms.getD k []).getD j true then eprod ((xs.getD k []).getD i (.fin {})) ((ds.getD k []).getD j (.fin {})) else .fin {}

/-- The format pair takes direct products (R174). -/
def directPair (g : WgradDef) : Bool := decide (g.xfmt ≤ 2) || decide (g.dfmt ≤ 2)

/-- FP8 and MX element formats. -/
def narrowFmt (c : Nat) : Bool := c == 5 || c == 6 || isMx c

/-- The ratio of the pair's rate to 32 (R192). -/
def rateRatio (g : WgradDef) : Nat :=
  if directPair g then 1 else if narrowFmt g.xfmt && narrowFmt g.dfmt then 12 else 6

/-- A chunk-tile element after one more pass (R173 steps 2 and 3, R103 in wide mode). -/
def stepElem (lv : Lv) (direct : Bool) (acc : Option Val) (ps : List Elem) : Option Val :=
  if direct then ps.foldl (fun a p => combineOpt (combine lv) a (some (directProduct lv p))) acc
  else combineOpt (combine lv) acc (some (p22Pass lv ps))

/-! ## Tile steps and slices (R173, R187, R188, R192) -/

/-- Row and column panel of a tile of the block. -/
def tilePanels (g : WgradDef) (t : Nat) : Nat × Nat := (g.rowp0 + t / g.ncolp, g.colp0 + t % g.ncolp)

/-- One pass of every element of a tile. -/
def tileStep (lv : Lv) (g : WgradDef) (p : PassSrc) (t : Nat) (acc : List Val) : List Val :=
  let (r, k) := tilePanels g t
  let direct := directPair g || decide (0 < lv.k)
  let xs := panel p (64 * r) (xElem g p.x p.b)
  let ds := panel p (64 * k) (dElem g p.d p.b)
  let ms := (List.range 32).map fun i => (List.range 64).map fun j => maskKeeps g p.m p.b (p.t0 + i) (64 * k + j)
  let cells := acc ++ List.replicate (4096 - acc.length) {}
  cells.mapIdx fun e v =>
    (stepElem lv direct (if acc.isEmpty then none else some v) (passProducts xs ds ms (e / 64) (e % 64))).getD {}

/-- Where pass `q` lies: member ordinal, micro-batch and first token (R171, R173). -/
def passPlace (g : WgradDef) (q : Nat) : Nat × Nat × Nat :=
  let per := g.nmb * g.tok
  (32 * q / per, 32 * q % per / g.tok, 32 * q % g.tok)

/-- The streams that pass `q` reads. -/
def passSrc (s : State) (o : Op) (g : WgradDef) (h : Half) (q : Nat) : PassSrc :=
  let (ord, b, t0) := passPlace g q
  let chip := (((members (opEntries s o)).find? fun e => e.ord == ord).map (·.chip)).getD 0
  let e := opEpoch s o
  { x := halfBytes h e chip 1, d := halfBytes h e chip 2, m := halfBytes h e chip 3, b, t0 }

/-- Parts of a slice: one, or in wide mode W, as far as there are tile steps for them (R192). -/
def partCount (g : WgradDef) (k n : Nat) : Nat := if k = 0 then 1 else max 1 (min (rateRatio g) n)

/-- The tile steps of part `i` of a slice: parts of equal count, the last with what remains (R192; log entry 62). -/
def partSteps (g : WgradDef) (k i : Nat) (p : ChunkPlan) : List (Nat × Nat) :=
  let steps := sliceSteps p
  let parts := partCount g k steps.length
  let size := steps.length / parts
  if i + 1 < parts then (steps.drop (i * size)).take size else steps.drop (i * size)

/-- Run tile steps in order until one gives an element of class OVF: the tiles, the steps run, and whether one did. -/
def tileRun (lv : Lv) (g : WgradDef) (src : Nat → PassSrc) :
    Nat → Table (List Val) → List (Nat × Nat) → Table (List Val) × Nat × Bool
  | n, ts, [] => (ts, n, false)
  | n, ts, (q, t) :: r =>
    let new := tileStep lv g (src q) t (Table.get [] ts t)
    let ts := Table.put [] ts t new
    if lv.k < 3 ∧ new.any fun v => v.cls == .ovf then (ts, n + 1, true) else tileRun lv g src (n + 1) ts r

/-- The tiles of a chunk that this island computes, or the running tiles. -/
def tilesOf (o : Op) (c : Option Nat) : Option TileSet := o.tiles.find? fun t => t.chunk == c

/-- Put tiles in place. -/
def putTiles (t : TileSet) (o : Op) : Op := { o with tiles := (o.tiles.filter fun x => x.chunk ≠ t.chunk) ++ [t] }

/-- Drop the tiles of a chunk. -/
def dropTiles (c : Nat) (o : Op) : Op := { o with tiles := o.tiles.filter fun x => x.chunk ≠ some c }

/-- The level of the running tiles: the entry level of the next chunk (R191). -/
def runningLevel (o : Op) : Nat := ((tilesOf o none).map (·.level)).getD 0

/-- The level a chunk computed here has, or is to have at least (R191). -/
def chunkLevel (o : Op) (chunk : Nat) : Nat := Table.get 0 o.levels chunk

/-- The level a chunk runs at: its own, and not below the running tiles' (R191). -/
def runLevel (o : Op) (chunk : Nat) : Nat := max (chunkLevel o chunk) (runningLevel o)

/-- Set the level of a chunk. -/
def setLevel (chunk k : Nat) (o : Op) : Op := { o with levels := Table.put 0 o.levels chunk k }

/-- The chunks that a slice has tile steps of. -/
def sliceChunks (g : WgradDef) (c : ChunkSt) : List Nat :=
  if c.plan.kind = 1 then ((c.plan.runs.map fun r => passChunk g r.pass).eraseDups).filter fun k => !c.splitOff.contains k else []

/-- A slice has tile steps of a chunk. -/
def isSliceOf (g : WgradDef) (chunk : Nat) (c : ChunkSt) : Bool := (sliceChunks g c).contains chunk

/-- The tile steps of a chunk in a slice that has those of others too run apart from them from now on (R192). -/
def splitSlices (g : WgradDef) (chunk : Nat) (o : Op) : Op :=
  let shared := fun (c : ChunkSt) => isSliceOf g chunk c && decide (1 < (sliceChunks g c).length)
  let alone := fun (c : ChunkSt) =>
    { c with plan := { c.plan with runs := c.plan.runs.filter fun r => passChunk g r.pass == chunk }, splitOff := [], resume := 0 }
  { o with chunks := (o.chunks.map fun c => if shared c then { c with splitOff := c.splitOff ++ [chunk] } else c) ++
             (o.chunks.filter shared).map alone }

/-- A chunk becomes replay-pending (R192): its tiles are discarded, and every slice of it runs again at a level. -/
def wgradPending (q : Nat) (d : BitVec 32) (chunk level : Nat) (of : Bool) (s : State) : State :=
  let again := fun (o : Op) (c : ChunkSt) =>
    { c with state := .replayPending, resume := 0, ofSeen := c.ofSeen || of,
             attempt := nextAttempt s o.job o.zop c.plan ((zsiFrame s o.job).getD 0 + 1) }
  let pend := fun (o : Op) => match wgradOf o.zop with
    | none => o
    | some g =>
      let o := setLevel chunk level (splitSlices g chunk (dropTiles chunk o))
      { o with flags := { o.flags with of := o.flags.of || of },
               chunks := o.chunks.map fun c => if isSliceOf g chunk c then again o c else c }
  opModify q d pend s

/-- Forward a chunk's tiles toward the root island, tile by tile (R190). -/
def sendTiles (o : Op) (e : Entry) (chunk : Nat) (t : TileSet) (s : State) : State :=
  let ofSeen := match wgradOf o.zop with | some g => o.chunks.any fun c => isSliceOf g chunk c && c.ofSeen | none => false
  t.tiles.foldl (fun s p =>
    let base : NodeExt := { upBase o chunk 0 with eoff := 4096 * p.1, pflags := 0x20 }
    sendPartials o e base t.level ofSeen p.2 s) s

/-- The slices of a chunk are all done: its tiles are whole on the root island, and forwarded on the others. -/
def wgradChunkEnd (q : Nat) (d : BitVec 32) (chunk : Nat) (s : State) : State :=
  withOp q d (fun o s => match wgradOf o.zop, tilesOf o (some chunk) with
    | some g, some t =>
      if !(o.chunks.filter (isSliceOf g chunk)).all (fun c => c.state == .done) then s
      else match upEntry (opEntries s o) with
      | none => opModify q d (putTiles { t with full := true }) s
      | some e => wgradBelow q d (sendTiles o e chunk t (opModify q d (dropTiles chunk) s))
    | _, _ => s) s

/-- The level that decides the parts of a slice: the highest of its chunks. -/
def sliceLevel (o : Op) (g : WgradDef) (c : ChunkSt) : Nat := ((sliceChunks g c).map (runLevel o)).foldl max 0

/-- The tile steps of the part of a slice that comes next. -/
def partOf (o : Op) (g : WgradDef) (c : ChunkSt) : List (Nat × Nat) :=
  (partSteps g (sliceLevel o g c) c.resume c.plan).filter fun x => !c.splitOff.contains (passChunk g x.1)

/-- Additions of C64 values that tile steps take (R173, R428): one for each element and pass, or product, but for the first of an empty
tile. -/
def tileAdds (g : WgradDef) (k : Nat) (ts : Table (List Val)) (steps : List (Nat × Nat)) : Nat :=
  let fresh := (steps.map (·.2)).eraseDups.filter fun t => (Table.get [] ts t).isEmpty
  4096 * (steps.length * (if directPair g ∨ 0 < k then 32 else 1) - fresh.length)

/-- The tile steps of one chunk in a part run (R173, R187): the chunk becomes replay-pending as soon as one gives an element of
class OVF (R192). -/
def runPart (g : WgradDef) (h : Half) (steps : List (Nat × Nat)) (q : Nat) (d : BitVec 32) (chunk : Nat) (s : State) : State :=
  withOp q d (fun o s =>
    let k := runLevel o chunk
    let set := (tilesOf o (some chunk)).getD { chunk := some chunk }
    let mine := steps.filter fun x => passChunk g x.1 == chunk
    let (tiles, ran, ovf) := tileRun { k } g (passSrc s o g h) 0 set.tiles mine
    let s := count 0x14 g.neck (tileAdds g k set.tiles (mine.take ran)) (opCtx o) (count 0x15 g.neck ran (opCtx o) s)
    if ovf then wgradPending q d chunk (k + 1) true s
    else opModify q d (fun o => setLevel chunk k (putTiles { set with level := k, tiles := tiles } o)) s) s

/-- A part of a slice has run, where no replay began: the next part follows in the next retry frame, or the slice is done. -/
def partDone (g : WgradDef) (q : Nat) (d : BitVec 32) (i : Nat) (s : State) : State :=
  withOp q d (fun o s => match o.chunks[i]? with
    | none => s
    | some c =>
      if c.state ≠ .committed then s
      else if c.resume + 1 < partCount g (sliceLevel o g c) (sliceSteps c.plan).length then
        let next := nextAttempt s o.job o.zop c.plan ((zsiFrame s o.job).getD 0 + 1)
        chunkModify q d i (fun c =>
          { c with resume := c.resume + 1, attempt := next, state := if 0 < c.replays then .replayPending else .slipped }) s
      else chunkDone q d i s) s

/-- A part of a slice completes (R187, R192). -/
def sliceDone (o : Op) (i : Nat) (c : ChunkSt) (s : State) : State :=
  match wgradOf o.zop, (streamSet s o.job ((streamTensor o.zop).getD 0)).bind fun t => halfOf t o.desc.step with
  | some g, some h =>
    let steps := partOf o g c
    let cs := (steps.map fun x => passChunk g x.1).eraseDups
    let s := countRead g.neck (stepReads o.zop g steps) o.job s
    let s := cs.foldl (fun s k => runPart g h steps o.queue o.dseq k s) s
    let s := partDone g o.queue o.dseq i s
    settle (cs.foldl (fun s k => wgradChunkEnd o.queue o.dseq k s) s)
  | _, _ => s

/-- The stream units that a tile step reads are present (R183, R188). -/
def stepStaged (g : WgradDef) (p : PassSrc) (t : Nat) : Bool :=
  let (r, k) := tilePanels g t
  let has := fun (cs : List Host.Cell) (kind : Nat) (x : Nat × Nat) => unitsPresent cs (regionSize g kind) x.1 (x.1 + x.2)
  (List.range 32).all fun i =>
    let row := p.b * g.tok + p.t0 + i
    (g.xlayout == 1 || (panelBytes g.xfmt (row * rowX g) (64 * r)).all (has p.x 1)) &&
    (panelBytes g.dfmt (row * rowD g) (64 * k)).all (has p.d 2) &&
    (g.mask == 0 || has p.m 3 (row * rowM g + 8 * k, 8)) &&
    (g.xlayout ≠ 1 || (List.range 64).all fun f =>
      has p.x 1 (featureOffset g p.b p.t0 (64 * r + f), 32 * elemBytes g.xfmt))

/-- The earlier tile steps of the tiles that a part works on are done, in frames before this one (R187). -/
def earlierSlices (s : State) (o : Op) (g : WgradDef) (i : Nat) (c : ChunkSt) : Bool :=
  (partOf o g c).all fun x => o.chunks.zipIdx.all fun y =>
    y.2 == i || (y.1.state == .done && decide (y.1.committedIn < frameNo s)) ||
    !(isSliceOf g (passChunk g x.1) y.1 &&
      (sliceSteps y.1.plan).any fun w => w.2 == x.2 && decide (w.1 < x.1) && passChunk g w.1 == passChunk g x.1)

/-- The transposing slice of one of a slice's strings serves another operation in this frame, or has served it: also where a part has
run after which the slice waits again (R19, R192). -/
def sliceTaken (s : State) (o : Op) (c : ChunkSt) : Bool :=
  s.ops.any fun x => !opIs o.queue o.dseq x && x.chunks.any fun y =>
    y.plan.kind == 1 && y.state ≠ .waiting && y.committedIn == frameNo s &&
    y.plan.strings.any fun k => c.plan.strings.contains k

/-- Every input of a slice is staged, and its tiles and transposing slices are its own (R15, R19, R54, R183, R187, R188). -/
def sliceStaged (s : State) (o : Op) (i : Nat) (c : ChunkSt) : Bool :=
  match wgradOf o.zop, (streamSet s o.job ((streamTensor o.zop).getD 0)).bind fun t => halfOf t o.desc.step with
  | some g, some h =>
    ownsTiles s o && !sliceTaken s o c && earlierSlices s o g i c &&
    (partOf o g c).all fun x => stepStaged g (passSrc s o g h x.1) x.2
  | _, _ => false

/-! ## Levels (R191) -/

/-- Send a LEVEL message to the islands below that compute a chunk after `c`. -/
def sendLevels (o : Op) (g : WgradDef) (k c : Nat) (s : State) : State :=
  let es := opEntries s o
  let n := (opGroup s o).nmem
  let later := (downOnce es).filter fun e => (islandOrds n es e).any fun x => decide ((c + 1) * g.chm ≤ x)
  sendCtrls later o.job o.group o.queue o.dseq (opEpoch s o) 0x03 (BitVec.ofNat 64 (c * 2 ^ 32 + k)) [] s

/-- The chunk has tile steps that ran. -/
def chunkBegun (o : Op) (g : WgradDef) (chunk : Nat) : Bool :=
  (tilesOf o (some chunk)).isSome || o.chunks.any fun c => isSliceOf g chunk c && (c.state == .done || decide (0 < c.resume))

/-- The level has risen to `k` after chunk `c`: later chunks computed or begun below it are computed again, the others
start at it, and forwarded tiles below it are dropped (R191). -/
def raiseLater (q : Nat) (d : BitVec 32) (k c : Nat) (s : State) : State :=
  withOp q d (fun o s => match wgradOf o.zop with
    | none => s
    | some g =>
      let later := (islandChunks o.zop g).filter fun x => decide (c < x)
      let s := opModify q d (fun o => { o with pieces := o.pieces.filter fun p => p.chunk ≤ c || decide (k ≤ p.level) }) s
      later.foldl (fun s x =>
        if k ≤ chunkLevel o x then s
        else if chunkBegun o g x then wgradPending q d x k false s
        else opModify q d (setLevel x k) s) s) s

/-- LEVEL (R191): the island's later chunks run at the level, and the message goes on down, unless the operation has been discarded
(R201). -/
def execLevel (a : Arrival) (s : State) : Host.Outcome State Fault Refusal :=
  .next (ctrlRow 0x03 a s fun _ q d arg s =>
    let c := arg.toNat / 2 ^ 32
    let k := arg.toNat % 4
    withOp q d (fun o s => match wgradOf o.zop with
      | some g => if o.home || !o.opened || (o.status.isSome && !keepsForLevel o) then s else raiseLater q d k c (sendLevels o g k c s)
      | none => s) s)

/-! ## Chunk tiles from other islands (R190, R191) -/

/-- Pass a chunk tile on toward the root island, unchanged. -/
def passTile (a : Arrival) (o : Op) (s : State) : State :=
  match upEntry (opEntries s o) with
  | some e => sendOp o e a.pkt.hdr.tc a.pkt.ext a.pkt.payload (.forward o.queue o.dseq) s
  | none => s

/-- The root island holds a chunk tile until the chunks before its own are combined; one below its entry level is
dropped, and one of a higher level replaces what came before it. -/
def takeTile (a : Arrival) (x : NodeExt) (o : Op) (s : State) : State :=
  match wgradOf o.zop with
  | none => commit a s
  | some g =>
    let k := x.pflags.toNat % 4
    if chunkCount (opGroup s o).nmem o.zop ≤ x.chunk ∨ 4096 * blockTiles g < x.eoff + x.ecnt then commit a s
    else if !o.home then passTile a o (commit a s)
    else if x.chunk < o.combined ∨ k < max (runningLevel o) (inputLevel o x.chunk) then commit a s
    else
      let piece : Piece := { partialPiece x a.pkt.payload with step := 0, place := .node 0 0 }
      opModify o.queue o.dseq (fun o =>
        { o with pieces := (o.pieces.filter fun p => p.chunk ≠ x.chunk || decide (k ≤ p.level)) ++ [piece] }) (commit a s)

/-- WGRAD_CHUNK_TILE (R190, R191). -/
def execWgradChunkTile (a : Arrival) (s : State) : Host.Outcome State Fault Refusal :=
  .next (match a.pkt.ext with
    | .node .partialNode x =>
      if !x.pflags.getLsbD 5 then s
      else onReceive a s fun s => match (opFind s x.queue x.dseq).filter keepsForLevel with
        | some o => if a.pkt.hdr.cepoch = opEpoch s o then passTile a o (commit a s) else foreignPacket a o s
        | none => onOp a x.queue x.dseq s fun o s => takeTile a x o s
    | _ => s)

/-! ## Running tiles (R173, R191, R193 to R195) -/

/-- The whole tiles of a chunk on the root island: level, values in tile order, and whether an island below replayed. -/
def chunkTiles (o : Op) (g : WgradDef) (chunk : Nat) : Option (Nat × List Val × Bool) :=
  match tilesOf o (some chunk) with
  | some t =>
    if t.full then
      let vs := (List.range (blockTiles g)).flatMap fun i => Table.get [] t.tiles i
      some (t.level, vs, false)
    else none
  | none =>
    let ps := piecesAt o chunk 0 (.node 0 0)
    if !ps.isEmpty && covers 0 (4096 * blockTiles g) (ps.map fun p => (p.off, p.len)) then
      let vs := joinRanges 0 (ps.map fun p => (p.off, match p.data with | .vals vs => vs | .elems _ => []))
      some (inputLevel o chunk, vs, ps.any (·.of))
    else none

/-- Values in tile order as tiles. -/
def asTiles (vs : List Val) : Table (List Val) := ((cut 4096 (vs.length / 4096) vs).zipIdx).map fun p => (p.2, p.1)

/-- The values of tiles in tile order. -/
def tileVals (g : WgradDef) (t : TileSet) : List Val := (List.range (blockTiles g)).flatMap fun i => Table.get [] t.tiles i

/-- C64 terms of every element (R176). -/
def wgradTerms (n : Nat) (g : WgradDef) : Nat := if directPair g then n * g.nmb * g.tok else n * g.nmb * g.tok / 32

/-- What the histogram counts of a running-tile element: SCALE × (high + low), unrounded (R194). -/
def exactElem (scale : Rat) (v : Val) : Elem :=
  match v.cls with
  | .fin => .fin { q := scale * vsum v }
  | .pinf => .inf false
  | .ninf => .inf true
  | _ => .nan

/-- The flags of the running tiles: NX of the elements of class FIN alone (R85). -/
def tileFlags (vs : List Val) : Flags :=
  { nv := vs.any fun v => v.cls == .nan, of := vs.any fun v => v.ov, nx := vs.any (·.nx) }

/-- The running tiles are written into the operation's dW region, where the ZSI directs a drain (R195): in tile order, C64 at level 0
and C64X above it. Their accumulator tiles are free from then on. -/
def drainTiles (q : Nat) (d : BitVec 32) (s : State) : State :=
  withOp q d (fun o s => match wgradOf o.zop, tilesOf o none, regionOf s (.scratch o.slot o.zop.opid) with
    | some g, some t, some r =>
      if !g.drain then s
      else
        let vs := tileVals g t
        let tags := (vs.zipIdx.filter fun v => valTag v.1 ≠ 0).map fun v => (v.2, valTag v.1)
        let bs := vs.flatMap (valBytes t.level)
        let s := countWrite g.neck bs.length o.job (hbmWrite r.base bs s)
        opModify q d (fun o =>
          { o with drained := some { base := r.base, level := t.level, tags }, tiles := o.tiles.filter fun x => x.chunk.isSome }) s
    | _, _, _ => s) s

/-- The last chunk has been combined: the operation completes (R194, R195, R198). -/
def wgradFinish (o : Op) (g : WgradDef) (s : State) : State :=
  let vs := match tilesOf o none with | some t => tileVals g t | none => []
  let hist := histCount o.desc.hbase [] (vs.map (exactElem (opScale o)))
  let f : Flags := { bx := decide (2 ^ 20 < wgradTerms (opGroup s o).nmem g), sa := decide (0 < o.rlvl) }
  let s := opModify o.queue o.dseq (fun o => { o with hist, flags := Flags.or o.flags (Flags.or f (tileFlags vs)) }) s
  opEnd o.queue o.dseq (drainTiles o.queue o.dseq s)

/-- The combine overflows, or the chunk lies below its entry level: it is computed again at a level (R193). -/
def recompute (o : Op) (g : WgradDef) (chunk k : Nat) (of : Bool) (s : State) : State :=
  if (tilesOf o (some chunk)).isSome then wgradPending o.queue o.dseq chunk k of s
  else
    let s := opModify o.queue o.dseq (fun o =>
      { o with pieces := o.pieces.filter fun p => p.chunk ≠ chunk, flags := { o.flags with of := o.flags.of || of } }) s
    sendLevels o g k (chunk - 1) s

/-- Combine a chunk's tiles into the running tiles (R173 step 4, R191, R193). -/
def combineTiles (o : Op) (g : WgradDef) (chunk k : Nat) (vs : List Val) (of : Bool) (s : State) : State :=
  let run := match tilesOf o none with | some t => tileVals g t | none => []
  let new := if run.isEmpty then vs else combineVals { k } run vs
  let s := count 0x14 g.neck run.length (opCtx o) s
  if k < 3 ∧ new.any fun v => v.cls == .ovf then recompute o g chunk (k + 1) true s
  else
    let set : TileSet := { chunk := none, level := k, tiles := asTiles new, full := true }
    let put := fun (o : Op) =>
      let o := putTiles set (dropTiles chunk o)
      { o with combined := chunk + 1, flags := Flags.or o.flags { of }, rlvl := max o.rlvl k,
               rmap := mapSet o.rmap chunk k, pieces := o.pieces.filter fun p => p.chunk ≠ chunk }
    let s := opModify o.queue o.dseq put s
    let s := if runningLevel o < k then raiseLater o.queue o.dseq k chunk (sendLevels o g k chunk s) else s
    if chunk + 1 = chunkCount (opGroup s o).nmem o.zop then withOp o.queue o.dseq (fun o s => wgradFinish o g s) s else s

/-- RUNNING_TILE_COMBINE (R190, R191, R193, R194). -/
def execRunningTileCombine (q : Nat) (d : BitVec 32) (chunk : Nat) (s : State) : Host.Outcome State Fault Refusal :=
  .next (withOp q d (fun o s =>
    match wgradOf o.zop with
    | none => s
    | some g =>
      if !o.home || !o.opened || o.status.isSome || chunk ≠ o.combined || !ownsTiles s o || !runningHold s o.zop g then s
      else match chunkTiles o g chunk with
      | none => s
      | some (k, vs, of) =>
        if k < runningLevel o then recompute o g chunk (runningLevel o) false s
        else settle (combineTiles o g chunk k vs of s)) s)

/-! ## Masks and fences (R182, R196) -/

/-- MASKS_SATISFIED (R182): an island below is satisfied, with every island under it. -/
def execMasksSatisfied (a : Arrival) (s : State) : Host.Outcome State Fault Refusal :=
  .next (ctrlRow 0x05 a s fun _ q d _ s =>
    settle (stashCheck q d (opModify q d (fun o => { o with masksIn := o.masksIn ++ [a.pkt.hdr.src] }) s)))

/-- How a covered operation ended on every island of the group, as far as this island knows; none while it has not. -/
def coveredEnd (s : State) (f : Op) (opid : Nat) : Option Nat :=
  match s.ops.find? fun o => o.slot == f.slot && o.zop.opid == opid && decide (o.desc.step = f.desc.step) && (o.opened || o.status.isSome) with
  | some o => if downsReported o || !o.home then o.status else none
  | none => (s.ended.find? fun e => e.1 == f.slot && e.2.1 == opid && decide (e.2.2.1 = f.desc.step)).map fun e => e.2.2.2

/-- Release what a covered operation holds once the fence is OK. -/
def releaseCovered (f : Op) (opid : Nat) (s : State) : State :=
  let s := match (zsiOp s f.slot opid).bind streamTensor with
    | some w => releaseHalf f.job w f.desc.step s
    | none => s
  let mine := fun (o : Op) => o.slot == f.slot && o.zop.opid == opid && decide (o.desc.step = f.desc.step)
  { s with
    ops := s.ops.filter fun o => !(mine o && keepsForLevel o)
    ended := s.ended.filter fun e => !(e.1 == f.slot && e.2.1 == opid && decide (e.2.2.1 = f.desc.step)) }

/-- PHASE_FENCE_COMPLETE (R196): on the root island once every covered operation is over on every island; on another
island the row is how it learns that the root island has completed the fence, and with what (log entry 19): with DISCARDED also where a
covered operation has failed before this island was told of it. -/
def execPhaseFenceComplete (q : Nat) (fence : FenceEnd) (s : State) : Host.Outcome State Fault Refusal :=
  .next (withOp q fence.dseq (fun o s =>
    match o.zop.extra with
    | .fence covers =>
      if !o.opened || o.status.isSome then s
      else
        let ends := covers.map (coveredEnd s o)
        if ends.any (·.isNone) && (o.home || fence.rootOk) then s
        else if ends.all (· == some 0) && (o.home || fence.rootOk) then
          settle (opFinish q fence.dseq 0 0 (covers.foldl (fun s c => releaseCovered o c s) s))
        else settle (opFinish q fence.dseq 1 0 s)
    | _ => s) s)

end Sys2Proof.Machine
end

