-- ==== Sys2Proof/Machine/Update.lean ====
section
/-! DEFINITION. The update engine: gradient sources, the check pass, the optimizer step, update blocks, weight copies
and WPULL (R195, R203, R204, R210 to R220). -/

set_option Elab.async false

namespace Sys2Proof.Machine

/-! ## Gradient sources (R195, R203, R204) -/

/-- The source of an UPDATE: the WGRAD of its STEP, or the bound sum, that has completed and keeps its results. -/
def updateSource (s : State) (job : Nat) (u : UpdateDef) (step : BitVec 32) : Option Op :=
  (s.sources ++ s.ops.filter opKeeps).find? fun x =>
    x.job == job && x.zop.opid == u.src && ((wgradOf x.zop).isNone || decide (x.desc.step = step))

/-- An element of drained tiles, by its place in tile order (R101, R195). -/
def drainedVal (s : State) (w : Drained) (i : Nat) : Val :=
  let n := if w.level = 0 then 8 else 16
  valOfBytes w.level (hbmRead s (w.base + n * i) n) (some (Table.get 0 w.tags i)) false

/-- A value of a source by the tensor's element index: tile order for a WGRAD (R203), else the order of the sum's
elements. -/
def sourceVal (s : State) (x : Op) (e : Nat) : Option Val :=
  match wgradOf x.zop with
  | some g =>
    let panels := g.kout / 64
    let r := e / 4096 / panels
    let k := e / 4096 % panels
    if g.rowp0 ≤ r ∧ r < g.rowp0 + g.nrowp ∧ g.colp0 ≤ k ∧ k < g.colp0 + g.ncolp then
      let t := (r - g.rowp0) * g.ncolp + (k - g.colp0)
      match x.drained with
      | some w => some (drainedVal s w (4096 * t + e % 4096))
      | none => (tilesOf x none).bind fun ts => (Table.get [] ts.tiles t)[e % 4096]?
    else none
  | none =>
    if e < x.desc.elemBase then none
    else
      let p := e - x.desc.elemBase
      (x.chunks.find? fun c => c.plan.kind == 0 && c.plan.chunk == p / chunkElems x.zop && !c.running.isEmpty).bind fun c =>
        c.running[p % chunkElems x.zop]?

/-- The values of an update block of an operation: block `b` counts from its E0. -/
def sourceBlock (s : State) (x : Op) (u : UpdateDef) (b : Nat) : List (Option Val) :=
  (List.range 4096).map fun i => sourceVal s x (u.e0 + 4096 * b + i)

/-! ## The optimizer step (R211 to R213) -/

/-- The integer square root, bit by bit from bit `b - 1` down. -/
def isqrt (n : Nat) : Nat → Nat → Nat
  | 0, r => r
  | b + 1, r => isqrt n b (if (r + 2 ^ b) * (r + 2 ^ b) ≤ n then r + 2 ^ b else r)

/-- The square root of a value that is not negative, rounded once to nearest even in FP32, and whether it is inexact. Its
exponent is that of a normal number: the operand is at least 2⁻¹⁴⁹. -/
def sqrt32 (x : Rat) : Rat × Bool :=
  if x ≤ 0 then (0, false)
  else
    let ulp := pow2 (flog2 x / 2 - 23)
    let y := x / (ulp * ulp)
    let n := isqrt y.floor.toNat 25 0
    let half : Rat := ((n * n + n : Nat) : Rat) + 1 / 4
    let up := decide (half < y) || (decide (half = y) && n % 2 == 1)
    (((if up then n + 1 else n : Nat) : Rat) * ulp, decide (((n * n : Nat) : Rat) ≠ y))

/-- r32 of R212 with R213: the FP32 code, and the flags of the rounding. -/
def r32 (x : Rat) : BitVec 32 × Flags :=
  let (c, f) := writeFinite fp32 true .rne x false
  (BitVec.ofNat 32 c, f)

/-- GSCALE × G exceeds the FP32 range when rounded to nearest even (R211). -/
def gradTooLarge (x : Rat) : Bool := (r32 x).2.of

/-- What the check pass finds in a value: a NaN, or an infinity or a magnitude that FP32 does not hold (R211). -/
def gradFlags (scale gscale : Rat) (v : Option Val) : Flags :=
  match v with
  | none => {}
  | some v => match v.cls with
    | .nan => { nv := true }
    | .fin => { of := gradTooLarge (gscale * (scale * vsum v)) }
    | _ => { of := true }

/-- An element of a shard: master weight and moments. -/
structure ElemState where
  w : Val
  m : BitVec 32
  v : BitVec 32

/-- The step of R212 for one element with the exact gradient `G`, and the flags it sets. -/
def optStep (u : UpdateDef) (d : Desc) (G : Rat) (x : ElemState) : ElemState × Flags :=
  let val := fp32Val
  let W := vsum x.w
  let (g, f0) := r32 (val (dGscale d) * G)
  let lr := val (dLr d)
  let wd := val u.wd * W
  let (m, v, delta, f) : BitVec 32 × BitVec 32 × BitVec 32 × Flags := match u.opt with
    | 0 =>
      let (dl, f) := r32 (lr * (val g + wd))
      (x.m, x.v, dl, f)
    | 1 =>
      let (m, f1) := r32 (val u.mu * val x.m + val g + wd)
      let (dl, f2) := r32 (lr * val m)
      (m, x.v, dl, Flags.or f1 f2)
    | _ =>
      let (m, f1) := r32 (val u.b1 * val x.m + val u.ob1 * val g)
      let (v, f2) := r32 (val u.b2 * val x.v + val u.ob2 * val g * val g)
      let (root, inexact) := sqrt32 (val (dBc2 d) * val v)
      let (dd, f3) := r32 root
      let (den, f4) := r32 (val dd + val u.eps)
      let (t, f5) := r32 (val (dBc1 d) * val m / val den)
      let (dl, f6) := r32 (lr * (val t + wd))
      (m, v, dl, [f1, f2, f3, f4, f5, f6].foldl Flags.or { nx := inexact })
  let step : Val := { hi := wneg (match fpDecode fp32 delta.toNat with | .fin w => w | _ => {}) }
  let sum := vsum x.w + vsum step
  let fs := Flags.or f0 f
  if overflows { k := 0 } sum then
    let top := threshold 0
    ({ w := { hi := { q := if sum < 0 then -top else top } }, m, v }, Flags.or fs { of := true, nx := true })
  else
    let w := combine { k := 0 } { x.w with nx := false, ov := false, uf := false } step
    ({ w := { w with nx := false }, m, v }, Flags.or fs { nx := w.nx })

/-! ## Blocks (R208, R212, R214, R217) -/

/-- The slot that holds the copy of an epoch. -/
def copySlot (b : Block) (e : BitVec 32) : List Byte × BitVec 32 :=
  if e.toNat % 2 = 0 then (b.copy0, b.cscale0) else (b.copy1, b.cscale1)

/-- The first block of an operation's range in its shard. -/
def firstBlock (h : Shard) (e0 : Nat) : Nat := (e0 - h.sdef.e0) / 4096

/-- A block as the apply pass forms it for STEP s, with the flags it sets (R212 to R214). -/
def applyBlock (s : State) (o : Op) (u : UpdateDef) (x : Op) (b : Nat) (old : Block) : Block × Flags :=
  let d := o.desc
  let scale := opScale x
  let es := (List.range 4096).map fun i =>
    optStep u d (scale * vsum ((sourceVal s x (u.e0 + 4096 * b + i)).getD {}))
      { w := old.master.getD i {}, m := old.mom1.getD i 0, v := old.mom2.getD i 0 }
  let outs := es.map fun e => outVal (opScale o) 0 false e.1.w
  let (bs, f, _) := writeFloats u.ofmt d.satfin (opMode s o) (u.e0 + 4096 * b) outs
  let new : Block :=
    { old with
      epoch := d.step + 1
      master := es.map (·.1.w)
      mom1 := if 1 ≤ u.opt then es.map (·.1.m) else []
      mom2 := if u.opt = 2 then es.map (·.1.v) else [] }
  let new := if (d.step + 1).toNat % 2 = 0 then { new with copy0 := bs, cscale0 := d.scale } else { new with copy1 := bs, cscale1 := d.scale }
  let new := { new with prevLost := false }
  (new, es.foldl (fun a e => Flags.or a e.2) f)

/-- Steps 1 to 3 of R214: write one block through the journal, whose commit mark stays until the
nanosecond ends (log entry 72), unless it has the new epoch already, with one addition of C64 values
for each element (R212, R214, R215, R428). -/
def writeBlock (o : Op) (u : UpdateDef) (x : Op) (b : Nat) (s : State) : State :=
  match shardOf s o.job u.wtensor u.e0 u.count with
  | none => s
  | some h =>
    let i := firstBlock h u.e0 + b
    match h.blocks[i]? with
    | none => s
    | some old =>
      if old.epoch = o.desc.step + 1 then s
      else
        let (new, f) := applyBlock s o u x b old
        let entry : JournalEntry := { block := i, commit := true, data := new }
        let put := fun (h : Shard) => { h with blocks := entryInPlace h.blocks entry, journal := h.journal ++ [entry] }
        let noted := fun (h : Shard) =>
          { h with stepRecs := h.stepRecs.map fun r => if recordOf u r && decide (r.step = o.desc.step) then { r with flags := Flags.or r.flags f } else r }
        let s := shardModify o.job h.sdef.wtensor h.sdef.e0 (fun h => noted (put h)) s
        let s := countRead h.sdef.neck (blockReads u (x.drained.isSome || (wgradOf x.zop).isNone)) o.job s
        let s := countWrite h.sdef.neck (blockWrites u) o.job s
        let s := count 0x14 h.sdef.neck 4096 (opCtx o) s
        count 0x16 h.sdef.neck 1 (opCtx o) (opModify o.queue o.dseq (fun o => { o with flags := Flags.or o.flags f }) s)

/-- The shard's epoch becomes the new one once its last block is written (R215). DESIGN CHOICE (log entry 66): it stays so where the
operation is discarded before its packets are acknowledged, though R219 leaves a discarded UPDATE's shard at its epoch. -/
def epochStep (o : Op) (u : UpdateDef) (s : State) : State :=
  match shardOf s o.job u.wtensor u.e0 u.count with
  | none => s
  | some h =>
    if h.epoch = o.desc.step ∧ h.blocks.all fun b => decide (b.epoch = o.desc.step + 1) then
      shardModify o.job h.sdef.wtensor h.sdef.e0 (fun h => { h with epoch := h.epoch + 1, firstApply := none, stepRecs := [] }) s
    else s

/-! ## Copies out (R216, R218, R220) -/

/-- The range of an operation in its shard, and the epoch it delivers. -/
def copyRange (o : Op) : Option (Nat × Nat × Nat × BitVec 32) :=
  match o.zop.extra with
  | .update u => some (u.wtensor, u.e0, u.count, o.desc.step + 1)
  | .wpull w => some (w.wtensor, w.e0, w.count, o.desc.step)
  | _ => none

/-- The copy and scale of a block of an operation. -/
def copyOf (s : State) (o : Op) (b : Nat) : Option (List Byte × BitVec 32) :=
  (copyRange o).bind fun r => (shardOf s o.job r.1 r.2.1 r.2.2.1).bind fun h =>
    (h.blocks[firstBlock h r.2.1 + b]?).map fun x =>
      let c := copySlot x r.2.2.2
      (slice c.1 0 (4096 * elemBytes h.sdef.ofmt), c.2)

/-- Deliver the copies of blocks `lo` to `hi - 1` (R216, R218). -/
def deliverCopies (o : Op) (lo hi : Nat) (s : State) : State :=
  let n := (opGroup s o).nmem
  ((List.range (hi - lo)).map (· + lo)).foldl (fun s b => match copyOf s o b with
    | some c =>
      let s := match opShard s o with
        | some h => countRead h.sdef.neck c.1.length o.job s
        | none => s
      (parts n o b).foldl (fun s p => deliverPart o b p c.1 s) s
    | none => s) s

/-- Count the elements of copies of an operation's blocks in its histogram (R92, R213). -/
def countCopies (bs : List Nat) (o : Op) (s : State) : State :=
  let es := bs.flatMap fun b => match copyOf s o b with
    | some x => readElems (outFmt o) x.1 4096
    | none => []
  opModify o.queue o.dseq (fun o => { o with hist := histCount o.desc.hbase o.hist es }) s

/-- Blocks of an operation that moves or forms copies. -/
def copyBlocks (z : ZsiOp) : Nat := (copyCount z).getD 0 / 4096

/-- End an UPDATE or a WPULL on its home island with OK: its epoch record, and its completion fields on their way down (R218,
R220). A skipped UPDATE has formed no copy. -/
def copyFinish (q : Nat) (d : BitVec 32) (epoch cscale : BitVec 32) (skipped : Bool) (s : State) : State :=
  withOp q d (fun o s => opEnd q d (if delivers o.zop then sendMeta o s else s))
    (opModify q d (fun o => { o with epochRec := some (epoch, cscale), skipped, hist := if skipped then [] else o.hist }) s)

/-- The epoch current after an UPDATE: its own once the shard's last block is written (R215, R220). -/
def epochAfter (s : State) (o : Op) : BitVec 32 :=
  match opShard s o with
  | some h => if h.epoch.toNat ≤ o.desc.step.toNat then h.epoch else o.desc.step + 1
  | none => o.desc.step + 1

/-- An UPDATE on its home island completes once its last block is written, and delivered where it pushes; a WPULL once
its last block is sent, with the scale of the copy served (R215, R216, R218, R220). -/
def copyEnd (q : Nat) (d : BitVec 32) (s : State) : State :=
  withOp q d (fun o s =>
    if !o.home || opOver o || !plansDone o then s
    else match o.zop.extra with
    | .update _ => copyFinish q d (epochAfter s o) o.desc.scale false s
    | .wpull _ => copyFinish q d o.desc.step ((o.epochRec.map (·.2)).getD 0) false s
    | _ => s) s

/-! ## The passes (R211, R215, R217) -/

/-- The blocks of a pass; a check pass planned without blocks reads all of them. -/
def passBlocks (o : Op) (p : ChunkPlan) : List Nat :=
  if p.hi = 0 then List.range (copyBlocks o.zop) else (List.range (p.hi - p.lo)).map (· + p.lo)

/-- Every check pass of an UPDATE is done, and there is one. -/
def checksDone (o : Op) : Bool :=
  (o.chunks.any fun c => c.plan.kind == 2) && o.chunks.all fun c => c.plan.kind ≠ 2 || c.state == .done

/-- Every gradient element that a pass reads is there. -/
def sourceStaged (s : State) (o : Op) (u : UpdateDef) (p : ChunkPlan) : Bool :=
  match updateSource s o.job u o.desc.step with
  | some x => (passBlocks o p).all fun b => (sourceBlock s x u b).all (·.isSome)
  | none => false

/-- A SNAPSHOT waits for the shard, and this operation has not begun (R222). -/
def heldBack (s : State) (o : Op) (h : Shard) : Bool := snapPending s h && !opBegun o

/-- Every input of a check pass is staged. -/
def checkStaged (s : State) (o : Op) (c : ChunkSt) : Bool :=
  match o.zop.extra with
  | .update u => match shardOf s o.job u.wtensor u.e0 u.count with
    | some h => !heldBack s o h && sourceStaged s o u c.plan
    | none => false
  | _ => false

/-- Every input of an apply slice is staged (R211, R217, R222). -/
def applyStaged (s : State) (o : Op) (c : ChunkSt) : Bool :=
  match o.zop.extra with
  | .update u => match shardOf s o.job u.wtensor u.e0 u.count with
    | some h => checksDone o && !o.skipped && !opOver o && !heldBack s o h && sourceStaged s o u c.plan && !(passBlocks o c.plan).any fun b => slotTaken s h (u.e0 + 4096 * b)
    | none => false
  | _ => false

/-- Every copy that a delivery on the home island sends is there: the epoch that it delivers has become current (R216, R218). -/
def copyStaged (s : State) (o : Op) : Bool :=
  match copyRange o with
  | none => false
  | some (w, e0, n, e) => match shardOf s o.job w e0 n with
    | none => false
    | some h => match o.zop.extra with
      | .wpull _ => !heldBack s o h && decide (e.toNat ≤ h.epoch.toNat)
      | _ => decide (e.toNat ≤ h.epoch.toNat)

/-- A check pass completes (R211): after the last one a skipped UPDATE ends. -/
def checkDone (o : Op) (i : Nat) (c : ChunkSt) (s : State) : State :=
  match o.zop.extra with
  | .update u => match updateSource s o.job u o.desc.step with
    | none => s
    | some x =>
      let look := gradFlags (opScale x) (fp32Val (dGscale o.desc))
      let f := (passBlocks o c.plan).foldl (fun a b => (sourceBlock s x u b).foldl (fun a v => Flags.or a (look v)) a) {}
      let s := opModify o.queue o.dseq (fun o =>
        { o with flags := Flags.or o.flags f, skipped := o.skipped || decide (f ≠ {}) }) (chunkDone o.queue o.dseq i s)
      settle (withOp o.queue o.dseq (fun o s =>
        if checksDone o && o.skipped then copyFinish o.queue o.dseq o.desc.step 0 true s else s) s)
  | _ => s

/-- An apply slice completes (R212 to R215): its blocks are written, and after the last the UPDATE ends. -/
def applyDone (o : Op) (i : Nat) (c : ChunkSt) (s : State) : State :=
  match o.zop.extra with
  | .update u => match updateSource s o.job u o.desc.step with
    | none => s
    | some x =>
      let s := recordStep o (completeJournals s)
      let s := (passBlocks o c.plan).foldl (fun s b => writeBlock o u x b s) s
      let s := countCopies (passBlocks o c.plan) o s
      let s := epochStep o u (chunkDone o.queue o.dseq i s)
      settle (copyEnd o.queue o.dseq s)
  | _ => s

/-- A delivery of copies on the home island completes (R216, R218). A WPULL keeps the scale of the copy that its first block has now,
and counts what it serves: an UPDATE may write the slot of a block that has been sent (R217, R220). -/
def copyDone (o : Op) (i : Nat) (c : ChunkSt) (s : State) : State :=
  let s := completeJournals s
  let bs := (List.range (c.plan.hi - c.plan.lo)).map (· + c.plan.lo)
  let scale := if bs.contains 0 then (copyOf s o 0).map (·.2) else none
  let s := match o.zop.extra with
    | .wpull _ => countCopies bs o (opModify o.queue o.dseq (fun o =>
        { o with epochRec := (scale.map fun c => (o.desc.step, c)).orElse fun _ => o.epochRec }) s)
    | _ => s
  let s := deliverCopies o c.plan.lo c.plan.hi s
  settle (copyEnd o.queue o.dseq (chunkDone o.queue o.dseq i s))

/-! ## The first apply frame (R216) -/

/-- A frame opens in which an UPDATE attempts an apply slice: its shard's older epoch is no longer served, and a WPULL
of that epoch that has not opened ends with STALE_EPOCH. -/
def openApply (o : Op) (s : State) : State :=
  match o.zop.extra with
  | .update u => match shardOf s o.job u.wtensor u.e0 u.count with
    | none => s
    | some h =>
      if h.firstApply.isSome then s
      else
        let s := shardModify o.job h.sdef.wtensor h.sdef.e0 (fun h => { h with firstApply := some o.desc.step }) s
        let late := s.ops.filter fun w => w.home && w.opened && w.status.isNone && !w.fixed && w.job == o.job &&
          match w.zop.extra with
          | .wpull r => r.wtensor == h.sdef.wtensor && decide (h.sdef.e0 ≤ r.e0) && decide (r.e0 < h.sdef.e0 + 4096 * h.sdef.nb) &&
              decide (w.desc.step.toNat + 1 = h.epoch.toNat)
          | _ => false
        late.foldl (fun s w => discardWith 2 (discardArg 2 s.ctl.id.chip h.epoch) none h.epoch w s) s
  | _ => s

/-- An UPDATE is to attempt an apply slice in the frame in progress. DESIGN CHOICE (log entry 66): where the check pass completes within a
frame that plans an apply slice, the first apply frame opens at that slice's commit point and not at the tick before it (R216, R217). -/
def applyDue (s : State) (o : Op) : Bool :=
  o.home && o.status.isNone && checksDone o && !o.skipped && match zsiFrame s o.job with
    | some n => o.chunks.any fun c => c.plan.kind == 3 && c.state ≠ .done && decide (c.attempt = n)
    | none => false

/-- Open every apply frame of the frame in progress. -/
def openApplies (s : State) : State := (s.ops.filter (applyDue s)).foldl (fun s o => openApply o s) s

end Sys2Proof.Machine
end

