-- ==== Sys2Proof/Machine/Swaps.lean ====
section
/-! DEFINITION. Table epochs: the swaps at a tick, the retirement of the old copy, and the reopening of the shadow (R109,
R139, R140, R331 to R334). -/

set_option Elab.async false

namespace Sys2Proof.Machine

/-! ## At the tick (R60 steps 3 and 4) -/

/-- A tick that has come and whose FRAME_TICK has not run. -/
def tickOpen (s : State) : Bool := s.time.running && isTick s s.time.gcount && s.time.lastTick ≠ some s.time.gcount

/-- A table's swap is due. -/
def swapDue {α : Type} (s : State) (x : Epochs α) : Bool :=
  match x.swapAt with | some t => decide (t ≤ s.time.gcount) | none => false

/-- The swap of a double-buffered table: the shadow becomes current, and the old current copy retires (R140, R331). -/
def swapTable {α : Type} (g : Nat) (x : Epochs α) : Epochs α :=
  { x with epoch := x.epoch + 1, cur := x.shadow, retiring := some (x.cur, x.epoch, g), open_ := false, swapAt := none }

/-- Packets a flow holds back may find other ports now. -/
def drainAll (s : State) : State := (s.net.tx.map fun f => (f.dst, f.tc)).foldl (fun s k => drain k.1 k.2 s) s

/-- A table was swapped at this tick: what took the epoch before it waits for a later one (R60 step 6). -/
def swappedNow (s : State) : Bool :=
  let now := fun (t : Option Nat) => decide (t = some s.time.gcount)
  now (s.chord.retiring.map (·.2.2)) || now (s.routing.retiring.map (·.2.2))

/-- Units on their way back take the new epoch, and wait for a later tick (R60 step 6, R389). -/
def retakeEpoch (s : State) : State :=
  let g := s.time.gcount
  { s with dies := s.dies.map fun d => (d.1, { d.2 with rejoin := d.2.rejoin.map fun _ => g }) }

/-- The routing-table epoch swap (R331). -/
def routingSwap (s : State) : State :=
  drainAll (retakeEpoch { s with routing := swapTable s.time.gcount s.routing })

/-- The first planned ZSI frame of an operation. -/
def firstFrame (o : Op) : Option Nat :=
  match o.chunks.map (·.plan.frame) with
  | [] => none
  | f :: fs => some (fs.foldl min f)

/-- The operation's first chunk has opened by ZSI frame `n` (R109). -/
def firstOpened (n : Nat) (o : Op) : Bool := match firstFrame o with | some f => decide (f ≤ n) | none => false

/-- Settle the epoch of every operation whose first chunk has opened by the frame that `back` frames before the one in
progress. -/
def fixOpened (back : Nat) (s : State) : State :=
  (s.ops.map fun o => (o.queue, o.dseq)).foldl (fun s k => withOp k.1 k.2 (fun o s =>
    match zsiFrame s o.job with
    | some n => if !o.fixed && decide (back ≤ n) && firstOpened (n - back) o then fixEpoch k.1 k.2 s.chord.epoch s else s
    | none => s) s) s

/-- Operations that have not opened take the records and reports of the new entries. -/
def renewEntries (s : State) : State :=
  { s with ops := s.ops.map fun o =>
      if o.opened && !o.fixed && o.status.isNone then withEntries (entriesIn s.chord.cur o.group) o else o }

/-- The chord-table epoch swap (R140): what opened in an earlier frame keeps its epoch. -/
def chordSwap (s : State) : State :=
  let s := fixOpened 1 s
  renewEntries (retakeEpoch { s with chord := swapTable s.time.gcount s.chord })

/-! ## Retirement (R140, R334) -/

/-- 64 frames have passed since a swap. -/
def retireTimeout (s : State) (since : Nat) : Bool := decide (since + 64 * frameNs s ≤ s.time.gcount)

/-- A pizzicato operation uses the copy of an epoch. -/
def pizzIn (e : BitVec 8) (p : PizzOp) : Bool := p.cepoch == e

/-- CHORD_COPY_RETIRE (R140): no operation uses the retiring copy, or its 64 frames are over, and those that still use it
end. -/
def execChordCopyRetire (s : State) : Host.Outcome State Fault Refusal :=
  .next (match s.chord.retiring with
    | none => s
    | some (_, e, since) =>
      let used := s.ops.any (usesChord e) || s.pizzOps.any (pizzIn e)
      if used && !retireTimeout s since then s
      else
        let s := discardIf (usesChord e) 0 s
        let ps := s.pizzOps.filter (pizzIn e)
        let s := ps.foldl (fun s p => match opFind s p.queue p.dseq with
          | some o => discardOp 0 o s
          | none => pizzEnd p.queue p.dseq s) s
        settle { s with chord := { s.chord with retiring := none } })

/-- Packets stamped with a routing epoch and not yet acknowledged (R334). -/
def inFlight (s : State) (e : BitVec 8) : List Unacked :=
  s.net.tx.flatMap fun f => f.unacked.filter fun u => u.pkt.hdr.repoch == e

/-- ROUTING_COPY_RETIRE (R334): nothing stamped with the retiring epoch is unacknowledged, or its 64 frames are over, and
operations that still hold such a packet end as R333 states. -/
def execRoutingCopyRetire (s : State) : Host.Outcome State Fault Refusal :=
  .next (match s.routing.retiring with
    | none => s
    | some (_, e, since) =>
      let us := inFlight s e
      if !us.isEmpty && !retireTimeout s since then s
      else
        let ks := (us.filterMap packetOp).eraseDups
        let s := ks.foldl (fun s k => withOp k.1 k.2 (fun o s =>
          if opWorks o then notice (epochNotice e s.routing.epoch (some o)) (discardOp 0 o s) else s) s) s
        settle { s with routing := { s.routing with retiring := none } })

/-! ## The shadow (R140, R334) -/

/-- The shadow takes the current copy and opens. -/
def reopen {α : Type} (x : Epochs α) : Epochs α :=
  if !x.open_ && x.retiring.isNone then { x with shadow := x.cur, open_ := true } else x

/-- SHADOW_OPEN (R140, R334): 0 the chord table, 1 the routing table. -/
def execShadowOpen (table : Nat) (s : State) : Host.Outcome State Fault Refusal :=
  .next (if table = 0 then { s with chord := reopen s.chord }
    else if table = 1 then { s with routing := reopen s.routing } else s)

end Sys2Proof.Machine
end

