-- ==== Sys2Proof/Machine/Frames.lean ====
section
/-! DEFINITION. Frames: commit points, slips, replays, completion of chunks, and the events at a tick in their order (R14,
R16, R17, R51, R54 to R61, R65, R115, R116, R122, R154, R188, R192, R396, R402). -/

set_option Elab.async false

namespace Sys2Proof.Machine

/-! ## Staging of a chunk (R54) -/

/-- The compute dies and strings of a plan are in service (R389, R401, R403, R409). -/
def unitsUp (s : State) (p : ChunkPlan) : Bool :=
  let dieIn := fun (d : Nat) => let x : Die := Table.get {} s.dies d; x.state == 0 && x.rejoin.isNone
  p.dies.all dieIn && p.strings.all fun k =>
    let x : Str := Table.get {} s.strs k
    !x.out && !x.repair && dieIn (k / 16)

/-- Every input of a chunk, stage or slice is staged. -/
def chunkInputs (s : State) (o : Op) (i : Nat) (c : ChunkSt) : Bool :=
  match c.plan.kind with
  | 0 => combineStaged s o i c
  | 1 => sliceStaged s o i c
  | 2 => checkStaged s o c
  | 3 => applyStaged s o c
  | _ => if o.home && (copyRange o).isSome then copyStaged s o else deliverStagedAll s o c

/-- The chunk can be committed (R54): its units are in service, its frets hold its role, its tiles are its own, and its inputs are
staged (R14, R15). -/
def chunkReady (s : State) (o : Op) (i : Nat) (c : ChunkSt) : Bool :=
  unitsUp s c.plan && rolesHold s o.zop c.plan && ownsTiles s o && chunkInputs s o i c

/-- The count is the commit point of a plan, in a frame in which the chunk is attempted. -/
def atCommit (s : State) (o : Op) (c : ChunkSt) : Bool :=
  zsiFrame s o.job == some c.attempt && s.time.gcount % frameNs s == c.plan.commit

/-! ## Commit and slip (R54, R55) -/

/-- A chunk is committed for the frame in progress. Its operation has opened. -/
def commitChunk (o : Op) (i : Nat) (s : State) : State :=
  let f := frameNo s
  let g := s.time.gcount
  let s := fixEpoch o.queue o.dseq s.chord.epoch s
  let s := opModify o.queue o.dseq (fun o => { o with firstAt := some (o.firstAt.getD g) }) s
  chunkModify o.queue o.dseq i (fun c => { c with state := .committed, committedIn := f }) s

/-- A chunk slips: it is attempted again in its next retry frame from ZSI frame `n` on, with what it has staged kept. -/
def slipFrom (n : Nat) (o : Op) (i : Nat) (c : ChunkSt) (s : State) : State :=
  let next := nextAttempt s o.job o.zop c.plan n
  let s := count 0x0B c.plan.neck 1 (opCtx o) s
  chunkModify o.queue o.dseq i (fun c =>
    { c with slips := c.slips + 1, attempt := next, state := if c.state = .replayPending then .replayPending else .slipped }) s

/-- A chunk slips in the frame in progress. -/
def slipChunk (o : Op) (i : Nat) (c : ChunkSt) (s : State) : State := slipFrom ((zsiFrame s o.job).getD 0 + 1) o i c s

/-- A chunk has its work still to do: not an apply slice or a delivery of an UPDATE that its check pass has skipped (R211). -/
def chunkWaits (o : Op) (c : ChunkSt) : Bool :=
  (c.state == .waiting || c.state == .slipped || c.state == .replayPending) && !(o.skipped && decide (3 ≤ c.plan.kind))

/-- Slips counted for a plan of an operation whose descriptor the island does not hold (R55, R257). -/
def earlySlip (o : Op) (i : Nat) (p : ChunkPlan) (s : State) : State :=
  match zsiFrame s o.job with
  | some n =>
    let same := fun (e : Nat × Nat × Nat × Nat × Nat) => e.1 == o.slot && e.2.1 == o.zop.opid && e.2.2.1 == i
    let old := s.early.find? same
    let fresh := match old with | some e => decide (e.2.2.2.1 < n) | none => true
    if fresh && attemptFrame s o.job o.zop p n && s.time.gcount % frameNs s == p.commit then
      let slips := (old.map fun e => e.2.2.2.2).getD 0 + 1
      let s := count 0x0B p.neck 1 (opCtx o) s
      { s with early := (s.early.filter fun e => !same e) ++ [(o.slot, o.zop.opid, i, n, slips)] }
    else s
  | none => s

/-- The operation as the island knows it before its descriptor: from inputs that came early, or from its queue's list. -/
def unopened (s : State) (q : Nat) (d : BitVec 32) : Option Op :=
  match opFind s q d with
  | some o => if o.opened then none else some o
  | none => shellOp s q d

/-- CHUNK_COMMIT_POINT (R54, R55, R188): the chunk is committed if every input is staged, and slips otherwise. -/
def execChunkCommitPoint (q : Nat) (d : BitVec 32) (plan : Nat) (s : State) : Host.Outcome State Fault Refusal :=
  .next (match (opFind s q d).filter (·.opened) with
    | some o => match o.chunks[plan]? with
      | some c =>
        if !opWorks o || !chunkWaits o c || c.state == .replayPending || !atCommit s o c then s
        else if chunkReady s o plan c then
          let s := commitChunk o plan s
          if c.plan.kind = 3 then settle (openApply o s) else s
        else slipChunk o plan c s
      | none => s
    | none => match unopened s q d with
      | some o => match o.zop.chunks[plan]? with
        | some p => earlySlip o plan p s
        | none => s
      | none => s)

/-! ## Completion (R54, R115) -/

/-- What a chunk does when its work completes. -/
def chunkEffect (o : Op) (i : Nat) (c : ChunkSt) (s : State) : State :=
  match c.plan.kind with
  | 0 => combineDone o i c s
  | 1 => sliceDone o i c s
  | 2 => checkDone o i c s
  | 3 => applyDone o i c s
  | _ => if o.home && (copyRange o).isSome then copyDone o i c s else deliverDone o i c s

/-- CHUNK_COMPLETE (R54): a committed chunk's work completes within its frame. -/
def execChunkComplete (q : Nat) (d : BitVec 32) (plan : Nat) (s : State) : Host.Outcome State Fault Refusal :=
  .next (withOp q d (fun o s => match o.chunks[plan]? with
    | some c => if opWorks o && c.state == .committed && c.committedIn == frameNo s then chunkEffect o plan c s else s
    | none => s) s)

/-! ## Replays (R115, R116, R122, R153, R154, R192) -/

/-- Some slice of a WGRAD chunk has run in its replay. -/
def replayBegun (o : Op) (g : WgradDef) (chunk : Nat) : Bool :=
  o.chunks.any fun c => isSliceOf g chunk c && decide (0 < c.replays) && (c.state == .committed || c.state == .done || decide (0 < c.resume))

/-- The chunk of a planned chunk or of a slice in its replay. -/
def chunkNo (o : Op) (c : ChunkSt) : Nat :=
  match wgradOf o.zop with
  | some g => (sliceChunks g c).headD 0
  | none => c.plan.chunk

/-- A chunk holds replay reserve: its replay is in progress. -/
def holdsReserve (o : Op) (c : ChunkSt) : Bool :=
  match wgradOf o.zop with
  | some g => (sliceChunks g c).any fun k => replayBegun o g k && !(o.chunks.filter (isSliceOf g k)).all fun x => x.state == .done
  | none => decide (0 < c.replays) && c.state == .committed

/-- Replay need of a chunk: KiB of reduction buffer, or tiles (R153). -/
def replayNeed (o : Op) (c : ChunkSt) : Nat :=
  match wgradOf o.zop with
  | some g => 2 * blockTiles g
  | none => chunkRbuf o.zop c.plan.chunk

/-- Reserve that an operation's replays hold, a WGRAD chunk counted once. -/
def reserveHeld (o : Op) : Nat :=
  let hs := o.chunks.filter (holdsReserve o)
  match wgradOf o.zop with
  | some g => 2 * blockTiles g * ((hs.map (chunkNo o)).eraseDups).length
  | none => (hs.map (replayNeed o)).sum

/-- Reserve tiles that running tiles above level 0 use until their operation completes. -/
def reserveUsed (o : Op) : Nat :=
  match wgradOf o.zop with
  | some g => if 0 < runningLevel o then blockTiles g else 0
  | none => 0

/-- The operations of a group in flight that take the same kind of reserve. -/
def reserveOps (s : State) (o : Op) : List Op :=
  s.ops.filter fun x => x.group == o.group && x.status.isNone && (wgradOf x.zop).isSome == (wgradOf o.zop).isSome

/-- A running operation exceeds its capo (R154): it ends everywhere, its queue enters ERROR, and the notice is sent. -/
def capoRunning (o : Op) (off : Nat) (s : State) : State :=
  let d := BitVec.ofNat 32 off
  let s := discardWith 4 (discardArg 4 s.ctl.id.chip d) none d o s
  notice (capoNotice o off) (if o.home then queueError o.queue 4 o.dseq s else queueToError o.queue 4 o.dseq s)

/-- The replay of a chunk is counted as begun: once for the operation, and for a WGRAD with every slice of the chunk (R116, R192,
R431). -/
def markReplay (o : Op) (i : Nat) (c : ChunkSt) (s : State) : State :=
  match wgradOf o.zop with
  | some g =>
    if replayBegun o g (chunkNo o c) then s
    else
      let up := fun (x : ChunkSt) => if isSliceOf g (chunkNo o c) x then { x with replays := x.replays + 1 } else x
      count 0x0C c.plan.neck 1 (opCtx o) (opModify o.queue o.dseq (fun o => { o with chunks := o.chunks.map up, replays := o.replays + 1 }) s)
  | none =>
    let up := fun (o : Op) => { o with chunks := o.chunks.modify i fun c => { c with replays := c.replays + 1 }, replays := o.replays + 1 }
    count 0x0C c.plan.neck 1 (opCtx o) (opModify o.queue o.dseq up s)

/-- REPLAY (R116, R122, R192): a replay-pending chunk takes its reserve and runs again one level higher. -/
def execReplay (q : Nat) (d : BitVec 32) (plan : Nat) (s : State) : Host.Outcome State Fault Refusal :=
  .next (withOp q d (fun o s => match o.chunks[plan]? with
    | some c =>
      if !opWorks o || c.state ≠ .replayPending || !atCommit s o c then s
      else
        let g := opGroup s o
        let total := if c.plan.kind = 1 then g.rresTiles else g.rresRb
        let need := replayNeed o c
        let used := ((reserveOps s o).map reserveUsed).sum
        let held := ((reserveOps s o).map reserveHeld).sum
        if holdsReserve o c || decide (need + used + held ≤ total) then
          if chunkReady s o plan c then commitChunk o plan (markReplay o plan c s) else slipChunk o plan c s
        else if total < need + used then settle (capoRunning o (if c.plan.kind = 1 then 48 else 44) s)
        else slipChunk o plan c s
    | none => s) s)

/-! ## The steps of a tick (R60) -/

/-- A committed chunk has not completed in its frame (R57). -/
def overran (s : State) (c : ChunkSt) : Bool := c.state == .committed && decide (c.committedIn < frameNo s)

/-- The attempt of a chunk has passed without being made. -/
def missed (s : State) (o : Op) (c : ChunkSt) : Bool :=
  chunkWaits o c && match zsiFrame s o.job with
    | some n => decide (c.attempt < n)
    | none => false

/-- The region of island HBM that an operation writes its tiles or its sum into is undefined after an OVERRUN (R58, R195, R204). -/
def spoilRegion (o : Op) (s : State) : State :=
  match regionOf s (.scratch o.slot o.zop.opid) with
  | some r => { hbmWrite r.base (freeBytes s.freeCtr r.size) s with freeCtr := s.freeCtr + r.size }
  | none => s

/-- OVERRUN ends an operation (R57): everywhere, with its queue in ERROR and a notice. -/
def overrunOp (o : Op) (s : State) : State :=
  match o.chunks.find? (overran s) with
  | none => s
  | some c =>
    let f := BitVec.ofNat 32 c.committedIn
    let s := discardWith 3 (discardArg 3 s.ctl.id.chip f) none f o (spoilRegion o (leaveStep o s))
    let s := if o.home then queueError o.queue 3 o.dseq s else queueToError o.queue 3 o.dseq s
    notice { kind := 2, sev := 2, queue := o.queue, group := o.group, dseq := o.dseq, detail := le 8 c.committedIn } s

/-- An operation has work that the closing frame left over. -/
def leftOver (s : State) (o : Op) : Bool := o.opened && opWorks o && (o.chunks.any (overran s) || o.chunks.any (missed s o))

/-- Step 1: the ending frame closes. -/
def closeFrame (s : State) : State :=
  let keys := (s.ops.filter (leftOver s)).map fun o => (o.queue, o.dseq)
  settle (keys.foldl (fun s k => withOp k.1 k.2 (fun o s =>
    if o.chunks.any (overran s) then overrunOp o s
    else (List.range o.chunks.length).foldl (fun s i => withOp k.1 k.2 (fun o s => match o.chunks[i]? with
      | some c => if missed s o c then slipFrom ((zsiFrame s o.job).getD 0) o i c s else s
      | none => s) s) s) s) s)

/-- What a discarded operation held is released and zeroized (R16, R396). -/
def releaseOp (o : Op) : Op :=
  if o.release then { o with release := false, chunks := [], pieces := [], tiles := [] } else o

/-- Step 2: the resources of discarded operations are released. -/
def releaseAll (s : State) : State := settle { s with ops := s.ops.map releaseOp }

/-- The logical position that a physical fret of a string serves: its own, the one its spare took over, or none. -/
def logicalPos (x : Str) (phys : Nat) : Option Nat :=
  if phys = 16 then x.spareIn else if x.retired.getLsbD phys then none else some phys

/-- Replace the state of a string. -/
def strPut (k : Nat) (x : Str) (s : State) : State := { s with strs := Table.put {} s.strs k x }

/-- A string's state. -/
def strGet (s : State) (k : Nat) : Str := Table.get {} s.strs k

/-- A string leaves repair at this tick: its retest ended before it. -/
def repairOver (s : State) (x : Str) : Bool :=
  let before := fun (t : Option Nat) => match t with | some t => decide (t < s.time.gcount) | none => false
  x.testing.isEmpty && (before (x.swapAt.map (·.1)) || before x.passAt)

/-- A string leaves repair; the spare takes a retired fret's logical position (R17, R402). It rejoins at the tick, unless a table is
swapped there: it then takes the new epoch, and waits for the next (R59, R60 step 6). -/
def repairEnd (k : Nat) (s : State) : State :=
  let x := strGet s k
  let y := if swappedNow s then { x with swapAt := none, passAt := some s.time.gcount }
    else { x with repair := false, swapAt := none, passAt := none }
  match x.swapAt with
  | none => strPut k y s
  | some (_, phys) =>
    let pos := (logicalPos x phys).getD 0
    let s := strPut k { y with spareIn := some pos, retired := x.retired ||| BitVec.ofNat 17 (2 ^ phys) } s
    let gen := (Table.get {} s.dies (k / 16) : Die).gen.toNat
    report { kind := 0x11, sev := 1, detail := le 4 k ++ le 1 phys ++ le 1 pos } (unitRec 3 1 (.string k) phys pos gen) s

/-- The strings whose repair ends at this tick. -/
def repairsDue (s : State) : List Nat := (s.strs.filter fun e => repairOver s e.2).map fun e => e.1

/-- Step 5: spares take over, and retested strings leave repair. -/
def spareAll (s : State) : State := (repairsDue s).foldl (fun s k => repairEnd k s) s

/-- A die took the table epoch before this tick. -/
def rejoinDue (s : State) (d : Die) : Bool := match d.rejoin with | some t => decide (t < s.time.gcount) | none => false

/-- Step 6: units that took the epoch before this tick join. -/
def rejoinAll (s : State) : State :=
  let join := fun (d : Die) => if rejoinDue s d then { d with rejoin := none } else d
  { s with dies := (s.dies.map fun e => (e.1, join e.2)).filter fun e => decide (e.2 ≠ {}) }

/-- A job's start count has come. DESIGN CHOICE (log entry 67): where a step of the acquisition jumps over the start count of an armed
job, the job starts at the next tick, with F0 that of its start count. -/
def startDue (s : State) (j : Job) : Bool := match j.armed with | some t => decide (t ≤ s.time.gcount) | none => false

/-- A job begins: ZSI frame 0 is the frame of its start count (R65). -/
def jobBegin (s : State) (j : Job) : Job :=
  match j.armed with
  | some t => { j with armed := none, f0 := some (t / frameNs s) }
  | none => j

/-- A job has started: a hold of the counter ends, and READY becomes RUNNING (R41, R47, R382). -/
def jobsRun (s : State) : State := settleState { s with time := { s.time with hold := 0 } }

/-- Step 7: jobs start. -/
def startJobs (s : State) : State :=
  jobsRun { s with jobs := s.jobs.map fun e => if startDue s e.2 then (e.1, jobBegin s e.2) else e }

/-- A new frame length is due. DESIGN CHOICE (log entry 67): where a step of the acquisition jumps over its change count, it takes effect
at the next tick of the old length. -/
def lengthDue (s : State) : Bool := match s.time.lenAt with | some t => decide (t ≤ s.time.gcount) | none => false

/-- Step 8: the new frame length (R51); the bandwidth window in progress is discarded (R434). -/
def newLength (s : State) : State := clearSums { s with time := { s.time with cur := s.time.len, lenAt := none } }

/-- Which of the steps 1 to 8 have something to do. -/
def stepDue (k : Nat) (s : State) : Bool :=
  match k with
  | 1 => s.ops.any (leftOver s)
  | 2 => s.ops.any (·.release)
  | 3 => swapDue s s.routing
  | 4 => swapDue s s.chord
  | 5 => !(repairsDue s).isEmpty
  | 6 => s.dies.any fun d => rejoinDue s d.2
  | 7 => s.jobs.any fun j => startDue s j.2
  | 8 => lengthDue s
  | _ => false

/-- Step `k` is due at this tick, and no step before it (R60). -/
def stepTurn (k : Nat) (s : State) : Bool :=
  tickOpen s && stepDue k s && ((List.range k).all fun i => !stepDue i s)

/-- One of the steps 1 to 8. -/
def stepDo (k : Nat) (s : State) : State :=
  match k with
  | 1 => closeFrame s
  | 2 => releaseAll s
  | 3 => routingSwap s
  | 4 => chordSwap s
  | 5 => spareAll s
  | 6 => rejoinAll s
  | 7 => startJobs s
  | 8 => newLength s
  | _ => s

/-! ## The opening frame (R14, R59, R60 step 9, R401) -/

/-- A fret takes a role in this frame: its string and die are in service. -/
def fretActive (s : State) (string : Nat) : Bool :=
  let x := strGet s string
  let d : Die := Table.get {} s.dies (string / 16)
  !x.out && !x.repair && d.state == 0 && d.rejoin.isNone

/-- Frets of a string among logical IDs `lo` to `hi - 1`. -/
def fretsIn (string lo hi : Nat) : Nat := min hi (16 * string + 16) - max lo (16 * string)

/-- Active frets of a neck among logical IDs. -/
def activeIn (s : State) (neck lo hi : Nat) : Nat :=
  ((List.range 64).map fun i =>
    let k := 64 * neck + i
    if fretActive s k then fretsIn k lo hi else 0).sum

/-- The frets of a plan that have no role take the plan's. -/
def giveRole (s : State) (job : Nat) (z : ZsiOp) (p : ChunkPlan) : State :=
  let idle := (fretList (planFrets z p)).filter fun f => roleAmong s.roles f == 0
  { s with roles := s.roles ++ idle.map fun f => (job, { frame := p.frame, lo := f, hi := f + 1, role := planRole p }) }

/-- A chunk comes to a retry frame (R55): where the frame's planned work, and the roles given so far, leave it its frets, tiles and
capacities, its frets take its role; else the frame is passed over. DESIGN CHOICE (log entry 68): no rule says what role a fret
holds for a retry where the ZSI gives it none. -/
def openRetry (q : Nat) (d : BitVec 32) (i : Nat) (s : State) : State :=
  withOp q d (fun o s => match o.chunks[i]?, zsiFrame s o.job with
    | some c, some n =>
      let f := c.plan.frame
      if !o.opened || !opWorks o || !chunkWaits o c || n ≤ f || c.plan.stride = 0 || (n - f) % c.plan.stride ≠ 0 then s
      else if frameFree s o.job o.zop c.plan (frameNo s) && fretsOpen s.roles o.zop c.plan then
        giveRole (chunkModify q d i (fun c => { c with attempt := n }) s) o.job o.zop c.plan
      else chunkModify q d i (fun c => { c with attempt := nextAttempt s o.job o.zop c.plan (n + 1) }) s
    | _, _ => s) s

/-- The frets of the running tiles of a WGRAD in flight on the root island take the WGRAD role in a frame that may carry work of it and
gives them no other (R14, R189; DESIGN CHOICE, log entry 68). -/
def openRunning (q : Nat) (d : BitVec 32) (s : State) : State :=
  withOp q d (fun o s => match wgradOf o.zop with
    | none => s
    | some g =>
      let fs := runningFrets o.zop g
      if o.home && o.opened && o.status.isNone && wgradFrame s o.job (frameNo s) g.neck s.roles &&
          fs.all fun f => roleAmong s.roles f == 0 || roleAmong s.roles f == 2 then
        let idle := fs.filter fun f => roleAmong s.roles f == 0
        { s with roles := s.roles ++ idle.map fun f => (o.job, { frame := (zsiFrame s o.job).getD 0, lo := f, hi := f + 1, role := 2 }) }
      else s) s

/-- The planned chunks of running ZSIs whose operation has not been started yet: they come to their retry frames as well (R257). -/
def unstarted (s : State) : List (Nat × ZsiOp × ChunkPlan) :=
  s.zsis.flatMap fun e => match e.2 with
    | some z => if (jobGet s z.job).f0.isNone then [] else (planned z.body).filterMap fun p =>
        if (s.ops.any fun o => o.slot == e.1 && o.zop.opid == p.1.opid && o.opened) ||
            (s.early.any fun x => x.1 == e.1 && x.2.1 == p.1.opid && x.2.2.2.1 == 2 ^ 64) then none
        else some (z.job, p.1, p.2)
    | none => []

/-- Step 9 (R14, R59, R60): the roles of the opening frame, from the ZSIs, and for the retries that come to it. -/
def assignRoles (s : State) : State :=
  let s := { s with roles := zsiRoles s (frameNo s) }
  let s := s.ops.foldl (fun s o => (List.range o.chunks.length).foldl (fun s i => openRetry o.queue o.dseq i s) s) s
  let s := (unstarted s).foldl (fun s x => match zsiFrame s x.1 with
    | some n =>
      if n ≠ x.2.2.frame ∧ attemptFrame s x.1 x.2.1 x.2.2 n ∧ fretsOpen s.roles x.2.1 x.2.2 then giveRole s x.1 x.2.1 x.2.2 else s
    | none => s) s
  s.ops.foldl (fun s o => openRunning o.queue o.dseq s) s

/-- The event of a role (R428). -/
def roleEvent (role : Nat) : Nat := match role with | 1 => 0x10 | 2 => 0x11 | 3 => 0x12 | _ => 0x13

/-- The roles of the opening frame, counted as fret-frames. A fret without one is IDLE. -/
def countRoles (s : State) : State :=
  let rs := s.roles.filter fun r => r.2.role ≠ 0
  (List.range 16).foldl (fun s neck =>
    let s := rs.foldl (fun s r => count (roleEvent r.2.role) neck (activeIn s neck r.2.lo r.2.hi) { job := some r.1 } s) s
    let busy := (rs.map fun r => activeIn s neck r.2.lo r.2.hi).sum
    count 0x13 neck (activeIn s neck (1024 * neck) (1024 * neck + 1024) - busy) {} s) s

/-- Strings with a retest to come are under repair from this tick (R401). -/
def beginRepairs (s : State) : State :=
  { s with strs := s.strs.map fun e => if e.2.testing.isEmpty then e else (e.1, { e.2 with repair := true }) }

/-- The frame opens: roles, operations that open, apply frames, and contributions to be fetched. -/
def openFrame (s : State) : State :=
  let s := countRoles (assignRoles (claimTiles (count 0x02 0 1 {} (beginRepairs s))))
  fetchAll (settle (streamGates (fixOpened 0 (openApplies s))))

/-- FRAME_TICK (R60): every step that is due, in order, then the opening frame. -/
def execFrameTick (s : State) : Host.Outcome State Fault Refusal :=
  .next (if !tickOpen s then s
    else
      let s := (List.range 9).foldl (fun s k => if stepDue k s then stepDo k s else s) s
      openFrame { s with time := { s.time with lastTick := some s.time.gcount } })

/-! ## One step alone -/

/-- DISCARD_RELEASE (R396, R60 step 2). -/
def execDiscardRelease (s : State) : Host.Outcome State Fault Refusal :=
  .next (if stepTurn 2 s then releaseAll s else s)

/-- ROUTING_EPOCH_SWAP (R331, R60 step 3). -/
def execRoutingEpochSwap (s : State) : Host.Outcome State Fault Refusal :=
  .next (if stepTurn 3 s then routingSwap s else s)

/-- CHORD_EPOCH_SWAP (R140, R60 step 4). -/
def execChordEpochSwap (s : State) : Host.Outcome State Fault Refusal :=
  .next (if stepTurn 4 s then chordSwap s else s)

/-- SPARE_SUBSTITUTION (R402, R60 step 5): a string whose retest is over leaves repair, its spare in place of a retired
fret. -/
def execSpareSubstitution (string : Nat) (s : State) : Host.Outcome State Fault Refusal :=
  .next (if stepTurn 5 s && (repairsDue s).contains string then repairEnd string s else s)

/-- UNIT_REJOIN (R389, R60 step 6): a compute die that took the table epoch before this tick joins. -/
def execUnitRejoin (die : Nat) (s : State) : Host.Outcome State Fault Refusal :=
  .next (if stepTurn 6 s && rejoinDue s (Table.get {} s.dies die) then dieModify die (fun d => { d with rejoin := none }) s else s)

/-- JOB_START (R65, R60 step 7). -/
def execJobStart (job : Nat) (s : State) : Host.Outcome State Fault Refusal :=
  .next (if stepTurn 7 s && startDue s (jobGet s job) then jobsRun (jobPut job (jobBegin s (jobGet s job)) s) else s)

/-- FRAME_LENGTH_CHANGE (R51, R60 step 8). -/
def execFrameLengthChange (s : State) : Host.Outcome State Fault Refusal :=
  .next (if stepTurn 8 s then newLength s else s)

end Sys2Proof.Machine
end

