-- ==== Sys2Proof/Machine/Faults.lean ====
section
/-! DEFINITION. Fault events: frets and spares, strings, compute dies, table SRAM, HBM, crossbars, corrected errors, fatal
faults, and the end of a flush (R31, R392 to R418). -/

set_option Elab.async false

namespace Sys2Proof.Machine

/-! ## Results that a fault destroys (R195, R401, R408) -/

/-- The operation consumes the results of one that is lost: an UPDATE of its slot, SRC and STEP. -/
def fedBy (lost : List Op) (o : Op) : Bool :=
  match o.zop.extra with
  | .update u => lost.any fun x => x.job == o.job && x.slot == o.slot && x.zop.opid == u.src && decide (x.desc.step = o.desc.step)
  | _ => false

/-- Finished tiles of a WGRAD that stand in accumulator memory, not in a dW region, and that a test places. -/
def keptTilesIn (p : Op → Bool) (o : Op) : Bool :=
  opKeeps o && !o.tiles.isEmpty && p o && o.drained.isNone

/-- Operations whose finished tiles a test places. -/
def keptHere (p : Op → Bool) (s : State) : List Op := (s.sources ++ s.ops).filter (keptTilesIn p)

/-- The results of finished operations are gone: an UPDATE of theirs ends with DISCARDED when it starts (R401). -/
def loseResults (gone : List Op) (rseq : BitVec 32) (s : State) : State :=
  let same := fun (o : Op) => gone.any fun x => sameOp x o && decide (x.desc.step = o.desc.step) && decide (x.dseq = o.dseq)
  let strip := fun (o : Op) => if same o then { o with tiles := [], pieces := [], drained := none, chunks := o.chunks.map fun c => { c with running := [] } } else o
  { s with
    sources := s.sources.filter fun o => !same o
    ops := s.ops.map strip
    lostSrc := s.lostSrc ++ gone.map fun o => (o.slot, o.zop.opid, o.desc.step, rseq) }

/-- The operation forms, on its root island, what an UPDATE consumes: running tiles, or a bound sum (R195, R204). -/
def feeds (o : Op) : Bool := o.home && (o.zop.opcode == 0x10 || o.zop.bound.isSome)

/-- WGRADs in flight whose tiles a test places: an UPDATE would have consumed them (R401). -/
def formingHere (p : Op → Bool) (s : State) : List Op := s.ops.filter fun o => feeds o && o.status.isNone && inFlightWork o && p o

/-- A fault that destroys tiles as well: the UPDATEs that would have consumed them end with it, or when they start (R401). -/
def raiseLosing (cls : Nat) (u : FUnit) (found : Found) (p kept : Op → Bool) (s : State) : State :=
  let gone := keptHere kept s ++ formingHere kept s
  let rseq := s.fault.rseq
  loseResults gone rseq (raiseFault cls u found (fun o => p o || fedBy gone o) s)

/-- The necks that a pizzicato operation of a group touches: those of its MEMBER and DOWN entries, and the top neck
(R158, R159, R167). -/
def pizzNecks (es : List Entry) : List Nat := topNeck es :: (inEntries es).map entryNeck

/-- An operation has work in flight in a neck (R31); one of the pizzicato path from its first contribution on, which takes its cells
(R158, R167). -/
def neckHit (s : State) (k : Nat) (o : Op) : Bool :=
  usesNeck k o || (o.zop.pizz && (pizzFind s o.queue o.dseq).isSome && (pizzNecks (opEntries s o)).contains k)

/-- The operations that a fault discards (R31, R32): those of its own domain's rule, and where the error controllers of its level
and of the levels after it have failed, `up` of them, those of the domain of the level reached: 0 the fret, 1 the string, 2 the
neck, 3 the island. The class stays that of the fault (DESIGN CHOICE, log entry 70). -/
def lifted (s : State) (level up neck : Nat) (p : Op → Bool) (o : Op) : Bool :=
  p o || (decide (0 < up) && ((decide (2 ≤ level + up) && neckHit s neck o) || decide (3 ≤ level + up)))

/-- A fault whose level and failed controllers make it one of the island's domain (R32). -/
def liftedToIsland (level up : Nat) : Bool := decide (0 < up) && decide (3 ≤ level + up)

/-- An island-level fault ends every job (R299): waiters are released, counters cleared. -/
def islandLevel (level up : Nat) (s : State) : State :=
  if liftedToIsland level up then settleState (dropImage (endAllJobs s)) else s

/-! ## Frets and spares (R401 to R403) -/

/-- A string's compute die is in service or on its way back. -/
def dieServes (s : State) (d : Nat) : Bool := (Table.get {} s.dies d : Die).state == 0

/-- The physical fret is one of the string's that can report: not retired. -/
def fretReports (x : Str) (phys : Nat) : Bool :=
  decide (phys ≤ 16) && !x.retired.getLsbD phys && !x.out && !(match x.swapAt with | some (_, p) => p == phys | none => false)

/-- The unit a fret's fault names: its fret ID, or its string for a spare that serves no position (R20, R414). -/
def fretUnit (x : Str) (string phys : Nat) : FUnit :=
  match logicalPos x phys with
  | some pos => .fret (16 * string + pos)
  | none => .string string

/-- UNIT_OUT (R413): 1 a string retired, 2 a die out, 3 a module held down. -/
def unitOut (u : FUnit) (what : Nat) : Notice := { kind := 0x12, sev := 2, detail := le 4 (unitLoc u).toNat ++ le 1 what }

/-- The generation number of a die (R389). -/
def dieGen (s : State) (d : Nat) : Nat := (Table.get {} s.dies d : Die).gen.toNat

/-- A string is retired (R403): class STRING, UNIT_OUT, and the records of both. The record names the physical fret that was retired,
where one was. -/
def stringOut (k : Nat) (phys : Option Nat) (s : State) : State :=
  let x := strGet s k
  let rseq := s.fault.rseq
  let s := raiseLosing 1 (.string k) { coded := false } (usesString k) (holdsTilesIn k) s
  let retired := match phys with | some p => x.retired ||| BitVec.ofNat 17 (2 ^ p) | none => x.retired
  let s := strPut k { x with retired, out := true, outSeq := rseq, repair := false, testing := [], swapAt := none, passAt := none } s
  report (unitOut (.string k) 1)
    (unitRec 2 2 (.string k) (phys.getD 0) ((phys.bind (logicalPos x)).getD 0) (dieGen s (k / 16))) s

/-- What the check of a FRET fault shows (R414). -/
def fretFound : FretCause → Found
  | .ecc addr | .scrub addr => { addr }
  | .residue | .lane => {}

/-- The scrub has found an error in storage that no claim holds: it discards nothing, and the island records it with its class
(R405). DESIGN CHOICE (log entry 72): nothing else of the class's reaction follows. -/
def scrubbed (cls : Nat) (u : FUnit) (found : Found) (s : State) : State := raiseFault cls u found (fun _ => false) s

/-- The reports of a fret with one more: those within 1 s before it (R402). -/
def reportsAfter (g phys : Nat) (times : List (Nat × Nat)) : List (Nat × Nat) :=
  (times.filter fun t => t.1 ≠ phys || decide (g < t.2 + 1000000000)) ++ [(phys, g)]

/-- FRET_FAULT (R401): the string's work is discarded, tiles in it are lost, and the fret is to be retested. -/
def execFretFault (string : FaultAt) (phys : Nat) (cause : FretCause) (s : State) : Host.Outcome State Fault Refusal :=
  .next (
    let k := string.unit
    let x := strGet s k
    if !regsUp s || decide (1024 ≤ k) || !fretReports x phys || !dieServes s (k / 16) then s
    else match cause with
    | .scrub addr => settle (scrubbed 0 (fretUnit x k phys) { addr } s)
    | _ =>
      let hits := lifted s 0 string.up (k / 64) fun o => usesString k o || holdsTilesIn k o
      let s := islandLevel 0 string.up (raiseLosing 0 (fretUnit x k phys) (fretFound cause) hits (holdsTilesIn k) s)
      let times := reportsAfter s.time.gcount phys x.times
      settle (strPut k { x with times, testing := x.testing.filter (· ≠ phys) ++ [phys] } s))

/-- The last report of a fret was its third within 1 s (R402). -/
def thirdReport (x : Str) (phys : Nat) : Bool := decide (3 ≤ (x.times.filter fun t => t.1 == phys).length)

/-- A fret is retired (R402, R403): the spare is to replace it at the next tick, or the string is retired. -/
def fretRetire (string phys : Nat) (s : State) : State :=
  let x := strGet s string
  if phys = 16 ∨ x.spareIn.isSome ∨ x.retired.getLsbD 16 ∨ x.swapAt.isSome then stringOut string (some phys) s
  else
    let s := strPut string { x with swapAt := some (s.time.gcount, phys) } s
    bbWrite (unitRec 2 1 (fretUnit x string phys) phys ((logicalPos x phys).getD 0) (dieGen s (string / 16))) s

/-- FRET_RETEST_DONE (R402, R403): the fret keeps its position, or is retired. -/
def execFretRetestDone (string phys : Nat) (pass : Bool) (s : State) : Host.Outcome State Fault Refusal :=
  .next (
    let x := strGet s string
    if !regsUp s || !x.repair || !x.testing.contains phys then s
    else
      let retire := !pass || thirdReport x phys
      let s := strPut string { x with testing := x.testing.filter (· ≠ phys), passAt := some s.time.gcount } s
      if retire then settle (fretRetire string phys s) else s)

/-- STRING_FAULT (R31, R392): a parity error of the transposing buffer, or a timeout of the string arbiter. -/
def execStringFault (string : StringHit) (s : State) : Host.Outcome State Fault Refusal :=
  .next (
    let k := string.unit
    if !regsUp s || decide (1024 ≤ k) || (strGet s k).out || !dieServes s (k / 16) then s
    else settle (islandLevel 1 string.up
      (raiseFault 1 (.string k) { coded := !string.timeout } (lifted s 1 string.up (k / 64) (usesString k)) s)))

/-! ## Compute dies (R389, R409) -/

/-- An operation holds tiles in a compute die: one of its 2,048 tile IDs (R20), with something in it. -/
def holdsTilesInDie (d : Nat) (o : Op) : Bool := !o.tiles.isEmpty && rangesShare (opTileIds o.zop) (dieTileIds d)

/-- A DIE fault with the die out (R31, R409): the neck's work is discarded, and what the die held is lost. -/
def dieOut (d up : Nat) (found : Found) (f : Die → Die) (s : State) : State :=
  let s := raiseLosing 2 (.die d) found (lifted s 2 up (d / 4) (neckHit s (d / 4))) (holdsTilesInDie d) s
  report (unitOut (.die d) 2) (unitRec 2 2 (.die d) 0 0 (dieGen s d)) (dieModify d f (islandLevel 2 up s))

/-- What the check of a DIE fault shows (R414): a rail has no code. -/
def dieFound : DieCause → Found
  | .rail => { coded := false }
  | .bond => {}
  | .sram addr | .scrub addr => { addr }

/-- DIE_FAULT (R405, R409): the compute die is taken out of service. -/
def execDieFault (die : FaultAt) (cause : DieCause) (s : State) : Host.Outcome State Fault Refusal :=
  .next (
    if !regsUp s || decide (64 ≤ die.unit) || !dieServes s die.unit then s
    else match cause with
    | .scrub addr => settle (scrubbed 2 (.die die.unit) { addr } s)
    | _ =>
      let since := if cause = .bond then some s.time.gcount else none
      settle (dieOut die.unit die.up (dieFound cause) (fun d => { d with state := 2, rejoin := none, bondAt := since }) s))

/-- The return test of a die may run: its rail is back, or 1 ms has passed since the bond error (R409). -/
def returnDue (s : State) (d : Die) : Bool :=
  d.state == 2 && match d.bondAt with | some t => decide (t + 1000000 ≤ s.time.gcount) | none => true

/-- A die returns (R409): UNIT_BACK and its record, and claims stamped with the generation number before are released (R389), with the
RSEQ of that record (DESIGN CHOICE, log entry 72). -/
def dieReturned (d : Nat) (s : State) : State :=
  let s := dieModify d (fun x => { dieBack s.time.gcount x with bondAt := none }) s
  let n : Notice := { kind := 0x13, sev := 1, detail := le 4 (unitLoc (.die d)).toNat ++ le 2 (dieGen s d) }
  loseDieClaims (usesDie d) s.fault.rseq (report n (unitRec 2 1 (.die d) 0 0 (dieGen s d)) s)

/-- DIE_RETURN_TEST (R409): a die that passes returns; one that fails for the third time stays out until RESET, and its
strings are retired. -/
def execDieReturnTest (die : Nat) (pass : Bool) (s : State) : Host.Outcome State Fault Refusal :=
  .next (
    let d : Die := Table.get {} s.dies die
    if !regsUp s || s.power.gated || decide (64 ≤ die) || !returnDue s d then s
    else if pass then dieReturned die s
    else
      let s := dieOut die 0 { coded := false } (fun d => { d with fails := d.fails + 1, state := if 2 ≤ d.fails then 3 else 2, bondAt := none }) s
      let ks := if 2 ≤ d.fails then ((List.range 16).map (16 * die + ·)).filter fun k => !(strGet s k).out else []
      settle (ks.foldl (fun s k => stringOut k none s) s))

/-! ## Table SRAM (R298, R407, R416) -/

/-- A group loses its member entries in a copy: it is invalid there. -/
def groupGone (g : Nat) (c : ChordCopy) : ChordCopy := { c with groups := Table.modify {} c.groups g fun h => { h with valid := false } }

/-- Which copies of the chord table lose a group: 0 the current, 1 the shadow, 2 the retiring one. -/
def chordGone (g copy : Nat) (s : State) : State :=
  let x := s.chord
  match copy with
  | 0 => { s with chord := { x with cur := groupGone g x.cur } }
  | 1 => { s with chord := { x with shadow := groupGone g x.shadow } }
  | _ => { s with chord := { x with retiring := x.retiring.map fun r => (groupGone g r.1, r.2) } }

/-- Chunks that may still commit in the frame in progress slip: the schedule window is read again (R407). -/
def windowSlips (frame : Nat) (s : State) : State :=
  if frame ≠ frameNo s then s
  else
    (s.ops.map fun o => (o.queue, o.dseq)).foldl (fun s k => withOp k.1 k.2 (fun o s =>
      (List.range o.chunks.length).foldl (fun s i => withOp k.1 k.2 (fun o s => match o.chunks[i]? with
        | some c =>
          if opWorks o && chunkWaits o c && zsiFrame s o.job == some c.attempt && decide (s.time.gcount % frameNs s ≤ c.plan.commit) then
            slipChunk o i c s
          else s
        | none => s) s) s) s) s

/-- A record is damaged in one ring copy, or in both (R416): it is read from the other copy where there is one. -/
def ringDamaged (pos : Nat) (both : Bool) (s : State) : State :=
  let held := (Table.get none s.fault.ring pos).isSome
  if held && (both || s.fault.mirrorOnly.contains pos) then
    { s with fault := { s.fault with lostRecs := s.fault.lostRecs.filter (· ≠ pos) ++ [pos] } }
  else s

/-- The necks whose table SRAM holds an item (R23, R158, R159, R416): member entry k in neck k mod 16, a queue's context, a counter
and its waiters by their numbers, a group's pizzicato context in its top neck, cells where the operation's entries and its top
neck are, a performance counter in its neck, and the ring in necks 0 and 8; the other regions stand in every neck. -/
def tsramHolds (s : State) (neck : Nat) (region : TsramRegion) : Bool :=
  match region with
  | .memberEntries g copy =>
    let c : Option ChordCopy := match copy with | 0 => some s.chord.cur | 1 => some s.chord.shadow | _ => s.chord.retiring.map (·.1)
    match c.map (groupIn · g) with
    | some h => (List.range (min h.ecnt 16)).any fun i => (h.ebase + i) % 16 == neck
    | none => false
  | .queueContext q => q % 16 == neck
  | .syncCounter c | .waiterEntry c => c % 16 == neck
  | .blackBoxRing .. | .blackBoxCopy => neck == 0 || neck == 8
  | .perfCounter i => (if i < 1024 then i / 64 else 0) == neck
  | .pizzCells q d => match opFind s q d with
    | some o => (pizzNecks (opEntries s o)).contains neck
    | none => false
  | .pizzContext g => topNeck (entriesAt s s.chord.epoch g) == neck
  | .groupHeaders | .routingTable | .scheduleWindow _ | .tensorDirectory | .adminStaged .. | .noticeBuffer | .unclaimed => true

/-- The operations an uncorrectable table-SRAM error in a neck discards by its region rule (R407); for a pizzicato context, to which
R407 gives no row, those of the neck (R31, R167). -/
def tsramHits (s : State) (neck : Nat) (region : TsramRegion) (o : Op) : Bool :=
  match region with
  | .pizzContext _ => neckHit s neck o
  | .memberEntries g _ => o.group == g
  | .queueContext q => o.queue == q
  | .pizzCells q d => opIs q d o
  | _ => false

/-- What the error does beside its record (R298, R407). -/
def tsramEffect (region : TsramRegion) (rseq : BitVec 32) (s : State) : State :=
  match region with
  | .memberEntries g copy => chordGone g copy s
  | .queueContext q =>
    let x := queueGet s q
    if x.state = .absent ∨ x.state = .draining then s
    else if x.home then queueError q 6 x.head (endDescs q 1 rseq s).2 else queueToError q 6 x.head s
  | .syncCounter c => ctrLost c s
  | .waiterEntry c => ctrLost c s
  | .scheduleWindow f => windowSlips f s
  | .blackBoxRing pos both => ringDamaged pos both s
  | .blackBoxCopy => raiseFault 9 .none { coded := false } (fun _ => false) { s with fault := { s.fault with mirror := false } }
  | .adminStaged slot aseq =>
    { s with admin := { s.admin with staged := s.admin.staged.filter fun c => !(c.slot == slot && decide (c.aseq = aseq)) } }
  | .noticeBuffer => { s with notices := { s.notices with nseq := s.notices.nseq + 1 } }
  | .perfCounter i => pmcModify i (fun p => { p with value := 0, acc := 0, ovf := true }) s
  | .pizzCells _ _ => s
  | .groupHeaders | .routingTable | .tensorDirectory | .pizzContext _ | .unclaimed => s

/-- TSRAM_ERROR (R405, R407): class TSRAM, and the effect of the region, in a neck that holds the item (R23). -/
def execTsramError (neck : FaultAt) (region : TsramRegion) (addr : BitVec 64) (s : State) : Host.Outcome State Fault Refusal :=
  .next (
    let n := neck.unit
    if !regsUp s || decide (16 ≤ n) || !tsramHolds s n region then s
    else
      let rseq := s.fault.rseq
      settle (islandLevel 2 neck.up
        (tsramEffect region rseq (raiseFault 3 (.neck n) { addr } (lifted s 2 neck.up n (tsramHits s n region)) s))))

/-! ## HBM (R181, R221, R253, R408) -/

/-- A ring slot's content counts as not arrived: its DSEQ is made one that its slot cannot hold (R253). -/
def slotGone (addr : Nat) (s : State) : State :=
  let base := addr / 64 * 64
  match ringQueue s base 64 with
  | none => s
  | some (_, x) =>
    let d := descParse (hbmRead s base 64)
    let slot := (base - x.ring) / 64
    hbmWrite base (descBytes { d with dseq := BitVec.ofNat 32 (slot + 1) }) s

/-- A stream unit is absent again (R181). -/
def unitGone (job w half chip kind u : Nat) (s : State) : State :=
  let out := fun (c : Host.Cell) => !(decide (4096 * u ≤ c.1) && decide (c.1 < 4096 * (u + 1)))
  let strip := fun (d : StreamData) => if d.chip = chip ∧ d.kind = kind then { d with bytes := d.bytes.filter out } else d
  streamModify job w (fun t => { t with halves := t.halves.modify half fun h => { h with data := h.data.map strip } }) s

/-- LOST on a block (R221). -/
def blockLost (job w e0 b : Nat) (rseq : BitVec 32) (s : State) : State :=
  shardModify job w e0 (fun h => { h with blocks := h.blocks.modify b fun x => { x with lost := true }, lostSeq := rseq }) s

/-- An error in a home array of a block loses it (R221): header, MASTER, MOM1 or MOM2. -/
def arrayLoses (array : Nat) : Bool := decide (array ≤ 3)

/-- The copy slot of an array is not the one the block's epoch is in (R212, R221). -/
def otherCopy (x : Block) (array : Nat) : Bool := (array == 4 || array == 5) && array - 4 != x.epoch.toNat % 2

/-- A WPULL of the epoch before a block's own, over the block. -/
def pullsOld (h : Shard) (b : Nat) (o : Op) : Bool :=
  opOnShard h o && match o.zop.extra with
    | .wpull w => decide (o.desc.step + 1 = (h.blocks.getD b {}).epoch) && decide (w.e0 ≤ h.sdef.e0 + 4096 * b) &&
        decide (h.sdef.e0 + 4096 * b < w.e0 + w.count)
    | _ => false

/-- A block that a journal entry covers with its commit mark set. -/
def journalLoses (h : Shard) (b : Nat) : Bool := h.journal.any fun e => e.block == b && e.commit

/-- The arrays of a shard's region in order (R207), each with its number, HDR, MASTER, MOM1, MOM2, COPY0 and COPY1 being 0 to 5, its
start and its bytes per block. -/
def arrayPlaces (d : ShardDef) : List (Nat × Nat × Nat) :=
  let nos := [0, 1] ++ (List.range (min d.opt 2)).map (· + 2) ++ [4, 5]
  ((nos.zip (shardArrays d.opt d.ofmt)).foldl
    (fun (acc : List (Nat × Nat × Nat) × Nat) x => (acc.1 ++ [(x.1, acc.2, x.2)], acc.2 + pageUp (d.nb * x.2))) ([], 0)).1

/-- The array and the block of a shard that hold a byte of its region (R207). -/
def arrayAt (d : ShardDef) (off : Nat) : Option (Nat × Nat) :=
  (arrayPlaces d).findSome? fun a =>
    if a.2.1 ≤ off ∧ off < a.2.1 + d.nb * a.2.2 then some (a.1, (off - a.2.1) / a.2.2) else none

/-- The array and the block of a shard that an address of island HBM holds. -/
def shardAt (s : State) (h : Shard) (a : Nat) : Option (Nat × Nat) :=
  match regionOf s (.shard h.job h.sdef.wtensor h.sdef.e0) with
  | some r => if a < r.base then none else arrayAt h.sdef (a - r.base)
  | none => none

/-- A slot's operation of an OPID whose ZSI was loaded for a job forms a tensor's gradient from streams. -/
def streamsFor (s : State) (job w slot opid : Nat) : Bool :=
  match zsiGet s slot with
  | some z => z.job == job && z.body.ops.any fun o => o.opid == opid && (match wgradOf o with | some g => g.wtensor == w | none => false)
  | none => false

/-- An address of island HBM holds the item of a region (R25, R26, R207): in the region allocated to it, a ring slot and a shard's
block at their exact places; unclaimed storage is that of no ring, shard, body and image. -/
def hbmHolds (s : State) (region : HbmRegion) (a : Nat) : Bool :=
  let inShard := fun (job w e0 b i : Nat) => match shardGet s job w e0 with
    | some h => shardAt s h a == some (i, b)
    | none => false
  match region with
  | .ringSlot x => a / 64 == x / 64 && (ringQueue s (x / 64 * 64) 64).isSome
  | .streamUnit job w _ _ _ _ => (liveRegions s).any fun r => decide (r.base ≤ a) && decide (a < r.base + r.size) &&
      match r.use with | .streams slot o => streamsFor s job w slot o | _ => false
  | .shardArray job w e0 b i => inShard job w e0 b i
  | .journalEntry job w e0 _ => match shardGet s job w e0 with
    | some h => inRegion s (.journal h.sdef.neck) a
    | none => false
  | .scratch q d => (s.sources ++ s.ops).any fun o => opIs q d o &&
      (inRegion s (.scratch o.slot o.zop.opid) a || inRegion s (.forwarded o.slot o.zop.opid) a)
  | .zsiBody slot => inRegion s (.zsi slot) a
  | .loadImage => inRegion s .image a
  | .unclaimed => !(liveRegions s).any fun r => decide (r.base ≤ a) && decide (a < r.base + r.size) && (match r.use with
      | .ring _ | .zsi _ | .image => true
      | .shard job w e0 => (shardGet s job w e0).any fun h => (shardAt s h a).isSome
      | _ => false)

/-- The operations an uncorrectable HBM error discards by its region rule (R221, R408). -/
def hbmHits (s : State) (region : HbmRegion) (o : Op) : Bool :=
  match region with
  | .shardArray job w e0 b a => match shardGet s job w e0 with
    | some h => (arrayLoses a && opOnShard h o) || (otherCopy (h.blocks.getD b {}) a && pullsOld h b o)
    | none => false
  | .journalEntry job w e0 b => match shardGet s job w e0 with
    | some h => journalLoses h b && opOnShard h o
    | none => false
  | .scratch q d => opIs q d o || fedBy ((s.sources ++ s.ops).filter (opIs q d)) o
  | .zsiBody slot => o.slot == slot
  | _ => false

/-- UPDATE_LOST about a block of a shard, from every UPDATE and WPULL of it that the error discards (R221). -/
def updateLost (before : State) (job w e0 b : Nat) (s : State) : State :=
  match shardGet s job w e0 with
  | some h => (doomed (opOnShard h) before).foldl (fun s o => notice (opLostNotice h b o) s) s
  | none => s

/-- What the error does beside its record and its discards (R181, R221, R253, R408). -/
def hbmEffect (region : HbmRegion) (rseq : BitVec 32) (before : State) (s : State) : State :=
  match region with
  | .ringSlot a => slotGone a s
  | .streamUnit job w half chip kind u => unitGone job w half chip kind u s
  | .shardArray job w e0 b a =>
    if arrayLoses a then updateLost before job w e0 b (blockLost job w e0 b rseq s)
    else shardModify job w e0 (fun h =>
      if otherCopy (h.blocks.getD b {}) a then { h with blocks := h.blocks.modify b fun x => { x with prevLost := true }, lostSeq := rseq }
      else h) s
  | .journalEntry job w e0 b =>
    let lost := match shardGet before job w e0 with | some h => journalLoses h b | none => false
    let s := shardModify job w e0 (fun h => { h with journal := h.journal.filter fun e => e.block ≠ b }) s
    if lost then updateLost before job w e0 b (blockLost job w e0 b rseq s) else s
  | .scratch q d => loseResults ((s.sources ++ s.ops).filter fun o => opIs q d o && (opKeeps o || feeds o)) rseq s
  | .zsiBody slot =>
    { s with zsis := s.zsis.map fun e => if e.1 = slot then (e.1, e.2.map fun z => { z with lost := some rseq }) else e }
  | .loadImage => { s with net := { s.net with image := s.net.image.map fun i => { i with damaged := true } } }
  | .unclaimed => s

/-- HBM_ERROR (R405, R408): class HBM, and the effect of the region, at an address that the stack has and that holds the item (R25,
R26). -/
def execHbmError (stack : FaultAt) (region : HbmRegion) (addr : BitVec 64) (s : State) : Host.Outcome State Fault Refusal :=
  .next (
    let a := addr.toNat
    let k := stack.unit
    if !regsUp s || decide (32 ≤ k) || decide (hbmTop ≤ a) || addrStack a ≠ k || !hbmHolds s region a then s
    else
      let rseq := s.fault.rseq
      settle (islandLevel 2 stack.up
        (hbmEffect region rseq s (raiseFault 4 (.stack k) { addr } (lifted s 2 stack.up (k / 2) (hbmHits s region)) s))))

/-! ## Crossbars and corrected errors (R406, R410) -/

/-- XBAR_FAULT (R410): every operation with work in flight in the neck is discarded. -/
def execXbarFault (neck : FaultAt) (s : State) : Host.Outcome State Fault Refusal :=
  .next (
    let n := neck.unit
    if !regsUp s || decide (16 ≤ n) then s
    else settle (islandLevel 2 neck.up (raiseFault 6 (.neck n) {} (lifted s 2 neck.up n (neckHit s n)) s)))

/-- The neck of a unit whose corrected errors are counted (R406): a fret, a compute die's SRAM, a neck's table SRAM or an
HBM stack. -/
def ceNeck : FUnit → Option Nat
  | .fret i => if i < 16384 then some (i / 1024) else none
  | .die i => if i < 64 then some (i / 4) else none
  | .neck i => if i < 16 then some i else none
  | .stack i => if i < 32 then some (i / 2) else none
  | _ => none

/-- A unit has raised CORRECTED less than 1 s ago. -/
def ceRaised (s : State) (u : FUnit) : Bool := s.fault.ce.any fun e => e.1 == u && decide (s.time.gcount < e.2 + 1000000000)

/-- CORRECTED with its notice and record (R406, R413, R415). -/
def raiseCorrected (u : FUnit) (errors : Nat) (s : State) : State :=
  let s := { s with fault := { s.fault with ce := (s.fault.ce.filter fun e => e.1 ≠ u) ++ [(u, s.time.gcount)] } }
  report { kind := 0x15, sev := 1, detail := le 4 (unitLoc u).toNat ++ le 4 errors } (faultRec 8 u []) (setClass 8 s)

/-- CORRECTED (R405, R406): correctable errors of a unit within 1 s are counted, and raise the class above CE_THR, once
in a window. -/
def execCorrected (u : FUnit) (errors : Nat) (s : State) : Host.Outcome State Fault Refusal :=
  .next (match ceNeck u with
    | none => s
    | some neck =>
      if !regsUp s then s
      else
        let s := count 0x1B neck errors {} s
        if errors ≤ s.ctl.ceThr || ceRaised s u then s else raiseCorrected u errors s)

/-! ## Fatal faults (R411, R452) -/

/-- A fatal class (R411): the island enters FAULTED. In FAULTED nothing is left to stop: the class and its record are added, the
notice is sent, and a flush starts unless one is running (R452). -/
def fatal (cls : Nat) (s : State) : State :=
  if s.ctl.state = .faulted then
    let s' := faultedNotice s.fault.rseq (bbWrite (faultRec cls .none []) (setClass cls s))
    if s.fault.flush.isSome then s' else startFlush s'
  else enterFaulted cls s

/-- A thermal trip (R449): THERM_TRIP_N low until RESET, class THERMAL, and the compute dies gated. -/
def thermalTrip (s : State) : State :=
  if s.power.gated && s.ctl.state == .faulted then s
  else gateDies (fatal 20 { s with power := { s.power with tripLow := true } })

/-- FATAL_FAULT (R392, R411): pegbox, trim and tuning classes are found in TUNING alone. -/
def execFatalFault (cls : FatalClass) (s : State) : Host.Outcome State Fault Refusal :=
  let tuningClass := match cls with | .pegbox | .trim | .tuning => true | _ => false
  .next (if !regsUp s || (tuningClass && s.ctl.state ≠ .tuning) then s else if cls = .thermal then thermalTrip s else fatal (fatalClassNo cls) s)

/-! ## Flush (R417, R418) -/

/-- A flush header with COMMIT erased (R417). -/
def flushHeader (s : State) (f : Flush) (body : List Byte) : List Byte :=
  le 1 2 ++ le 1 0xBB ++ le 2 0 ++ le 4 f.seq.toNat ++ le 8 s.ctl.id.islandId.toNat ++ le 8 f.gcount ++ le 4 f.fclass.toNat ++
  le 4 f.records.length ++ le 4 (crc32 body).toNat ++ le 4 0 ++ le 8 s.ctl.id.pegseq.toNat ++ le 4 0xFFFFFFFF ++ le 12 0

/-- The four steps of R418: erase, records, header, COMMIT. -/
def flushWrite (s : State) (f : Flush) : State :=
  let body := f.records.flatMap bbBytes
  let base := slotBase f.slot
  let s := flashProgram (base + 64) body (flashErase base 0x100000 s)
  flashProgram (base + 48) (le 4 0) (flashProgram base (flushHeader s f body) s)

/-- A flash error leaves the slot without a commit, its other bytes undefined. -/
def flushBroken (s : State) (f : Flush) : State :=
  let base := slotBase f.slot
  let n := 64 * f.records.length
  flashUnknown (base + 64) n (flashUnknown base 48 (flashErase base 0x100000 s))

/-- FLUSH_DONE (R413, R418): the flush is committed, or a flash error ends it and raises BLACKBOX. -/
def execFlushDone (ok : Bool) (s : State) : Host.Outcome State Fault Refusal :=
  .next (match s.fault.flush with
    | none => s
    | some f =>
      let s := if ok then flushWrite s f else flushBroken s f
      let s := { s with fault := { s.fault with flush := none, result := if ok then 0 else 1 } }
      let s := if ok then s else raiseFault 9 .none { coded := false } (fun _ => false) s
      let s := notice { kind := 0x17, sev := 1, detail := le 4 f.seq.toNat ++ le 1 (if ok then 0 else 1) ++ le 1 f.slot } s
      beginErase s)

end Sys2Proof.Machine
end

