-- ==== Sys2Proof/Machine/Pizz.lean ====
section
/-! DEFINITION. The rows of the pizzicato path: contributions, nodes, raw runs, results, discards and the timeout (R141, R159,
R160, R164 to R166, R311, R316, R322). -/

set_option Elab.async false

namespace Sys2Proof.Machine

/-- A late contribution, node or raw run: acknowledged, dropped and counted (R165). -/
def pizzLate (a : Arrival) (group : Nat) (s : State) : State :=
  commit a (count 0x38 (linkNeck a.link) 1 { job := some a.pkt.hdr.job, group := some group } s)

/-- The operation that a PIZZ packet names: one in flight, or one whose descriptor has not come; `late` where it has
ended, cannot be here or is of another group (R165, R316). A packet whose payload does not fit the operation is malformed
(R316 step 3), and one that the island has no use for is ignored: neither settles the epoch of the operation (R166). -/
def onPizz (a : Arrival) (x : PizzExt) (fits uses : State → Op → Bool) (late : State → State) (s : State) (f : Op → State → State) : State :=
  match knownOp s x.queue x.dseq with
  | some o =>
    if o.status.isSome || !o.zop.pizz || o.group ≠ x.group then late s
    else if !fits s o then dropWith 0x2A (arrivalPC s a) a s
    else if !o.fixed && (chordAt s a.pkt.hdr.cepoch).isSome && !uses s { o with fixed := true, cepoch := a.pkt.hdr.cepoch } then commit a s
    else epochGate a o (if (opFind s x.queue x.dseq).isSome then s else { s with ops := s.ops ++ [o] }) fun o s => f o (pizzOpen o s)
  | none => late s

/-- The island waits for inputs of some ordinals, of COUNT elements (R128, R156, R159). -/
def pizzUses (ords : List Nat) (ecnt : Nat) (s : State) (o : Op) : Bool :=
  let need := pizzNeeds (opGroup s o).nmem (opEntries s o) o
  !ords.isEmpty && ecnt == pizzCount o && ords.all need.contains

/-- Inputs of ordinals take their places; the first of them starts the operation's time (R164). -/
def pizzEnter (o : Op) (ords : List Nat) (ps : List Piece) (s : State) : State :=
  let g := s.time.gcount
  let s := pizzModify o.queue o.dseq (fun p => { p with firstAt := some (p.firstAt.getD g), arrived := p.arrived ++ ords }) s
  let s := opModify o.queue o.dseq (fun o => { o with pieces := o.pieces ++ ps, firstAt := some (o.firstAt.getD g) }) s
  settle (pizzCheck o.queue o.dseq s)

/-- The inputs of an operation for some ordinals (R165): late after its time, dropped where one of them is here already, a run or node
as a whole (DESIGN CHOICE, log entry 61), and ignored where the island does not wait for them. -/
def pizzInput (a : Arrival) (o : Op) (ords : List Nat) (ecnt : Nat) (ps : List Piece) (s : State) : State :=
  match pizzFind s o.queue o.dseq with
  | none => commit a s
  | some p =>
    if pizzOverdue s p then pizzLate a o.group s
    else if ords.any p.arrived.contains then
      commit a (count 0x39 (linkNeck a.link) 1 { job := some o.job, group := some o.group } s)
    else if !pizzUses ords ecnt s o then commit a s
    else pizzEnter o ords ps (commit a s)

/-- A staged term of an ordinal. -/
def pizzTerm (x : PizzExt) (ord : Nat) (bs : List Byte) : Piece :=
  { step := 0, chunk := 0, place := .leaf ord, off := 0, len := x.ecnt, data := .elems bs }

/-- The ordinal that a contribution of a chip is for: its member entry, the first without an input where it has several. -/
def pizzMember (s : State) (o : Op) (chip : Nat) : Option Nat :=
  let mine := ((members (opEntries s o)).filter fun e => e.chip == chip).map (·.ord)
  let here := match pizzFind s o.queue o.dseq with | some p => p.arrived | none => []
  (mine.find? fun ord => !here.contains ord).orElse fun _ => mine.head?

/-- The row of a SUB: another SUB that R311 defines is another row's. -/
def pizzRow (sub : Nat) (a : Arrival) (s : State) (f : PizzExt → State → State) : State :=
  match a.pkt.ext with
  | .pizz x => if x.sub = sub || unlisted a.pkt.ext then onReceive a s (f x) else s
  | _ => s

/-- Bytes of a term in an operation's format. -/
def pizzTermBytes (o : Op) (x : PizzExt) : Nat := if o.zop.opcode = 7 then 0 else fmtBytes o.zop.fmt x.ecnt

/-- PIZZ_CONTRIBUTION (R159, R165): a member's term is placed at its leaf. -/
def execPizzContribution (a : Arrival) (s : State) : Host.Outcome State Fault Refusal :=
  .next (pizzRow 1 a s fun x s => onPizz a x (fun _ o => a.pkt.payload.length == pizzTermBytes o x)
    (fun s o => pizzUses (pizzMember s o a.pkt.hdr.src).toList x.ecnt s o) (pizzLate a x.group) s fun o s =>
    pizzInput a o (pizzMember s o a.pkt.hdr.src).toList x.ecnt
      ((pizzMember s o a.pkt.hdr.src).toList.map fun ord => pizzTerm x ord a.pkt.payload) s)

/-- The ordinals of the node that a PIZZ packet names. -/
def pizzNodeOrds (s : State) (o : Op) (x : PizzExt) : List Nat :=
  if x.nodel ≤ 13 then nodeOrds (opGroup s o).nmem x.nodel x.nodej else []

/-- The ordinals of the run that a PIZZ packet names. -/
def pizzRunOrds (x : PizzExt) : List Nat := (List.range x.rcnt).map (· + x.nodej)

/-- PIZZ_NODE (R160): the value of a downstream island is placed at its node. -/
def execPizzNode (a : Arrival) (s : State) : Host.Outcome State Fault Refusal :=
  .next (pizzRow 2 a s fun x s => onPizz a x (fun _ _ => a.pkt.payload.length == 16 * x.ecnt)
    (fun s o => pizzUses (pizzNodeOrds s o x) x.ecnt s o) (pizzLate a x.group) s fun o s =>
    let f := x.pflags
    let vs := (cut 16 x.ecnt a.pkt.payload).map (pizzVal (f.getLsbD 2))
    let p : Piece := { step := 0, chunk := 0, place := .node x.nodel x.nodej, off := 0, len := x.ecnt, level := f.toNat % 4,
                       nv := f.getLsbD 4, of := f.getLsbD 3, nx := f.getLsbD 2, data := .vals vs }
    pizzInput a o (pizzNodeOrds s o x) x.ecnt [p] s)

/-- PIZZ_RAW_RUN (R145, R160): the terms of a run of ordinals are placed at their leaves. -/
def execPizzRawRun (a : Arrival) (s : State) : Host.Outcome State Fault Refusal :=
  .next (pizzRow 3 a s fun x s => onPizz a x (fun _ o => a.pkt.payload.length == x.rcnt * pizzTermBytes o x)
    (pizzUses (pizzRunOrds x) x.ecnt) (pizzLate a x.group) s fun o s =>
      let size := pizzTermBytes o x
      pizzInput a o (pizzRunOrds x) x.ecnt ((pizzRunOrds x).mapIdx fun i ord => pizzTerm x ord ((a.pkt.payload.drop (i * size)).take size)) s)

/-- Bytes of the result of a pizzicato operation per member (R156). -/
def pizzSize (n : Nat) (o : Op) : Nat := pizzResultBytes n o.zop

/-- Bytes of a result that a packet carries, by the group that its epoch gives the operation. -/
def pizzResultLen (a : Arrival) (s : State) (o : Op) : Nat :=
  pizzSize (match chordAt s a.pkt.hdr.cepoch with | some c => groupIn c o.group | none => opGroup s o).nmem o

/-- PIZZ_RESULT (R148, R149, R159): the result goes on to the members and the downstream islands, as soon as the
descriptor is here. -/
def execPizzResult (a : Arrival) (s : State) : Host.Outcome State Fault Refusal :=
  .next (pizzRow 4 a s fun x s => onPizz a x (fun s o => a.pkt.payload.length == pizzResultLen a s o) (fun _ _ => true) (lateDrop a) s fun o s =>
    let had := (pizzResult o).isSome || (match pizzFind s o.queue o.dseq with | some p => p.passed | none => false)
    if o.home || had then commit a s
    else
      let f := x.pflags
      let p : Piece := { step := 0, chunk := 0, place := .result 0, off := 0, len := x.ecnt, level := f.toNat % 4,
                         nv := f.getLsbD 4, of := f.getLsbD 3, nx := f.getLsbD 2, data := .elems a.pkt.payload }
      settle (pizzCheck o.queue o.dseq (stagePieces o.queue o.dseq [p] (commit a s))))

/-- PIZZ_DISCARD (R164): an operation that timed out on another island is discarded here in the same way, and its queue enters
ERROR. -/
def execPizzDiscard (a : Arrival) (s : State) : Host.Outcome State Fault Refusal :=
  .next (pizzRow 5 a s fun x s =>
    if !unended s x.queue x.dseq then lateDrop a s
    else settle (queueOut x.queue 5 x.dseq (takeDiscard a x.group x.queue x.dseq 1 0 (tellTimeout (some a.pkt.hdr.src)) (commit a s))))

/-- A TC0 packet of an operation has been unacknowledged for PIZZ_TMO (R322). -/
def pizzUnanswered (s : State) (q : Nat) (d : BitVec 32) : Bool :=
  s.net.tx.any fun f => f.tc == 0 && f.unacked.any fun u => pizzPacket q d u && decide (u.at_ + pizzTmoNs s ≤ s.time.gcount)

/-- PIZZ_TIMEOUT (R164, R322): the operation ends with DISCARDED, its queue enters ERROR, and the notice is sent. -/
def execPizzTimeout (q : Nat) (d : BitVec 32) (s : State) : Host.Outcome State Fault Refusal :=
  .next (match opFind s q d, pizzFind s q d with
    | some o, some p =>
      if o.status.isSome || !(pizzOverdue s p || pizzUnanswered s q d) then s
      else
        let s := queueOut q 5 d (discardTold (tellTimeout none) 1 0 o s)
        settle (notice { kind := 4, sev := 2, queue := q, group := o.group, dseq := d, detail := le 4 d.toNat } s)
    | _, _ => s)

end Sys2Proof.Machine
end

