-- ==== Sys2Proof/Machine/Transport.lean ====
section
/-! DEFINITION. Transport rows: READs to the island, READ_RSP, ACK, retransmission and failed flows, host-switch queue depths
(R311, R317 to R325, R330, R344, R410, R438). -/

set_option Elab.async false

namespace Sys2Proof.Machine

/-! ## READ and READ_RSP (R311, R321, R438) -/

/-- READ_REFUSED (R438): a READ whose DST is the island is answered with RSTAT 1. -/
def execReadRefused (a : Arrival) (s : State) : Host.Outcome State Fault Refusal :=
  .next (match a.pkt.ext with
    | .read _ _ tag => onReceive a s fun s =>
      let x := Ext.readRsp tag 1
      let h := a.pkt.hdr
      let s := count 0x2C (linkNeck a.link) 1 (arrivalPC s a) (commit a s)
      send { pkt := { hdr := ownHdr s h.tc h.src x h.job h.cepoch, ext := x }, why := .other } s
    | _ => s)

/-- A READ of the island that a READ_RSP answers. -/
def readOf (s : State) (a : Arrival) (tag : BitVec 32) : Option ReadReq :=
  s.net.reads.find? fun r => decide (r.rtag = tag) && r.chip == a.pkt.hdr.src && r.tc == a.pkt.hdr.tc

/-- A contribution that was read is staged at its leaf (R321). -/
def readContribution (q : Nat) (d : BitVec 32) (step chunk ord off len : Nat) (bs : List Byte) (s : State) : State :=
  withOp q d (fun o s =>
    if o.status.isSome then s
    else
      stagePieces q d [{ step, chunk, place := .leaf ord, off, len, data := .elems bs }] (bytesFor q d (48 + bs.length) s)) s

/-- What a READ_RSP does by what its READ was for (R224, R272, R311, R321, R376). -/
def readTaken (ok : Bool) (r : ReadReq) (bs : List Byte) (s : State) : State :=
  if !ok then readLost r false s
  else match r.why with
  | .contribution q d step chunk ord off len => readContribution q d step chunk ord off len bs s
  | .image off => { s with net := { s.net with image := s.net.image.map fun i => { i with got := i.got ++ [(off, bs)] } } }
  | .peg off => { s with peg := { s.peg with buf := s.peg.buf ++ [(off, bs)] } }

/-- The operation of a READ is over here. -/
def readLate (s : State) (r : ReadReq) : Bool :=
  match r.why with
  | .contribution q d .. => match opFind s q d with | some o => o.status.isSome | none => true
  | _ => false

/-- READ_RSP (R311, R321): the data of a READ, or a refusal. -/
def execReadRsp (a : Arrival) (s : State) : Host.Outcome State Fault Refusal :=
  .next (match a.pkt.ext with
    | .readRsp tag st => onReceive a s fun s =>
      match readOf s a tag with
      | none => lateDrop a s
      | some r =>
        let late := readLate s r
        let ok := st == 0 && a.pkt.payload.length == r.len
        let s := { s with net := { s.net with reads := s.net.reads.filter fun x => decide (x.rtag ≠ tag) } }
        let s := if late then lateDrop a s else readTaken ok r a.pkt.payload (commit a s)
        settle (drain a.pkt.hdr.src a.pkt.hdr.tc s)
    | _ => s)

/-! ## ACK (R311, R318, R320) -/

/-- An ACK covers a PSN: it comes before CUMPSN, or its bit of SACK is set (R311). -/
def ackCovers (cum sack psn : BitVec 32) : Bool :=
  (decide (psn ≠ cum) && decide ((cum - psn).toNat ≤ 2 ^ 31)) ||
  (decide ((psn - cum - 1).toNat < 32) && sack.getLsbD (psn - cum - 1).toNat)

/-- The flow after an ACK: what it covers is acknowledged, and CREDIT is taken over (R311, R320). -/
def ackFlow (cum sack : BitVec 32) (credit : Nat) (f : TxFlow) : TxFlow :=
  { f with unacked := f.unacked.filter fun u => !ackCovers cum sack u.psn,
           credit := if credit = 0xFFFFFFFF then none else some credit }

/-- ACK (R318). -/
def execAck (a : Arrival) (s : State) : Host.Outcome State Fault Refusal :=
  .next (match a.pkt.ext with
    | .ack cum sack credit => onReceive a s fun s =>
      let h := a.pkt.hdr
      match s.net.tx.find? fun f => f.dst == h.src && f.tc == h.tc with
      | none => s
      | some f => afterAck h.src h.tc (txPut (ackFlow cum sack credit f) s)
    | _ => s)

/-! ## Retransmission and failed flows (R317, R319, R344, R410) -/

/-- Send an unacknowledged packet again: RETX set, its PSN, INCARN and REPOCH as they were (R319). While its ports are
closed by R325 it waits; without a route the send is lost and counted (R330). -/
def resend (f : TxFlow) (u : Unacked) (s : State) : State :=
  let p := { u.pkt with hdr := { u.pkt.hdr with retx := true } }
  let u' := { u with at_ := s.time.gcount, sends := u.sends + 1, pkt := p }
  let again := txPut { f with unacked := f.unacked.map fun x => if x.psn = u.psn then u' else x } s
  match pickPort s (openPorts s u.ports p) with
  | some port =>
    let c : Ctx := { job := jobCtx p.hdr.job, port := some port, cls := some p.hdr.tc }
    emit port p (drawn (count 0x24 (portNeck port) 1 c again))
  | none =>
    if (packetPorts s u.ports p).isEmpty then noRoute (heldNeck { pkt := p, why := u.why }) p.hdr.job again else s

/-- The E2E_RTO that a packet was originated with has passed since it was last sent (R319, R478). TC0 is never sent again (R322). -/
def retryDue (s : State) (f : TxFlow) (u : Unacked) : Bool :=
  f.tc ≠ 0 && decide (u.at_ + 1000 * u.rto ≤ s.time.gcount)

/-- E2E_RETRANSMIT (R319): the packet is sent again, or after its last send the flow fails. -/
def execE2eRetransmit (dst tc : Nat) (psn : BitVec 32) (s : State) : Host.Outcome State Fault Refusal :=
  .next (match s.net.tx.find? fun f => f.dst == dst && f.tc == tc with
    | none => s
    | some f => match f.unacked.find? fun u => decide (u.psn = psn) with
      | none => s
      | some u =>
        if !retryDue s f u || !regsUp s then s
        else if u.sends < u.tries then resend f u s
        else flowFail f [] s)

/-! ## Host-switch queue depths (R323 to R325) -/

/-- QDEPTH (R324, R325): the depths of a module's four ports; what a depth held back may go now. -/
def execQdepth (a : Arrival) (s : State) : Host.Outcome State Fault Refusal :=
  .next (match a.pkt.ext, a.link with
    | .qdepth ds, .module m => onReceive a s fun s =>
      let g := s.time.gcount + 1
      let put := fun (t : Table (Nat × Nat)) (p : Nat × Nat) => Table.put (0, 0) t (4 * m + p.2) (p.1, g)
      let s := ds.zipIdx.foldl (fun s p => bwModify (4 * m + p.2) (fun b => { b with maxq := max b.maxq p.1 }) s) s
      drainAll { s with net := { s.net with depths := ds.zipIdx.foldl put s.net.depths } }
    | _, _ => s)

/-- QDEPTH_STALE (R325): a port's depth is older than 1 µs. It counts once, and is not used again. -/
def execQdepthStale (port : Nat) (s : State) : Host.Outcome State Fault Refusal :=
  .next (
    let (_, at1) := Table.get (0, 0) s.net.depths port
    if at1 = 0 ∨ s.time.gcount + 1 ≤ at1 + 1000 then s
    else
      let s := count 0x35 (portNeck port) 1 { port := some port } s
      drainAll { s with net := { s.net with depths := Table.put (0, 0) s.net.depths port (0, 0) } })

end Sys2Proof.Machine
end

