-- ==== Sys2Proof/Machine/Discovery.lean ====
section
/-! DEFINITION. Discovery: HELLO, REPLY, CONFIRM, QUAR, ECHO and ECHO_RSP, and what a port does when it comes UP or leaves UP
(R335, R336, R351 to R360). -/

set_option Elab.async false

namespace Sys2Proof.Machine

/-! ## Ports and their wiring (R351) -/

/-- The wiring-table entry of a port. -/
def wiringGet (s : State) (p : Nat) : Wiring := Table.get {} s.ctl.id.wiring p

/-- The link of a port is active: its module is up, or both directions of its cascade lanes carry flits (R342, R354). -/
def linkActive (s : State) (p : Nat) : Bool :=
  if p < 512 then (Table.get {} s.mods (p / 4) : Module).state == 1
  else cascUp (Table.get {} s.casc (p - 512)) == (true, true)

/-- The island runs discovery: once READY (R381), and in DORMANT and FAULTED, where it takes DISC packets (R387, R412). -/
def discovers (s : State) : Bool :=
  match s.ctl.state with
  | .ready | .running | .dormant | .faulted => true
  | _ => false

/-- The port exists and its wiring entry names a neighbour (R351). -/
def portWired (s : State) (p : Nat) : Bool := decide (p < 516) && (wiringGet s p).kind ≠ 0

/-! ## DISC packets (R352, R353) -/

/-- A DISC of the island on a port. -/
def discExt (s : State) (p sub agreed assign reason : Nat) : DiscExt :=
  { sub, revs := 0b011#8, agreed, portsel := if p < 512 then p % 4 else 0, iport := p, assign,
    islandId := s.ctl.id.islandId, pegseq := s.ctl.id.pegseq, skind := 2,
    master := decide (512 ≤ p) && isMaster s, cascId := if p < 512 then 0 else s.ctl.cascId % 4, reason }

/-- Send a DISC on a port. -/
def sendDisc (p dst sub agreed assign reason : Nat) (s : State) : State :=
  let x := Ext.disc (discExt s p sub agreed assign reason)
  emit p { hdr := ownHdr s 1 dst x 0 0, ext := x } s

/-- The chip a DISC is answered to: its SRC, or the entry's CHIP where SRC is 0xFFFF, which no packet carries in DST
(R306). -/
def answerChip (s : State) (p src : Nat) : Nat := if src = 0xFFFF then (wiringGet s p).chip else src

/-- Run the rules of a DISC of one SUB on the port it is attributed to, where that port is wired (R351). -/
def onDisc (sub : Nat) (a : Arrival) (s : State) (f : Nat → DiscExt → State → State) : State :=
  match a.pkt.ext with
  | .disc x =>
    if x.sub ≠ sub && !unlisted a.pkt.ext then s
    else onReceive a s fun s' => if portWired s' (arrivalPort s' a) then f (arrivalPort s' a) x s' else s'
  | _ => s

/-! ## A port leaves UP (R344, R357, R410) -/

/-- What waits on a cascade link and is no DISC packet is dropped: the port carries DISC alone now (R357). -/
def keepDisc (k : Casc) : Casc := { k with sendq := k.sendq.filter fun q => fld q.2 1 1 == 0x0D }

/-- A port takes another state; leaving UP fails the flows that can leave only by it, and starts the clock of R488 where
it leads to the time parent. -/
def portLeaves (p : Nat) (x : Port) (s : State) : State :=
  let was := portUp s p
  let s := portPut p x s
  if !was then s
  else failStranded (parentLost p (if p < 512 then s else cascModify (p - 512) keepDisc s))

/-- Straps that disagree with the image hold the cascade ports in QUARANTINE with reason 0x06 (R336). -/
def strapHeld (s : State) (p : Nat) : Bool := decide (512 ≤ p) && !strapsAgree s

/-- PORT_DOWN with its cause (R360). -/
def portDownNotice (p cause : Nat) : Notice := { kind := 0x32, sev := 2, detail := le 2 p ++ le 1 cause }

/-- The unit that a port is (R414). -/
def portUnit (p : Nat) : FUnit := if p < 512 then .port p else .cascade (p - 512)

/-- A port has left UP by a failure of its link (R344, R349, R357): PORT_DOWN, and where it was UP, class PATH with its record (R392,
R415). The flows that fail with it have notices and records of their own. -/
def portLost (was : Bool) (p cause : Nat) (s : State) : State :=
  if was then report (portDownNotice p cause) (faultRec 7 (portUnit p) []) (setClass 7 s) else notice (portDownNotice p cause) s

/-- A port goes DOWN because its link does (R344, R349). -/
def portDown (p cause : Nat) (s : State) : State :=
  let x := portGet s p
  if x.state = 0 ∨ strapHeld s p then s
  else portLost (x.state == 2) p cause (portLeaves p { x with state := 0, rev := 0, passed := none, confirmed := none, echoOut := false, echoMiss := 0, nextDisc := s.time.gcount } s)

/-- A port returns to DISCOVERY because its peer no longer answers (R357). -/
def echoLost (p : Nat) (s : State) : State :=
  let x := portGet s p
  portLost (x.state == 2) p 3 (portLeaves p { x with state := 1, rev := 0, passed := none, confirmed := none, echoOut := false, echoMiss := 0, nextDisc := s.time.gcount } s)

/-! ## HELLO (R354) -/

/-- HELLO (R354 step 3): answered with a REPLY, whose AGREED is the newest revision that both offer (R356). -/
def agreedRev (revs : BitVec 8) : Nat := if revs.getLsbD 1 then 2 else if revs.getLsbD 0 then 1 else 0

def execHello (a : Arrival) (s : State) : Host.Outcome State Fault Refusal :=
  .next (onDisc 1 a s fun p x s => sendDisc p (answerChip s p a.pkt.hdr.src) 2 (agreedRev x.revs) x.assign 0 s)

/-- The time between HELLOs of a port: 1 ms, and 10 ms in QUARANTINE (R354, R357). -/
def helloGap (x : Port) : Nat := if x.state = 3 then 10000000 else 1000000

/-- HELLO_PERIOD (R354, R357): a HELLO goes out on a port that is not UP and whose link is active; a DOWN port is then in
DISCOVERY. -/
def execHelloPeriod (port : Nat) (s : State) : Host.Outcome State Fault Refusal :=
  .next (
    let x := portGet s port
    if !discovers s || !portWired s port || !linkActive s port || x.state == 2 || decide (s.time.gcount < x.nextDisc) then s
    else
      let w := wiringGet s port
      let s := portPut port { x with state := if x.state = 0 then 1 else x.state, nextDisc := s.time.gcount + helloGap x } s
      sendDisc port w.chip 1 0 (if w.kind = 1 then w.chip else 0) 0 s)

/-! ## REPLY (R355, R356) -/

/-- The checks of R355 in order, with their reasons. -/
def replyChecks (s : State) (p src : Nat) (x : DiscExt) : List (Nat × Bool) :=
  let w := wiringGet s p
  let isl := w.kind ≠ 1
  let casc := decide (512 ≤ p)
  let c := p - 512
  let rev := agreedRev x.revs
  let pegNear := x.pegseq.toNat ≤ s.ctl.id.pegseq.toNat + 1 ∧ s.ctl.id.pegseq.toNat ≤ x.pegseq.toNat + 1
  [(0x01, x.skind == if w.kind = 1 then 1 else 2),
   (0x07, src == w.chip && (isl || x.assign == w.chip)),
   (0x02, !isl || x.islandId == w.expId),
   (0x03, !isl || x.iport == if casc then 512 + s.ctl.cascId else w.expPort),
   (0x06, !casc || (x.cascId == c && x.master != isMaster s &&
      s.ctl.id.masterCasc == (if x.master then c else s.ctl.id.ownCasc) && strapsAgree s)),
   (0x05, !isl || decide pegNear),
   (0x04, rev ≠ 0),
   (0x08, rev ≠ 1 || (w.allowRev1 && !casc))]

/-- The port goes into QUARANTINE with a reason: QUAR is sent, and the notice raised (R355, R360). -/
def quarantine (p reason dst src : Nat) (id : BitVec 64) (s : State) : State :=
  let x := portGet s p
  let reason := if strapHeld s p then 6 else reason
  let s := portLeaves p { x with state := 3, rev := 0, reason, passed := none, echoOut := false, echoMiss := 0, nextDisc := s.time.gcount + 10000000 } s
  let s := sendDisc p dst 6 0 0 reason s
  notice { kind := 0x31, sev := 2, detail := le 2 p ++ le 1 reason ++ le 2 src ++ le 8 id.toNat } s

/-- REPLY (R354 step 4): the checks are made; CONFIRM goes out, or QUAR. -/
def execReply (a : Arrival) (s : State) : Host.Outcome State Fault Refusal :=
  .next (onDisc 2 a s fun p x s =>
    let src := a.pkt.hdr.src
    match (replyChecks s p src x).find? fun c => !c.2 with
    | some (reason, _) => quarantine p reason (answerChip s p src) src x.islandId s
    | none =>
      let rev := agreedRev x.revs
      let y := portGet s p
      let s := if y.state = 2 then s else portPut p { y with passed := some s.time.gcount, agreed := rev } s
      sendDisc p (answerChip s p src) 3 rev 0 0 s)

/-! ## CONFIRM and UP (R354 step 5) -/

/-- CONFIRM: the peer's checks have passed. -/
def execConfirm (a : Arrival) (s : State) : Host.Outcome State Fault Refusal :=
  .next (onDisc 3 a s fun p _ s =>
    let y := portGet s p
    if y.state = 2 then s else portPut p { y with confirmed := some s.time.gcount } s)

/-- Both sides have confirmed before this count. -/
def upDue (s : State) (x : Port) : Bool :=
  x.state ≠ 2 && isTick s s.time.gcount &&
  match x.passed, x.confirmed with
  | some a, some b => decide (a < s.time.gcount) && decide (b < s.time.gcount)
  | _, _ => false

/-- PORT_UP (R354 step 5, R359): at a frame tick the port comes UP with the agreed revision. -/
def execPortUp (port : Nat) (s : State) : Host.Outcome State Fault Refusal :=
  .next (
    let x := portGet s port
    if !discovers s || !portWired s port || !linkActive s port || !upDue s x then s
    else
      let up := { x with state := 2, rev := x.agreed, passed := none, confirmed := none, echoOut := false, echoMiss := 0, nextDisc := s.time.gcount + 1000000 }
      let s := portPut port up s
      drainAll (notice { kind := 0x30, sev := 1, detail := le 2 port ++ le 1 x.agreed } s))

/-- QUAR (R353, R355): the peer's checks have failed, so its earlier CONFIRM no longer holds. -/
def execQuar (a : Arrival) (s : State) : Host.Outcome State Fault Refusal :=
  .next (onDisc 6 a s fun p _ s =>
    let y := portGet s p
    if y.state = 2 then s else portPut p { y with confirmed := none } s)

/-! ## ECHO (R357) -/

/-- ECHO: answered. -/
def execEcho (a : Arrival) (s : State) : Host.Outcome State Fault Refusal :=
  .next (onDisc 4 a s fun p _ s => sendDisc p (answerChip s p a.pkt.hdr.src) 5 0 0 0 s)

/-- ECHO_RSP: the peer is there; from SRC 0xFFFF it has lost its number, and the port returns to DISCOVERY. -/
def execEchoRsp (a : Arrival) (s : State) : Host.Outcome State Fault Refusal :=
  .next (onDisc 5 a s fun p _ s =>
    let y := portGet s p
    if y.state ≠ 2 then s
    else if a.pkt.hdr.src = 0xFFFF then echoLost p s
    else portPut p { y with echoOut := false, echoMiss := 0 } s)

/-- ECHO_PERIOD: an UP port sends an ECHO each 1 ms, and returns to DISCOVERY once 4 in a row stay unanswered. -/
def execEchoPeriod (port : Nat) (s : State) : Host.Outcome State Fault Refusal :=
  .next (
    let x := portGet s port
    if !discovers s || x.state ≠ 2 || decide (s.time.gcount < x.nextDisc) then s
    else
      let miss := if x.echoOut then x.echoMiss + 1 else 0
      if 4 ≤ miss then echoLost port s
      else
        let s := portPut port { x with echoOut := true, echoMiss := miss, nextDisc := s.time.gcount + 1000000 } s
        sendDisc port (wiringGet s port).chip 4 0 0 0 s)

end Sys2Proof.Machine
end

