-- ==== Sys2Proof/Machine/TimeSync.lean ====
section
/-! DEFINITION. The time exchange: choice of the parent, the four timestamps, correction of the counter, holdover, and the
counter's limit (R42 to R49, R52, R476, R488). -/

set_option Elab.async false

namespace Sys2Proof.Machine

/-! ## The time parent (R44, R488) -/

/-- A port leads to a time parent now (R44): in a cascade domain the port to the master; else an UP island port of KIND 2
with TUP. -/
def parentPort (s : State) (p : Nat) : Bool :=
  portUp s p &&
  (if inDomain s && !isMaster s then p == 512 + s.ctl.id.masterCasc
   else let w := wiringGet s p; decide (p < 512) && w.kind == 2 && w.tup)

/-- The parent that R44 gives: the lowest-numbered port that qualifies. -/
def pickParent (s : State) : Option Nat := (List.range 516).find? (parentPort s)

/-- Change the time state. -/
def timeModify (f : Time → Time) (s : State) : State := { s with time := f s.time }

/-- Enter holdover, counted from a count, with its notice (R49, R488). -/
def enterHoldover (since : Nat) (s : State) : State :=
  notice { kind := 0x0A, sev := 1, detail := le 8 (unsigned 64 s.time.ofs) }
    (timeModify (fun t => { t with holdover := some { since, parent := t.parent } }) s)

/-- HOPS of a TSYNC_RSP that the island sends (R48). -/
def ownHops (s : State) : Nat :=
  if s.time.root then 0 else if s.time.timeOk && s.time.parent.isSome then s.time.hops + 1 else 0xFF

/-- A TSYNC packet of the island: over the cascade lanes where the peer is in its domain (R44), else by the routing entry
of its DST (R330). -/
def sendTsync (dst : Nat) (run : List Nat) (x : Ext) (s : State) : State :=
  emitOn 0 run { hdr := ownHdr s 1 dst x 0 0, ext := x } s

/-! ## The exchange (R45 to R49) -/

/-- TSYNC_REQ (R45, R48): answered with t2 and t3. -/
def execTsyncReq (a : Arrival) (s : State) : Host.Outcome State Fault Refusal :=
  .next (match a.pkt.ext with
    | .tsync sub sq resid _ _ _ _ =>
      if sub ≠ 1 && !unlisted a.pkt.ext then s
      else onReceive a s fun s =>
        let run := match a.link with | .cascade c => [512 + c] | .module _ => []
        sendTsync a.pkt.hdr.src run (.tsync 2 sq 0 resid s.time.gcount s.time.gcount (ownHops s)) s
    | _ => s)

/-- The offset from the parent (R45), in whole nanoseconds. -/
def tsyncOffset (t1 t2 t3 t4 resid resreq : Nat) (up : Bool) : Int :=
  let d := ((t2 : Int) - t1 - resreq) - ((t4 : Int) - t3 - resid)
  d / 2 + if d % 2 = 1 ∧ up then 1 else 0

/-- The counter is corrected (R47): by a step forward or a hold while no job is RUNNING, by rate alone while one is, where
an offset above 1,000 ns is a global-counter fault. A correction takes the place of a hold still running. DESIGN CHOICE (log
entry 64): an island whose jobs have all stopped steps and holds again. -/
def correctTime (ofs : Int) (s : State) : State :=
  if anyRunning s then (if 1000 < ofs.natAbs then fatal 18 s else s)
  else if 0 < ofs then timeModify (fun t => { t with gcount := min gcountTop (t.gcount + ofs.toNat), hold := 0 }) s
  else timeModify (fun t => { t with hold := ofs.natAbs }) s

/-- The rate correction after an exchange, within ±200 ppm (R43): a free value (log entry 7). -/
def correctRate (s : State) : State :=
  let r := max (-200) (min 200 (Config.rateChoice s.freeCtr))
  timeModify (fun t => { t with ratePpm := r, rateLim := decide (r.natAbs = 200) }) (drawn s)

/-- A non-master island of a cascade domain copies FRAME_LEN from the master where R51 lets its length change (R52). The exchange
shows it the master's FRAME_LEN as `n` (log entry 64). -/
def copyLength (n : Nat) (s : State) : State :=
  if inDomain s && !isMaster s && !anyRunning s && !anyArmed s && decide (1 ≤ n ∧ n ≤ 64 ∧ n ≠ s.time.len) then acceptLen n s
  else s

/-- The exchange counts as a success (R48, R49, R381, R473, R488): the run of good exchanges, TIME_OK and the end of
holdover, where another parent than before begins a new run. -/
def exchangeGood (ofs : Int) (hops : Nat) (s : State) : State :=
  let chip := fun (p : Option Nat) => p.map fun p => (wiringGet s p).chip
  let other := match s.time.holdover with | some h => chip h.parent ≠ chip s.time.parent | none => false
  let run := if other then 1 else s.time.goodRun + 1
  timeModify (fun t => { t with
    ofs, hops, goodRun := run, timeOk := (t.timeOk && !other) || decide (4 ≤ run), missed := 0, answered := true,
    holdover := none }) s

/-- A TSYNC_RSP answers the exchange that runs (R45, R48). -/
def answersExchange (s : State) (a : Arrival) (sq : BitVec 32) (hops : Nat) : Bool :=
  !s.time.answered && sq == s.time.tseq && decide (hops < 4) &&
  match s.time.parent with
  | some p => (wiringGet s p).chip == a.pkt.hdr.src
  | none => false

/-- TSYNC_RSP (R45, R47, R52). -/
def execTsyncRsp (a : TsyncAnswer) (s : State) : Host.Outcome State Fault Refusal :=
  .next (match a.arrival.pkt.ext with
    | .tsync sub sq resid resreq t2 t3 hops =>
      if sub ≠ 2 && !unlisted a.arrival.pkt.ext then s
      else onReceive a.arrival s fun s =>
        match s.time.asked with
        | some t1 =>
          if !answersExchange s a.arrival sq hops then s
          else
            let ofs := tsyncOffset t1 t2 t3 s.time.gcount resid resreq (Config.offsetUp s.freeCtr)
            correctTime ofs (copyLength a.masterLen (correctRate (exchangeGood ofs hops (drawn s))))
        | none => s
    | _ => s)

/-- The last exchange ends without an answer (R49, R476). -/
def missExchange (s : State) : State :=
  if s.time.asked.isSome && !s.time.answered then
    timeModify (fun t => { t with missed := t.missed + 1, goodRun := 0, answered := true }) s
  else s

/-- The parent is kept while its port qualifies and has not left UP since the last exchange, and reselected otherwise (R44,
R488). -/
def reselect (s : State) : State :=
  match s.time.parent.filter (fun p => parentPort s p && s.time.lostAt.isNone), pickParent s with
  | some _, _ =>
    if 16 ≤ s.time.missed ∧ s.time.holdover.isNone then enterHoldover s.time.gcount s else s
  | none, some p =>
    timeModify (fun t => { t with parent := some p, goodRun := 0, timeOk := t.timeOk && t.holdover.isSome, lostAt := none }) s
  | none, none =>
    let lost := s.time.parent.isSome && s.time.holdover.isNone
    let since := s.time.lostAt.getD s.time.gcount
    let s := if lost then enterHoldover since s else s
    timeModify (fun t => { t with parent := none, lostAt := none, goodRun := 0 }) s

/-- The request of an exchange (R45). -/
def askParent (s : State) : State :=
  match s.time.parent with
  | none => timeModify (fun t => { t with asked := none, answered := true }) s
  | some p =>
    let sq := s.time.tseq + 1
    let s := timeModify (fun t => { t with tseq := sq, asked := some t.gcount, answered := false }) s
    sendTsync (wiringGet s p).chip (if p < 512 then [] else [p]) (.tsync 1 sq 0 0 0 0 0) s

/-- A time root has no parent and no exchange (R44). -/
def asRoot (t : Time) : Time :=
  { t with root := true, parent := none, asked := none, answered := true, missed := 0, goodRun := 0, timeOk := false,
           holdover := none, lostAt := none }

/-- TSYNC_EXCHANGE (R47, R476): ROOT takes effect, the last exchange is judged, and the next begins. DESIGN CHOICE (log entry
64): TSYNC_PER runs on the global counter, which a hold stops. -/
def execTsyncExchange (s : State) : Host.Outcome State Fault Refusal :=
  .next (
    if !discovers s || decide (s.time.gcount < s.time.nextExch) then s
    else
      let s := timeModify (fun t => { t with nextExch := t.gcount + 31250 * t.per }) s
      if s.time.rootReg then timeModify asRoot s
      else askParent (reselect (missExchange (timeModify (fun t => { t with root := false }) s))))

/-! ## Loss of time (R42, R49) -/

/-- HOLDOVER_EXPIRY (R49): 10 ms of holdover, and the class is not recorded yet. -/
def execHoldoverExpiry (s : State) : Host.Outcome State Fault Refusal :=
  .next (match s.time.holdover with
    | some h => if discovers s && decide (h.since + 10000000 ≤ s.time.gcount) && !s.fault.classes.getLsbD 18 then fatal 18 s else s
    | none => s)

/-- GCOUNT_LIMIT (R42). -/
def execGcountLimit (s : State) : Host.Outcome State Fault Refusal :=
  .next (if regsUp s && s.time.gcount == gcountTop && !s.fault.gcLimit then
      fatal 18 { s with fault := { s.fault with gcLimit := true } }
    else s)

end Sys2Proof.Machine
end

