-- ==== Sys2Proof/Machine/Cascade.lean ====
section
/-! DEFINITION. Cascade links: flits, replay, alignment markers and lanes (R340 to R350), and UCIe modules (R303, R304, R410). -/

set_option Elab.async false

namespace Sys2Proof.Machine

/-- A cascade link. -/
def cascGet (s : State) (c : Nat) : Casc := Table.get {} s.casc c

/-- The context of a cascade port's events (R428). -/
def cascCtx (c : Nat) : Ctx := { port := some (512 + c) }

/-! ## Directions (R344, R349) -/

/-- A receive direction has left ACTIVE: what was part of a packet is lost, and the port is DOWN (R344). -/
def linkLost (c cause : Nat) (s : State) : State :=
  portDown (512 + c) cause (cascModify c (fun k => { k with inbuf := [] }) s)

/-! ## Receiving flits (R346 to R350) -/

/-- What ACKSEQ acknowledges leaves the replay buffer (R347, R349). -/
def takeAck (g : Nat) (seq : BitVec 12) (k : Casc) : Casc :=
  match k.unacked.findIdx? fun f => f.fseq == seq with
  | some i => { k with unacked := k.unacked.drop (i + 1), ackAt := g }
  | none => k

/-- The credit that a flit returns (R347). -/
def takeCredit (f : Flit) (k : Casc) : Casc := { k with credit := k.credit.modify f.ccls (· + f.cred) }

/-- A bad flit or a gap (R349): one NAK, until the replay arrives. -/
def sendNak (c : Nat) (s : State) : State :=
  let k := cascGet s c
  if k.nakSent || !(cascUp k).1 then s
  else wireSend c [cascFiller 2 k] (cascModify c (fun k => owedGone { k with nakSent := true }) s)

/-- The check a packet fails that no row of a packet type takes: HCRC, VER, or TYPE (R316 steps 1 to 3). -/
def dropEvent (s : State) (c : Nat) (b : List Byte) : Nat :=
  let n := 16 * fld b 3 3
  let clear := (b.take 28).modify 2 (fun b => b &&& 0xE7#8)
  if fld b 31 28 ≠ (crc32 (clear ++ (b.take n).drop 32)).toNat then 0x28
  else if fld b 0 0 ≠ portRev s (512 + c) then 0x29 else 0x2A

/-- A packet whose TYPE is none is dropped as it arrives, and its space returned. -/
def dropUnknown (c : Nat) (b : List Byte) (s : State) : State :=
  let ev := dropEvent s c b
  let tc := fld b 2 2 / 32
  let n := 16 * fld b 3 3 + fld b 5 4 % 8192
  let ctx : Ctx := { port := some (512 + c), cls := if ev = 0x28 then none else some tc }
  let s := count 0x21 (4 * c) n ctx (count 0x20 (4 * c) 1 ctx s)
  let s := count ev (4 * c) 1 ctx s
  let s := bwModify (512 + c) (fun w =>
    let w := if tc ≤ 1 then { w with rxHi := w.rxHi + n } else { w with rxBulk := w.rxBulk + n }
    { w with drops := w.drops + 1 }) s
  cascModify c (fun k => { k with owed := k.owed.modify tc (· + creditUnits b.length) }) s

/-- Whole packets wait for their rows; those that no row can take are dropped. -/
def takePackets (c : Nat) (ps : List (List Byte)) (s : State) : State :=
  ps.foldl (fun s b =>
    if (pktDecode b).isNone then dropUnknown c b s
    else cascModify c (fun k => { k with inPkts := k.inPkts ++ [b] }) s) s

/-- A DATA flit that comes in sequence (R348, R349). -/
def takeData (c : Nat) (f : Flit) (s : State) : State :=
  let k := cascGet s c
  let (ps, rest) := pktCut (k.inbuf.length + 241) (k.inbuf ++ f.payload)
  let k := takeCredit f { k with rxSeq := k.rxSeq + 1, nakSent := false, ackDue := true, inbuf := rest }
  cascPump c (takePackets c ps { s with casc := Table.put {} s.casc c k })

/-- A sequence number lies behind the one expected: a repeated flit. -/
def seqBehind (k : Casc) (seq : BitVec 12) : Bool := seq ≠ k.rxSeq && decide ((k.rxSeq - seq).toNat ≤ 512)

/-- Every unacknowledged DATA flit is sent again in order (R349); the 8th replay of one takes the direction out of ACTIVE. -/
def cascReplay (c : Nat) (s : State) : State :=
  let k := cascGet s c
  if k.unacked.isEmpty then s
  else
    let us := k.unacked.map fun f => { f with replays := f.replays + 1 }
    let s := wireSend c (us.map (sentBytes k)) s
    let s := count 0x52 (4 * c) us.length (cascCtx c) s
    let s := cascModify c (fun k => { k with unacked := us, ackAt := s.time.gcount, ackDue := false }) s
    if us.any fun f => decide (8 ≤ f.replays) then
      let down := fun (k : Casc) => { k with lanes := k.lanes.map fun l => { l with tx := .sleep } }
      portDown (512 + c) 2 (lanesChange c down s)
    else s

/-- A flit of a type as it reaches a receive direction that is ACTIVE: the lanes' words give its bytes, which are corrected, checked,
and taken by their type. -/
def onFlit (c ftype : Nat) (words : List (List Pam4)) (s : State) (take : Flit → State → State) : State :=
  if !regsUp s || decide (4 ≤ c) || !wordsWhole words || !(cascUp (cascGet s c)).2 then s
  else
    let r := laneFlit (cascGet s c) words
    let s' := { s with casc := Table.put {} s.casc c r.2 }
    match flitRead r.1 with
    | none => sendNak c (count 0x51 (4 * c) 1 (cascCtx c) s')
    | some (none, _) => s'
    | some (some f, n) =>
      if f.ftype ≠ ftype then s
      else
        let s' := if n = 0 then s' else count 0x50 (4 * c) n (cascCtx c) s'
        take f (cascModify c (takeAck s.time.gcount f.ackseq) s')

/-- CASCADE_DATA_FLIT (R349): taken in FSEQ order; a repeated one is acknowledged again, and a gap answered with a NAK. -/
def execCascadeDataFlit (port : Nat) (words : List (List Pam4)) (s : State) : Host.Outcome State Fault Refusal :=
  .next (onFlit port 1 words s fun f s =>
    let k := cascGet s port
    if f.fseq = k.rxSeq then takeData port f s
    else if seqBehind k f.fseq then cascPump port (cascModify port (fun k => { k with ackDue := true }) s)
    else sendNak port s)

/-- An IDLE or NAK flit's own content: credit, and the FSEQ that is next (R347, R349). -/
def takeFiller (c : Nat) (f : Flit) (s : State) : State :=
  let s := cascPump c (cascModify c (takeCredit f) s)
  let k := cascGet s c
  if f.fseq = k.rxSeq ∨ seqBehind k f.fseq then s else sendNak c s

/-- CASCADE_IDLE_FLIT (R347). -/
def execCascadeIdleFlit (port : Nat) (words : List (List Pam4)) (s : State) : Host.Outcome State Fault Refusal :=
  .next (onFlit port 0 words s fun f s => takeFiller port f s)

/-- CASCADE_NAK_FLIT (R349): the DATA flits from ACKSEQ + 1 on are replayed. -/
def execCascadeNakFlit (port : Nat) (words : List (List Pam4)) (s : State) : Host.Outcome State Fault Refusal :=
  .next (onFlit port 2 words s fun f s => cascReplay port (takeFiller port f s))

/-- CASCADE_REPLAY_TIMEOUT (R349): ACKSEQ has not advanced for 1 µs. -/
def execCascadeReplayTimeout (port : Nat) (s : State) : Host.Outcome State Fault Refusal :=
  .next (
    let k := cascGet s port
    if !regsUp s || decide (4 ≤ port) || !(cascUp k).1 || decide (s.time.gcount < k.ackAt + 1000) then s
    else cascReplay port s)

/-! ## Lanes (R340, R341, R343, R344, R346) -/

/-- Every lane of the direction has locked with a LANEID of its own (R343). -/
def rxAligned (k : Casc) : Bool :=
  k.lanes.all (fun l => l.amlock && (l.rx == .align || l.rx == .active)) && (k.lanes.map (·.laneId)).eraseDups.length == 16

/-- The direction deskews and becomes ACTIVE once it is aligned. -/
def rxDeskew (k : Casc) : Casc :=
  if rxAligned k then { k with lanes := k.lanes.map fun l => { l with rx := .active } } else k

/-- A lane after a marker on its boundary: one more in a row, LANEID, the scrambler's seed, AMLOCK after 4, the eye as
measured (R341, R346). -/
def laneMarker (c i n g : Nat) (l : Lane) : Lane :=
  { l with markers := l.markers + 1, laneId := n, scram := scramSeed n, markerAt := g,
           amlock := l.amlock || decide (4 ≤ l.markers + 1), eye := (Config.eyeHeight c i l.peak).toNat }

/-- The lane number that the levels of a word give, where they are a marker (R346). -/
def markerRead (word : List Pam4) : Option Nat :=
  if word.length = 68 then markerLane (bitsBytes 17 (word.flatMap pam4Bits)) else none

/-- ALIGNMENT_MARKER (R341, R343, R346): a word where a lane expects a marker. Others than a marker's end the run that
AMLOCK needs. -/
def execAlignmentMarker (port lane : Nat) (word : List Pam4) (s : State) : Host.Outcome State Fault Refusal :=
  .next (
    let l := (cascGet s port).lanes.getD lane {}
    if !regsUp s || decide (4 ≤ port) || decide (16 ≤ lane) || !(l.rx == .align || l.rx == .active) then s
    else match markerRead word with
      | some n => lanesChange port (fun k => rxDeskew { k with lanes := k.lanes.modify lane (laneMarker port lane n s.time.gcount) }) s
      | none => laneModify port lane (fun l => { l with markers := 0 }) s)

/-- LANE_CLOCK_RECOVERED (R340): a lane in EQ begins to search for the marker. -/
def execLaneClockRecovered (port lane : Nat) (s : State) : Host.Outcome State Fault Refusal :=
  .next (
    let l := (cascGet s port).lanes.getD lane {}
    if !regsUp s || decide (4 ≤ port) || decide (16 ≤ lane) || l.rx ≠ .eq then s
    else laneModify port lane (fun l => { l with rx := .align, markers := 0 }) s)

/-- LANE_LOCK_LOSS (R344, R359): no marker for 3 marker periods on a lane that has AMLOCK, or that is ACTIVE and was slipped
since. The lane returns to EQ on its kept boundary. -/
def execLaneLockLoss (port lane : Nat) (s : State) : Host.Outcome State Fault Refusal :=
  .next (
    let l := (cascGet s port).lanes.getD lane {}
    if !regsUp s || decide (4 ≤ port) || decide (16 ≤ lane) || !(l.amlock || l.rx == .active) || decide (s.time.gcount < l.markerAt + 5240) then s
    else
      let out := fun (l : Lane) => { l with amlock := false, markers := 0, rx := .eq }
      linkLost port 1 (lanesChange port (fun k => { k with lanes := k.lanes.modify lane out }) s))

/-! ## UCIe modules (R303, R304, R410, R480) -/

/-- A module. -/
def modGet (s : State) (m : Nat) : Module := Table.get {} s.mods m

/-- Replace a module. -/
def modPut (m : Nat) (x : Module) (s : State) : State := { s with mods := Table.put {} s.mods m x }

/-- A module is held down (R304, R410): class UCIE with the work of its neck discarded (R31), UNIT_OUT, its four ports DOWN and
the flows that need them failed; it is tried again in 100 ms. -/
def moduleOut (m up : Nat) (s : State) : State :=
  let s := modPut m { modGet s m with state := 2, retryAt := s.time.gcount + 100000000 } s
  let s := raiseFault 5 (.module m) { coded := false } (lifted s 2 up (m / 8) (neckHit s (m / 8))) s
  let s := report (unitOut (.module m) 3) (unitRec 2 2 (.module m) 0 0 0) s
  (List.range 4).foldl (fun s i =>
    let p := 4 * m + i
    portLeaves p { portGet s p with state := 0, rev := 0, passed := none, confirmed := none, echoOut := false, echoMiss := 0, nextDisc := 0 } s) s

/-- UCIE_MODULE_DOWN (R304): a module that carried traffic cannot train at full width. -/
def execUcieModuleDown (m : FaultAt) (s : State) : Host.Outcome State Fault Refusal :=
  .next (
    if !regsUp s || decide (128 ≤ m.unit) || !((modGet s m.unit).state == 1 || (modGet s m.unit).state == 3) then s
    else settle (moduleOut m.unit m.up s))

/-- UCIE_RETRAIN (R410): each 100 ms the island tries a held-down module again; one that trains, with so many lanes
repaired, is back, and its ports run discovery. -/
def execUcieRetrain (m : Nat) (trained : Option Nat) (s : State) : Host.Outcome State Fault Refusal :=
  .next (
    let x := modGet s m
    if !regsUp s || decide (128 ≤ m) || x.state ≠ 2 || decide (s.time.gcount < x.retryAt) then s
    else match trained with
      | none => modPut m { x with retryAt := s.time.gcount + 100000000 } s
      | some lanes =>
        let s := modPut m { x with state := if s.ctl.state = .dormant then 3 else 1, retrains := x.retrains + 1, repaired := x.repaired + lanes } s
        report { kind := 0x13, sev := 1, detail := le 4 (unitLoc (.module m)).toNat ++ le 2 0 } (unitRec 2 1 (.module m) 0 0 0) s)

/-- LINK_RETRAIN (R303, R480): a module that is up retrains with lanes repaired, and carries on. -/
def execLinkRetrain (m lanes : Nat) (s : State) : Host.Outcome State Fault Refusal :=
  .next (
    let x := modGet s m
    if !regsUp s || decide (128 ≤ m) || x.state ≠ 1 then s
    else modPut m { x with retrains := x.retrains + 1, repaired := x.repaired + lanes } s)

end Sys2Proof.Machine
end

