-- ==== Sys2Proof/Machine/Power.lean ====
section
/-! DEFINITION. Temperature, the reference clock, and the refresh of the HBM (R384, R447 to R454, R460). -/

set_option Elab.async false

namespace Sys2Proof.Machine

/-! ## Temperature (R447 to R452, R454) -/

/-- The temperature state of a TEMP_DIE index. -/
def tempGet (s : State) (k : Nat) : Temp := Table.get {} s.power.temps k

/-- Replace it. -/
def tempPut (k : Nat) (x : Temp) (s : State) : State :=
  { s with power := { s.power with temps := Table.put {} s.power.temps k x } }

/-- The trip temperature of an index in °C (R447). -/
def tripOf (k : Nat) : Nat := if k < 80 then 110 else if k < 112 then 105 else 125

/-- The critical temperature of an index in °C; an HBM stack has no comparator (R447, R450). -/
def criticalOf (k : Nat) : Option Nat := if k < 80 then some 125 else if k < 112 then none else if k < 128 then some 140 else none

/-- The unit that a TEMP_DIE index names (R365, R414); a power-stage die is none. -/
def tempUnit (k : Nat) : FUnit :=
  if k < 16 then .neck k else if k < 80 then .die (k - 16) else if k < 112 then .stack (k - 80) else .none

/-- The die of an index is power-gated: a compute die that is asleep, or any while all are gated (R386, R390, R449, R454). -/
def tempGated (s : State) (k : Nat) : Bool :=
  decide (16 ≤ k) && decide (k < 80) && (s.power.gated || (Table.get {} s.dies (k - 16) : Die).state == 1)

/-- LEVEL and the runs of samples at or above warning and trip after a sample (R448, R449, R454). -/
def tempTake (warn trip : Nat) (t : BitVec 16) (x : Temp) : Temp :=
  let hot := decide (16 * (warn : Int) ≤ t.toInt)
  let above := decide (16 * (trip : Int) ≤ t.toInt)
  { valid := true, temp := t, level := if above then 2 else if hot then 1 else 0,
    warm := if hot then x.warm + 1 else 0, trip := if above then x.trip + 1 else 0 }

/-- Class HOT with its record; it sends no notice (R448, R415). -/
def raiseHot (k : Nat) (s : State) : State :=
  if s.fault.classes.getLsbD 10 then s
  else bbWrite { rkind := 1, sev := 1, rseq := 0, fcls := 10, loc := unitLoc (tempUnit k) } (setClass 10 s)

/-- TEMP_SAMPLE (R448, R449, R454): the hottest sensor of a die, signed, in 1/16 °C. -/
def execTempSample (index : Nat) (temp : BitVec 16) (s : State) : Host.Outcome State Fault Refusal :=
  .next (
    if !regsUp s || decide (128 ≤ index) || tempGated s index then s
    else
      let x := tempTake (warnOf s index) (tripOf index) temp (tempGet s index)
      let s := tempPut index x s
      let s := if 3 ≤ x.warm then raiseHot index s else s
      if 2 ≤ x.trip then thermalTrip s else s)

/-! ## Reference and refresh (R384, R449, R460) -/

/-- REFCLK_LOSS (R460): the reference stops for more than 1 µs from TUNING on. -/
def execRefclkLoss (stoppedNs : Nat) (s : State) : Host.Outcome State Fault Refusal :=
  .next (if regsUp s && decide (1000 < stoppedNs) then fatal 18 s else s)

/-- The refresh modes of the HBM stacks (R384). -/
inductive Refresh where
  | none | allBank | perBank | selfRefresh
  deriving DecidableEq, Repr

/-- The refresh mode in each island state (R384); after a thermal trip the stacks are in self-refresh (R449). -/
def refreshMode (s : State) : Refresh :=
  match s.ctl.state with
  | .off | .reset => .none
  | .tuning => .allBank
  | .ready | .running => .perBank
  | .faulted => if s.power.gated then .selfRefresh else .perBank
  | .dormant => .selfRefresh

end Sys2Proof.Machine
end

