-- ==== Sys2Proof/Machine/Tap.lean ====
section
/-! DEFINITION. The board's signals and the test access port (R378, R382, R394, R449, R457, R464; IEEE 1149.1, log entry 5). -/

set_option Elab.async false

namespace Sys2Proof.Machine

/-- The next controller state on a rising edge of TCK. -/
def tapNext (t : TapState) (tms : Bool) : TapState :=
  match t, tms with
  | .testLogicReset, true => .testLogicReset | .testLogicReset, false => .runTestIdle
  | .runTestIdle, true => .selectDr | .runTestIdle, false => .runTestIdle
  | .selectDr, true => .selectIr | .selectDr, false => .captureDr
  | .captureDr, true => .exit1Dr | .captureDr, false => .shiftDr
  | .shiftDr, true => .exit1Dr | .shiftDr, false => .shiftDr
  | .exit1Dr, true => .updateDr | .exit1Dr, false => .pauseDr
  | .pauseDr, true => .exit2Dr | .pauseDr, false => .pauseDr
  | .exit2Dr, true => .updateDr | .exit2Dr, false => .shiftDr
  | .updateDr, true => .selectDr | .updateDr, false => .runTestIdle
  | .selectIr, true => .testLogicReset | .selectIr, false => .captureIr
  | .captureIr, true => .exit1Ir | .captureIr, false => .shiftIr
  | .shiftIr, true => .exit1Ir | .shiftIr, false => .shiftIr
  | .exit1Ir, true => .updateIr | .exit1Ir, false => .pauseIr
  | .pauseIr, true => .exit2Ir | .pauseIr, false => .pauseIr
  | .exit2Ir, true => .updateIr | .exit2Ir, false => .shiftIr
  | .updateIr, true => .selectDr | .updateIr, false => .runTestIdle

/-- The instruction in force (R464): 0 BYPASS, 1 IDCODE, 2 SAMPLE/PRELOAD, 3 EXTEST, 4 HIGHZ, 5 CLAMP. The last three act only
while RESET_N is held low, and are BYPASS at any other time. -/
def tapInstr (s : State) : Nat :=
  let i := s.tap.instr
  if i ≤ 2 then i else if s.ctl.resetLow && decide (i ≤ 5) then i else 0

/-- The IDCODE register (R464). -/
def idcode : BitVec 32 := 0x2#4 ++ 0x0A64#16 ++ Config.jep106 ++ 1#1

/-- The bits of a number, lowest first. -/
def bitList (n x : Nat) : List Bool := (List.range n).map fun i => x.testBit i

/-! ## The board's signals (R378, R382, R394, R449, R457)

The C18 and OD signals by number: 0 RESET_N, 1 MASTER_SEL, 2 and 3 CASC_ID, 4 ISL_READY, 5 ISL_FAULT_N, 6 ISL_ALERT_N, 7 THERM_TRIP_N,
8 PEG_CS_N, 9 PEG_SCK, 10 PEG_RESET_N, 11 to 18 PEG_DQ, 19 PEG_DS, 20 TCK, 21 TMS, 22 TDI, 23 TRST_N, 24 TDO. -/

/-- EXTEST or CLAMP drives the outputs from the boundary chain (R464). -/
def scanDrives (s : State) : Bool := tapInstr s == 3 || tapInstr s == 5

/-- The cell of a signal in the boundary chain as updated. -/
def scanCell (s : State) (pin : Nat) : Bool := s.tap.latch.getD (Config.scanOrder.symm (Fin.ofNat 25 pin)).val false

/-- An output of the island: from the boundary chain under EXTEST and CLAMP, high-impedance under HIGHZ, else as the island drives it
(R464); none while it is high-impedance. -/
def output (s : State) (pin : Nat) (own : Option Bool) : Option Bool :=
  if scanDrives s then some (scanCell s pin) else if tapInstr s = 4 then none else own

/-- ISL_READY. -/
def islReady (s : State) : Option Bool :=
  output s 4 (match s.ctl.state with
    | .off | .reset => none
    | .tuning | .faulted => some false
    | .ready | .running | .dormant => some true)

/-- ISL_FAULT_N: low exactly while FAULTED. -/
def islFaultN (s : State) : Option Bool :=
  output s 5 (match s.ctl.state with
    | .off | .reset => none
    | .faulted => some false
    | _ => some true)

/-- ISL_ALERT_N: low while an enabled class is recorded, from TUNING on. -/
def islAlertN (s : State) : Option Bool :=
  output s 6 (if regsUp s then some (s.fault.classes &&& s.fault.alertEn == 0) else none)

/-- THERM_TRIP_N: low from a thermal trip or a critical shutdown until RESET. -/
def thermTripN (s : State) : Option Bool := output s 7 (if regsUp s then some (!s.power.tripLow) else none)

/-- Whether the island drives the pegbox signals; they are high-impedance else (R382). -/
def pegboxDriven (s : State) : Bool := scanDrives s || (regsUp s && tapInstr s ≠ 4)

/-- The level at a signal as the boundary chain samples it: what the island drives, and what the board drives on an input, which
nothing tells the island but RESET_N and the edge's own TMS and TDI. -/
def pinSample (e : TckEdge) (s : State) (pin : Nat) : Bool :=
  let board := Config.pinLevel s.freeCtr pin
  match pin with
  | 0 => !s.ctl.resetLow
  | 4 => (islReady s).getD board
  | 5 => (islFaultN s).getD board
  | 6 => (islAlertN s).getD board
  | 7 => (thermTripN s).getD board
  | 20 => e.rising
  | 21 => e.tms
  | 22 => e.tdi
  | 23 => true
  | 24 => s.tap.tdo.getD board
  | _ => if scanDrives s && decide (8 ≤ pin) && decide (pin ≤ 18) then scanCell s pin else board

/-! ## Registers of the port -/

/-- What CAPTURE-DR loads by the instruction in force. -/
def captureDr (e : TckEdge) (s : State) : List Bool :=
  match tapInstr s with
  | 1 => bitList 32 idcode.toNat
  | 2 | 3 => (List.finRange 25).map fun i => pinSample e s (Config.scanOrder i).val
  | _ => [false]

/-- The length of the instruction register (R464). -/
def irLength : Nat := 2 + Config.tapIrMore

/-- The instruction that a code names: all ones is BYPASS (IEEE 1149.1). -/
def tapDecode (code : List Bool) : Nat := if code.all id then 0 else Config.tapDecode code

/-- One shift towards TDO, TDI coming in at the far end. -/
def shiftIn (r : List Bool) (tdi : Bool) : List Bool := r.drop 1 ++ [tdi]

/-- What the state that a rising edge of TCK ends does: capture and shift. -/
def tapAct (t : Tap) (e : TckEdge) (s : State) : Tap :=
  match t.state with
  | .captureDr => { t with drSh := captureDr e s }
  | .shiftDr => { t with drSh := shiftIn t.drSh e.tdi }
  | .captureIr => { t with irSh := bitList irLength 1 }
  | .shiftIr => { t with irSh := shiftIn t.irSh e.tdi }
  | _ => t

/-- A rising edge of TCK. Test-Logic-Reset puts IDCODE in force. -/
def tapRise (e : TckEdge) (s : State) : State :=
  let t := tapAct s.tap e s
  let n := tapNext t.state e.tms
  let t := { t with state := n, instr := if n = .testLogicReset then 1 else t.instr }
  drawn { s with tap := t }

/-- A falling edge of TCK: TDO follows the register being shifted and is high-impedance while none is, and an UPDATE takes effect. -/
def tapFall (s : State) : State :=
  let t := { s.tap with tdo := none }
  { s with tap := match t.state with
    | .shiftDr => { t with tdo := some (t.drSh.headD false) }
    | .shiftIr => { t with tdo := some (t.irSh.headD false) }
    | .updateIr => { t with instr := tapDecode t.irSh }
    | .updateDr => if tapInstr s = 2 ∨ tapInstr s = 3 then { t with latch := t.drSh } else t
    | _ => t }

/-- TCK_EDGE (R464). -/
def execTckEdge (e : TckEdge) (s : State) : Host.Outcome State Fault Refusal :=
  .next (if e.rising then tapRise e s else tapFall s)

/-- TRST_LOW (R464): Test-Logic-Reset, without effect on the rest of the island. -/
def execTrstLow (s : State) : Host.Outcome State Fault Refusal :=
  .next { s with tap := { s.tap with state := .testLogicReset, instr := 1, tdo := none } }

end Sys2Proof.Machine
end

