-- ==== Sys2Proof/Machine/Reset.lean ====
section
/-! DEFINITION. RESET, power-good and tuning, supply and critical shutdown (R336, R361 to R374, R378 to R382, R441, R445, R450, R456, R462). -/

set_option Elab.async false

namespace Sys2Proof.Machine

/-! ## RESET (R378, R379, R445) -/

/-- Flash bytes of a range that hold something and were being erased: each may be anything (R418). -/
def flashHalfErased (off len : Nat) (s : State) : State :=
  let hit := (s.peg.flash.filter fun c => decide (off ≤ c.1) && decide (c.1 < off + len)).map (·.1)
  hit.foldl (fun s a => flashUnknown a 1 s) s

/-- What a RESET breaks off in the flash: a flush, a background erase, a pegbox command (R377, R418). -/
def flashBroken (s : State) : State :=
  let s := match s.fault.flush with | some f => flushBroken s f | none => s
  let s := if s.fault.erasing then flashHalfErased (slotBase (flushTarget s).1) 0x100000 s else s
  match s.peg.cmd with
  | some 1 => pegEndErase false s
  | some 2 => flashUnknown s.peg.runOff s.peg.runLen s
  | some 4 => pegEndCommit false s
  | _ => s

/-- The island in RESET (R378): everything is discarded, but the pegbox, the test access port, and the black-box ring with its
RSEQ while power is held (R416). -/
def wiped (held low : Bool) (s : State) : State :=
  let f := s.fault
  let kept : FaultSt := if held then { ring := f.ring, mirrorOnly := f.mirrorOnly, lostRecs := f.lostRecs, rseq := f.rseq } else {}
  { State.reset with
    pending := s.pending
    ctl := { state := .reset, resetLow := low }
    fault := kept
    peg := { flash := s.peg.flash }
    power := { stagesOff := s.power.stagesOff, lockout := s.power.lockout, critIn := s.power.critIn }
    tap := s.tap
    out := s.out
    freeCtr := s.freeCtr }

/-- The island enters RESET, with the record of the state change while its table SRAM keeps power (R415, R416). -/
def enterReset (held low : Bool) (s : State) : State :=
  if s.ctl.state = .reset ∨ s.ctl.state = .off then
    { s with ctl := { s.ctl with resetLow := s.ctl.resetLow || low }, fault := if held then s.fault else {} }
  else wiped held low (flashBroken (setState .reset s))

/-- A low pulse of RESET_N is recognised (R445): always from 50 ns, never up to 20 ns, and perhaps between (log entry 7). -/
def pulseTakes (s : State) (lowNs : Nat) : Bool := decide (50 ≤ lowNs) || (decide (20 < lowNs) && Config.pulseSeen s.freeCtr)

/-- RESET_ISLAND (R378, R379): RESET_N low, rails out of regulation, or a SWRESET whose time has come. -/
def execResetIsland (cause : ResetCause) (s : State) : Host.Outcome State Fault Refusal :=
  .next (match cause with
    | .pin lowNs => if pulseTakes s lowNs then enterReset true true (drawn s) else drawn s
    | .rails powerLost => enterReset (!powerLost) false s
    | .swreset => match s.ctl.swresetAt with
      | some t => if t ≤ s.time.gcount then enterReset true false s else s
      | none => s)

/-! ## Supply (R441, R450, R456) -/

/-- A power stage stops at a field voltage in tenths of a volt (R441). -/
def stageStops (v : Nat) : Bool := decide (v < 465 + Config.lockoutFalling.val) || decide (585 + Config.overvoltage.val < v)

/-- A field voltage has risen to the rising lockout (R441). -/
def aboveLockout (v : Nat) : Bool := decide (480 + Config.lockoutRising.val ≤ v)

/-- A sample of VIN from TUNING on (R441, R456): the register, and its bits after 10 µs outside the operating range. -/
def vinTake (v outsideNs : Nat) (s : State) : State :=
  let p := s.power
  let long := decide (10000 ≤ outsideNs)
  let noted := fun (b : Bool) (x : HwSet) (s : State) => if b then noteSet x s else s
  noted (long && decide (v < 500)) .vinLow <| noted (long && decide (580 < v)) .vinHigh <| drawn { s with power := { p with
    vin := min v 1023, pin := (Config.inputPower s.freeCtr).toNat,
    vinLow := p.vinLow || (long && decide (v < 500)), vinHigh := p.vinHigh || (long && decide (580 < v)) } }

/-- A sample of VIN in OFF and RESET: below the falling lockout the island is OFF, from the rising lockout on in RESET, and power
stages that VIN stopped may start; below 20 V for 100 ms it lets those start that a critical shutdown stopped (R450). -/
def vinAtRest (v outsideNs : Nat) (s : State) : State :=
  let p := s.power
  let off := !aboveLockout v && (stageStops v || s.ctl.state == .off)
  let still := p.stagesOff && !(decide (v < 200) && decide (100000000 ≤ outsideNs))
  { s with ctl := { s.ctl with state := if off then .off else .reset }
           power := { p with stagesOff := still, lockout := stageStops v || (p.lockout && !aboveLockout v) } }

/-- VIN_MONITOR (R441, R450, R456): the lowest field voltage in tenths of a volt, and for how long it has been outside the
operating range, or below 20 V. From TUNING on, a stage that it stops takes the island to RESET. -/
def execVinMonitor (tenthVolts outsideNs : Nat) (s : State) : Host.Outcome State Fault Refusal :=
  .next (
    if !regsUp s then vinAtRest tenthVolts outsideNs s
    else
      let s := vinTake tenthVolts outsideNs s
      if stageStops tenthVolts then enterReset false false { s with power := { s.power with lockout := true } } else s)

/-- CRITICAL_SHUTDOWN (R447, R450, R452): the comparator of a compute, base or power-stage die fires at its critical temperature.
THERM_TRIP_N goes low, and the power stages stop 20 µs later. -/
def execCriticalShutdown (die : CriticalDie) (s : State) : Host.Outcome State Fault Refusal :=
  .next (
    let fires := (criticalOf die.index).any fun (c : Nat) => decide ((c : Int) ≤ die.temp)
    if !fires || !regsUp s || s.power.critIn.isSome then s
    else { s with power := { s.power with tripLow := true, critIn := some 20000 } })

/-- All power stages stop after a critical shutdown (R450): the island is in RESET without a record or a flush, or stays in the state
without power that it has reached meanwhile. -/
def stagesStop (s : State) : State :=
  let s := { s with power := { s.power with stagesOff := true, critIn := none } }
  if regsUp s then wiped false s.ctl.resetLow (flashBroken s) else { s with fault := {} }

/-- A nanosecond of the 20 µs between the two steps of a critical shutdown. -/
def critTick (s : State) : State :=
  match s.power.critIn with
  | none => s
  | some n => if n ≤ 1 then stagesStop s else { s with power := { s.power with critIn := some (n - 1) } }

/-- The stages stop in this nanosecond, as no command waits. -/
def stagesEnd (s : State) : Bool := s.pending.isEmpty && s.power.critIn.any fun n => decide (n ≤ 1)

/-- A nanosecond passes while no command waits: the 20 µs of a critical shutdown, time, step 4 of R214 for the journals (log entry
72), and what the faults of the nanosecond before it decided. -/
def idle (s : State) : State := tellHits (completeJournals (nanosecond (critTick s)))

/-! ## Power-good (R336, R363, R378, R380, R462) -/

/-- POWER_GOOD (R380): the straps are sampled, BOOTNONCE is drawn, the counter runs from 0, and TUNING begins. A board
programmer may have changed the flash (R363). -/
def execPowerGood (p : PowerGood) (s : State) : Host.Outcome State Fault Refusal :=
  .next (
    if !(s.ctl.state == .reset || s.ctl.state == .off) || s.power.stagesOff || s.power.lockout then s
    else
      let flash := match p.flash with
        | some cs => cs.foldr (fun c t => Table.put 0xFF t c.1 c.2) []
        | none => s.peg.flash
      let nonce := (Config.entropy s.freeCtr).setWidth 32
      let s := setPeg { s.peg with flash } (drawn s)
      let s := { s with
        ctl := { s.ctl with masterSel := p.masterSel, cascId := p.cascId % 4, resetLow := false, bootnonce := nonce }
        time := { s.time with running := true, gcount := 0 } }
      setState .tuning s)

/-! ## Tuning (R361, R366, R367, R374, R380, R381) -/

/-- The trim record in use, whether it is copy B, and whether both copies pass and differ (R366). -/
def trimInUse (s : State) : Option (List Byte × Bool × Bool) :=
  let a := flashRead s 0 20544
  let b := flashRead s 0x10000 20544
  if trimOk a then some (a, false, trimOk b && a ≠ b) else if trimOk b then some (b, true, false) else none

/-- Every die's ring oscillator lies within 3 % of its ROSIG (R365, R366). A die without a measured ratio agrees. -/
def ringsAgree (trim : List Byte) (rs : List Nat) : Bool :=
  (List.range 80).all fun k =>
    let sig := fld trim (64 + 256 * k + 5) (64 + 256 * k + 2)
    let m := rs.getD k sig
    decide ((max m sig - min m sig) * 100 ≤ 3 * sig)

/-- The frets of a string that trim and the self-test retire (R365, R367). -/
def tunedRetired (trim : List Byte) (found : List (Nat × Nat)) (k : Nat) : BitVec 17 :=
  let o := 64 + 256 * (16 + k / 16)
  let old := BitVec.ofNat 17 (fld trim (o + 39) (o + 6) / 2 ^ (17 * (k % 16)))
  found.foldl (fun m f => if f.1 = k then m ||| BitVec.ofNat 17 (2 ^ f.2) else m) old

/-- The retired frets of a string, by number. -/
def retiredFrets (m : BitVec 17) : List Nat := (List.range 17).filter fun p => m.getLsbD p

/-- The spare map of a string at the end of tuning (R17, R367). -/
def tunedStr (m : BitVec 17) : Str := { retired := m, spareIn := (retiredFrets m).find? fun p => decide (p < 16) }

/-- The spare maps of every string. -/
def tuneStrings (trim : List Byte) (found : List (Nat × Nat)) (s : State) : State :=
  (List.range 1024).foldl (fun s k => strPut k (tunedStr (tunedRetired trim found k)) s) s

/-- Every string has at most one fret retired (R367). -/
def stringsServe (s : State) : Bool := s.strs.all fun e => decide ((retiredFrets e.2.retired).length ≤ 1)

/-- Black-box records that pass ECC in either copy stay, and RSEQ runs on from the newest of them (R416). -/
def tuneRing (survives : List Bool) (s : State) : State :=
  let marked := s.fault.ring.zipIdx.map fun e => (e.1.1, e.1.2, survives.getD e.2 true)
  let top := s.fault.rseq
  let good := (marked.filter (·.2.2)).filterMap (·.2.1)
  let newest := (sortBy (fun a b => decide ((top - a.rseq).toNat ≤ (top - b.rseq).toNat)) good).head?
  let rseq := match newest with | some r => rseqNext r.rseq | none => 1
  let lost := (marked.filter fun e => !e.2.2).map (·.1)
  let old := s.fault.lostRecs.filter fun p => !lost.contains p
  { s with fault := { s.fault with rseq, lostRecs := old ++ lost } }

/-- The lanes that training repaired in a module (R303). -/
def lanesRepaired (r : TuningResult) (m : Nat) : Nat := ((r.lanesRepaired.filter fun x => x.1 == m).map (·.2)).sum

/-- UCIe modules as trained (R303, R304, R480). -/
def tuneModules (r : TuningResult) (s : State) : State :=
  (List.range 128).foldl (fun s m =>
    if r.modulesDown.contains m then moduleOut m 0 s
    else modPut m { modGet s m with state := 1, repaired := (modGet s m).repaired + lanesRepaired r m } s) s

/-- The EYE of a lane at a PEAK during the sweep (R341): as tuning measures it. -/
def sweptEye (c : Nat) (r : TuningResult) (n peak : Nat) : Nat :=
  match (r.eyes.find? fun e => e.1 == 16 * c + n).bind fun e => e.2[peak]? with
  | some e => e % 256
  | none => (Config.eyeHeight c n peak).toNat

/-- The PEAK of the largest EYE over the sweep from 0 to 48, the lowest of several (R341; DESIGN CHOICE, log entry 41). -/
def sweptPeak (c : Nat) (r : TuningResult) (n : Nat) : Nat :=
  ((List.range 48).foldl (fun (b : Nat × Nat) p =>
    let e := sweptEye c r n (p + 1)
    if b.2 < e then (p + 1, e) else b) (0, sweptEye c r n 0)).1

/-- A lane as tuning leaves it (R341, R343): the PEAK with the largest EYE, and locked on its marker, whose LANEID it has read, or
not. -/
def tunedLane (c : Nat) (r : TuningResult) (g n : Nat) (l : Lane) : Lane :=
  let peak := sweptPeak c r n
  let l := { l with peak, tx := .active, rx := .align, eye := sweptEye c r n peak }
  match r.lanesAligned.find? fun x => x.1 == 16 * c + n with
  | some x => { l with laneId := x.2 % 16, amlock := true, markers := 4, markerAt := g, scram := scramSeed (x.2 % 16) }
  | none => { l with amlock := false, markers := 0 }

/-- Cascade lanes as tuned (R342, R343): the lanes of every port of KIND 3 wake; a lane that does not lock is reported. -/
def tuneCascade (r : TuningResult) (s : State) : State :=
  (List.range 4).foldl (fun s c =>
    if (wiringGet s (512 + c)).kind ≠ 3 || ownLink s c then s
    else
      let set := fun (k : Casc) =>
        rxDeskew { k with rxslp := 0, txslp := 0, lanes := k.lanes.zipIdx.map fun p => tunedLane c r s.time.gcount p.2 p.1 }
      let s := lanesChange c set s
      (List.range 16).foldl (fun s n =>
        if r.lanesAligned.any fun x => x.1 == 16 * c + n then s
        else notice { kind := 0x33, sev := 2, detail := le 1 c ++ le 1 n } s) s) s

/-- Straps that disagree with the image hold the cascade ports in QUARANTINE (R336). -/
def tuneStraps (s : State) : State :=
  if strapsAgree s then s
  else (List.range 4).foldl (fun s c =>
    let s := portPut (512 + c) { portGet s (512 + c) with state := 3, reason := 6 } s
    notice { kind := 0x31, sev := 2, detail := le 2 (512 + c) ++ le 1 6 } s) s

/-- The boot routes of an image go into the current routing copy (R372). -/
def tuneRoutes (img : List Byte) (s : State) : State :=
  let put := fun (t : Table Route) (i : Nat) => Table.put {} t (fld (bootRoute img i) 9 8) (routeParse (bootRoute img i))
  { s with routing := { s.routing with cur := (List.range (imageNroutes img)).foldl put [] } }

/-- The register list is written in order, up to the first write that is rejected (R372, R374). -/
def tuneRegs (img : List Byte) (s : State) : State :=
  (imageRegs img).foldl (fun s w => if s.ctl.reject then s else regWrite w s) s

/-- The island reaches READY (R381, R418): time and discovery start, and the next flush slot is erased. -/
def tuneReady (s : State) : State :=
  beginErase (settleState (setState .ready (timeModify (fun t => { t with nextExch := t.gcount }) s)))

/-- What tuning does once trim record and configuration copy are chosen. -/
def tuneWith (r : TuningResult) (trim img : List Byte) (copy : Nat) (s : State) : State :=
  let id := imageIdentity img (BitVec.ofNat 64 (fld trim 15 8))
  let s := { s with
    ctl := { s.ctl with id, pegcopy := copy }
    time := { s.time with rootReg := id.timeRoot, root := id.timeRoot }
    hbm := [] }
  let s := tuneStraps (tuneCascade r (tuneModules r (tuneStrings trim r.retired (tuneRoutes img s))))
  if !stringsServe s || !r.hbmOk || !r.tsramOk || !r.bridgesOk then fatal 26 s
  else
    let s := tuneRegs img s
    if s.ctl.reject then fatal 24 s else tuneReady s

/-- TUNING_COMPLETE (R380, R381): what tuning found decides between READY and FAULTED. -/
def execTuningComplete (r : TuningResult) (s : State) : Host.Outcome State Fault Refusal :=
  .next (
    if s.ctl.state ≠ .tuning then s
    else
      let s := tuneRing r.bbSurvives s
      if !r.flashOk then fatal 24 s
      else match trimInUse s with
        | none => fatal 25 s
        | some (trim, b, diff) =>
          let s := { s with ctl := { s.ctl with trimB := b, trimDiff := diff } }
          if !ringsAgree trim r.ringOsc then fatal 25 s
          else match activeCopy s (BitVec.ofNat 64 (fld trim 15 8)) with
            | none => fatal 24 s
            | some k => tuneWith r trim (copyBytes s k) k s)

end Sys2Proof.Machine
end

