-- ==== Sys2Proof/Machine/Windows.lean ====
section
/-! DEFINITION. Bandwidth windows (R434 to R437) and the end of the background erase (R418). -/

set_option Elab.async false

namespace Sys2Proof.Machine

/-- WFR, EN and THR of BW_CTL (R434). -/
def bwWfr (s : State) : Nat := bits s.obs.bwCtl.toNat 15 0
def bwEn (s : State) : Bool := s.obs.bwCtl.getLsbD 31
def bwThr (s : State) : Nat := bits s.obs.bwCtl.toNat 30 24

/-- A port record at the close of window `w`, and its sums cleared (R435, R436). -/
def bwClose (w : Nat) (b : BwPort) : BwPort :=
  { wnum := w
    words := [b.rxHi / 256 % 2 ^ 32, b.rxBulk / 256 % 2 ^ 32, b.txHi / 256 % 2 ^ 32, b.txBulk / 256 % 2 ^ 32, b.drops % 2 ^ 32, min b.maxq 0xFFFF] }

/-- The percentage of a port's capacity that a direction used in a window of `ns` nanoseconds, in whole percent (R437). -/
def bwPercent (p units ns : Nat) : Nat := units * 256 * 1000 / ((if p < 512 then 1000 else 3749) * ns)

/-- BW_ALERT for the directions of a port that reach the threshold (R437, R439). -/
def bwAlert (p w ns : Nat) (s : State) : State :=
  let b := bwGet s p
  let go := fun (dir : Nat) (units : Nat) (s : State) =>
    let pc := bwPercent p units ns
    if bwThr s ≤ pc then notice { kind := 0x29, sev := 1, detail := le 2 p ++ le 1 dir ++ le 1 (min pc 255) ++ le 8 w } s else s
  go 1 (b.words.getD 2 0 + b.words.getD 3 0) (go 0 (b.words.getD 0 0 + b.words.getD 1 0) s)

/-- The records of every port are rewritten, and the thresholds checked. -/
def bwRewrite (w : Nat) (s : State) : State :=
  let s := (List.range 516).foldl (fun s p => bwModify p (bwClose w) s) s
  if bwThr s = 0 then s
  else (List.range 516).foldl (fun s p => bwAlert p w (bwWfr s * frameNs s) s) s

/-- BW_WINDOW_CLOSE (R434, R435): at a tick that is a multiple of WFR frames the window that ends there is written, and the
next opens. -/
def execBwWindowClose (s : State) : Host.Outcome State Fault Refusal :=
  .next (
    let f := frameNo s
    let w := f / bwWfr s
    if !regsUp s || !bwEn s || !isTick s s.time.gcount || f % bwWfr s ≠ 0 || s.obs.bwOpen == some w then s
    else
      let s := if s.obs.bwOpen.map (· + 1) = some w then bwRewrite (w - 1) s else s
      let s := clearSums s
      { s with obs := { s.obs with bwOpen := some w } })

/-- BACKGROUND_ERASE_DONE (R418, R419): the target slot is erased. -/
def execBackgroundEraseDone (s : State) : Host.Outcome State Fault Refusal :=
  .next (if s.fault.erasing then
      let s := flashErase (slotBase (flushTarget s).1) 0x100000 s
      { s with fault := { s.fault with erasing := false, result := 0 } }
    else s)

end Sys2Proof.Machine
end

