-- ==== Sys2Proof/Machine/Dispatch.lean ====
section
/-! DEFINITION. The meaning of every command: one call for each row of spec/opcode_table.json. -/

namespace Sys2Proof.Machine

/-- The effect of a command on everything but the queue. -/
def exec (i : Instr) (s : State) : Host.Outcome State Fault Refusal :=
  match i with
  | .adminDoorbell a => Sys2Proof.Machine.execAdminDoorbell a s
  | .adminAseqTimeout slot => Sys2Proof.Machine.execAdminAseqTimeout slot s
  | .identify => Sys2Proof.Machine.execIdentify s
  | .createQueue => Sys2Proof.Machine.execCreateQueue s
  | .destroyQueue => Sys2Proof.Machine.execDestroyQueue s
  | .resetQueue => Sys2Proof.Machine.execResetQueue s
  | .queueDrained queue => Sys2Proof.Machine.execQueueDrained queue s
  | .loadChord => Sys2Proof.Machine.execLoadChord s
  | .loadSchedule body => Sys2Proof.Machine.execLoadSchedule body s
  | .startJob => Sys2Proof.Machine.execStartJob s
  | .jobStart job => Sys2Proof.Machine.execJobStart job s
  | .stopJob => Sys2Proof.Machine.execStopJob s
  | .hbmZeroizeDone => Sys2Proof.Machine.execHbmZeroizeDone s
  | .setEpochChord => Sys2Proof.Machine.execSetEpochChord s
  | .setEpochRouting => Sys2Proof.Machine.execSetEpochRouting s
  | .chordEpochSwap => Sys2Proof.Machine.execChordEpochSwap s
  | .routingEpochSwap => Sys2Proof.Machine.execRoutingEpochSwap s
  | .chordCopyRetire => Sys2Proof.Machine.execChordCopyRetire s
  | .routingCopyRetire => Sys2Proof.Machine.execRoutingCopyRetire s
  | .shadowOpen table => Sys2Proof.Machine.execShadowOpen table s
  | .readReg => Sys2Proof.Machine.execReadReg s
  | .writeReg => Sys2Proof.Machine.execWriteReg s
  | .snapshot => Sys2Proof.Machine.execSnapshot s
  | .snapshotSectionStart => Sys2Proof.Machine.execSnapshotSectionStart s
  | .restore => Sys2Proof.Machine.execRestore s
  | .sleepIsland => Sys2Proof.Machine.execSleepIsland s
  | .sleepDie => Sys2Proof.Machine.execSleepDie s
  | .sleepPort => Sys2Proof.Machine.execSleepPort s
  | .sleepTick => Sys2Proof.Machine.execSleepTick s
  | .wakeIsland => Sys2Proof.Machine.execWakeIsland s
  | .wakeDie => Sys2Proof.Machine.execWakeDie s
  | .wakePort => Sys2Proof.Machine.execWakePort s
  | .unitRejoin die => Sys2Proof.Machine.execUnitRejoin die s
  | .clearFault => Sys2Proof.Machine.execClearFault s
  | .descriptorRingWrite a => Sys2Proof.Machine.execDescriptorRingWrite a s
  | .doorbell a => Sys2Proof.Machine.execDoorbell a s
  | .descriptorStart queue => Sys2Proof.Machine.execDescriptorStart queue s
  | .descriptorReread queue => Sys2Proof.Machine.execDescriptorReread queue s
  | .syncAdd a => Sys2Proof.Machine.execSyncAdd a s
  | .syncSet a => Sys2Proof.Machine.execSyncSet a s
  | .clrfail a => Sys2Proof.Machine.execClrfail a s
  | .syncWait a => Sys2Proof.Machine.execSyncWait a s
  | .waitTimeout ctr tag => Sys2Proof.Machine.execWaitTimeout ctr tag s
  | .readRefused a => Sys2Proof.Machine.execReadRefused a s
  | .readRsp a => Sys2Proof.Machine.execReadRsp a s
  | .ack a => Sys2Proof.Machine.execAck a s
  | .partialPkt a => Sys2Proof.Machine.execPartialPkt a s
  | .wgradChunkTile a => Sys2Proof.Machine.execWgradChunkTile a s
  | .runningTileCombine queue dseq chunk => Sys2Proof.Machine.execRunningTileCombine queue dseq chunk s
  | .raw a => Sys2Proof.Machine.execRaw a s
  | .result a => Sys2Proof.Machine.execResult a s
  | .resultMeta a => Sys2Proof.Machine.execResultMeta a s
  | .stream a => Sys2Proof.Machine.execStream a s
  | .pizzContribution a => Sys2Proof.Machine.execPizzContribution a s
  | .pizzNode a => Sys2Proof.Machine.execPizzNode a s
  | .pizzRawRun a => Sys2Proof.Machine.execPizzRawRun a s
  | .pizzResult a => Sys2Proof.Machine.execPizzResult a s
  | .pizzDiscard a => Sys2Proof.Machine.execPizzDiscard a s
  | .pizzTimeout queue dseq => Sys2Proof.Machine.execPizzTimeout queue dseq s
  | .descriptorRelay a => Sys2Proof.Machine.execDescriptorRelay a s
  | .relayRefused a => Sys2Proof.Machine.execRelayRefused a s
  | .level a => Sys2Proof.Machine.execLevel a s
  | .discard a => Sys2Proof.Machine.execDiscard a s
  | .masksSatisfied a => Sys2Proof.Machine.execMasksSatisfied a s
  | .operationDone a => Sys2Proof.Machine.execOperationDone a s
  | .posterCompletion queue dseq => Sys2Proof.Machine.execPosterCompletion queue dseq s
  | .phaseFenceComplete queue fence => Sys2Proof.Machine.execPhaseFenceComplete queue fence s
  | .queueState a => Sys2Proof.Machine.execQueueState a s
  | .chordSectionData a => Sys2Proof.Machine.execChordSectionData a s
  | .chordEpochRelay a => Sys2Proof.Machine.execChordEpochRelay a s
  | .sectionChecked a => Sys2Proof.Machine.execSectionChecked a s
  | .tsyncReq a => Sys2Proof.Machine.execTsyncReq a s
  | .tsyncRsp a => Sys2Proof.Machine.execTsyncRsp a s
  | .tsyncExchange => Sys2Proof.Machine.execTsyncExchange s
  | .holdoverExpiry => Sys2Proof.Machine.execHoldoverExpiry s
  | .gcountLimit => Sys2Proof.Machine.execGcountLimit s
  | .hello a => Sys2Proof.Machine.execHello a s
  | .helloPeriod port => Sys2Proof.Machine.execHelloPeriod port s
  | .reply a => Sys2Proof.Machine.execReply a s
  | .confirm a => Sys2Proof.Machine.execConfirm a s
  | .portUp port => Sys2Proof.Machine.execPortUp port s
  | .quar a => Sys2Proof.Machine.execQuar a s
  | .echo a => Sys2Proof.Machine.execEcho a s
  | .echoRsp a => Sys2Proof.Machine.execEchoRsp a s
  | .echoPeriod port => Sys2Proof.Machine.execEchoPeriod port s
  | .qdepth a => Sys2Proof.Machine.execQdepth a s
  | .qdepthStale port => Sys2Proof.Machine.execQdepthStale port s
  | .e2eRetransmit dst tc psn => Sys2Proof.Machine.execE2eRetransmit dst tc psn s
  | .cascadeDataFlit port words => Sys2Proof.Machine.execCascadeDataFlit port words s
  | .cascadeIdleFlit port words => Sys2Proof.Machine.execCascadeIdleFlit port words s
  | .cascadeNakFlit port words => Sys2Proof.Machine.execCascadeNakFlit port words s
  | .cascadeReplayTimeout port => Sys2Proof.Machine.execCascadeReplayTimeout port s
  | .alignmentMarker port lane word => Sys2Proof.Machine.execAlignmentMarker port lane word s
  | .laneClockRecovered port lane => Sys2Proof.Machine.execLaneClockRecovered port lane s
  | .laneLockLoss port lane => Sys2Proof.Machine.execLaneLockLoss port lane s
  | .ucieModuleDown m => Sys2Proof.Machine.execUcieModuleDown m s
  | .ucieRetrain m trained => Sys2Proof.Machine.execUcieRetrain m trained s
  | .frameTick => Sys2Proof.Machine.execFrameTick s
  | .discardRelease => Sys2Proof.Machine.execDiscardRelease s
  | .frameLengthChange => Sys2Proof.Machine.execFrameLengthChange s
  | .chunkCommitPoint queue dseq plan => Sys2Proof.Machine.execChunkCommitPoint queue dseq plan s
  | .chunkComplete queue dseq plan => Sys2Proof.Machine.execChunkComplete queue dseq plan s
  | .replay queue dseq plan => Sys2Proof.Machine.execReplay queue dseq plan s
  | .fretFault string phys cause => Sys2Proof.Machine.execFretFault string phys cause s
  | .fretRetestDone string phys pass => Sys2Proof.Machine.execFretRetestDone string phys pass s
  | .spareSubstitution string => Sys2Proof.Machine.execSpareSubstitution string s
  | .stringFault string => Sys2Proof.Machine.execStringFault string s
  | .dieFault die cause => Sys2Proof.Machine.execDieFault die cause s
  | .dieReturnTest die pass => Sys2Proof.Machine.execDieReturnTest die pass s
  | .tsramError neck region addr => Sys2Proof.Machine.execTsramError neck region addr s
  | .hbmError stack region addr => Sys2Proof.Machine.execHbmError stack region addr s
  | .xbarFault neck => Sys2Proof.Machine.execXbarFault neck s
  | .corrected u errors => Sys2Proof.Machine.execCorrected u errors s
  | .fatalFault cls => Sys2Proof.Machine.execFatalFault cls s
  | .flush => Sys2Proof.Machine.execFlush s
  | .flushDone ok => Sys2Proof.Machine.execFlushDone ok s
  | .tempSample index temp => Sys2Proof.Machine.execTempSample index temp s
  | .criticalShutdown die => Sys2Proof.Machine.execCriticalShutdown die s
  | .vinMonitor tenthVolts outsideNs => Sys2Proof.Machine.execVinMonitor tenthVolts outsideNs s
  | .refclkLoss stoppedNs => Sys2Proof.Machine.execRefclkLoss stoppedNs s
  | .resetIsland cause => Sys2Proof.Machine.execResetIsland cause s
  | .powerGood p => Sys2Proof.Machine.execPowerGood p s
  | .tuningComplete r => Sys2Proof.Machine.execTuningComplete r s
  | .swresetWrite w => Sys2Proof.Machine.execSwresetWrite w s
  | .frameLenWrite w => Sys2Proof.Machine.execFrameLenWrite w s
  | .tsyncCtlWrite w => Sys2Proof.Machine.execTsyncCtlWrite w s
  | .gcountLoRead => Sys2Proof.Machine.execGcountLoRead s
  | .pmcLoRead ctr => Sys2Proof.Machine.execPmcLoRead ctr s
  | .pmcSelWrite w => Sys2Proof.Machine.execPmcSelWrite w s
  | .pmcValueWrite w => Sys2Proof.Machine.execPmcValueWrite w s
  | .pmcClear w => Sys2Proof.Machine.execPmcClear w s
  | .pmcArm w => Sys2Proof.Machine.execPmcArm w s
  | .pmcArmFire => Sys2Proof.Machine.execPmcArmFire s
  | .pmcFreeze w => Sys2Proof.Machine.execPmcFreeze w s
  | .bwWindowClose => Sys2Proof.Machine.execBwWindowClose s
  | .bwCtlWrite w => Sys2Proof.Machine.execBwCtlWrite w s
  | .smpCtlWrite w => Sys2Proof.Machine.execSmpCtlWrite w s
  | .pegErase => Sys2Proof.Machine.execPegErase s
  | .pegProgram => Sys2Proof.Machine.execPegProgram s
  | .pegVerify => Sys2Proof.Machine.execPegVerify s
  | .pegCommit => Sys2Proof.Machine.execPegCommit s
  | .pegCommandEnd flashOk => Sys2Proof.Machine.execPegCommandEnd flashOk s
  | .slipWrite w => Sys2Proof.Machine.execSlipWrite w s
  | .cascCtlWrite w => Sys2Proof.Machine.execCascCtlWrite w s
  | .meterWord0Write w => Sys2Proof.Machine.execMeterWord0Write w s
  | .meterStagedWrite w => Sys2Proof.Machine.execMeterStagedWrite w s
  | .routingShadowWrite w => Sys2Proof.Machine.execRoutingShadowWrite w s
  | .backgroundEraseDone => Sys2Proof.Machine.execBackgroundEraseDone s
  | .linkRetrain m lanes => Sys2Proof.Machine.execLinkRetrain m lanes s
  | .tckEdge e => Sys2Proof.Machine.execTckEdge e s
  | .trstLow => Sys2Proof.Machine.execTrstLow s

end Sys2Proof.Machine
end

