-- ==== Sys2Proof/Machine/Step.lean ====
section
/-! DEFINITION. One step of the island: the command at the front of the queue takes effect; while none
waits, a nanosecond passes (log entries 1 and 20). -/

set_option Elab.async false

namespace Sys2Proof.Machine

/-- One step. -/
def step (s : State) : Host.Outcome State Fault Refusal :=
  match s.pending with
  | c :: rest => exec c { s with pending := rest }
  | [] => .next (idle s)

/-- The state with the command that a table word spells put at the front of its queue. No word of the table
spells one (log entry 20). -/
def State.withFetchWord (s : State) (nbits w : Nat) : State :=
  match decodeTableWord nbits w with
  | some c => { s with pending := c :: s.pending }
  | none => s

end Sys2Proof.Machine
end

