-- ==== Sys2Proof/WellFormed.lean ====
section
/-! DEFINITION. Well-formed commands: every operand lies in the range its place in the machine gives it (a
field of a packet fits its bits, a unit number names a unit). A command that is not well formed stands for
nothing that can happen to the island. -/

set_option Elab.async false

namespace Sys2Proof

/-- A number fits in `n` bits. -/
def fits (n x : Nat) : Bool := decide (x < 2 ^ n)

/-- The common header fits its fields (R308). -/
def Hdr.wellFormed (h : Hdr) : Bool :=
  fits 8 h.ver && fits 3 h.tc && fits 2 h.color && fits 8 h.hlen && fits 16 h.src && fits 16 h.dst && fits 16 h.job

/-- A node extension fits its fields (R311). -/
def NodeExt.wellFormed (x : NodeExt) : Bool :=
  fits 16 x.group && fits 16 x.queue && fits 32 x.chunk && fits 32 x.eoff && fits 16 x.ecnt && fits 16 x.stepno &&
  fits 16 x.nodej && fits 8 x.nodel && fits 16 x.rcnt

/-- A PIZZ extension fits its fields (R311). -/
def PizzExt.wellFormed (x : PizzExt) : Bool :=
  fits 16 x.group && fits 16 x.queue && fits 8 x.sub && fits 8 x.nodel && fits 16 x.nodej && fits 16 x.rcnt &&
  fits 16 x.ecnt

/-- A DISC extension fits its fields (R353). -/
def DiscExt.wellFormed (x : DiscExt) : Bool :=
  fits 8 x.sub && fits 8 x.agreed && fits 2 x.portsel && fits 16 x.iport && fits 16 x.assign && fits 8 x.skind &&
  fits 2 x.cascId && fits 8 x.reason

/-- An extension fits its fields (R311, R312, R353). -/
def Ext.wellFormed : Ext → Bool
  | .write off => fits 48 off
  | .read off len _ => fits 48 off && fits 32 len
  | .readRsp _ st => fits 8 st
  | .ack _ _ credit => fits 32 credit
  | .node _ x => x.wellFormed
  | .resultMeta g q _ _ r => fits 16 g && fits 16 q && fits 8 r
  | .stream g w k _ ro => fits 16 g && fits 16 w && fits 8 k && fits 48 ro
  | .pizz x => x.wellFormed
  | .ctrl g q _ c _ => fits 16 g && fits 16 q && fits 8 c
  | .tsync sub _ r rq t2 t3 h => fits 8 sub && fits 32 r && fits 32 rq && fits 64 t2 && fits 64 t3 && fits 8 h
  | .disc x => x.wellFormed
  | .qdepth ds => ds.length == 4 && ds.all (fits 16)
  | .reserved t => fits 8 t && decide (t = 0 ∨ t = 0x0E ∨ 0x0F < t)

/-- A link names a module or a cascade port that exists (R9, R303). -/
def Link.wellFormed : Link → Bool
  | .module m => decide (m < 128)
  | .cascade c => decide (c < 4)

/-- An arrival: the packet fits its fields and its payload its PLEN (R308). -/
def Arrival.wellFormed (a : Arrival) : Bool :=
  a.link.wellFormed && a.pkt.hdr.wellFormed && a.pkt.ext.wellFormed && fits 13 a.pkt.payload.length

/-- A register address lies in the configuration space (R465). -/
def RegWrite.wellFormed (w : RegWrite) : Bool := fits 25 w.addr

/-- A queue number (R241). -/
def queueOk (q : Nat) : Bool := decide (1 ≤ q ∧ q < 8192)

/-- A port number (R9, R303). -/
def portOk (p : Nat) : Bool := decide (p < 516)

/-- A cascade port and lane (R340). -/
def laneOk (c n : Nat) : Bool := decide (c < 4) && decide (n < 16)

/-- The place of a fault: a unit below `n`, and no more failed controllers than there are levels above it (R32). -/
def FaultAt.wellFormed (f : FaultAt) (n levels : Nat) : Bool := decide (f.unit < n) && decide (f.up ≤ levels)

/-- A string (R13) and a physical fret position in it (R17). -/
def stringOk (k : Nat) : Bool := decide (k < 1024)
def fretOk (k p : Nat) : Bool := stringOk k && decide (p < 17)

/-- A range of tile IDs (R20). -/
def tileRange (r : Nat × Nat) : Bool := decide (r.1 < r.2) && decide (r.2 ≤ 131072)

/-- The ranges of a ZSI body's lists (R271): OPIDs are 16 bits, sync counters 16 bits, frames below NFRAMES. -/
def ZsiBody.wellFormed (b : ZsiBody) : Bool :=
  b.ops.all (fun o => fits 16 o.opid && fits 8 o.opcode && fits 13 o.group &&
    o.chunks.all fun c => decide (c.frame < b.nframes) && decide (c.neck < 16) && c.strings.all stringOk &&
      c.claims.all (fun d => decide (d.die < 64)) && c.tiles.all tileRange && c.uses.all (fun u => decide (u.neck < 16)) &&
      c.necks.all (fun n => decide (n < 16)) && c.dies.all (fun d => decide (d < 64)) && c.nodes.all fun x => decide (x.neck < 16)) &&
  b.queues.all (fun q => queueOk q.1) && b.cacheDies.all fun d => decide (d.2 < 64)

/-- Every operand of a command is in range. -/
def Instr.wellFormed : Instr → Bool
  | .adminDoorbell a => a.wellFormed
  | .adminAseqTimeout slot => decide (slot < 8)
  | .identify => true
  | .createQueue => true
  | .destroyQueue => true
  | .resetQueue => true
  | .queueDrained q => queueOk q
  | .loadChord => true
  | .loadSchedule body => (body.map ZsiBody.wellFormed).getD true
  | .startJob => true
  | .jobStart j => fits 16 j
  | .stopJob => true
  | .hbmZeroizeDone => true
  | .setEpochChord => true
  | .setEpochRouting => true
  | .chordEpochSwap => true
  | .routingEpochSwap => true
  | .chordCopyRetire => true
  | .routingCopyRetire => true
  | .shadowOpen t => decide (t < 2)
  | .readReg => true
  | .writeReg => true
  | .snapshot => true
  | .snapshotSectionStart => true
  | .restore => true
  | .sleepIsland => true
  | .sleepDie => true
  | .sleepPort => true
  | .sleepTick => true
  | .wakeIsland => true
  | .wakeDie => true
  | .wakePort => true
  | .unitRejoin d => decide (d < 64)
  | .clearFault => true
  | .descriptorRingWrite a => a.wellFormed
  | .doorbell a => a.wellFormed
  | .descriptorStart q => queueOk q
  | .descriptorReread q => queueOk q
  | .syncAdd a => a.wellFormed
  | .syncSet a => a.wellFormed
  | .clrfail a => a.wellFormed
  | .syncWait a => a.wellFormed
  | .waitTimeout c _ => fits 16 c
  | .readRefused a => a.wellFormed
  | .readRsp a => a.wellFormed
  | .ack a => a.wellFormed
  | .partialPkt a => a.wellFormed
  | .wgradChunkTile a => a.wellFormed
  | .runningTileCombine q _ _ => queueOk q
  | .raw a => a.wellFormed
  | .result a => a.wellFormed
  | .resultMeta a => a.wellFormed
  | .stream a => a.wellFormed
  | .pizzContribution a => a.wellFormed
  | .pizzNode a => a.wellFormed
  | .pizzRawRun a => a.wellFormed
  | .pizzResult a => a.wellFormed
  | .pizzDiscard a => a.wellFormed
  | .pizzTimeout q _ => queueOk q
  | .descriptorRelay a => a.wellFormed
  | .relayRefused a => a.wellFormed
  | .level a => a.wellFormed
  | .discard a => a.wellFormed
  | .masksSatisfied a => a.wellFormed
  | .operationDone a => a.wellFormed
  | .posterCompletion q _ => queueOk q
  | .phaseFenceComplete q _ => queueOk q
  | .queueState a => a.wellFormed
  | .chordSectionData a => a.wellFormed
  | .chordEpochRelay a => a.wellFormed
  | .sectionChecked a => a.wellFormed
  | .tsyncReq a => a.wellFormed
  | .tsyncRsp a => a.arrival.wellFormed && fits 7 a.masterLen
  | .tsyncExchange => true
  | .holdoverExpiry => true
  | .gcountLimit => true
  | .hello a => a.wellFormed
  | .helloPeriod p => portOk p
  | .reply a => a.wellFormed
  | .confirm a => a.wellFormed
  | .portUp p => portOk p
  | .quar a => a.wellFormed
  | .echo a => a.wellFormed
  | .echoRsp a => a.wellFormed
  | .echoPeriod p => portOk p
  | .qdepth a => a.wellFormed
  | .qdepthStale p => portOk p
  | .e2eRetransmit dst tc _ => fits 16 dst && fits 3 tc
  | .cascadeDataFlit c ws => decide (c < 4) && ws.length == 16 && ws.all (·.length == 68)
  | .cascadeIdleFlit c ws => decide (c < 4) && ws.length == 16 && ws.all (·.length == 68)
  | .cascadeNakFlit c ws => decide (c < 4) && ws.length == 16 && ws.all (·.length == 68)
  | .cascadeReplayTimeout c => decide (c < 4)
  | .alignmentMarker c n w => laneOk c n && w.length == 68
  | .laneClockRecovered c n => laneOk c n
  | .laneLockLoss c n => laneOk c n
  | .ucieModuleDown m => m.wellFormed 128 1
  | .ucieRetrain m _ => decide (m < 128)
  | .frameTick => true
  | .discardRelease => true
  | .frameLengthChange => true
  | .chunkCommitPoint q _ _ => queueOk q
  | .chunkComplete q _ _ => queueOk q
  | .replay q _ _ => queueOk q
  | .fretFault k p _ => fretOk k.unit p && k.wellFormed 1024 3
  | .fretRetestDone k p _ => fretOk k p
  | .spareSubstitution k => stringOk k
  | .stringFault k => k.wellFormed 1024 2
  | .dieFault d _ => d.wellFormed 64 1
  | .dieReturnTest d _ => decide (d < 64)
  | .tsramError n _ _ => n.wellFormed 16 1
  | .hbmError st _ _ => st.wellFormed 32 1
  | .xbarFault n => n.wellFormed 16 1
  | .corrected _ _ => true
  | .fatalFault _ => true
  | .flush => true
  | .flushDone _ => true
  | .tempSample i _ => decide (i < 128)
  | .criticalShutdown d => decide (d.index < 128)
  | .vinMonitor _ _ => true
  | .refclkLoss _ => true
  | .resetIsland _ => true
  | .powerGood p => fits 2 p.cascId
  | .tuningComplete _ => true
  | .swresetWrite w => w.wellFormed
  | .frameLenWrite w => w.wellFormed
  | .tsyncCtlWrite w => w.wellFormed
  | .gcountLoRead => true
  | .pmcLoRead i => decide (i < 1088)
  | .pmcSelWrite w => w.wellFormed
  | .pmcValueWrite w => w.wellFormed
  | .pmcClear w => w.wellFormed
  | .pmcArm w => w.wellFormed
  | .pmcArmFire => true
  | .pmcFreeze w => w.wellFormed
  | .bwWindowClose => true
  | .bwCtlWrite w => w.wellFormed
  | .smpCtlWrite w => w.wellFormed
  | .pegErase => true
  | .pegProgram => true
  | .pegVerify => true
  | .pegCommit => true
  | .pegCommandEnd _ => true
  | .slipWrite w => w.wellFormed
  | .cascCtlWrite w => w.wellFormed
  | .meterWord0Write w => w.wellFormed
  | .meterStagedWrite w => w.wellFormed
  | .routingShadowWrite w => w.wellFormed
  | .backgroundEraseDone => true
  | .linkRetrain m _ => decide (m < 128)
  | .tckEdge _ => true
  | .trstLow => true

end Sys2Proof
end

