-- ==== Sys2Proof/Safety.lean ====
section
/-! DEFINITION. What a safe run is: no step stops, every command that waits is well formed, and the invariants that every step
keeps. -/

set_option Elab.async false

namespace Sys2Proof.Machine

/-- A step goes on from a state. -/
def State.goesOn (s : State) : Prop := ∃ t, step s = .next t

/-- Every waiting command is well formed. -/
def State.queueOk (s : State) : Prop := s.pending.all Instr.wellFormed = true

/-- Island HBM and the pegbox flash are listed in canonical form: addresses strictly rising, and no byte that an unlisted
address reads as. -/
def State.memOk (s : State) : Prop := Memory.wf 0 s.hbm ∧ Memory.wf 0xFF s.peg.flash

/-- The island is FAULTED exactly while FAULT_CLASS holds a fatal class (R394). -/
def State.faultOk (s : State) : Prop := s.ctl.state = .faulted ↔ anyFatal s = true

/-! ## The terms that claims use -/

/-- The oldest executable admin command is `c`, its ACODE is this one, and the island's state permits it (R269, R387,
R412). -/
def adminTakes (acode : Nat) (c : AdminCmd) (s : State) : Prop :=
  s.admin.ready.head? = some c ∧ c.arg 1 1 = acode ∧ adminAllowed s.ctl.state acode = true

/-- The state once the oldest executable admin command has been taken. -/
def adminLeft (s : State) : State := { s with admin := { s.admin with ready := s.admin.ready.tail } }

/-- The image that the oldest command reads has come whole, as `bs`, with no READ failed and no byte lost (R272, R408). -/
def imageWhole (bs : List Byte) (s : State) : Prop :=
  ∃ i, s.net.image = some i ∧ i.failed = false ∧ i.damaged = false ∧ imageBytes i = bs ∧ i.want ≤ bs.length

/-- An arrival passes every check of R316, so that the rules of its type apply. -/
def accepts (a : Arrival) (s : State) : Prop := (receive a s).isOk = true

/-- The state that the rules of an accepted arrival's type start from: the arrival is counted, and metered (R316). -/
def accepted (a : Arrival) (s : State) : State :=
  match receive a s with
  | .ok t => t
  | .error t => t

/-- The operation `y` that a packet names, and the state `v` that holds it: one in flight, or one whose descriptor has not come, which
the packet enters (R165, R316). -/
def packetNames (q : Nat) (d : BitVec 32) (s : State) (y : Op) (v : State) : Prop :=
  y.status = none ∧ ((opFind s q d = some y ∧ v = s) ∨
    (opFind s q d = none ∧ endedEarly s q d = false ∧ shellOp s q d = some y ∧ v = { s with ops := s.ops ++ [y] }))

/-- The packet carries the chord-table epoch of the operation `y`, or one that it may settle (R109, R141): the operation then stands
as `o` in the state `t`. -/
def epochTakes (a : Arrival) (y : Op) (v : State) (o : Op) (t : State) : Prop :=
  (if y.fixed then a.pkt.hdr.cepoch = y.cepoch else (chordAt v a.pkt.hdr.cepoch).isSome = true) ∧
  t = bytesFor y.queue y.dseq (pktLen a.pkt) (fixEpoch y.queue y.dseq a.pkt.hdr.cepoch v) ∧ opFind t y.queue y.dseq = some o

/-- An arrival passes the checks of R316 and names an operation whose chord-table epoch it carries, or whose epoch it may settle:
the operation then stands as `o` in the state `t`. -/
def opTakes (a : Arrival) (q : Nat) (d : BitVec 32) (s : State) (o : Op) (t : State) : Prop :=
  accepts a s ∧ ∃ y v, packetNames q d (accepted a s) y v ∧ epochTakes a y v o t

/-- A PIZZ packet of a SUB passes the checks of R316, names a pizzicato operation of its group and carries `len` bytes for it; where it
may settle the operation's epoch, the island uses it there, as `uses` says (R165, R166, R316). The operation then stands as `o` in the
state `u`, its pizzicato part there. -/
def pizzTakes (sub : Nat) (a : Arrival) (s : State) (x : PizzExt) (len : State → Op → Nat) (uses : State → Op → Bool) (o : Op) (u : State) :
    Prop :=
  a.pkt.ext = .pizz x ∧ x.sub = sub ∧ accepts a s ∧
  ∃ y v t, packetNames x.queue x.dseq (accepted a s) y v ∧ y.zop.pizz = true ∧ y.group = x.group ∧
    a.pkt.payload.length = len (accepted a s) y ∧
    (y.fixed = false → uses (accepted a s) { y with fixed := true, cepoch := a.pkt.hdr.cepoch } = true) ∧
    epochTakes a y v o t ∧ u = pizzOpen o t

/-- The inputs of a pizzicato operation for some ordinals are in time, none of them is here already, and the island waits for each
(R159, R164, R165). -/
def pizzWaits (u : State) (o : Op) (ords : List Nat) (ecnt : Nat) : Prop :=
  ∃ p, pizzFind u o.queue o.dseq = some p ∧ pizzOverdue u p = false ∧ (∀ i ∈ ords, i ∉ p.arrived) ∧ ords ≠ [] ∧ ecnt = pizzCount o ∧
    ∀ i ∈ ords, i ∈ pizzNeeds (opGroup u o).nmem (opEntries u o) o

/-- A DISC packet of a SUB passes the checks of R316 on a wired port: the state `t` with its extension `x` and its port `p`. -/
def discTakes (sub : Nat) (a : Arrival) (s : State) (p : Nat) (x : DiscExt) (t : State) : Prop :=
  a.pkt.ext = .disc x ∧ x.sub = sub ∧ accepts a s ∧ t = accepted a s ∧ p = arrivalPort t a ∧ portWired t p = true

/-- A flit of an FTYPE arrives, good or corrected, on a direction that is ACTIVE (R346, R347): its fields `f`, and the state `t`
with its ACKSEQ taken. -/
def flitTakes (ftype c : Nat) (words : List (List Pam4)) (s : State) (f : Flit) (t : State) : Prop :=
  regsUp s = true ∧ c < 4 ∧ wordsWhole words = true ∧ (cascUp (cascGet s c)).2 = true ∧ f.ftype = ftype ∧
  ∃ n u, flitRead (laneFlit (cascGet s c) words).1 = some (some f, n) ∧
    u = { s with casc := Table.put {} s.casc c (laneFlit (cascGet s c) words).2 } ∧
    t = cascModify c (takeAck s.time.gcount f.ackseq) (if n = 0 then u else count 0x50 (4 * c) n (cascCtx c) u)

/-- Two states that differ only in what sending packets changes. -/
def onlyTransport (s t : State) : Prop :=
  t = { s with net := t.net, obs := t.obs, casc := t.casc, out := t.out, freeCtr := t.freeCtr }

/-- The commands at which a fatal class can be found (R42, R47, R49, R361, R366, R381, R392, R449, R460). -/
def mayFault : Instr → Bool
  | .fatalFault _ | .tempSample .. | .refclkLoss _ | .tsyncRsp .. | .holdoverExpiry | .gcountLimit | .tuningComplete _ => true
  | _ => false

/-- The commands that end FAULTED: CLEAR_FAULT, and what enters RESET (R378, R393, R441). -/
def mayLeaveFaulted : Instr → Bool
  | .clearFault | .resetIsland _ | .vinMonitor .. => true
  | _ => false

/-- The commands that write island HBM: ring writes and inline descriptors (R247, R249), running tiles drained into their dW region
(R195) or left unknown there by an overrun (R58), an error in a ring slot (R408), freed regions zeroized (R225), and what begins with
cleared memory (R378, R381, R441). -/
def writesHbm : Instr → Bool
  | .descriptorRingWrite _ | .doorbell _ | .runningTileCombine .. | .hbmError .. | .frameTick | .hbmZeroizeDone | .tuningComplete _
  | .resetIsland _ | .vinMonitor .. => true
  | _ => false

/-- The commands that write the pegbox flash: the end of a pegbox command, a flush or the background erase, what breaks one off,
and power-good, which names the flash's contents (R377, R380, R418). -/
def writesFlash : Instr → Bool
  | .pegCommandEnd _ | .flushDone _ | .backgroundEraseDone | .resetIsland _ | .vinMonitor .. | .powerGood _ => true
  | _ => false

/-- The events of the test access port (R464). -/
def drivesTap : Instr → Bool
  | .tckEdge _ | .trstLow => true
  | _ => false

/-- The commands that begin the global counter again (R40, R378, R441). -/
def restartsCount : Instr → Bool
  | .resetIsland _ | .vinMonitor .. | .powerGood _ => true
  | _ => false

/-- A packet whose every field fits its place on the wire, with the HLEN of its type and no reserved bit set (R308, R310). -/
def packetFits (p : Packet) : Bool :=
  p.hdr.wellFormed && p.ext.wellFormed && p.hdr.hlen == extHlen p.ext && p.hdr.rsvd == 0 && p.extRsvd == 0 &&
  fits 13 p.payload.length

/-- A flit whose every field fits its place on the wire (R347). -/
def flitFits (f : Flit) : Bool :=
  fits 8 f.sop && fits 16 f.cred && decide (f.ccls ≤ 5) && decide (f.ftype ≤ 2) && f.payload.length == 240

end Sys2Proof.Machine
end

