-- ==== Sys2Proof/Certificates/Slice0/Obligations.lean ====
section
/-! DEFINITION. The statements for the provers. Each says which rules of the spec it formalises. A completion statement gives, per row, the
conditions under which the row has its own effect and the whole next state by the shared operation that carries the rule; a row whose
conditions fail leaves the state (log entry 2), and those forms are not the concern of a completion statement. -/

set_option Elab.async false

open Sys2Proof Sys2Proof.Machine

/-- ADMIN_DOORBELL, ADMIN_ASEQ_TIMEOUT and IDENTIFY (R249, R250, R266, R267, R268). A doorbell with QUEUE 0 in TC1 hands each of its inline
commands in turn to `adminArrive`; the timeout row completes the missing ASEQ with MALFORMED, reason 0x05, and goes on; IDENTIFY writes the
identity block and no completion record. -/
def Obligations.AdminArrivalCompletes : Prop :=
  (∀ a s, isDoorbell a = true → (doorbellParse a.pkt.payload).queue = 0 → a.pkt.hdr.tc = 1 →
    adminDoorbellBad (doorbellParse a.pkt.payload) a.pkt.payload.length = false → accepts a s →
    exec (.adminDoorbell a) s =
      .next ((doorbellParse a.pkt.payload).inl.foldl (fun s b => adminArrive a.pkt.hdr.src b s) (commit a (accepted a s)))) ∧
  (∀ slot s, (∃ c ∈ s.admin.staged, c.slot = slot ∧ c.since + 1000000 ≤ s.time.gcount) →
    exec (.adminAseqTimeout slot) s =
      .next (takeStaged slot 64 (advanceAseq slot (adminComplete slot (nextAseq s slot) 5 (malformed 0x05 0).2 0 s)))) ∧
  (∀ c s, adminTakes 0x01 c s →
    exec .identify s =
      .next (sendWrite 1 c.src (c.arg 13 8) 0 (identityBlock (adminLeft s) c.slot) .other (adminLeft s)))

/-- CREATE_QUEUE, DESTROY_QUEUE, RESET_QUEUE and QUEUE_DRAINED (R242, R243, R245, R262, R263). A queue that CREATE_QUEUE's checks pass is IDLE with
its fields from the command and every sequence number at DSEQ0; the ring of its home island takes free room of its neck's window, the place
being an open value (log entry 7). The two drains discard the
queue's work and QUEUE_DRAINED ends them. -/
def Obligations.QueueAdminCompletes : Prop :=
  (∀ c s, adminTakes 0x02 c s → createFailure (adminLeft s) c = none →
    cacheFull (adminLeft s) (c.arg 9 8) (c.arg 17 16) = false →
    let home := bit (c.arg 15 15) 0
    let d0 := BitVec.ofNat 32 (c.arg 23 20)
    let made : Nat → QueueCtx := fun ring =>
      { state := .idle, job := c.arg 13 12, group := c.arg 11 10, poster := c.arg 19 18, home,
        pext := bit (c.arg 15 15) 1, mext := bit (c.arg 15 15) 2, log2sz := c.arg 14 14, prefetch := c.arg 17 16, ring,
        pcqOff := c.arg 29 24, mcqOff := c.arg 41 36, pxOff := c.arg 35 30, mxOff := c.arg 47 42, head := d0, tail := d0,
        startNext := d0, inlineTop := d0 }
    let all := liveRegions (adminLeft s)
    (home = false → exec .createQueue s = .next (adminDone c 0 0 0 (queuePut (c.arg 9 8) (made 0) (adminLeft s)))) ∧
    (∀ r, home = true →
      placeNeed s.freeCtr all { neck := c.arg 9 8 % 16, size := 64 * 2 ^ c.arg 14 14, use := .ring (c.arg 9 8) } = some r →
      exec .createQueue s =
        .next (adminDone c 0 0 r.base (queuePut (c.arg 9 8) (made r.base) (setRegions 1 (all ++ [r]) (adminLeft s)))))) ∧
  (∀ c s, adminTakes 0x03 c s → drainRefused s (c.arg 9 8) = false →
    exec .destroyQueue s = .next (settle (drainQueue (c.arg 9 8) 6 .absent (some (c.slot, c.aseq)) 0 (adminLeft s)))) ∧
  (∀ c s, adminTakes 0x04 c s → drainRefused s (c.arg 9 8) = false →
    exec .resetQueue s =
      .next (settle (drainQueue (c.arg 9 8) 1 .idle (some (c.slot, c.aseq)) (BitVec.ofNat 32 (c.arg 13 10)) (adminLeft s)))) ∧
  (∀ q s, drained s q = true → (queueGet s q).drainTo = some .idle →
    let x := queueGet s q
    let idle : QueueCtx :=
      { x with state := .idle, drainTo := none, drainSlot := none, ended := 0, head := x.nextDseq, tail := x.nextDseq,
               startNext := x.nextDseq, inlineTop := x.nextDseq, listPos := 0, done := [], errCause := 0 }
    let t := relayState q (queuePut q idle s)
    exec (.queueDrained q) s = .next (stopsDone (match x.drainSlot with
      | some (slot, aseq) => adminComplete slot aseq 0 0 x.ended t
      | none => t))) ∧
  (∀ q s, drained s q = true → (queueGet s q).drainTo ≠ some .idle →
    let x := queueGet s q
    let t := queuePut q {} (relayState q (queuePut q { x with state := .absent } s))
    exec (.queueDrained q) s = .next (stopsDone (match x.drainSlot with
      | some (slot, aseq) => adminComplete slot aseq 0 0 x.ended t
      | none => t)))

/-- LOAD_CHORD, LOAD_SCHEDULE, SET_EPOCH_CHORD and SET_EPOCH_ROUTING (R138, R140, R271, R331, R337, R487). LOAD_CHORD outside a cascade domain
fills the shadow table; LOAD_SCHEDULE admits the ZSI whose body the command carries (log entry 6) and gives its regions their room; a table's epoch is set to swap at its tick,
and in a domain the master relays it. -/
def Obligations.LoadsAndEpochsComplete : Prop :=
  (∀ c s bs rs l sh, adminTakes 0x05 c s → inDomain s = false → s.admin.domain = none → imageWhole bs s →
    (crc32 bs).toNat = c.arg 31 28 → loadStale s (c.arg 8 8) = false → chordRecords bs = some rs →
    recordsCheck s.ctl.cascId 0 rs = .ok l → shadowAfter (dropImage (adminLeft s)) l = .ok sh →
    exec .loadChord s = .next (adminDone c 0 0 rs.length (setShadow sh (dropImage (adminLeft s))))) ∧
  (∀ c s bs b all, adminTakes 0x06 c s → imageWhole bs s → (needsSpace (some (normalBody b)) = true → s.zeroize = 0) →
    (crc32 bs).toNat = c.arg 31 28 → 64 ≤ bs.length →
    admitFault (dropImage (adminLeft s)) (c.arg 11 10) (c.arg 8 8) bs.length (slice bs 0 64) (some (normalBody b)) = .ok all →
    let t := dropImage (adminLeft s)
    exec (.loadSchedule (some b)) s = .next (adminDone c 0 0 (normalBody b).ops.length
      (loadZsi (c.arg 11 10) (c.arg 8 8) (slice bs 0 64) (normalBody b)
        (setRegions (all.length - (liveRegions t).length) all t)))) ∧
  (∀ c s, adminTakes 0x09 c s → c.arg 8 8 = 0 → s.admin.domain = none → inDomain s = false →
    epochAccepted s s.chord (c.arg 9 9) (c.arg 23 16) = true →
    exec .setEpochChord s = .next (adminDone c 0 0 0
      { adminLeft s with chord := { s.chord with swapAt := some (c.arg 23 16) } })) ∧
  (∀ c s, adminTakes 0x09 c s → c.arg 8 8 = 0 → s.admin.domain = none → inDomain s = true → isMaster s = true →
    epochAccepted s s.chord (c.arg 9 9) (c.arg 23 16) = true →
    exec .setEpochChord s = .next (adminDone c 0 0 0
      ((domainPeers s).foldl (fun s p => sendDomain p 0x09 (BitVec.ofNat 64 (c.arg 23 16 / frameNs s)) [] s)
        { adminLeft s with chord := { s.chord with swapAt := some (c.arg 23 16) } }))) ∧
  (∀ c s, adminTakes 0x09 c s → c.arg 8 8 = 1 →
    epochAccepted s s.routing (c.arg 9 9) (c.arg 23 16) = true →
    exec .setEpochRouting s = .next (adminDone c 0 0 0
      { adminLeft s with routing := { s.routing with swapAt := some (c.arg 23 16) } }))

/-- CHORD_EPOCH_SWAP, ROUTING_EPOCH_SWAP, CHORD_COPY_RETIRE, ROUTING_COPY_RETIRE and SHADOW_OPEN (R60, R140, R331, R334). A swap makes the shadow
the current table at its place in the order of a tick; a copy retires when nothing of its epoch is left; the shadow opens as a copy of the
current table. -/
def Obligations.TableEpochsComplete : Prop :=
  (∀ s, stepTurn 4 s = true → ∃ t, exec .chordEpochSwap s = .next t ∧
    t = { s with chord := swapTable s.time.gcount s.chord, dies := t.dies, ops := t.ops }) ∧
  (∀ s, stepTurn 3 s = true → ∃ t, exec .routingEpochSwap s = .next t ∧
    onlyTransport { s with routing := swapTable s.time.gcount s.routing, dies := t.dies, ops := t.ops,
                           peg := { s.peg with failed := t.peg.failed } } t ∧
    t.ops.map (fun o => { o with bytesOut := 0 }) = s.ops.map fun o => { o with bytesOut := 0 }) ∧
  (∀ s c e since, s.chord.retiring = some (c, e, since) → (∀ o ∈ s.ops, usesChord e o = false) →
    (∀ p ∈ s.pizzOps, pizzIn e p = false) →
    exec .chordCopyRetire s = .next (settle { s with chord := { s.chord with retiring := none } })) ∧
  (∀ s c e since, s.routing.retiring = some (c, e, since) → inFlight s e = [] →
    exec .routingCopyRetire s = .next (settle { s with routing := { s.routing with retiring := none } })) ∧
  (∀ s, s.chord.open_ = false → s.chord.retiring = none →
    exec (.shadowOpen 0) s = .next { s with chord := { s.chord with shadow := s.chord.cur, open_ := true } }) ∧
  (∀ s, s.routing.open_ = false → s.routing.retiring = none →
    exec (.shadowOpen 1) s = .next { s with routing := { s.routing with shadow := s.routing.cur, open_ := true } })

/-- START_JOB, JOB_START, STOP_JOB and HBM_ZEROIZE_DONE (R62, R64, R65, R225, R296). What waits for the end of zeroizing, and that it clears
what the model holds of the freed regions, is said in log entry 68. -/
def Obligations.JobCommandsComplete : Prop :=
  (∀ c s, adminTakes 0x07 c s → isTick s (c.arg 23 16) = true → sleepsBefore s (c.arg 23 16) = false →
    startFits s (c.arg 9 8) (c.arg 23 16) (c.arg 11 10) = true →
    exec .startJob s = .next (adminDone c 0 0 (c.arg 23 16 / frameNs s) (jobPut (c.arg 9 8)
      { seed := BitVec.ofNat 64 (c.arg 31 24), armed := some (c.arg 23 16), mask := c.arg 11 10 } (adminLeft s)))) ∧
  (∀ job s t, stepTurn 7 s = true → (jobGet s job).armed = some t → t ≤ s.time.gcount →
    exec (.jobStart job) s =
      .next (jobsRun (jobPut job { jobGet s job with armed := none, f0 := some (t / frameNs s) } s))) ∧
  (∀ c s, adminTakes 0x08 c s →
    let t := settle (stopJob (c.arg 9 8) (adminLeft s))
    exec .stopJob s =
      .next (stopsDone { t with admin := { t.admin with stops := t.admin.stops ++ [(c, c.arg 9 8, t.time.gcount)] } })) ∧
  (∀ s, s.zeroize ≠ 0 → s.ctl.state ≠ .dormant → exec .hbmZeroizeDone s = .next (zeroizeFreed s) ∧
    (zeroizeFreed s).zeroize = 0 ∧ freedRegions (zeroizeFreed s) = [] ∧
    ∀ a, Table.get 0 (zeroizeFreed s).hbm a =
      if (freedRegions s).any fun r => decide (r.base ≤ a) && decide (a < r.base + r.size) then 0 else Table.get 0 s.hbm a)

/-- READ_REG and WRITE_REG (R271, R467, R468, R469). -/
def Obligations.RegisterCommandsComplete : Prop :=
  (∀ c s, adminTakes 0x0A c s → c.arg 11 8 % 4 = 0 → 1 ≤ c.arg 13 12 → c.arg 13 12 ≤ 1024 →
    (∀ i < c.arg 13 12, inBlock (c.arg 11 8 + 4 * i) = true) →
    let r := regReads (c.arg 13 12) (c.arg 11 8) (adminLeft s)
    exec .readReg s = .next (adminSettle (adminAwait c 0 (r.1.headD 0).toNat
      (sendWrites 1 c.src (c.arg 23 18) 0 (r.1.flatMap fun v => le 4 v.toNat) (adminData c) r.2)))) ∧
  (∀ c s, adminTakes 0x0B c s → c.arg 11 8 % 4 = 0 → inBlock (c.arg 11 8) = true →
    let t := regWrite { addr := c.arg 11 8, value := BitVec.ofNat 32 (c.arg 15 12), mask := BitVec.ofNat 32 (c.arg 19 16) } (adminLeft s)
    exec .writeReg s = .next (adminDone c 0 0 (regValue t (c.arg 11 8)).toNat t))

/-- SNAPSHOT, SNAPSHOT_SECTION_START and RESTORE (R222, R223, R224). -/
def Obligations.SnapshotAndRestoreComplete : Prop :=
  (∀ c s, adminTakes 0x0C c s → c.arg 8 8 = 1 → (∀ e ∈ jobCounters s (c.arg 11 10), e.2.err = false) →
    let body := jobBody s (c.arg 11 10)
    exec .snapshot s = .next (writeSection c
      (sectionHead 1 0 0 0 0 0 0 (jobGet s (c.arg 11 10)).seed.toNat body) body (adminLeft s))) ∧
  (∀ c s h, adminTakes 0x0C c s → c.arg 8 8 = 2 → cmdShard (completeJournals s) c = some h → firstLost h = none →
    let t := completeJournals (adminLeft s)
    exec .snapshot s = .next { t with admin := { t.admin with snaps := t.admin.snaps ++ [c] } }) ∧
  (∀ c s h, isTick s s.time.gcount = true → s.admin.snaps.find? (snapReady s) = some c →
    cmdShard (completeJournals s) c = some h → firstLost h = none →
    exec .snapshotSectionStart s = .next (writeSection c
      (sectionHead 2 h.sdef.opt h.sdef.ofmt h.sdef.wtensor h.epoch.toNat h.sdef.e0 h.sdef.nb 0 (shardBody h)) (shardBody h)
      (completeJournals { s with admin := { s.admin with snaps := s.admin.snaps.filter (· ≠ c) } }))) ∧
  (∀ c s bs, adminTakes 0x0D c s → c.arg 8 8 = 1 → imageWhole bs s → restoreHeld (adminLeft s) c = false → restoreFault (adminLeft s) c (bs.take 64) = none →
    64 + fld (bs.take 64) 55 48 ≤ bs.length → (crc32 (bs.drop 64)).toNat = fld (bs.take 64) 47 44 →
    exec .restore s = .next (restoreJob c (bs.take 64) (bs.drop 64) (completeJournals (dropImage (adminLeft s))))) ∧
  (∀ c s bs h x, adminTakes 0x0D c s → c.arg 8 8 = 2 → imageWhole bs s → restoreHeld (adminLeft s) c = false → restoreFault (adminLeft s) c (bs.take 64) = none →
    64 + fld (bs.take 64) 55 48 ≤ bs.length → (crc32 (bs.drop 64)).toNat = fld (bs.take 64) 47 44 →
    cmdShard s c = some h → cmdShard (completeJournals s) c = some x →
    exec .restore s = .next (restoreShard c x (bs.take 64) (bs.drop 64) (completeJournals (dropImage (adminLeft s)))))

/-- SLEEP_ISLAND, SLEEP_DIE, SLEEP_PORT, SLEEP_TICK, WAKE_ISLAND, WAKE_DIE, WAKE_PORT and UNIT_REJOIN (R385, R386, R388, R389, R390). WAKE takes
effect at once (log entry 34). -/
def Obligations.SleepAndWakeCommandsComplete : Prop :=
  (∀ c s, adminTakes 0x0E c s → c.arg 8 8 = 0 → c.arg 11 10 = 0 → isTick s (c.arg 23 16) = true →
    s.time.gcount + 10000 ≤ c.arg 23 16 → sleepAllowed s 0 0 (c.arg 23 16) = true →
    exec .sleepIsland s = .next { adminLeft s with
      admin := { (adminLeft s).admin with sleeps := s.admin.sleeps ++ [(c, 0, 0, c.arg 23 16)] } }) ∧
  (∀ c s, adminTakes 0x0E c s → c.arg 8 8 = 1 → c.arg 11 10 < 64 → isTick s (c.arg 23 16) = true →
    s.time.gcount + 10000 ≤ c.arg 23 16 → sleepAllowed s 1 (c.arg 11 10) (c.arg 23 16) = true →
    exec .sleepDie s = .next { adminLeft s with
      admin := { (adminLeft s).admin with sleeps := s.admin.sleeps ++ [(c, 1, c.arg 11 10, c.arg 23 16)] } }) ∧
  (∀ c s, adminTakes 0x0E c s → c.arg 8 8 = 2 → c.arg 11 10 < 4 → isTick s (c.arg 23 16) = true →
    s.time.gcount + 10000 ≤ c.arg 23 16 → sleepAllowed s 2 (c.arg 11 10) (c.arg 23 16) = true →
    exec .sleepPort s = .next { adminLeft s with
      admin := { (adminLeft s).admin with sleeps := s.admin.sleeps ++ [(c, 2, c.arg 11 10, c.arg 23 16)] } }) ∧
  (∀ s c target unit tick, s.admin.sleeps = [(c, target, unit, tick)] → sleepDue s (c, target, unit, tick) = true →
    sleepAllowed s target unit tick = true →
    exec .sleepTick s = .next (adminDone c 0 0 0 (sleepNow target unit { s with admin := { s.admin with sleeps := [] } }))) ∧
  (∀ c s, adminTakes 0x0F c s → c.arg 8 8 = 0 → c.arg 11 10 = 0 →
    let t := dropSleeps (fun x => x.2.1 == 0 && x.2.2.1 == 0) (adminLeft s)
    t.ctl.state = .dormant → exec .wakeIsland s = .next (adminDone c 0 0 0 (wakeNow t))) ∧
  (∀ c s, adminTakes 0x0F c s → c.arg 8 8 = 1 → c.arg 11 10 < 64 →
    let t := dropSleeps (fun x => x.2.1 == 1 && x.2.2.1 == c.arg 11 10) (adminLeft s)
    (Table.get {} t.dies (c.arg 11 10)).state = 1 →
    exec .wakeDie s = .next (adminDone c 0 0 0
      (loseDieClaims (usesDie (c.arg 11 10)) 0 (dieModify (c.arg 11 10) (dieBack t.time.gcount) t)))) ∧
  (∀ c s, adminTakes 0x0F c s → c.arg 8 8 = 2 → c.arg 11 10 < 4 →
    let t := dropSleeps (fun x => x.2.1 == 2 && x.2.2.1 == c.arg 11 10) (adminLeft s)
    portAsleep t (c.arg 11 10) = true →
    exec .wakePort s = .next (adminDone c 0 0 0 (sleepBits (c.arg 11 10) 0 0 t))) ∧
  (∀ d s, stepTurn 6 s = true → rejoinDue s (Table.get {} s.dies d) = true →
    exec (.unitRejoin d) s = .next (dieModify d (fun x => { x with rejoin := none }) s))

/-- DESCRIPTOR_RING_WRITE, DOORBELL, DESCRIPTOR_START and DESCRIPTOR_REREAD (R243, R250, R252, R253, R255). A fetched descriptor is started, with
the checks of R255, by `startFetched`. -/
def Obligations.DescriptorArrivalCompletes : Prop :=
  (∀ a s off q x, ringWrite? a = some off → accepts a s → ringQueue (accepted a s) off a.pkt.payload.length = some (q, x) →
    a.pkt.hdr.tc = 1 → a.pkt.hdr.src = x.poster →
    exec (.descriptorRingWrite a) s = .next (commit a (hbmWrite off a.pkt.payload
      (countWrite (q % 16) a.pkt.payload.length a.pkt.hdr.job (accepted a s))))) ∧
  (∀ a s, isDoorbell a = true → accepts a s → a.pkt.hdr.tc = 1 →
    let d := doorbellParse a.pkt.payload
    d.queue ≠ 0 → doorbellDropped (queueGet (accepted a s) d.queue) a.pkt.hdr.src a.pkt.payload.length d = false →
    exec (.doorbell a) s = .next (settle (doorbellTake d.queue d (commit a (accepted a s))))) ∧
  (∀ q s f, queueStarts (queueGet s q) = true → s.ctl.state ≠ .faulted → nextFetched (queueGet s q) = some f →
    exec (.descriptorStart q) s = .next (settle (startFetched q f s))) ∧
  (∀ q s f, queueStarts (queueGet s q) = true → s.ctl.state ≠ .faulted → nextFetched (queueGet s q) = none →
    mayFetch (queueGet s q) = true →
    let t := fetchEntry q (queueGet s q).startNext s
    nextFetched (queueGet t q) = some f → exec (.descriptorStart q) s = .next (settle (startFetched q f t))) ∧
  (∀ q s at_ since, (queueGet s q).rereadAt = some at_ → (queueGet s q).rereadSince = some since →
    queueStarts (queueGet s q) = true → at_ ≤ s.time.gcount →
    let t := fetchEntry q (queueGet s q).startNext s
    ((queueGet t q).rereadAt = none ∨ s.time.gcount < since + 64000) → exec (.descriptorReread q) s = .next t)

/-- SYNC_ADD, SYNC_SET, CLRFAIL, WAIT and WAIT_TIMEOUT (R281, R283, R284, R287, R289, R290). -/
def Obligations.SyncMessagesComplete : Prop :=
  (∀ a s, isSync a = true → a.pkt.payload.length = 32 → a.pkt.hdr.tc = 1 → accepts a s →
    let m := syncParse a.pkt.payload
    let t := commit a (accepted a s)
    let x := ctrGet t m.ctr
    jobStopped (accepted a s) m.job = false →
    syncSender (accepted a s) (((ctrGet (accepted a s) m.ctr).owner).getD m.job) a.pkt.hdr.src = true →
    syncFailure t m = none →
    (m.sop = 1 → x.err = false → x.sat = false → x.value.toNat + m.value.toNat ≤ ctrMax.toNat →
      exec (.syncAdd a) s = .next (ctrChange m.ctr (addValue x m.value) t)) ∧
    (m.sop = 2 → x.err = false → x.sat = false → x.value.toNat ≤ m.value.toNat →
      exec (.syncSet a) s = .next (ctrChange m.ctr (setValue x m.value) t)) ∧
    (m.sop = 4 → x.err = false → exec (.clrfail a) s = .next (ctrPut m.ctr { x with fail := false } t)) ∧
    (m.sop = 3 → x.err = false → satisfied m.value x = true →
      exec (.syncWait a) s = .next (sendRelease 0 0 m.ctr m.job m.tag x a.pkt.hdr.src m.retOff t)) ∧
    (m.sop = 3 → x.err = false → satisfied m.value x = false → neckWaiters t (m.ctr % 16) < 1024 →
      exec (.syncWait a) s = .next { t with waiters := t.waiters ++
        [{ ctr := m.ctr, job := m.job, exp := m.value, tag := m.tag, chip := a.pkt.hdr.src, retOff := m.retOff,
           expiry := if m.tmo = 0 then none else some (t.time.gcount + 1000 * m.tmo) }] })) ∧
  (∀ ctr tag s w, s.waiters.filter (waitDue s ctr tag) = [w] →
    exec (.waitTimeout ctr tag) s = .next (sendRelease 1 0x10 ctr w.job tag (ctrGet s ctr) w.chip w.retOff
      { s with waiters := s.waiters.filter fun w => !waitDue s ctr tag w }))

/-- READ_REFUSED, READ_RSP, ACK and E2E_RETRANSMIT (R318, R319, R321, R438). That a READ to the island is answered in its own class is the model's
reading (log entry 30). -/
def Obligations.TransportRowsComplete : Prop :=
  (∀ a s off len tag, a.pkt.ext = .read off len tag → accepts a s →
    let t := count 0x2C (linkNeck a.link) 1 (arrivalPC (accepted a s) a) (commit a (accepted a s))
    exec (.readRefused a) s = .next (send
      { pkt := { hdr := ownHdr t a.pkt.hdr.tc a.pkt.hdr.src (.readRsp tag 1) a.pkt.hdr.job a.pkt.hdr.cepoch, ext := .readRsp tag 1 },
        why := .other } t)) ∧
  (∀ a s tag r, a.pkt.ext = .readRsp tag 0 → accepts a s → readOf (accepted a s) a tag = some r →
    readLate (accepted a s) r = false → a.pkt.payload.length = r.len →
    let t := accepted a s
    let u := { t with net := { t.net with reads := t.net.reads.filter fun x => decide (x.rtag ≠ tag) } }
    exec (.readRsp a) s =
      .next (settle (drain a.pkt.hdr.src a.pkt.hdr.tc (readTaken true r a.pkt.payload (commit a u))))) ∧
  (∀ a s cum sack credit f, a.pkt.ext = .ack cum sack credit → accepts a s →
    (accepted a s).net.tx.find? (fun f => f.dst == a.pkt.hdr.src && f.tc == a.pkt.hdr.tc) = some f →
    exec (.ack a) s = .next (afterAck a.pkt.hdr.src a.pkt.hdr.tc (txPut (ackFlow cum sack credit f) (accepted a s)))) ∧
  (∀ s dst tc psn f u, s.net.tx.find? (fun f => f.dst == dst && f.tc == tc) = some f →
    f.unacked.find? (fun u => decide (u.psn = psn)) = some u → retryDue s f u = true → regsUp s = true →
    exec (.e2eRetransmit dst tc psn) s = .next (if u.sends < u.tries then resend f u s else flowFail f [] s))

/-- PARTIAL, RAW, RESULT and RESULT_META (R111, R121, R144, R145, R148). -/
def Obligations.BulkPacketsComplete : Prop :=
  (∀ a s x o t, a.pkt.ext = .node .partialNode x → x.pflags.getLsbD 5 = false → opTakes a x.queue x.dseq s o t →
    (x.pflags.getLsbD 7 = true → jobIsDet t o.job = false) → inputFits (opGroup t o).nmem o x = true →
    exec (.partialPkt a) s = .next (stagePieces o.queue o.dseq [partialPiece x a.pkt.payload] (commit a t))) ∧
  (∀ a s x o t, a.pkt.ext = .node .raw x → opTakes a x.queue x.dseq s o t →
    elemsForm o.zop.fmt x x.rcnt a.pkt.payload.length = true → inputFits (opGroup t o).nmem o x = true →
    exec (.raw a) s = .next (stagePieces o.queue o.dseq ((List.range x.rcnt).map fun r =>
      { step := x.stepno, chunk := x.chunk, place := .leaf (x.nodej + r), off := x.eoff, len := x.ecnt,
        data := .elems ((a.pkt.payload.drop (r * fmtBytes o.zop.fmt x.ecnt)).take (fmtBytes o.zop.fmt x.ecnt)) })
      (commit a t))) ∧
  (∀ a s x o t p, a.pkt.ext = .node .result x → opTakes a x.queue x.dseq s o t → o.home = false →
    (!isMx (outFmt o) || isEntry o.zop || (x.ecnt % 1024 == 0 && x.eoff % 1024 == 0)) = true →
    a.pkt.payload.length = unitBytes o x.eoff x.ecnt →
    partAt (opGroup t o).nmem o x.chunk x.nodej x.eoff x.ecnt = some p →
    exec (.result a) s = .next (takeResult o x p a.pkt.payload (commit a t))) ∧
  (∀ a s g q d f r o t, a.pkt.ext = .resultMeta g q d f r → opTakes a q d s o t → o.home = false →
    let u := opModify q d (takeMeta f r a.pkt.payload) (commit a t)
    let down := (downOnce (opEntries u o)).filter fun e => portRev u e.port == 2
    exec (.resultMeta a) s = .next (settle (pizzCheck q d (endCheck q d
      (down.foldl (fun s e => sendOp o e a.pkt.hdr.tc a.pkt.ext a.pkt.payload (.forward q d) s) u)))))

/-- WGRAD_CHUNK_TILE, RUNNING_TILE_COMBINE, LEVEL, MASKS_SATISFIED, PHASE_FENCE_COMPLETE and STREAM (R179, R182, R190, R191, R193, R196).
That an island other than the root's learns of the root's completion by the operand `rootOk`, and that a fence ends DISCARDED with DETAIL 0, is
the model's choice (log entry 19). -/
def Obligations.WeightGradientRowsComplete : Prop :=
  (∀ a s x o t g, a.pkt.ext = .node .partialNode x → x.pflags.getLsbD 5 = true →
    opTakes a x.queue x.dseq s o t →
    wgradOf o.zop = some g → x.chunk < chunkCount (opGroup t o).nmem o.zop → x.eoff + x.ecnt ≤ 4096 * blockTiles g →
    o.home = true → o.combined ≤ x.chunk → max (runningLevel o) (inputLevel o x.chunk) ≤ x.pflags.toNat % 4 →
    exec (.wgradChunkTile a) s = .next (opModify o.queue o.dseq (fun o => { o with pieces :=
      (o.pieces.filter fun p => p.chunk ≠ x.chunk || decide (x.pflags.toNat % 4 ≤ p.level)) ++
        [{ partialPiece x a.pkt.payload with step := 0, place := .node 0 0 }] }) (commit a t))) ∧
  (∀ a s x o t g, a.pkt.ext = .node .partialNode x → x.pflags.getLsbD 5 = true →
    opTakes a x.queue x.dseq s o t →
    wgradOf o.zop = some g → x.chunk < chunkCount (opGroup t o).nmem o.zop → x.eoff + x.ecnt ≤ 4096 * blockTiles g →
    o.home = false → exec (.wgradChunkTile a) s = .next (passTile a o (commit a t))) ∧
  (∀ s q d chunk o g k vs f, opFind s q d = some o → wgradOf o.zop = some g → o.home = true → o.opened = true →
    o.status = none → ownsTiles s o = true → runningHold s o.zop g = true → chunk = o.combined → chunkTiles o g chunk = some (k, vs, f) → runningLevel o ≤ k →
    exec (.runningTileCombine q d chunk) s = .next (settle (combineTiles o g chunk k vs f s))) ∧
  (∀ a s grp q d arg o g, ctrlOf 0x03 a = some (grp, q, d, arg) → accepts a s →
    opFind (commit a (accepted a s)) q d = some o → wgradOf o.zop = some g → o.home = false → o.opened = true →
    (o.status = none ∨ keepsForLevel o = true) →
    exec (.level a) s = .next (raiseLater q d (arg.toNat % 4) (arg.toNat / 2 ^ 32)
      (sendLevels o g (arg.toNat % 4) (arg.toNat / 2 ^ 32) (commit a (accepted a s))))) ∧
  (∀ a s grp q d arg, ctrlOf 0x05 a = some (grp, q, d, arg) → accepts a s →
    exec (.masksSatisfied a) s = .next (settle (stashCheck q d
      (opModify q d (fun o => { o with masksIn := o.masksIn ++ [a.pkt.hdr.src] }) (commit a (accepted a s)))))) ∧
  (∀ s q d o covers rootOk, opFind s q d = some o → o.zop.extra = .fence covers → o.opened = true → o.status = none →
    ((∀ c ∈ covers, coveredEnd s o c = some 0) → (o.home = true ∨ rootOk = true) →
      exec (.phaseFenceComplete q ⟨d, rootOk⟩) s =
        .next (settle (opFinish q d 0 0 (covers.foldl (fun s c => releaseCovered o c s) s)))) ∧
    ((∀ c ∈ covers, coveredEnd s o c ≠ none) → ((∃ c ∈ covers, coveredEnd s o c ≠ some 0) ∨ (o.home = false ∧ rootOk = false)) →
      exec (.phaseFenceComplete q ⟨d, rootOk⟩) s = .next (settle (opFinish q d 1 0 s)))) ∧
  (∀ a s g w kind step off oid d t, a.pkt.ext = .stream g w kind step off → accepts a s →
    let s' := accepted a s
    jobStopped s' a.pkt.hdr.job = false → streamSender s' g a.pkt.hdr.src = true →
    tensorDef s' a.pkt.hdr.job w = some (oid, d) → streamSet s' a.pkt.hdr.job w = some t →
    off + a.pkt.payload.length ≤ regionSize d kind → streamEpochBad s' a.pkt.hdr.job w step a.pkt.hdr.cepoch = false →
    exec (.stream a) s = .next (streamPut a g w kind step off d.neck t s'))

/-- PIZZ_CONTRIBUTION, PIZZ_NODE, PIZZ_RAW_RUN, PIZZ_RESULT, PIZZ_DISCARD and PIZZ_TIMEOUT (R159, R160, R164, R165, R166): `pizzTakes` and
`pizzWaits` say when an input is taken. That a SUB 5 packet carries status 1 and RSEQ 0 and sets the queue to ERROR 5, and that an end which
comes before the descriptor is noted, is the model's choice (log entry 44; R396 leaves a queue as it was except by R164). -/
def Obligations.PizzicatoRowsComplete : Prop :=
  (∀ a s x o u, pizzTakes 1 a s x (fun _ y => pizzTermBytes y x) (fun t y => pizzUses (pizzMember t y a.pkt.hdr.src).toList x.ecnt t y) o u →
    let ords := (pizzMember u o a.pkt.hdr.src).toList
    pizzWaits u o ords x.ecnt →
    exec (.pizzContribution a) s =
      .next (pizzEnter o ords (ords.map fun ord => pizzTerm x ord a.pkt.payload) (commit a u))) ∧
  (∀ a s x o u, pizzTakes 2 a s x (fun _ _ => 16 * x.ecnt) (fun t y => pizzUses (pizzNodeOrds t y x) x.ecnt t y) o u → x.nodel ≤ 13 →
    let ords := nodeOrds (opGroup u o).nmem x.nodel x.nodej
    pizzWaits u o ords x.ecnt →
    exec (.pizzNode a) s = .next (pizzEnter o ords
      [{ step := 0, chunk := 0, place := .node x.nodel x.nodej, off := 0, len := x.ecnt, level := x.pflags.toNat % 4,
         nv := x.pflags.getLsbD 4, of := x.pflags.getLsbD 3, nx := x.pflags.getLsbD 2,
         data := .vals ((cut 16 x.ecnt a.pkt.payload).map (pizzVal (x.pflags.getLsbD 2))) }] (commit a u))) ∧
  (∀ a s x o u, pizzTakes 3 a s x (fun _ y => x.rcnt * pizzTermBytes y x) (pizzUses (pizzRunOrds x) x.ecnt) o u →
    let size := pizzTermBytes o x
    let ords := (List.range x.rcnt).map (· + x.nodej)
    pizzWaits u o ords x.ecnt →
    exec (.pizzRawRun a) s = .next (pizzEnter o ords
      (ords.mapIdx fun i ord => pizzTerm x ord ((a.pkt.payload.drop (i * size)).take size)) (commit a u))) ∧
  (∀ a s x o u, pizzTakes 4 a s x (pizzResultLen a) (fun _ _ => true) o u →
    o.home = false → pizzResult o = none → (pizzFind u o.queue o.dseq).any (·.passed) = false →
    exec (.pizzResult a) s = .next (settle (pizzCheck o.queue o.dseq (stagePieces o.queue o.dseq
      [{ step := 0, chunk := 0, place := .result 0, off := 0, len := x.ecnt, level := x.pflags.toNat % 4,
         nv := x.pflags.getLsbD 4, of := x.pflags.getLsbD 3, nx := x.pflags.getLsbD 2, data := .elems a.pkt.payload }]
      (commit a u))))) ∧
  (∀ a s x, a.pkt.ext = .pizz x → x.sub = 5 → accepts a s →
    unended (accepted a s) x.queue x.dseq = true →
    exec (.pizzDiscard a) s = .next (settle (queueOut x.queue 5 x.dseq
      (takeDiscard a x.group x.queue x.dseq 1 0 (tellTimeout (some a.pkt.hdr.src)) (commit a (accepted a s)))))) ∧
  (∀ s q d o p, opFind s q d = some o → pizzFind s q d = some p → o.status = none →
    (pizzOverdue s p = true ∨ pizzUnanswered s q d = true) →
    exec (.pizzTimeout q d) s = .next (settle (notice
      { kind := 4, sev := 2, queue := q, group := o.group, dseq := d, detail := le 4 d.toNat } (queueOut q 5 d
        (discardTold (tellTimeout none) 1 0 o s)))))

/-- DESCRIPTOR_RELAY, RELAY_REFUSED, DISCARD, OPERATION_DONE, POSTER_COMPLETION, QUEUE_STATE, CHORD_SECTION_DATA, CHORD_EPOCH_RELAY and
SECTION_CHECKED (R242, R260, R262, R337, R396). That DSEQ of QUEUE_STATE is the next one of the queue, and that a queue which is to be ABSENT
drains first, is the model's choice (log entry 11: R312 leaves DSEQ of that CTYPE unused); so is the order of the sections and what their
failure reports (log entry 21). -/
def Obligations.ControlAndDomainMessagesComplete : Prop :=
  (∀ a s g q d arg z, ctrlOf 0x01 a = some (g, q, d, arg) → accepts a s →
    let t := commit a (accepted a s)
    let x := descParse a.pkt.payload
    (jobGet t a.pkt.hdr.job).stopped = none → zsiOp t x.sched x.opid = some z → (queueGet t q).state ≠ .absent → (queueGet t q).home = false →
    (opFind t q d).any (·.opened) = false →
    exec (.descriptorRelay a) s = .next (settle (startRelay g q x z t))) ∧
  (∀ a s g q d arg o, ctrlOf 0x02 a = some (g, q, d, arg) → accepts a s →
    let t := opModify q d (downsGone (· == a.pkt.hdr.src)) (commit a (accepted a s))
    (queueGet t q).home = true → opFind t q d = some o → o.status = none →
    exec (.relayRefused a) s = .next (settle (notice (queueErrorNotice o.queue o.group o.dseq (malformed 0x09 0).2)
      (queueError o.queue 1 o.dseq (discardWith 5 (discardArg 5 t.ctl.id.chip (malformed 0x09 0).2) none (malformed 0x09 0).2 o t))))) ∧
  (∀ a s g q d arg, ctrlOf 0x04 a = some (g, q, d, arg) → accepts a s →
    let t := commit a (accepted a s)
    let u := takeDiscard a g q d (arg.toNat % 256) (BitVec.ofNat 32 (arg.toNat / 2 ^ 32)) (tellDiscard arg (some a.pkt.hdr.src)) t
    exec (.discard a) s = .next (settle (match (if unended t q d = true then statusCause (arg.toNat % 256) else none) with
      | some c => queueOut q c d u
      | none => u))) ∧
  (∀ a s g q d arg, ctrlOf 0x06 a = some (g, q, d, arg) → accepts a s →
    exec (.operationDone a) s = .next (settle (opModify q d
      (fun o => { o with downs := o.downs.map fun p => if p.1 = a.pkt.hdr.src then (p.1, true) else p })
      (commit a (accepted a s))))) ∧
  (∀ s q d o, opFind s q d = some o → posterDue o = true →
    exec (.posterCompletion q d) s = .next (settle (writePoster o s))) ∧
  (∀ a s g q d arg, ctrlOf 0x07 a = some (g, q, d, arg) → accepts a s →
    let t := commit a (accepted a s)
    let x := queueGet t q
    let y := queueStateOf (arg.toNat % 256)
    let u := if y = .absent ∧ (t.ops.any fun o => o.queue == q) = true then drainQueue q 6 .absent none 0 t else drawn (queuePut q (takeState t.freeCtr x y d) t)
    x.home = false → x.state ≠ .absent → draining t q = false →
    exec (.queueState a) s = .next (sendCtrls (downOnce (entriesIn u.chord.cur g)) x.job g q d u.chord.epoch 0x07 arg [] u)) ∧
  (∀ a s g q d arg, ctrlOf 0x08 a = some (g, q, d, arg) → accepts a s →
    let t := commit a (accepted a s)
    let e := BitVec.ofNat 8 (arg.toNat / 2 ^ 32)
    let old := match t.admin.section_ with
      | some x => if x.epoch = e then x else { epoch := e }
      | none => { epoch := e }
    let x : SectionIn := { old with got := old.got ++ [(arg.toNat % 2 ^ 32, a.pkt.payload)] }
    let bs := sectionBytes x
    fromMaster t a = true →
    exec (.chordSectionData a) s = .next (if bs.length < 16 ∨ bs.length < 16 + fld bs 7 4 then
        { t with admin := { t.admin with section_ := some x } }
      else takeSection e bs { t with admin := { t.admin with section_ := none } })) ∧
  (∀ a s g q d arg, ctrlOf 0x09 a = some (g, q, d, arg) → accepts a s →
    let t := commit a (accepted a s)
    fromMaster t a = true →
    exec (.chordEpochRelay a) s =
      .next { t with chord := { t.chord with swapAt := some (arg.toNat * frameNs t) } }) ∧
  (∀ a s g q d arg k x, ctrlOf 0x0A a = some (g, q, d, arg) → accepts a s →
    let t := commit a (accepted a s)
    let y : DomainLoad := { x with
      waitFor := x.waitFor.filter (· ≠ k),
      failed := if arg.toNat % 256 = 0 then x.failed else x.failed ++ [(k, arg.toNat % 256, arg.toNat / 256 % 256)] }
    a.link = .cascade k → t.admin.domain = some x →
    exec (.sectionChecked a) s = .next (if y.waitFor = [] then finishDomain y t
      else { t with admin := { t.admin with domain := some y } }))

/-- TSYNC_REQ, TSYNC_RSP, TSYNC_EXCHANGE, HOLDOVER_EXPIRY and GCOUNT_LIMIT (R42, R44, R45, R47, R48, R49). How an odd half nanosecond of an
offset rounds is an open value (log entry 7); the master's frame length comes with the exchange (R52, log entry 64). -/
def Obligations.TimeExchangeCompletes : Prop :=
  (∀ a s sq resid x1 x2 x3 x4, a.pkt.ext = .tsync 1 sq resid x1 x2 x3 x4 → accepts a s →
    let t := accepted a s
    exec (.tsyncReq a) s = .next (sendTsync a.pkt.hdr.src (match a.link with | .cascade c => [512 + c] | .module _ => [])
      (.tsync 2 sq 0 resid t.time.gcount t.time.gcount (ownHops t)) t)) ∧
  (∀ a s sq resid resreq t2 t3 hops t1 len, a.pkt.ext = .tsync 2 sq resid resreq t2 t3 hops → accepts a s →
    let t := accepted a s
    t.time.asked = some t1 → answersExchange t a sq hops = true →
    let ofs := tsyncOffset t1 t2 t3 t.time.gcount resid resreq (Config.offsetUp t.freeCtr)
    exec (.tsyncRsp ⟨a, len⟩) s = .next (correctTime ofs (copyLength len (correctRate (exchangeGood ofs hops (drawn t)))))) ∧
  (∀ s, discovers s = true → s.time.nextExch ≤ s.time.gcount → s.time.rootReg = true →
    exec .tsyncExchange s =
      .next (timeModify asRoot (timeModify (fun t => { t with nextExch := t.gcount + 31250 * t.per }) s))) ∧
  (∀ s, discovers s = true → s.time.nextExch ≤ s.time.gcount → s.time.rootReg = false →
    exec .tsyncExchange s = .next (askParent (reselect (missExchange (timeModify (fun t => { t with root := false })
      (timeModify (fun t => { t with nextExch := t.gcount + 31250 * t.per }) s)))))) ∧
  (∀ s h, s.time.holdover = some h → discovers s = true → h.since + 10000000 ≤ s.time.gcount →
    s.fault.classes.getLsbD 18 = false → exec .holdoverExpiry s = .next (fatal 18 s)) ∧
  (∀ s, regsUp s = true → s.time.gcount = gcountTop → s.fault.gcLimit = false →
    exec .gcountLimit s = .next (fatal 18 { s with fault := { s.fault with gcLimit := true } }))

/-- HELLO, REPLY, CONFIRM, QUAR, ECHO and ECHO_RSP (R353, R354, R355, R357). That QUAR clears the peer's CONFIRM alone,
and that an answer to a packet with SRC 0xFFFF goes to the CHIP of the wiring entry (`answerChip`), is the model's choice (log entry 42). -/
def Obligations.DiscoveryMessagesComplete : Prop :=
  (∀ a s p x t, discTakes 1 a s p x t →
    exec (.hello a) s = .next (sendDisc p (answerChip t p a.pkt.hdr.src) 2 (agreedRev x.revs) x.assign 0 t)) ∧
  (∀ a s p x t, discTakes 2 a s p x t → (∀ c ∈ replyChecks t p a.pkt.hdr.src x, c.2 = true) → (portGet t p).state ≠ 2 →
    exec (.reply a) s = .next (sendDisc p (answerChip t p a.pkt.hdr.src) 3 (agreedRev x.revs) 0 0
      (portPut p { portGet t p with passed := some t.time.gcount, agreed := agreedRev x.revs } t))) ∧
  (∀ a s p x t reason, discTakes 2 a s p x t →
    (replyChecks t p a.pkt.hdr.src x).find? (fun c => !c.2) = some (reason, false) →
    exec (.reply a) s =
      .next (quarantine p reason (answerChip t p a.pkt.hdr.src) a.pkt.hdr.src x.islandId t)) ∧
  (∀ a s p x t, discTakes 3 a s p x t → (portGet t p).state ≠ 2 →
    exec (.confirm a) s = .next (portPut p { portGet t p with confirmed := some t.time.gcount } t)) ∧
  (∀ a s p x t, discTakes 6 a s p x t → (portGet t p).state ≠ 2 →
    exec (.quar a) s = .next (portPut p { portGet t p with confirmed := none } t)) ∧
  (∀ a s p x t, discTakes 4 a s p x t →
    exec (.echo a) s = .next (sendDisc p (answerChip t p a.pkt.hdr.src) 5 0 0 0 t)) ∧
  (∀ a s p x t, discTakes 5 a s p x t → (portGet t p).state = 2 → a.pkt.hdr.src ≠ 0xFFFF →
    exec (.echoRsp a) s = .next (portPut p { portGet t p with echoOut := false, echoMiss := 0 } t)) ∧
  (∀ a s p x t, discTakes 5 a s p x t → (portGet t p).state = 2 → a.pkt.hdr.src = 0xFFFF →
    exec (.echoRsp a) s = .next (echoLost p t))

/-- HELLO_PERIOD, PORT_UP, ECHO_PERIOD, QDEPTH and QDEPTH_STALE (R325, R354, R357). That the first HELLO takes a DOWN port to
DISCOVERY and that an ECHO is judged at the next period is the model's choice (log entry 42); so is that a stale depth is counted once and
forgotten (log entry 49). -/
def Obligations.DiscoveryTimersAndDepthsComplete : Prop :=
  (∀ s p, discovers s = true → portWired s p = true → linkActive s p = true → (portGet s p).state ≠ 2 →
    (portGet s p).nextDisc ≤ s.time.gcount →
    let x := portGet s p
    let w := wiringGet s p
    exec (.helloPeriod p) s = .next (sendDisc p w.chip 1 0 (if w.kind = 1 then w.chip else 0) 0
      (portPut p { x with state := if x.state = 0 then 1 else x.state, nextDisc := s.time.gcount + helloGap x } s))) ∧
  (∀ s p, discovers s = true → portWired s p = true → linkActive s p = true → upDue s (portGet s p) = true →
    let x := portGet s p
    exec (.portUp p) s = .next (drainAll (notice { kind := 0x30, sev := 1, detail := le 2 p ++ le 1 x.agreed }
      (portPut p { x with
        state := 2, rev := x.agreed, passed := none, confirmed := none, echoOut := false, echoMiss := 0,
        nextDisc := s.time.gcount + 1000000 } s)))) ∧
  (∀ s p, discovers s = true → (portGet s p).state = 2 → (portGet s p).nextDisc ≤ s.time.gcount →
    let x := portGet s p
    let miss := if x.echoOut then x.echoMiss + 1 else 0
    miss < 4 → exec (.echoPeriod p) s = .next (sendDisc p (wiringGet s p).chip 4 0 0 0
      (portPut p { x with echoOut := true, echoMiss := miss, nextDisc := s.time.gcount + 1000000 } s))) ∧
  (∀ s p, discovers s = true → (portGet s p).state = 2 → (portGet s p).nextDisc ≤ s.time.gcount →
    (portGet s p).echoOut = true → 3 ≤ (portGet s p).echoMiss → exec (.echoPeriod p) s = .next (echoLost p s)) ∧
  (∀ a s ds m, a.pkt.ext = .qdepth ds → a.link = .module m → accepts a s →
    let t := ds.zipIdx.foldl (fun s p => bwModify (4 * m + p.2) (fun b => { b with maxq := max b.maxq p.1 }) s) (accepted a s)
    exec (.qdepth a) s = .next (drainAll { t with net := { t.net with depths := ds.zipIdx.foldl (fun d p =>
      Table.put (0, 0) d (4 * m + p.2) (p.1, (accepted a s).time.gcount + 1)) t.net.depths } })) ∧
  (∀ s p d at1, Table.get (0, 0) s.net.depths p = (d, at1) → at1 ≠ 0 → at1 + 1000 < s.time.gcount + 1 →
    let t := count 0x35 (portNeck p) 1 { port := some p } s
    exec (.qdepthStale p) s =
      .next (drainAll { t with net := { t.net with depths := Table.put (0, 0) t.net.depths p (0, 0) } }))

/-- CASCADE_DATA_FLIT, CASCADE_IDLE_FLIT, CASCADE_NAK_FLIT and CASCADE_REPLAY_TIMEOUT (R339, R345 to R349). A flit is given as the words of its 16
lanes, levels of PAM4, from which `laneFlit` orders the lanes, gathers the bytes and takes the keystream off (log entry 40). That a
repeated DATA flit is acknowledged again at once is the model's choice (log entry 41). -/
def Obligations.CascadeFlitsComplete : Prop :=
  (∀ c ws s f t, flitTakes 1 c ws s f t → f.fseq = (cascGet t c).rxSeq →
    exec (.cascadeDataFlit c ws) s = .next (takeData c f t)) ∧
  (∀ c ws s f t, flitTakes 1 c ws s f t → f.fseq ≠ (cascGet t c).rxSeq → seqBehind (cascGet t c) f.fseq = true →
    exec (.cascadeDataFlit c ws) s = .next (cascPump c (cascModify c (fun k => { k with ackDue := true }) t))) ∧
  (∀ c ws s f t, flitTakes 1 c ws s f t → f.fseq ≠ (cascGet t c).rxSeq → seqBehind (cascGet t c) f.fseq = false →
    exec (.cascadeDataFlit c ws) s = .next (sendNak c t)) ∧
  (∀ c ws s f t, flitTakes 0 c ws s f t →
    exec (.cascadeIdleFlit c ws) s = .next (takeFiller c f t)) ∧
  (∀ c ws s f t, flitTakes 2 c ws s f t →
    exec (.cascadeNakFlit c ws) s = .next (cascReplay c (takeFiller c f t))) ∧
  (∀ c ws s, regsUp s = true → c < 4 → wordsWhole ws = true → (cascUp (cascGet s c)).2 = true →
    flitRead (laneFlit (cascGet s c) ws).1 = none →
    let t := sendNak c (count 0x51 (4 * c) 1 (cascCtx c) { s with casc := Table.put {} s.casc c (laneFlit (cascGet s c) ws).2 })
    exec (.cascadeDataFlit c ws) s = .next t ∧ exec (.cascadeIdleFlit c ws) s = .next t ∧ exec (.cascadeNakFlit c ws) s = .next t) ∧
  (∀ c s, regsUp s = true → c < 4 → (cascUp (cascGet s c)).1 = true → (cascGet s c).ackAt + 1000 ≤ s.time.gcount →
    exec (.cascadeReplayTimeout c) s = .next (cascReplay c s))

/-- ALIGNMENT_MARKER, LANE_CLOCK_RECOVERED, LANE_LOCK_LOSS, UCIE_MODULE_DOWN, UCIE_RETRAIN and LINK_RETRAIN (R303, R304, R340, R344, R346, R359, R410).
That a lane with AMLOCK or ACTIVE loses lock from 5,240 ns after its last marker is the model's reading of R344 with R359 (log entry 41). -/
def Obligations.LaneAndModuleRowsComplete : Prop :=
  (∀ c i s, regsUp s = true → c < 4 → i < 16 →
    let l := (cascGet s c).lanes.getD i {}
    (∀ word n, (l.rx = .align ∨ l.rx = .active) → markerRead word = some n →
      exec (.alignmentMarker c i word) s = .next (lanesChange c (fun k =>
        rxDeskew { k with lanes := k.lanes.modify i (laneMarker c i n s.time.gcount) }) s)) ∧
    (∀ word, (l.rx = .align ∨ l.rx = .active) → markerRead word = none →
      exec (.alignmentMarker c i word) s = .next (laneModify c i (fun l => { l with markers := 0 }) s)) ∧
    (l.rx = .eq →
      exec (.laneClockRecovered c i) s = .next (laneModify c i (fun l => { l with rx := .align, markers := 0 }) s)) ∧
    ((l.amlock = true ∨ l.rx = .active) → l.markerAt + 5240 ≤ s.time.gcount →
      exec (.laneLockLoss c i) s = .next (linkLost c 1 (lanesChange c (fun k =>
        { k with lanes := k.lanes.modify i fun l => { l with amlock := false, markers := 0, rx := .eq } }) s)))) ∧
  (∀ m s, regsUp s = true → m < 128 →
    let x := modGet s m
    (∀ up, (x.state = 1 ∨ x.state = 3) → exec (.ucieModuleDown ⟨m, up⟩) s = .next (settle (moduleOut m up s))) ∧
    (x.state = 2 → x.retryAt ≤ s.time.gcount →
      ∀ lanes, exec (.ucieRetrain m (some lanes)) s = .next
        (report { kind := 0x13, sev := 1, detail := le 4 (unitLoc (.module m)).toNat ++ le 2 0 } (unitRec 2 1 (.module m) 0 0 0)
          (modPut m { x with state := if s.ctl.state = .dormant then 3 else 1, retrains := x.retrains + 1,
                             repaired := x.repaired + lanes } s))) ∧
    (x.state = 2 → x.retryAt ≤ s.time.gcount →
      exec (.ucieRetrain m none) s = .next (modPut m { x with retryAt := s.time.gcount + 100000000 } s)) ∧
    (∀ lanes, x.state = 1 →
      exec (.linkRetrain m lanes) s = .next (modPut m { x with retrains := x.retrains + 1, repaired := x.repaired + lanes } s)))

/-- FRAME_TICK, DISCARD_RELEASE, FRAME_LENGTH_CHANGE, CHUNK_COMMIT_POINT, CHUNK_COMPLETE and REPLAY (R51, R54, R57, R60, R61, R116, R118, R396). -/
def Obligations.FrameRowsComplete : Prop :=
  (∀ s, tickOpen s = true → (∀ k < 9, stepDue k s = false) →
    exec .frameTick s = .next (openFrame { s with time := { s.time with lastTick := some s.time.gcount } })) ∧
  (∀ s, tickOpen s = true →
    let t := (List.range 9).foldl (fun s k => if stepDue k s then stepDo k s else s) s
    exec .frameTick s = .next (openFrame { t with time := { t.time with lastTick := some t.time.gcount } })) ∧
  (∀ s, stepTurn 2 s = true → exec .discardRelease s = .next (settle { s with ops := s.ops.map releaseOp })) ∧
  (∀ s, stepTurn 8 s = true →
    exec .frameLengthChange s = .next (clearSums { s with time := { s.time with cur := s.time.len, lenAt := none } })) ∧
  (∀ q d plan s o c, opFind s q d = some o → o.opened = true → o.chunks[plan]? = some c → opWorks o = true →
    (c.state = .waiting ∨ c.state = .slipped) → (o.skipped && decide (3 ≤ c.plan.kind)) = false → atCommit s o c = true → chunkReady s o plan c = true →
    exec (.chunkCommitPoint q d plan) s = .next (if c.plan.kind = 3 then settle (openApply o (commitChunk o plan s))
      else commitChunk o plan s)) ∧
  (∀ q d plan s o c, opFind s q d = some o → o.opened = true → o.chunks[plan]? = some c → opWorks o = true →
    (c.state = .waiting ∨ c.state = .slipped) → (o.skipped && decide (3 ≤ c.plan.kind)) = false → atCommit s o c = true → chunkReady s o plan c = false →
    exec (.chunkCommitPoint q d plan) s = .next (slipChunk o plan c s)) ∧
  (∀ q d plan s o p, (opFind s q d).filter (·.opened) = none → unopened s q d = some o → o.zop.chunks[plan]? = some p →
    exec (.chunkCommitPoint q d plan) s = .next (earlySlip o plan p s)) ∧
  (∀ q d plan s o c, opFind s q d = some o → o.chunks[plan]? = some c → opWorks o = true → c.state = .committed →
    c.committedIn = frameNo s → exec (.chunkComplete q d plan) s = .next (chunkEffect o plan c s)) ∧
  (∀ q d plan s o c, opFind s q d = some o → o.chunks[plan]? = some c → opWorks o = true → c.state = .replayPending →
    atCommit s o c = true →
    (holdsReserve o c = true ∨
      replayNeed o c + ((reserveOps s o).map reserveUsed).sum + ((reserveOps s o).map reserveHeld).sum ≤
        (if c.plan.kind = 1 then (opGroup s o).rresTiles else (opGroup s o).rresRb)) →
    chunkReady s o plan c = true →
    exec (.replay q d plan) s = .next (commitChunk o plan (markReplay o plan c s)))

/-- FRET_FAULT, FRET_RETEST_DONE, SPARE_SUBSTITUTION, STRING_FAULT, DIE_FAULT and DIE_RETURN_TEST (R31, R401, R402, R404, R405, R409). What a
scrubbing error stands for, and that a die's claims end with RSEQ 0 as it returns, is the model's choice (log entry 72). -/
def Obligations.UnitFaultRowsComplete : Prop :=
  (∀ k phys cause up s, regsUp s = true → k < 1024 → fretReports (strGet s k) phys = true → dieServes s (k / 16) = true →
    (∀ a, cause ≠ .scrub a) →
    let x := strGet s k
    exec (.fretFault ⟨k, up⟩ phys cause) s = .next (settle (strPut k { x with
        times := reportsAfter s.time.gcount phys x.times,
        testing := x.testing.filter (· ≠ phys) ++ [phys] }
      (islandLevel 0 up (raiseLosing 0 (fretUnit x k phys) (fretFound cause)
        (lifted s 0 up (k / 64) fun o => usesString k o || holdsTilesIn k o) (holdsTilesIn k) s))))) ∧
  (∀ k phys addr up s, regsUp s = true → k < 1024 → fretReports (strGet s k) phys = true → dieServes s (k / 16) = true →
    exec (.fretFault ⟨k, up⟩ phys (.scrub addr)) s = .next (settle (scrubbed 0 (fretUnit (strGet s k) k phys) { addr } s))) ∧
  (∀ k phys s, regsUp s = true → (strGet s k).repair = true → phys ∈ (strGet s k).testing →
    thirdReport (strGet s k) phys = false →
    exec (.fretRetestDone k phys true) s = .next (strPut k { strGet s k with
      testing := (strGet s k).testing.filter (· ≠ phys), passAt := some s.time.gcount } s)) ∧
  (∀ k phys s, regsUp s = true → (strGet s k).repair = true → phys ∈ (strGet s k).testing →
    exec (.fretRetestDone k phys false) s = .next (settle (fretRetire k phys (strPut k { strGet s k with
      testing := (strGet s k).testing.filter (· ≠ phys), passAt := some s.time.gcount } s)))) ∧
  (∀ k s, stepTurn 5 s = true → k ∈ repairsDue s → exec (.spareSubstitution k) s = .next (repairEnd k s)) ∧
  (∀ k up timeout s, regsUp s = true → k < 1024 → (strGet s k).out = false → dieServes s (k / 16) = true →
    exec (.stringFault { unit := k, up, timeout }) s = .next (settle (islandLevel 1 up
      (raiseFault 1 (.string k) { coded := !timeout } (lifted s 1 up (k / 64) (usesString k)) s)))) ∧
  (∀ d cause up s, regsUp s = true → d < 64 → dieServes s d = true → (∀ a, cause ≠ .scrub a) →
    exec (.dieFault ⟨d, up⟩ cause) s = .next (settle (dieOut d up (dieFound cause) (fun x =>
      { x with state := 2, rejoin := none, bondAt := if cause = .bond then some s.time.gcount else none }) s))) ∧
  (∀ d addr up s, regsUp s = true → d < 64 → dieServes s d = true →
    exec (.dieFault ⟨d, up⟩ (.scrub addr)) s = .next (settle (scrubbed 2 (.die d) { addr } s))) ∧
  (∀ d s, regsUp s = true → s.power.gated = false → d < 64 → returnDue s (Table.get {} s.dies d) = true →
    exec (.dieReturnTest d true) s = .next (dieReturned d s)) ∧
  (∀ d s, regsUp s = true → s.power.gated = false → d < 64 → returnDue s (Table.get {} s.dies d) = true →
    let failed := dieOut d 0 { coded := false } (fun x =>
      { x with fails := x.fails + 1, state := if 2 ≤ x.fails then 3 else 2, bondAt := none }) s
    let strings := if 2 ≤ (Table.get {} s.dies d : Die).fails
      then ((List.range 16).map (16 * d + ·)).filter fun k => !(strGet failed k).out else []
    exec (.dieReturnTest d false) s = .next (settle (strings.foldl (fun s k => stringOut k none s) failed)))

/-- TSRAM_ERROR, HBM_ERROR, XBAR_FAULT and CORRECTED (R31, R406, R407, R408, R410). What a damaged region then holds follows log entry 38; what a failed error
controller adds follows log entry 70. -/
def Obligations.StorageErrorRowsComplete : Prop :=
  (∀ neck region addr up s, regsUp s = true → neck < 16 → tsramHolds s neck region = true →
    exec (.tsramError ⟨neck, up⟩ region addr) s =
      .next (settle (islandLevel 2 up (tsramEffect region s.fault.rseq
        (raiseFault 3 (.neck neck) { addr } (lifted s 2 up neck (tsramHits s neck region)) s))))) ∧
  (∀ stack region addr up s, regsUp s = true → stack < 32 → addr.toNat < hbmTop → addrStack addr.toNat = stack →
    hbmHolds s region addr.toNat = true →
    exec (.hbmError ⟨stack, up⟩ region addr) s =
      .next (settle (islandLevel 2 up (hbmEffect region s.fault.rseq s
        (raiseFault 4 (.stack stack) { addr } (lifted s 2 up (stack / 2) (hbmHits s region)) s))))) ∧
  (∀ neck up s, regsUp s = true → neck < 16 →
    exec (.xbarFault ⟨neck, up⟩) s =
      .next (settle (islandLevel 2 up (raiseFault 6 (.neck neck) {} (lifted s 2 up neck (neckHit s neck)) s)))) ∧
  (∀ u errors neck s, ceNeck u = some neck → regsUp s = true → errors ≤ s.ctl.ceThr →
    exec (.corrected u errors) s = .next (count 0x1B neck errors {} s)) ∧
  (∀ u errors neck s, ceNeck u = some neck → regsUp s = true →
    let t := count 0x1B neck errors {} s
    t.ctl.ceThr < errors → ceRaised t u = false →
    exec (.corrected u errors) s = .next (raiseCorrected u errors t))

/-- FATAL_FAULT, CLEAR_FAULT, FLUSH and FLUSH_DONE (R395, R411, R412, R418, R419, R449, R452). That a fatal class raised while FAULTED adds
its class and record, sends the notice and starts a flush unless one runs, and does not repeat the steps that find nothing left, is the
model's reading of R411, R418 and R452 (log entry 39). -/
def Obligations.FatalAndFlushRowsComplete : Prop :=
  (∀ cls s, regsUp s = true → cls ≠ .thermal → (cls ∈ [.pegbox, .trim, .tuning] → s.ctl.state = .tuning) →
    s.ctl.state ≠ .faulted → exec (.fatalFault cls) s = .next (enterFaulted (fatalClassNo cls) s)) ∧
  (∀ s, regsUp s = true → s.ctl.state ≠ .faulted →
    exec (.fatalFault .thermal) s =
      .next (gateDies (enterFaulted 20 { s with power := { s.power with tripLow := true } }))) ∧
  (∀ cls s, cls ∉ [.pegbox, .trim, .tuning, .thermal] → s.ctl.state = .faulted →
    let t := faultedNotice s.fault.rseq (bbWrite (faultRec (fatalClassNo cls) .none []) (setClass (fatalClassNo cls) s))
    exec (.fatalFault cls) s = .next (if s.fault.flush.isSome then t else startFlush t)) ∧
  (∀ s, s.ctl.state = .faulted → s.power.gated = false →
    let u := { s with power := { s.power with tripLow := true } }
    let t := faultedNotice s.fault.rseq (bbWrite (faultRec 20 .none []) (setClass 20 u))
    exec (.fatalFault .thermal) s = .next (gateDies (if s.fault.flush.isSome then t else startFlush t))) ∧
  (∀ c s, adminTakes 0x10 c s →
    let gone := s.fault.classes &&& BitVec.ofNat 32 (c.arg 11 8) &&& clearable s
    let left := s.fault.classes &&& ~~~ gone
    let t := report { kind := 0x18, sev := 0, detail := le 4 gone.toNat ++ le 4 left.toNat }
      { rkind := 5, rseq := 0, xdata := BitVec.ofNat 64 (gone.toNat + left.toNat * 2 ^ 32) }
      { adminLeft s with fault := { s.fault with classes := left } }
    exec .clearFault s = .next (adminDone c 0 0 left.toNat (if t.ctl.state = .faulted ∧ anyFatal t = false
      then beginErase (settleState (setState .ready t)) else t))) ∧
  (∀ s, regsUp s = true → s.fault.flush = none → s.fault.erasing = false → exec .flush s = .next (startFlush s)) ∧
  (∀ s, regsUp s = true → (s.fault.flush ≠ none ∨ s.fault.erasing = true) → exec .flush s = .next (reject 0x1008 s)) ∧
  (∀ f s, s.fault.flush = some f →
    let t := flushWrite s f
    exec (.flushDone true) s = .next (beginErase (notice { kind := 0x17, sev := 1, detail := le 4 f.seq.toNat ++ le 1 0 ++ le 1 f.slot }
      { t with fault := { t.fault with flush := none, result := 0 } }))) ∧
  (∀ f s, s.fault.flush = some f →
    let t := flushBroken s f
    exec (.flushDone false) s = .next (beginErase (notice { kind := 0x17, sev := 1, detail := le 4 f.seq.toNat ++ le 1 1 ++ le 1 f.slot }
      (raiseFault 9 .none { coded := false } (fun _ => false) { t with fault := { t.fault with flush := none, result := 1 } }))))

/-- TEMP_SAMPLE, CRITICAL_SHUTDOWN, VIN_MONITOR and REFCLK_LOSS (R441, R447, R448, R449, R450, R456, R460). The 20 µs between the two steps
of a critical shutdown pass in idle steps (`IdleStepIsOneNanosecond`). The places of the two supply thresholds within their tolerance are
open values (log entry 7), and what a sample does in OFF and RESET is log entry 45. -/
def Obligations.PowerSamplesComplete : Prop :=
  (∀ k v s, regsUp s = true → k < 128 → tempGated s k = false →
    let x := tempTake (warnOf s k) (tripOf k) v (tempGet s k)
    let t := if 3 ≤ x.warm then raiseHot k (tempPut k x s) else tempPut k x s
    exec (.tempSample k v) s = .next (if 2 ≤ x.trip then thermalTrip t else t)) ∧
  (∀ die s, (die.index < 80 ∧ 125 ≤ die.temp ∨ 112 ≤ die.index ∧ die.index < 128 ∧ 140 ≤ die.temp) → regsUp s = true →
    s.power.critIn = none →
    exec (.criticalShutdown die) s = .next { s with power := { s.power with tripLow := true, critIn := some 20000 } }) ∧
  (∀ v ns s, regsUp s = true → stageStops v = false → ∃ t, exec (.vinMonitor v ns) s = .next t ∧ t.power.vin = min v 1023 ∧
    t.power.vinLow = (s.power.vinLow || (decide (10000 ≤ ns) && decide (v < 500))) ∧
    t.power.vinHigh = (s.power.vinHigh || (decide (10000 ≤ ns) && decide (580 < v))) ∧
    t.ctl = { s.ctl with hwSet := t.ctl.hwSet } ∧ t.fault = s.fault) ∧
  (∀ v ns s, regsUp s = true → stageStops v = true → ∃ t, exec (.vinMonitor v ns) s = .next t ∧
    t.ctl.state = .reset ∧ t.power.lockout = true ∧ t.fault.ring = []) ∧
  (∀ v ns s, regsUp s = false → exec (.vinMonitor v ns) s = .next (vinAtRest v ns s)) ∧
  (∀ ns s, regsUp s = true → 1000 < ns → s.ctl.state ≠ .faulted →
    exec (.refclkLoss ns) s = .next (enterFaulted 18 s))

/-- RESET, POWER_GOOD and TUNING_COMPLETE (R378, R379, R380, R381, R461). That the counter runs from 0 at power-good (R380 and R40: from the lock
of the PLL, whose delay is left out) is the model's reading (log entry 45). -/
def Obligations.ResetRowsComplete : Prop :=
  (∀ cause s, (match cause with
      | .pin lowNs => pulseTakes s lowNs = true
      | .rails _ => True
      | .swreset => ∃ t, s.ctl.swresetAt = some t ∧ t ≤ s.time.gcount) →
    exec (.resetIsland cause) s = .next (match cause with
      | .pin _ => enterReset true true (drawn s)
      | .rails lost => enterReset (!lost) false s
      | .swreset => enterReset true false s)) ∧
  (∀ p s, (s.ctl.state = .reset ∨ s.ctl.state = .off) → s.power.stagesOff = false → s.power.lockout = false →
    ∃ t, exec (.powerGood p) s = .next t ∧ t.ctl.state = .tuning ∧ t.time.running = true ∧ t.time.gcount = 0 ∧
      t.ctl.masterSel = p.masterSel ∧ t.ctl.cascId = p.cascId % 4) ∧
  (∀ r s trim b diff k, s.ctl.state = .tuning → r.flashOk = true →
    let t := tuneRing r.bbSurvives s
    trimInUse t = some (trim, b, diff) → ringsAgree trim r.ringOsc = true →
    let u := { t with ctl := { t.ctl with trimB := b, trimDiff := diff } }
    activeCopy u (BitVec.ofNat 64 (fld trim 15 8)) = some k →
    exec (.tuningComplete r) s = .next (tuneWith r trim (copyBytes u k) k u))

/-- SWRESET, FRAME_LEN_WRITE, TSYNC_CTL_WRITE, GCOUNT_LO_READ, BW_CTL_WRITE and SMP_CTL_WRITE (R40, R379, R432, R434, R475, R476). FRAME_LEN
holds for every mask of its field; the last two are stated for a write of the whole word. -/
def Obligations.RegisterWriteRowsComplete : Prop :=
  (∀ w s, regsUp s = true → w.addr = 0x0008 → w.mask.getLsbD 0 = true → w.value.getLsbD 0 = true →
    exec (.swresetWrite w) s = .next (if anyRunning s then reject 0x0008 s
      else { s with ctl := { s.ctl with swresetAt := some (s.ctl.swresetAt.getD (s.time.gcount + 10000)) } })) ∧
  (∀ w s, regsUp s = true → w.addr = 0x0018 → bits w.mask.toNat 6 0 ≠ 0 →
    let n := rwField (packWord [(s.time.len, 0)]) w 6 0
    exec (.frameLenWrite w) s =
      .next (if n = 0 ∨ 64 < n ∨ anyRunning s ∨ anyArmed s ∨ (inDomain s ∧ ¬ isMaster s) then reject 0x0018 s else acceptLen n s)) ∧
  (∀ w s, regsUp s = true → w.addr = 0x0020 → w.mask.getLsbD 0 = true →
    exec (.tsyncCtlWrite w) s = .next { s with time := { s.time with rootReg := w.value.getLsbD 0 } }) ∧
  (∀ s, regsUp s = true →
    exec .gcountLoRead s = .next { s with time := { s.time with hiLatch := BitVec.ofNat 32 (s.time.gcount / 2 ^ 32) } }) ∧
  (∀ w s, regsUp s = true → w.addr = 0x3020 → w.mask = 0xFFFFFFFF →
    ∃ t, exec (.bwCtlWrite w) s = .next t ∧
      if 100 < bits w.value.toNat 30 24 ∨ bits w.value.toNat 15 0 = 0 then t = reject 0x3020 s
      else bits t.obs.bwCtl.toNat 15 0 = bits w.value.toNat 15 0 ∧ bits t.obs.bwCtl.toNat 30 24 = bits w.value.toNat 30 24 ∧
        bits t.obs.bwCtl.toNat 31 31 = bits w.value.toNat 31 31 ∧
        (bits s.obs.bwCtl.toNat 15 0 ≠ bits w.value.toNat 15 0 ∨ s.obs.bwCtl.getLsbD 31 = false ∧ w.value.getLsbD 31 = true →
          t.obs.bwOpen = none)) ∧
  (∀ w s, regsUp s = true → w.addr = 0x3010 → w.mask = 0xFFFFFFFF →
    ∃ t, exec (.smpCtlWrite w) s = .next t ∧
      if bits w.value.toNat 27 23 < 6 ∨ 16 < bits w.value.toNat 27 23 ∨ 16 < bits w.value.toNat 20 16 then t = reject 0x3010 s
      else bits t.obs.smpCtl.toNat 12 0 = bits w.value.toNat 12 0 ∧ bits t.obs.smpCtl.toNat 20 16 = bits w.value.toNat 20 16 ∧
        bits t.obs.smpCtl.toNat 27 23 = bits w.value.toNat 27 23 ∧ bits t.obs.smpCtl.toNat 31 31 = bits w.value.toNat 31 31 ∧
        t.obs.sseq = 0)

/-- SLIP_WRITE, CASC_CTL_WRITE, METER_WORD0_WRITE, METER_STAGED_WRITE and ROUTING_SHADOW_WRITE (R335, R341, R342, R481, R482).
Port CASC_ID of the island itself is unused: its sleep bits change and its lanes stay asleep (R335). -/
def Obligations.LinkRegisterRowsComplete : Prop :=
  (∀ w c n s, regsUp s = true → c < 4 → n < 16 → w.addr = 0x11000 + 64 * c + 4 * n → unreachable s (4 * c) = false →
    w.mask = 0x100 → w.value.getLsbD 8 = true →
    let peak := bits (laneWord ((Table.get {} s.casc c : Casc).lanes.getD n {})).toNat 5 0
    exec (.slipWrite w) s =
      .next (laneModify c n (fun l => { l with bound := (l.bound + 1) % 68, markers := 0, amlock := false })
        (laneModify c n (fun l => { l with peak }) s))) ∧
  (∀ w c n s, regsUp s = true → c < 4 → n < 16 → w.addr = 0x11000 + 64 * c + 4 * n → unreachable s (4 * c) = false →
    w.mask = 0x3F →
    exec (.slipWrite w) s = .next (if 48 < bits w.value.toNat 5 0 then reject w.addr s
      else laneModify c n (fun l => { l with peak := bits w.value.toNat 5 0 }) s)) ∧
  (∀ w c s, regsUp s = true → c < 4 → w.addr = 0x11100 + 4 * c → unreachable s (4 * c) = false → w.mask = 0xFFFFFFFF →
    let rx := w.value.extractLsb' 16 16
    let tx := w.value.extractLsb' 0 16
    let k : Casc := Table.get {} s.casc c
    exec (.cascCtlWrite w) s =
      .next (if (portGet s (512 + c)).state = 2 ∧ (rx &&& ~~~ k.rxslp ≠ 0 ∨ tx &&& ~~~ k.txslp ≠ 0) then reject w.addr s
        else if c = s.ctl.cascId % 4 then lanesChange c (fun k => { k with rxslp := rx, txslp := tx }) s
        else lanesChange c (fun k => wakeLanes k rx tx) s)) ∧
  (∀ w i s, regsUp s = true → i < 16384 → w.addr = 0x40000 + 16 * i → unreachable s (i / 1024) = false → w.mask = 0xFFFFFFFF →
    let m : Meter := Table.get {} s.meters i
    let n : Meter := { m with w0 := w.value, w1 := m.s1, w2 := m.s2 }
    exec (.meterWord0Write w) s =
      .next (if bits w.value.toNat 1 0 = 3 ∨ bits w.value.toNat 23 3 ≠ 0 ∨ m.s3 ≠ 0 ∨ (meterPir n ≠ 0 ∧ bits w.value.toNat 1 0 ≠ 2)
        then reject w.addr s
        else { s with meters := Table.put {} s.meters i { n with tc := meterCbs n * 1000, tp := meterPbs n * 1000, at_ := s.time.gcount } })) ∧
  (∀ w i k s, regsUp s = true → i < 16384 → 1 ≤ k → k < 4 → w.addr = 0x40000 + 16 * i + 4 * k → unreachable s (i / 1024) = false →
    w.mask = 0xFFFFFFFF →
    let m : Meter := Table.get {} s.meters i
    exec (.meterStagedWrite w) s =
      .next { s with meters := Table.put {} s.meters i (match k with
        | 1 => { m with s1 := w.value } | 2 => { m with s2 := w.value } | _ => { m with s3 := w.value }) }) ∧
  (∀ w chip k s, regsUp s = true → chip < 65536 → k < 8 → w.addr = 0x600000 + 32 * chip + 4 * k → w.mask = 0xFFFFFFFF →
    exec (.routingShadowWrite w) s = .next (if s.routing.open_ then { s with routing := { s.routing with
        shadow := Table.put {} s.routing.shadow chip (routeSet (Table.get {} s.routing.shadow chip) k (w.value &&& routeMask k)) } }
      else reject w.addr s))

/-- PMC_LO_READ, PMC_SEL_WRITE, PMC_VALUE_WRITE, PMC_CLEAR, PMC_ARM, PMC_ARM_FIRE and PMC_FREEZE (R422, R425, R426, R468). That a
write of PMC_HI also relatches PMC_HI is the model's choice (log entry 47). -/
def Obligations.PmcRowsComplete : Prop :=
  (∀ i s, regsUp s = true → i < 1088 → cutOff s (0x20004 + 16 * i) = false →
    exec (.pmcLoRead i) s = .next (pmcModify i (fun p => { p with latch := pmcHi p }) s)) ∧
  (∀ w i s, regsUp s = true → i < 1088 → w.addr = 0x20000 + 16 * i → cutOff s w.addr = false → w.mask = 0xFFFFFFFF →
    let v := w.value.toNat
    exec (.pmcSelWrite w) s = .next (if 5 < bits v 29 27 ∨ ¬ eventDefined (bits v 7 0) then reject w.addr s
      else
        let sel := packWord [(bits v 31 31, 31), (bits v 30 30, 30), (bits v 29 27, 27), (bits v 23 8, 8), (bits v 7 0, 0)]
        if bits sel.toNat 29 0 = bits (Table.get {} s.obs.pmc i : Pmc).sel.toNat 29 0 then pmcModify i (fun p => { p with sel }) s
        else pmcModify i (fun p => { p with sel, value := 0, ovf := false, acc := 0, fresh := true }) s)) ∧
  (∀ w i s, regsUp s = true → i < 1088 → w.addr = 0x20004 + 16 * i → cutOff s w.addr = false → w.mask = 0xFFFFFFFF →
    exec (.pmcValueWrite w) s = .next (pmcModify i (fun p =>
      { p with value := BitVec.ofNat 48 (p.value.toNat / 2 ^ 32 * 2 ^ 32 + w.value.toNat) }) s)) ∧
  (∀ w i s, regsUp s = true → i < 1088 → w.addr = 0x20008 + 16 * i → cutOff s w.addr = false → w.mask = 0xFFFFFFFF →
    let put : Pmc → Pmc := fun p =>
      { p with value := BitVec.ofNat 48 (p.value.toNat % 2 ^ 32 + bits w.value.toNat 15 0 * 2 ^ 32), ovf := p.ovf && !w.value.getLsbD 31 }
    exec (.pmcValueWrite w) s = .next (pmcModify i (fun p => { put p with latch := pmcHi (put p) }) s)) ∧
  (∀ w s, regsUp s = true → w.addr = 0x3000 → w.value = 4 → w.mask = 4 → setNow .freeze s = false →
    exec (.pmcClear w) s = .next (pmcClearAll s)) ∧
  (∀ w s, regsUp s = true → w.addr = 0x3000 → w.value = 2 → w.mask = 2 → setNow .freeze s = false →
    exec (.pmcArm w) s = .next (if freezeOk s then setArm true s else reject 0x3000 s)) ∧
  (∀ w s, regsUp s = true → w.addr = 0x3000 → w.mask = 1 →
    exec (.pmcFreeze w) s =
      .next (if setNow .freeze s then setFreeze true (setArm false (setFreeze (w.value.getLsbD 0) s)) else setFreeze (w.value.getLsbD 0) s)) ∧
  (∀ s, s.obs.arm = true → freezeCount s ≤ s.time.gcount →
    exec .pmcArmFire s = .next (noteSet .freeze (setFreeze true (setArm false s))))

/-- ERASE, PROGRAM, VERIFY, COMMIT, PEG_COMMAND_END, BACKGROUND_ERASE_DONE and BW_WINDOW_CLOSE (R376, R377, R418, R435). A command keeps the
range it was started with (R375, R377). That nothing is written for a window that was skipped is the model's choice (log entry 48). -/
def Obligations.PegboxRowsComplete : Prop :=
  (∀ s, regsUp s = true → s.peg.cmd = none → pegRangeOk s = true → pegAligned 65536 s = true →
    exec .pegErase s = .next { s with peg := { s.peg with
      cmd := some 1, runOff := s.peg.foff.toNat, runLen := s.peg.len.toNat, buf := [], failed := false, verified := false } }) ∧
  (∀ s, regsUp s = true → s.peg.cmd = none → pegRangeOk s = true → pegAligned 256 s = true →
    exec .pegProgram s = .next (sendReads 1 (bits s.peg.srcHi.toNat 31 16)
      (s.peg.srcLo.toNat + bits s.peg.srcHi.toNat 15 0 * 2 ^ 32) s.peg.len.toNat 0 .peg
      { s with peg := { s.peg with
        cmd := some 2, runOff := s.peg.foff.toNat, runLen := s.peg.len.toNat, buf := [], failed := false, verified := false } })) ∧
  (∀ s, regsUp s = true → s.peg.cmd = none →
    exec .pegVerify s = .next { s with peg := { s.peg with
      cmd := some 3, runOff := s.peg.foff.toNat, runLen := s.peg.len.toNat, buf := [], failed := false } }) ∧
  (∀ s, regsUp s = true → s.peg.cmd = none →
    exec .pegCommit s = .next { s with peg := if s.peg.verified
      then { s.peg with cmd := some 4, runOff := s.peg.foff.toNat, runLen := s.peg.len.toNat, buf := [], failed := false }
      else { s.peg with result := 7 } }) ∧
  (∀ s, regsUp s = true → s.peg.cmd ≠ none →
    (exec .pegErase s = .next (reject 0x2000 s) ∧ exec .pegProgram s = .next (reject 0x2000 s) ∧
      exec .pegVerify s = .next (reject 0x2000 s) ∧ exec .pegCommit s = .next (reject 0x2000 s))) ∧
  (∀ ok s, (s.peg.cmd = some 1 → exec (.pegCommandEnd ok) s = .next (pegEndErase ok s)) ∧
    (s.peg.cmd = some 2 → exec (.pegCommandEnd ok) s = .next (pegEndProgram ok s)) ∧
    (s.peg.cmd = some 3 → exec (.pegCommandEnd ok) s = .next (pegEndVerify ok s)) ∧
    (s.peg.cmd = some 4 → exec (.pegCommandEnd ok) s = .next (pegEndCommit ok s))) ∧
  (∀ s, s.fault.erasing = true →
    let t := flashErase (slotBase (flushTarget s).1) 0x100000 s
    exec .backgroundEraseDone s = .next { t with fault := { t.fault with erasing := false, result := 0 } }) ∧
  (∀ s, regsUp s = true → bwEn s = true → isTick s s.time.gcount = true → frameNo s % bwWfr s = 0 →
    s.obs.bwOpen ≠ some (frameNo s / bwWfr s) →
    let w := frameNo s / bwWfr s
    let t := clearSums (if s.obs.bwOpen.map (· + 1) = some w then bwRewrite (w - 1) s else s)
    exec .bwWindowClose s = .next { t with obs := { t.obs with bwOpen := some w } })

/-- TCK_EDGE and TRST_N_LOW (R464, with the state graph of IEEE 1149.1 that it names, log entry 5). -/
def Obligations.TapRowsComplete : Prop :=
  (∀ s, exec .trstLow s = .next { s with tap := { s.tap with state := .testLogicReset, instr := 1, tdo := none } }) ∧
  (∀ e s, ∃ t, exec (.tckEdge e) s = .next t ∧ t = { s with tap := t.tap, freeCtr := t.freeCtr } ∧
    (e.rising = true → t.tap.state = tapNext s.tap.state e.tms ∧ t.tap.tdo = s.tap.tdo) ∧
    (e.rising = false → t.tap.state = s.tap.state ∧
      t.tap.tdo = (match s.tap.state with
        | .shiftDr => some (s.tap.drSh.headD false) | .shiftIr => some (s.tap.irSh.headD false) | _ => none)))

/-- The block's own rule of a step, asked of every block model: a step of a state with the command c at the front of its queue is `exec c` on the
state with the rest of the queue. That commands wait in a queue is the model's form (log entry 1). -/
def Obligations.StepTakesFrontCommand : Prop :=
  ∀ (c : Instr) (rest : List Instr) (s : State), step { s with pending := c :: rest } = exec c { s with pending := rest }

/-- A step on an empty queue is one nanosecond of disciplined time (DESIGN CHOICE, log entry 1): the counter advances by 1 (R40), does not while
acquisition holds it (R47) or while it is stopped (R378), and stays at its limit (R42). The 20 µs of a critical shutdown pass in it, and at their
end the stages stop (R450). What faults of the nanosecond decided goes out in it, and journals complete (log entry 72). -/
def Obligations.IdleStepIsOneNanosecond : Prop :=
  ∀ s, s.pending = [] → ∃ t, step s = .next t ∧ t.pending = [] ∧
    (stagesEnd s = false → s.time.running = true → 0 < s.time.hold → t.time.gcount = s.time.gcount) ∧
    (stagesEnd s = false → s.time.running = true → s.time.hold = 0 → s.time.gcount < 2 ^ 64 - 1 →
      t.time.gcount = s.time.gcount + 1) ∧
    (stagesEnd s = false → s.time.running = true → s.time.hold = 0 → 2 ^ 64 - 1 ≤ s.time.gcount →
      t.time.gcount = s.time.gcount) ∧
    ((∀ o ∈ s.ops, o.hit = none) → stagesEnd s = false →
      (s.time.running = true → 0 < s.time.hold → t.time.hold = s.time.hold - 1) ∧
      t.power.critIn = s.power.critIn.map (· - 1) ∧
      (s.time.running = false → s.power.critIn = none → (∀ h ∈ s.shards, h.journal = []) → t = s)) ∧
    (stagesEnd s = true → regsUp s = true → t.ctl.state = .reset ∧ t.power.stagesOff = true ∧ t.power.critIn = none ∧
      t.fault.ring = [] ∧ t.time.gcount = 0 ∧ t.time.running = false)

/-- R42: at 2⁶⁴ − 1 the counter stops, and the event is a fault of the global counter that takes the island into FAULTED. The row GCOUNT_LIMIT stands
for the event; it happens once per arrival at the limit. -/
def Obligations.CounterStopsAtItsLimit : Prop :=
  ∀ s, s.time.gcount = 2 ^ 64 - 1 →
    (∀ t, s.pending = [] → stagesEnd s = false → step s = .next t → t.time.gcount = 2 ^ 64 - 1) ∧
    (regsUp s = true → s.fault.gcLimit = false → ∃ t, exec .gcountLimit s = .next t ∧ t.time.gcount = 2 ^ 64 - 1 ∧
      anyFatal t = true ∧ t.ctl.state = .faulted)

/-- The state after reset has its memories in canonical form, FAULTED tied to the fatal classes, well-formed queues and no waiting command. The
canonical form is the model's (log entry 3). -/
def Obligations.ResetMeetsTheInvariants : Prop :=
  State.reset.memOk ∧ State.reset.faultOk ∧ State.reset.queueOk ∧ State.reset.pending = []

/-- Values the spec gives for reset: sync counters (R279), expected ASEQs (R267, R378), the notice sequence (R378), the counter (R40), performance
counters (R420) and the registers whose table gives a reset value (R474 to R478, R479). -/
def Obligations.ResetLeavesTheStatedValues : Prop :=
  (∀ c, ctrGet State.reset c = { value := 0, sat := false, err := false, fail := false, owner := none }) ∧
  (∀ slot, nextAseq State.reset slot = 1) ∧ State.reset.notices.nseq = 0 ∧
  State.reset.time.gcount = 0 ∧ State.reset.time.running = false ∧
  (∀ i k, i < 1088 → k < 3 → regValue State.reset (0x20000 + 16 * i + 4 * k) = 0) ∧
  regValue State.reset 0x0018 = 0x00080008 ∧ regValue State.reset 0x0024 = 4 ∧ regValue State.reset 0x0038 = 50 ∧
  regValue State.reset 0x003C = 16 ∧ regValue State.reset 0x0040 = 8 ∧ regValue State.reset 0x1004 = 0x7FF ∧
  regValue State.reset 0x3000 = 0 ∧ regValue State.reset 0x3020 = 500 ∧
  (∀ c < 4, regValue State.reset (0x11100 + 4 * c) = 0xFFFFFFFF)

/-- No row of the table reads or writes the queue of waiting commands: first in, first out, one a step (the form of a block, log entry 1). -/
def Obligations.StepConsumesOneCommand : Prop :=
  ∀ s t, step s = .next t → t.pending = s.pending.tail

/-- Every store into HBM (1 TiB-scale, unlisted bytes 0) and into the pegbox flash (unlisted bytes 0xFF) keeps the list strictly rising and without
entries equal to what an unlisted byte reads as. The form is the model's (log entry 3); the stores are those of every row. -/
def Obligations.StepKeepsMemoryForm : Prop :=
  ∀ s t, s.memOk → step s = .next t → t.memOk

/-- R394 with R382: FAULTED and the fatal classes of FAULT_CLASS go together after every step, and the two pins read as R394 says. `faultOk` is the
invariant; its holding at reset is `ResetMeetsTheInvariants`. The pins are the island's own outside EXTEST, HIGHZ and CLAMP (R464). -/
def Obligations.StepKeepsFaultedTied : Prop :=
  ∀ s t, s.faultOk → step s = .next t → t.faultOk ∧
    (t.ctl.state = .faulted ↔ t.fault.classes &&& fatalMask ≠ 0) ∧
    (tapInstr t ≤ 2 → (islFaultN t = some false ↔ t.ctl.state = .faulted) ∧
      (regsUp t = true → (islAlertN t = some false ↔ t.fault.classes &&& t.fault.alertEn ≠ 0)))

/-- Over all rows: only the commands `mayFault` names can take the island into FAULTED (R411, R449, R460, R42, R49, R380 and the rows through which a
flash or register loss is fatal), and only those `mayLeaveFaulted` names take it out (R395, R378, R441), or the end of a critical shutdown in an idle step (R450). -/
def Obligations.OnlyNamedCommandsFaultOrRecover : Prop :=
  ∀ s t, s.faultOk → step s = .next t →
    (s.ctl.state ≠ .faulted → t.ctl.state = .faulted → ∃ c ∈ s.pending.head?, mayFault c = true) ∧
    (s.ctl.state = .faulted → t.ctl.state ≠ .faulted →
      stagesEnd s = true ∨ ∃ c ∈ s.pending.head?, mayLeaveFaulted c = true)

/-- The global counter never goes back between two RESETs, and other than by time it moves only in a time exchange while no job is RUNNING. -/
def Obligations.CounterNeverDecreases : Prop :=
  ∀ s t, step s = .next t → stagesEnd s = false → (∀ c ∈ s.pending.head?, restartsCount c = false) →
    s.time.gcount ≤ t.time.gcount ∧
    (t.time.gcount ≠ s.time.gcount → s.pending = [] ∨ ∃ a, s.pending.head? = some (.tsyncRsp a) ∧ anyRunning s = false)

/-- Over all rows: HBM, the pegbox flash and the test access port change only through the commands that `writesHbm`, `writesFlash` and `drivesTap`
name, or through the end of a critical shutdown in an idle step (R450); every other row leaves each of them as it was. -/
def Obligations.OnlyNamedCommandsWriteStorage : Prop :=
  ∀ s t, step s = .next t →
    (stagesEnd s = false → (∀ c ∈ s.pending.head?, writesHbm c = false) → t.hbm = s.hbm) ∧
    (stagesEnd s = false → (∀ c ∈ s.pending.head?, writesFlash c = false) → t.peg.flash = s.peg.flash) ∧
    ((∀ c ∈ s.pending.head?, drivesTap c = false) → t.tap = s.tap)

/-- Encoding and decoding of packets of every type agree (R310 to R314): for a packet whose fields fit their widths the bytes decode to the packet,
with the header and payload checks right. -/
def Obligations.PacketRoundTrip : Prop :=
  ∀ p, packetFits p = true → pktDecode (pktEncode p) = some (p, true, true)

/-- Encoding and receiving of cascade flits agree (R345 to R347): a flit is 272 bytes, the receiver finds its parity and FCRC right with no byte
corrected, and reads its fields back. -/
def Obligations.FlitRoundTrip : Prop :=
  ∀ f, flitFits f = true → flitRead (flitBytes f) = some (some f, 0) ∧ (flitBytes f).length = 272

/-- R339, R343, R345 and R346: the words that 16 lanes send of a flit are levels of PAM4, byte b on lane b mod 16 in position b / 16, under each
lane's scrambler; a receiver orders its lanes by the LANEID each has read, whatever the permutation of lanes in the cable, and gets the flit
back, its scramblers then standing as the sender's. That a byte's least significant bit travels first is the model's (log entry 40). -/
def Obligations.LaneWordsGiveTheFlit : Prop :=
  ∀ (j k : Casc) (ids : List Nat) (b : List Byte), b.length = 272 → j.lanes.length = 16 → ids.Perm (List.range 16) →
    k.lanes.map (·.laneId) = ids → k.lanes.map (·.scram) = ids.map (fun n => (j.lanes.getD n {}).txScram) →
    let w := wireFlit j b
    let r := laneFlit k (ids.map fun n => w.1.getD n [])
    wordsWhole w.1 = true ∧ r.1 = b ∧ r.2.lanes.map (·.scram) = ids.map fun n => (w.2.lanes.getD n {}).txScram

/-- R284 and R286: the value after an ADD is the exact sum cut at 2⁶⁴ − 1, after a SET the larger of the two; SAT is set on reaching 2⁶⁴ − 1 (R279)
and then freezes the counter; any two orders of a list of ADDs give the same counter. -/
def Obligations.CounterUpdatesCommute : Prop :=
  (∀ (x : Ctr) (d : BitVec 64), x.sat = false →
    (addValue x d).value.toNat = min (2 ^ 64 - 1) (x.value.toNat + d.toNat) ∧
    ((addValue x d).sat = true ↔ 2 ^ 64 - 1 ≤ x.value.toNat + d.toNat)) ∧
  (∀ (x : Ctr) (v : BitVec 64), x.sat = false → (setValue x v).value.toNat = max x.value.toNat v.toNat ∧
    ((setValue x v).sat = true ↔ x.value.toNat < v.toNat ∧ v.toNat = 2 ^ 64 - 1)) ∧
  (∀ (x : Ctr) (d : BitVec 64), x.sat = true → addValue x d = x ∧ setValue x d = x) ∧
  (∀ (x : Ctr) (l l' : List (BitVec 64)), l.Perm l' → l.foldl addValue x = l'.foldl addValue x)

/-- R285: a SET below the value leaves the counters and the waiters, counts the message (event 0x46) and sends SYNC_UNDERFLOW (kind 0x21). -/
def Obligations.SetUnderflowIsIgnored : Prop :=
  ∀ (c job chip : Nat) (v : BitVec 64) (s : State), (ctrGet s c).err = false → (ctrGet s c).sat = false →
    v.toNat < (ctrGet s c).value.toNat →
    syncSetApply c job chip v s = notice (syncNotice 0x21 2 c job chip (le 8 v.toNat)) (count 0x46 (c % 16) 1 { job := some job } s) ∧
    (syncSetApply c job chip v s).ctrs = s.ctrs ∧ (syncSetApply c job chip v s).waiters = s.waiters

/-- R287: after every change of a counter the waiters left are exactly those that were there and are not satisfied by its new value. -/
def Obligations.NoSatisfiedWaiterStays : Prop :=
  ∀ (c : Nat) (x : Ctr) (s : State), Table.wf {} s.ctrs = true →
    ctrGet (ctrChange c x s) c = x ∧
    (∀ w, w ∈ (ctrChange c x s).waiters ↔ w ∈ s.waiters ∧ ¬ (w.ctr = c ∧ satisfied w.exp x = true))

/-- The field table of R288: each field of the 32 bytes, and that the record goes out as one WRITE in TC1. (R288's last clause is the endpoint's.) -/
def Obligations.ReleaseRecordFields : Prop :=
  ∀ (status reason ctr job g : Nat) (tag : BitVec 32) (x : Ctr), status < 256 → reason < 256 → ctr < 65536 → job < 65536 → g < 2 ^ 64 →
    let b := releaseBytes status reason ctr job tag x g
    b.length = 32 ∧ fld b 0 0 = 2 ∧ fld b 1 1 = status ∧ fld b 3 3 = reason ∧ fld b 5 4 = ctr ∧ fld b 7 6 = job ∧
    fld b 11 8 = tag.toNat ∧ fld b 15 12 = 0 ∧ fld b 23 16 = x.value.toNat ∧ fld b 31 24 = g ∧
    bit (fld b 2 2) 7 = x.sat ∧ bit (fld b 2 2) 6 = x.err ∧ bit (fld b 2 2) 5 = x.fail ∧ fld b 2 2 % 32 = 0 ∧
    ∀ (chip retOff : Nat) (s : State), s.time.gcount = g →
      sendRelease status reason ctr job tag x chip retOff s = sendWrite 1 chip retOff job b .other s

/-- R424: a performance counter takes its additions modulo 2⁴⁸, a carry sets OVF, and a notice is due exactly for a carry with NOTIFY 1 and OVF 0. -/
def Obligations.CounterWrapSetsOverflow : Prop :=
  ∀ (p : Pmc), (pmcFold p).value.toNat = (p.value.toNat + p.acc) % 2 ^ 48 ∧
    ((pmcFold p).ovf = true ↔ p.ovf = true ∨ 2 ^ 48 ≤ p.value.toNat + p.acc) ∧
    (pmcReports p = true ↔ p.sel.getLsbD 30 = true ∧ p.ovf = false ∧ 2 ^ 48 ≤ p.value.toNat + p.acc)

/-- R51: a write while a job is RUNNING or armed is rejected; an accepted length takes effect at the least later count that is a multiple of both
lengths, and until then ticks fall at multiples of the old one. -/
def Obligations.FrameLengthChangesAtCommonTick : Prop :=
  (∀ g old new, 0 < old → 0 < new → let t := lengthChangeAt g old new
    g < t ∧ old * 250 ∣ t ∧ new * 250 ∣ t ∧ ∀ u, g < u → old * 250 ∣ u → new * 250 ∣ u → t ≤ u) ∧
  (∀ (w : RegWrite) (s : State), regsUp s = true → w.addr = 0x0018 → bits w.mask.toNat 6 0 = 127 →
    let n := bits w.value.toNat 6 0
    ((anyRunning s = true ∨ anyArmed s = true) → exec (.frameLenWrite w) s = .next (reject 0x0018 s)) ∧
    (anyRunning s = false → anyArmed s = false → (inDomain s = true → isMaster s = true) → 1 ≤ n → n ≤ 64 →
      exec (.frameLenWrite w) s = .next { s with time := { s.time with
        len := n, lenAt := if n = s.time.cur then none else some (lengthChangeAt s.time.gcount s.time.cur n) } })) ∧
  (∀ (s : State) (g : Nat), isTick s g = true ↔ s.time.cur * 250 ∣ g) ∧
  (∀ (s : State), stepTurn 8 s = true → ∃ t, exec .frameLengthChange s = .next t ∧ t.time.cur = s.time.len ∧ t.time.lenAt = none)

/-- R107: an absent operand yields the other one unchanged, two absent ones yield absent, and a node of the tree is absent exactly if nothing below it
is present: no zero is ever put in for an absent leaf. -/
def Obligations.AbsentOperandsAreNeutral : Prop :=
  (∀ {α : Type} (f : α → α → α) (a : α), combineOpt f (some a) none = some a ∧ combineOpt f none (some a) = some a) ∧
  (∀ {α : Type} (f : α → α → α), combineOpt f none none = none) ∧
  (∀ {α : Type} (f : α → α → α) (at_ : Nat → Nat → Option α) (l j : Nat),
    treeNode f at_ l j = none ↔ ∀ k ≤ l, ∀ i, i / 2 ^ (l - k) = j → at_ k i = none)

/-- R62, with DETAIL of R256: reason 0x04 at byte 16, the start count, by the table of R256, is the model's inference; that a tick is one of the length
in force while a change is pending is log entry 26. -/
def Obligations.StartOffTickIsMalformed : Prop :=
  ∀ (c : AdminCmd) (s : State), adminTakes 0x07 c s → c.arg 23 16 % frameNs s ≠ 0 →
    exec .startJob s = .next (adminDone c 5 (malformed 0x04 16).2 0 (adminLeft s))

/-- R270: VER first, then the reserved fields, then the ACODE, each with its status and DETAIL; a command that passes becomes executable. -/
def Obligations.AdminChecksRunInOrder : Prop :=
  ∀ (c : AdminCmd) (s : State),
    (fld c.bytes 0 0 ≠ 2 → adminReady c s = adminDone c 9 (BitVec.ofNat 32 (fld c.bytes 0 0)) 0 s) ∧
    (∀ i, fld c.bytes 0 0 = 2 → adminReserved c.bytes = some i → adminReady c s = adminDone c 5 (malformed 0x01 i).2 0 s) ∧
    (fld c.bytes 0 0 = 2 → adminReserved c.bytes = none → adminArgs (fld c.bytes 1 1) = none →
      adminReady c s = adminDone c 5 (malformed 0x02 1).2 0 s) ∧
    (fld c.bytes 0 0 = 2 → adminReserved c.bytes = none → adminArgs (fld c.bytes 1 1) ≠ none →
      adminReady c s = { s with admin := { s.admin with ready := s.admin.ready ++ [c] } })

/-- R317, second point: once a sequenced packet of a flow is committed, the same packet is a duplicate for the flow. -/
def Obligations.CommittedPacketIsADuplicate : Prop :=
  ∀ (a : Arrival) (s : State), sequenced a.pkt.ext = true → (rxBase s a).ahead.length < 2 ^ 31 - 1 →
    flowCheck (commit a s) a = .duplicate

/-- R378: entering RESET from any state but RESET and OFF discards every job, queue, table, counter, ZSI and operation, stops and clears the counter,
clears the notice sequence and the expected ASEQs, and lets go of every output (outside EXTEST and CLAMP, R464). -/
def Obligations.ResetDiscardsWork : Prop :=
  ∀ (held low : Bool) (s : State), let t := enterReset held low s
    s.ctl.state ≠ .reset → s.ctl.state ≠ .off →
    t.ctl.state = .reset ∧ t.jobs = [] ∧ t.queues = [] ∧ t.chord = State.reset.chord ∧ t.routing = State.reset.routing ∧
    t.ctrs = [] ∧ t.waiters = [] ∧ t.zsis = [] ∧ t.ops = [] ∧ t.pizzOps = [] ∧ t.shards = [] ∧ t.streams = [] ∧
    t.time.gcount = 0 ∧ t.time.running = false ∧ t.notices.nseq = 0 ∧ (∀ slot, nextAseq t slot = 1) ∧
    (held = false → t.fault.ring = []) ∧
    (scanDrives t = false → islReady t = none ∧ islFaultN t = none ∧ islAlertN t = none ∧ thermTripN t = none)

/-- R124 and R125: the better of two candidates of different members does not depend on their order, nor does that of three on the grouping, so the
winner does not depend on the shape of the tree. -/
def Obligations.SelectionIgnoresOrder : Prop :=
  (∀ (min : Bool) (a b : Cand), a.ord ≠ b.ord → better min a b = better min b a) ∧
  (∀ (min : Bool) (a b c : Cand), better min (better min a b) c = better min a (better min b c))

/-- R101 with R99: class and OV of a combine, and the whole result where a class is not FIN, do not depend on the order of the operands; NAN comes from
a NAN or from two opposite infinities only. -/
def Obligations.CombineClassIgnoresOrder : Prop :=
  ∀ (lv : Lv) (a b : Val), (combine lv a b).cls = (combine lv b a).cls ∧ (combine lv a b).ov = (combine lv b a).ov ∧
    (a.cls ≠ .fin ∨ b.cls ≠ .fin → combine lv a b = combine lv b a) ∧
    ((combine lv a b).cls = .nan ↔ a.cls = .nan ∨ b.cls = .nan ∨ (a.cls = .pinf ∧ b.cls = .ninf) ∨ (a.cls = .ninf ∧ b.cls = .pinf))

/-- R142: the node an aligned island forwards covers exactly its ordinals, is a node of the tree of n leaves and is the lowest such node. -/
def Obligations.AlignedNodeCoversItsOrdinals : Prop :=
  ∀ (n : Nat) (ords : List Nat) (l j : Nat), alignedNode n ords = some (l, j) →
    nodeOrds n l j = ords ∧ l ≤ treeDepth n ∧ ∀ k < l, ∀ i, nodeOrds n k i ≠ ords

/-- R266: a command of another chip than the manager of its slot, or (IDENTIFY apart) with a wrong MAC, changes none of the island's control state,
queues, jobs, schedules or tables, and no expected ASEQ. -/
def Obligations.AuthenticationGuardsTheAdminQueue : Prop :=
  ∀ (chip : Nat) (b : List Byte) (s : State),
    (managerIs s (fld b 2 2) chip = false ∨ (fld b 1 1 ≠ 1 ∧ slice b 56 8 ≠ macOf s b)) →
    ∃ t, adminArrive chip b s = t ∧ t.admin = s.admin ∧ t.ctl = s.ctl ∧ t.queues = s.queues ∧ t.jobs = s.jobs ∧
      t.zsis = s.zsis ∧ t.chord = s.chord ∧ t.routing = s.routing
end

