-- ==== Sys2Proof/Laws/Tables.lean ====
section
/-! SUPPORT. What the sparse tables do: a read after a write, and the canonical form that every write keeps. Island HBM and
the pegbox flash are such tables, so these are the laws of memory. -/

set_option Elab.async false

namespace Sys2Proof

variable {α : Type} {d : α}

theorem Table.above_iff {t : Table α} {k : Nat} : Table.above k t = true ↔ ∀ p ∈ t, k < p.1 := by
  simp [Table.above]

theorem Table.above_mono {t : Table α} {j k : Nat} (h : j ≤ k) (a : Table.above k t = true) : Table.above j t = true :=
  Table.above_iff.mpr fun p m => Nat.lt_of_le_of_lt h (Table.above_iff.mp a p m)

/-- A key below all of a table's keys holds the default. -/
theorem Table.get_above {t : Table α} {k : Nat} (a : Table.above k t = true) : Table.get d t k = d := by
  induction t with
  | nil => rfl
  | cons p t ih =>
    obtain ⟨q, w⟩ := p
    simp only [Table.above, List.all_cons, Bool.and_eq_true, decide_eq_true_eq] at a ih
    simp only [Table.get, if_neg (Nat.ne_of_gt a.1)]
    exact ih a.2

variable [DecidableEq α]

/-- The keys of a written table: those it had, and the key written. -/
theorem Table.above_put {t : Table α} {j k : Nat} (v : α) (h : j < k) (a : Table.above j t = true) :
    Table.above j (Table.put d t k v) = true := by
  induction t with
  | nil => unfold Table.put; split <;> simp [Table.above, h]
  | cons p t ih =>
    obtain ⟨q, w⟩ := p
    have hi := Table.above_iff.mp (ih (Table.above_iff.mpr fun p m => Table.above_iff.mp a p (List.mem_cons_of_mem _ m)))
    have hq := Table.above_iff.mp a (q, w) List.mem_cons_self
    rw [Table.above_iff] at a ⊢
    unfold Table.put
    grind

/-- A write keeps the canonical form. -/
theorem Table.wf_put {t : Table α} (k : Nat) (v : α) (h : Table.wf d t = true) : Table.wf d (Table.put d t k v) = true := by
  induction t with
  | nil => unfold Table.put; split <;> simp_all [Table.wf, Table.above]
  | cons p t ih =>
    obtain ⟨q, w⟩ := p
    simp only [Table.wf, Bool.and_eq_true, decide_eq_true_eq] at h
    have hi := ih h.2
    unfold Table.put
    split
    · rename_i lt
      split
      · simp [Table.wf, h]
      · simp only [Table.wf, Bool.and_eq_true, decide_eq_true_eq]
        refine ⟨⟨Table.above_iff.mpr fun p m => ?_, ‹_›⟩, h⟩
        rcases List.mem_cons.mp m with rfl | m
        · exact lt
        · exact Nat.lt_trans lt (Table.above_iff.mp h.1.1 p m)
    · split
      · rename_i e
        subst e
        split <;> simp [Table.wf, *]
      · simp only [Table.wf, Bool.and_eq_true, decide_eq_true_eq]
        exact ⟨⟨Table.above_put v (by omega) h.1.1, h.1.2⟩, hi⟩

theorem Table.wf_modify {t : Table α} (k : Nat) (f : α → α) (h : Table.wf d t = true) :
    Table.wf d (Table.modify d t k f) = true := Table.wf_put k _ h

/-- Writes at consecutive keys keep the canonical form. -/
theorem Table.wf_putAll {t : Table α} (a : Nat) (vs : List α) (h : Table.wf d t = true) :
    Table.wf d (Table.putAll d t a vs) = true := by
  induction vs generalizing t a with
  | nil => exact h
  | cons v vs ih => exact ih (a + 1) (Table.wf_put a v h)

/-- Leaving entries out keeps the canonical form. -/
theorem Table.wf_filter {t : Table α} (p : Nat × α → Bool) (h : Table.wf d t = true) :
    Table.wf d (t.filter p) = true := by
  induction t with
  | nil => rfl
  | cons e t ih =>
    simp only [Table.wf, Bool.and_eq_true, decide_eq_true_eq] at h
    simp only [List.filter_cons]
    split
    · simp only [Table.wf, Bool.and_eq_true, decide_eq_true_eq]
      exact ⟨⟨Table.above_iff.mpr fun q m => Table.above_iff.mp h.1.1 q (List.mem_filter.mp m).1, h.1.2⟩, ih h.2⟩
    · exact ih h.2

/-- A read of the key written gives the value written. -/
theorem Table.get_put_same {t : Table α} (k : Nat) (v : α) (h : Table.wf d t = true) :
    Table.get d (Table.put d t k v) k = v := by
  induction t with
  | nil => unfold Table.put; split <;> simp_all [Table.get]
  | cons p t ih =>
    obtain ⟨q, w⟩ := p
    simp only [Table.wf, Bool.and_eq_true, decide_eq_true_eq] at h
    unfold Table.put
    split
    · rename_i lt
      split
      · rename_i e
        subst e
        simp only [Table.get, if_neg (Nat.ne_of_gt lt)]
        exact Table.get_above (Table.above_mono (Nat.le_of_lt lt) h.1.1)
      · simp [Table.get]
    · split
      · rename_i e
        subst e
        split
        · rename_i e
          subst e
          exact Table.get_above h.1.1
        · simp [Table.get]
      · rename_i ne
        simp only [Table.get, if_neg (Ne.symm ne)]
        exact ih h.2

/-- A read of any other key gives what it gave before. -/
theorem Table.get_put_other {t : Table α} {j k : Nat} (v : α) (e : j ≠ k) :
    Table.get d (Table.put d t k v) j = Table.get d t j := by
  induction t with
  | nil => unfold Table.put; split <;> simp [Table.get, Ne.symm e]
  | cons p t ih =>
    obtain ⟨q, w⟩ := p
    unfold Table.put
    grind [Table.get]

theorem Table.get_modify_same {t : Table α} (k : Nat) (f : α → α) (h : Table.wf d t = true) :
    Table.get d (Table.modify d t k f) k = f (Table.get d t k) := Table.get_put_same k _ h

theorem Table.get_modify_other {t : Table α} {j k : Nat} (f : α → α) (e : j ≠ k) :
    Table.get d (Table.modify d t k f) j = Table.get d t j := Table.get_put_other _ e

/-- A read outside the keys written gives what it gave before. -/
theorem Table.get_putAll_other {t : Table α} {a j : Nat} (vs : List α) (e : j < a ∨ a + vs.length ≤ j) :
    Table.get d (Table.putAll d t a vs) j = Table.get d t j := by
  induction vs generalizing t a with
  | nil => rfl
  | cons v vs ih =>
    simp only [List.length_cons] at e
    exact (ih (by omega)).trans (Table.get_put_other v (by omega))

/-- A read of a key written gives the value written there. -/
theorem Table.get_putAll_same {t : Table α} {a : Nat} (vs : List α) (i : Nat) (hi : i < vs.length)
    (h : Table.wf d t = true) : Table.get d (Table.putAll d t a vs) (a + i) = vs[i] := by
  induction vs generalizing t a i with
  | nil => simp at hi
  | cons v vs ih =>
    cases i with
    | zero => exact (Table.get_putAll_other vs (by omega)).trans (Table.get_put_same a v h)
    | succ i =>
      rw [show a + (i + 1) = a + 1 + i by omega]
      exact ih i (by simpa using hi) (Table.wf_put a v h)

namespace Machine

/-- A number's bytes are as many as asked for. -/
@[simp] theorem le_length (n x : Nat) : (le n x).length = n := by
  induction n generalizing x with
  | zero => rfl
  | succ n ih => simp [le, ih]

/-- The bytes of a number spell it again, as far as they hold it (R6). -/
theorem unle_le (n x : Nat) : unle (le n x) = x % 256 ^ n := by
  induction n generalizing x with
  | zero => simp [le, unle, Nat.mod_one]
  | succ n ih =>
    simp only [le, unle, ih, BitVec.toNat_ofNat]
    rw [show 256 ^ (n + 1) = 256 * 256 ^ n from Nat.pow_succ', Nat.mod_mul]

end Machine

end Sys2Proof
end

