-- ==== Sys2Proof/Laws/Flits.lean ====
section
/-! SUPPORT. The parity of a flit: a word with its own parity bytes is received with nothing corrected. And a lane's word: bytes, bits,
levels and keystream, each undone. -/

set_option Elab.async false

namespace Sys2Proof.Machine

/-- The parity of any data is 16 bytes. -/
theorem rsParity_length (d : List Byte) : (rsParity d).length = 16 := by
  have keep : ∀ (low : List Byte) (l r : List Byte), low.length = 16 → r.length = 16 →
      (l.foldl (fun r b => List.zipWith (· ^^^ ·) (r.drop 1 ++ [0#8]) (low.reverse.map (gfMul (b ^^^ r.headD 0)))) r).length = 16 := by
    intro low l
    induction l with
    | nil => intro r _ h; exact h
    | cons b l ih => intro r hl h; exact ih _ hl (by simp [hl, h])
  exact keep _ d _ (by decide +kernel) (by simp)

/-- A word of the code is its own correction (R346). -/
theorem rsCorrect_codeword {d : List Byte} (h : d.length = 256) : rsCorrect (d ++ rsParity d) = [(d ++ rsParity d, 0)] := by
  unfold rsCorrect
  rw [List.drop_left' h, List.take_left' h, if_pos rfl]

/-- A flit whose payload is 240 bytes is 272 bytes (R345). -/
theorem flitBytes_length {f : Flit} (h : f.payload.length = 240) : (flitBytes f).length = 272 := by
  simp [flitBytes, rsParity_length, slice, h, le_length]

/-- The receiver corrects nothing in a flit as it was formed (R346). -/
theorem rsCorrect_flit {f : Flit} (h : f.payload.length = 240) : rsCorrect (flitBytes f) = [(flitBytes f, 0)] :=
  rsCorrect_codeword (by simp [slice, h, le_length])

/-! ## A lane's word (R339, R345, R346) -/

/-- The scrambler undoes itself, and both ends stand alike after a word. -/
theorem scramble_twice (l : List Bool) (x : BitVec 31) : scramble (scramble l x).1 x = (l, (scramble l x).2) := by
  induction l generalizing x with
  | nil => rfl
  | cons b r ih => simp [scramble, ih]

theorem scramble_length (l : List Bool) (x : BitVec 31) : (scramble l x).1.length = l.length := by
  induction l generalizing x with
  | nil => rfl
  | cons b r ih => simp [scramble, ih]

/-- The levels of an even number of bits give the bits back. -/
theorem pam4Levels_bits : ∀ (l : List Bool), l.length % 2 = 0 → (pam4Levels l).flatMap pam4Bits = l
  | [], _ => rfl
  | [_], h => by simp at h
  | a :: b :: r, h => by
    have := pam4Levels_bits r (by simp at h; omega)
    simp only [pam4Levels, List.flatMap_cons, this]
    cases a <;> cases b <;> rfl

theorem pam4Levels_length : ∀ (l : List Bool), (pam4Levels l).length = l.length / 2
  | [] => rfl
  | [_] => by simp [pam4Levels]
  | _ :: _ :: r => by simp [pam4Levels, pam4Levels_length r]; omega

theorem laneBits_length (bs : List Byte) : (laneBits bs).length = 8 * bs.length := by
  induction bs with
  | nil => rfl
  | cons b r ih => simp [laneBits, byteBits] at *; omega

/-- The bits of bytes give the bytes back. -/
theorem bitsBytes_laneBits (bs : List Byte) : bitsBytes bs.length (laneBits bs) = bs := by
  induction bs with
  | nil => rfl
  | cons b r ih =>
    have l : (byteBits b).length = 8 := by simp [byteBits]
    simp only [laneBits, List.flatMap_cons, List.length_cons, bitsBytes]
    rw [List.take_left' l, List.drop_left' l]
    refine congrArg₂ _ ?_ ih
    revert b
    decide +kernel

end Sys2Proof.Machine
end

