-- ==== Sys2Proof/Laws/Steady.lean ====
section
/-! SUPPORT. The relation Steady: what nearly every operation leaves as it was, with its laws for the operations of Ops and Clock. -/

set_option Elab.async false

namespace Sys2Proof.Machine

/-! ## Ops -/

/-- What every operation but a few leaves as it was: the queue of commands, HBM, flash, the count and the test port; and the
link between FAULTED and the fatal classes. -/
structure Calm (s t : State) : Prop where
  pending : t.pending = s.pending
  hbm : t.hbm = s.hbm
  flash : t.peg.flash = s.peg.flash
  gcount : t.time.gcount = s.time.gcount
  tap : t.tap = s.tap
  faults : s.faultOk → t.faultOk

/-- And no fatal class is recorded or cleared. -/
structure Steady (s t : State) : Prop extends Calm s t where
  fatal : anyFatal t = anyFatal s

theorem Calm.refl (s : State) : Calm s s := ⟨rfl, rfl, rfl, rfl, rfl, id⟩

theorem Calm.trans {s t u : State} (h : Calm s t) (k : Calm t u) : Calm s u :=
  ⟨k.pending.trans h.pending, k.hbm.trans h.hbm, k.flash.trans h.flash, k.gcount.trans h.gcount, k.tap.trans h.tap,
    k.faults ∘ h.faults⟩

theorem Steady.refl (s : State) : Steady s s := ⟨.refl s, rfl⟩

theorem Steady.trans {s t u : State} (h : Steady s t) (k : Steady t u) : Steady s u :=
  ⟨h.toCalm.trans k.toCalm, k.fatal.trans h.fatal⟩

theorem faultOk_of {x y : State} (e : y.ctl.state = x.ctl.state) (f : y.fault.classes = x.fault.classes) (h : x.faultOk) :
    y.faultOk := by
  unfold State.faultOk anyFatal at *
  rw [e, f]; exact h

theorem fatal_of {x y : State} (f : y.fault.classes = x.fault.classes) : anyFatal y = anyFatal x := by
  unfold anyFatal
  rw [f]

theorem foldl_steady {α : Type} {f : State → α → State} {l : List α} {s t : State} (hf : ∀ a u, Steady u (f u a)) (h : Steady s t) :
    Steady s (l.foldl f t) := by
  induction l generalizing t with
  | nil => exact h
  | cons a l ih => exact ih (h.trans (hf a t))
theorem steady_mk {s x : State} {pending : List Instr} {ctl : Ctl} {time : Time} {chord : Epochs ChordCopy} {routing : Epochs (Table Route)} {queues : Table QueueCtx} {admin : Admin} {notices : NoticeGen} {zsis : Table (Option ZsiSlot)} {jobs : Table Job} {ctrs : Table Ctr} {waiters : List Waiter} {ops : List Op} {sources : List Op} {lostSrc : List (Nat × Nat × BitVec 32 × BitVec 32)} {ended : List (Nat × Nat × BitVec 32 × Nat)} {early : List (Nat × Nat × Nat × Nat × Nat)} {earlyEnds : List EarlyEnd} {pizzOps : List PizzOp} {roles : List (Nat × RolePlan)} {tileOwn : List TileOwn} {regions : List Region} {streams : List StreamSet} {shards : List Shard} {zeroize : Nat} {hbm : List Host.Cell} {net : Net} {meters : Table Meter} {ports : Table Port} {casc : Table Casc} {mods : Table Module} {dies : Table Die} {strs : Table Str} {fault : FaultSt} {obs : Obs} {power : Power} {peg : Peg} {tap : Tap} {out : List Out} {freeCtr : Nat}
    (e1 : pending = x.pending) (e2 : hbm = x.hbm) (e3 : peg.flash = x.peg.flash) (e4 : time.gcount = x.time.gcount) (e5 : tap = x.tap) (e6 : ctl.state = x.ctl.state)
    (e7 : fault.classes = x.fault.classes) (h : Steady s x) :
    Steady s (State.mk pending ctl time chord routing queues admin notices zsis jobs ctrs waiters ops sources lostSrc ended early earlyEnds pizzOps roles tileOwn regions streams shards zeroize hbm net meters ports casc mods dies strs fault obs power peg tap out freeCtr) :=
  h.trans ⟨⟨e1, e2, e3, e4, e5, faultOk_of (x := x) e6 e7⟩, fatal_of (x := x) e7⟩

theorem setPmc_steady (x1 : Table Pmc) {s t : State} (h : Steady s t) : Steady s (setPmc x1 t) := by
  unfold setPmc
  repeat' first
    | with_reducible exact h
    | with_reducible rfl
    | with_reducible apply steady_mk

theorem count_steady (ev : Nat) (neck : Nat) (n : Nat) (c : Ctx) {s t : State} (h : Steady s t) : Steady s (count ev neck n c t) := by
  unfold count
  repeat' first
    | with_reducible exact h
    | with_reducible apply setPmc_steady
    | split

theorem countRead_steady (neck : Nat) (n : Nat) (job : Nat) {s t : State} (h : Steady s t) : Steady s (countRead neck n job t) := by
  unfold countRead
  repeat' first
    | with_reducible exact h
    | with_reducible apply count_steady

theorem countWrite_steady (neck : Nat) (n : Nat) (job : Nat) {s t : State} (h : Steady s t) : Steady s (countWrite neck n job t) := by
  unfold countWrite
  repeat' first
    | with_reducible exact h
    | with_reducible apply count_steady

theorem countCross_steady (neck : Nat) (n : Nat) (job : Nat) {s t : State} (h : Steady s t) : Steady s (countCross neck n job t) := by
  unfold countCross
  repeat' first
    | with_reducible exact h
    | with_reducible apply count_steady

theorem bwModify_steady (p : Nat) (f : BwPort → BwPort) {s t : State} (h : Steady s t) : Steady s (bwModify p f t) := by
  unfold bwModify
  repeat' first
    | with_reducible exact h
    | with_reducible rfl
    | with_reducible apply steady_mk

theorem parentLost_steady (p : Nat) {s t : State} (h : Steady s t) : Steady s (parentLost p t) := by
  unfold parentLost
  repeat' first
    | with_reducible exact h
    | with_reducible rfl
    | split
    | with_reducible apply steady_mk

theorem portPut_steady (p : Nat) (x : Port) {s t : State} (h : Steady s t) : Steady s (portPut p x t) := by
  unfold portPut
  repeat' first
    | with_reducible exact h
    | with_reducible rfl
    | with_reducible apply steady_mk

theorem queuePut_steady (q : Nat) (x : QueueCtx) {s t : State} (h : Steady s t) : Steady s (queuePut q x t) := by
  unfold queuePut
  repeat' first
    | with_reducible exact h
    | with_reducible rfl
    | with_reducible apply steady_mk

theorem jobPut_steady (j : Nat) (x : Job) {s t : State} (h : Steady s t) : Steady s (jobPut j x t) := by
  unfold jobPut
  repeat' first
    | with_reducible exact h
    | with_reducible rfl
    | with_reducible apply steady_mk

theorem drawn_steady {s t : State} (h : Steady s t) : Steady s (drawn t) := by
  unfold drawn
  repeat' first
    | with_reducible exact h
    | with_reducible rfl
    | with_reducible apply steady_mk

theorem noteSet_steady (b : HwSet) {s t : State} (h : Steady s t) : Steady s (noteSet b t) := by
  unfold noteSet
  repeat' first
    | with_reducible exact h
    | with_reducible rfl
    | with_reducible apply steady_mk

theorem reject_steady (addr : Nat) {s t : State} (h : Steady s t) : Steady s (reject addr t) := by
  unfold reject
  repeat' first
    | with_reducible exact h
    | with_reducible rfl
    | with_reducible apply noteSet_steady
    | with_reducible apply steady_mk

theorem cascModify_steady (c : Nat) (f : Casc → Casc) {s t : State} (h : Steady s t) : Steady s (cascModify c f t) := by
  unfold cascModify
  repeat' first
    | with_reducible exact h
    | with_reducible rfl
    | with_reducible apply steady_mk

theorem wireSend_steady (c : Nat) (bs : List (List Byte)) {s t : State} (h : Steady s t) : Steady s (wireSend c bs t) := by
  unfold wireSend
  repeat' first
    | with_reducible exact h
    | with_reducible rfl
    | dsimp only
    | with_reducible apply steady_mk

theorem markerSend_steady (c : Nat) (due : Nat) {s t : State} (h : Steady s t) : Steady s (markerSend c due t) := by
  unfold markerSend
  repeat' first
    | with_reducible exact h
    | with_reducible rfl
    | dsimp only
    | with_reducible apply steady_mk

theorem countSent_steady (port : Nat) (job : Nat) (tc : Nat) (n : Nat) {s t : State} (h : Steady s t) : Steady s (countSent port job tc n t) := by
  unfold countSent
  repeat' first
    | with_reducible exact h
    | with_reducible apply bwModify_steady
    | with_reducible apply count_steady
    | with_reducible intro _
    | split
    | dsimp only

theorem cascPump_steady (c : Nat) {s t : State} (h : Steady s t) : Steady s (cascPump c t) := by
  unfold cascPump
  repeat' first
    | with_reducible exact h
    | with_reducible exact Steady.refl _
    | with_reducible rfl
    | with_reducible apply wireSend_steady
    | with_reducible apply countSent_steady
    | with_reducible apply foldl_steady
    | with_reducible intro _
    | split
    | dsimp only
    | with_reducible apply steady_mk

theorem emit_steady (port : Nat) (p : Packet) {s t : State} (h : Steady s t) : Steady s (emit port p t) := by
  unfold emit
  repeat' first
    | with_reducible exact h
    | with_reducible rfl
    | with_reducible apply countSent_steady
    | with_reducible apply cascPump_steady
    | with_reducible apply cascModify_steady
    | with_reducible intro _
    | split
    | dsimp only
    | with_reducible apply steady_mk

theorem noRoute_steady (neck : Nat) (job : Nat) {s t : State} (h : Steady s t) : Steady s (noRoute neck job t) := by
  unfold noRoute
  repeat' first
    | with_reducible exact h
    | with_reducible apply count_steady

theorem emitOn_steady (neck : Nat) (run : List Nat) (p : Packet) {s t : State} (h : Steady s t) : Steady s (emitOn neck run p t) := by
  unfold emitOn
  repeat' first
    | with_reducible exact h
    | with_reducible apply emit_steady
    | with_reducible apply drawn_steady
    | with_reducible apply noRoute_steady
    | split
    | dsimp only

theorem txPut_steady (f : TxFlow) {s t : State} (h : Steady s t) : Steady s (txPut f t) := by
  unfold txPut
  repeat' first
    | with_reducible exact h
    | with_reducible rfl
    | with_reducible apply steady_mk

theorem bytesSent_steady (x1 : Held) {s t : State} (h : Steady s t) : Steady s (bytesSent x1 t) := by
  unfold bytesSent
  repeat' first
    | with_reducible exact h
    | with_reducible rfl
    | with_reducible intro _
    | split
    | dsimp only
    | with_reducible apply steady_mk

theorem launch_steady (f : TxFlow) (x2 : Held) {s t : State} (h : Steady s t) : Steady s (launch f x2 t) := by
  unfold launch
  repeat' first
    | with_reducible exact h
    | with_reducible apply emitOn_steady
    | with_reducible apply txPut_steady
    | with_reducible apply bytesSent_steady
    | dsimp only

theorem loseOp_steady (k : Option (Nat × BitVec 32)) (peer : Nat) (tc : Nat) (path : Bool) {s t : State} (h : Steady s t) : Steady s (loseOp k peer tc path t) := by
  unfold loseOp
  repeat' first
    | with_reducible exact h
    | with_reducible rfl
    | split
    | dsimp only
    | with_reducible apply steady_mk

theorem readLost_steady (r : ReadReq) (path : Bool) {s t : State} (h : Steady s t) : Steady s (readLost r path t) := by
  unfold readLost
  repeat' first
    | with_reducible exact h
    | with_reducible rfl
    | with_reducible apply loseOp_steady
    | with_reducible intro _
    | split
    | dsimp only
    | with_reducible apply steady_mk

theorem dropHeld_steady (x1 : Held) {s t : State} (h : Steady s t) : Steady s (dropHeld x1 t) := by
  unfold dropHeld
  repeat' first
    | with_reducible exact h
    | with_reducible exact Steady.refl _
    | with_reducible rfl
    | with_reducible apply noRoute_steady
    | with_reducible apply readLost_steady
    | with_reducible apply loseOp_steady
    | with_reducible apply foldl_steady
    | with_reducible intro _
    | split
    | dsimp only
    | with_reducible apply steady_mk

theorem send_steady (x1 : Held) {s t : State} (h : Steady s t) : Steady s (send x1 t) := by
  unfold send
  repeat' first
    | with_reducible exact h
    | with_reducible apply dropHeld_steady
    | with_reducible apply launch_steady
    | with_reducible apply txPut_steady
    | split
    | dsimp only

theorem drainFlow_steady (dst tc n : Nat) (l : List Held) {s t : State} (h : Steady s t) : Steady s (drainFlow dst tc n l t) := by
  induction n generalizing l t with
  | zero => rw [drainFlow]; exact h
  | succ n ih =>
    cases l with
    | nil => rw [drainFlow]; exact h; exact fun h => nomatch h
    | cons a l =>
      rw [drainFlow]
      split
      · exact ih l (dropHeld_steady _ (txPut_steady _ h))
      · split
        · exact ih l (launch_steady _ _ h)
        · exact ih l h

theorem drain_steady (dst : Nat) (tc : Nat) {s t : State} (h : Steady s t) : Steady s (drain dst tc t) := by
  unfold drain
  repeat' first
    | with_reducible exact h
    | with_reducible apply drainFlow_steady

theorem sendWrite_steady (tc : Nat) (dst : Nat) (off : Nat) (job : Nat) (payload : List Byte) (why : Purpose) {s t : State} (h : Steady s t) : Steady s (sendWrite tc dst off job payload why t) := by
  unfold sendWrite
  repeat' first
    | with_reducible exact h
    | with_reducible apply send_steady

theorem sendEntry_steady (e : Entry) (tc : Nat) (job : Nat) (group : Nat) (cepoch : BitVec 8) (x : Ext) (payload : List Byte) (why : Purpose) {s t : State} (h : Steady s t) : Steady s (sendEntry e tc job group cepoch x payload why t) := by
  unfold sendEntry
  repeat' first
    | with_reducible exact h
    | with_reducible apply send_steady

theorem sendCtrl_steady (e : Entry) (job : Nat) (group : Nat) (queue : Nat) (dseq : BitVec 32) (cepoch : BitVec 8) (ctype : Nat) (arg : BitVec 64) (payload : List Byte) {s t : State} (h : Steady s t) : Steady s (sendCtrl e job group queue dseq cepoch ctype arg payload t) := by
  unfold sendCtrl
  repeat' first
    | with_reducible exact h
    | with_reducible apply sendEntry_steady

theorem sendCtrls_steady (es : List Entry) (job : Nat) (group : Nat) (queue : Nat) (dseq : BitVec 32) (cepoch : BitVec 8) (ctype : Nat) (arg : BitVec 64) (payload : List Byte) {s t : State} (h : Steady s t) : Steady s (sendCtrls es job group queue dseq cepoch ctype arg payload t) := by
  unfold sendCtrls
  repeat' first
    | with_reducible exact h
    | with_reducible exact Steady.refl _
    | with_reducible apply sendCtrl_steady
    | with_reducible apply foldl_steady
    | with_reducible intro _

theorem sendRead_steady (tc : Nat) (dst : Nat) (off : Nat) (len : Nat) (job : Nat) (group : Option Nat) (ports : List Nat) (cepoch : BitVec 8) (why : ReadWhy) {s t : State} (h : Steady s t) : Steady s (sendRead tc dst off len job group ports cepoch why t) := by
  unfold sendRead
  repeat' first
    | with_reducible exact h
    | with_reducible rfl
    | with_reducible apply dropHeld_steady
    | with_reducible apply send_steady
    | with_reducible intro _
    | split
    | dsimp only
    | with_reducible apply steady_mk

theorem sendReads_steady (tc : Nat) (dst : Nat) (off : Nat) (len : Nat) (job : Nat) (why : Nat → ReadWhy) {s t : State} (h : Steady s t) : Steady s (sendReads tc dst off len job why t) := by
  unfold sendReads
  repeat' first
    | with_reducible exact h
    | with_reducible exact Steady.refl _
    | with_reducible rfl
    | with_reducible apply sendRead_steady
    | with_reducible apply foldl_steady
    | with_reducible intro _

theorem sendWrites_steady (tc : Nat) (dst : Nat) (off : Nat) (job : Nat) (bs : List Byte) (why : Purpose) {s t : State} (h : Steady s t) : Steady s (sendWrites tc dst off job bs why t) := by
  unfold sendWrites
  repeat' first
    | with_reducible exact h
    | with_reducible exact Steady.refl _
    | with_reducible apply sendWrite_steady
    | with_reducible apply foldl_steady
    | with_reducible intro _

theorem noticeTo_steady (bs : List Byte) (slot : Nat) (m : Manager) {s t : State} (h : Steady s t) : Steady s (noticeTo bs slot m t) := by
  unfold noticeTo
  repeat' first
    | with_reducible exact h
    | with_reducible apply send_steady
    | with_reducible apply count_steady
    | split
    | dsimp only

theorem notice_fire_steady (n : Notice) (supp : Nat) (others : List (Nat × Nat × Nat × Nat)) (g : Nat) {s t : State} (h : Steady s t) : Steady s (notice.fire n supp others g t) := by
  unfold notice.fire
  repeat' first
    | with_reducible exact h
    | with_reducible exact Steady.refl _
    | with_reducible rfl
    | with_reducible apply noticeTo_steady
    | with_reducible apply foldl_steady
    | with_reducible intro _
    | with_reducible apply steady_mk

theorem notice_steady (n : Notice) {s t : State} (h : Steady s t) : Steady s (notice n t) := by
  unfold notice
  repeat' first
    | with_reducible exact h
    | with_reducible rfl
    | with_reducible apply notice_fire_steady
    | split
    | with_reducible apply steady_mk

theorem bbWrite_steady (r : BBRec) {s t : State} (h : Steady s t) : Steady s (bbWrite r t) := by
  unfold bbWrite
  repeat' first
    | with_reducible exact h
    | with_reducible rfl
    | with_reducible apply steady_mk

theorem setState_steady (x : IslState) {s t : State} (h1 : x ≠ .faulted) (h2 : t.ctl.state ≠ .faulted) (h : Steady s t) :
    Steady s (setState x t) := by
  unfold setState
  split
  · exact h
  · refine bbWrite_steady _ (h.trans ⟨⟨rfl, rfl, rfl, rfl, rfl, fun k => ?_⟩, fatal_of rfl⟩)
    unfold State.faultOk anyFatal at *
    simp only [h1, h2, false_iff] at *
    exact k

theorem settleState_steady {s t : State} (h : Steady s t) : Steady s (settleState t) := by
  unfold settleState
  split
  · split
    · exact setState_steady _ (by decide) (by simp [*]) h
    · exact h
  · split
    · exact h
    · exact setState_steady _ (by decide) (by simp [*]) h
  · exact h

/-! ## Clock -/

theorem pmcFoldAll_steady {s t : State} (h : Steady s t) : Steady s (pmcFoldAll t) := by
  unfold pmcFoldAll
  repeat' first
    | with_reducible exact h
    | with_reducible exact Steady.refl _
    | with_reducible apply setPmc_steady
    | with_reducible apply notice_steady
    | with_reducible apply foldl_steady
    | with_reducible intro _

theorem countNanosecond_steady {s t : State} (h : Steady s t) : Steady s (countNanosecond t) := by
  unfold countNanosecond
  repeat' first
    | with_reducible exact h
    | with_reducible apply setPmc_steady
    | split

theorem markerTick_steady (c : Nat) {s t : State} (h : Steady s t) : Steady s (markerTick t c) := by
  unfold markerTick
  repeat' first
    | with_reducible exact h
    | with_reducible apply markerSend_steady
    | with_reducible intro _
    | split
    | dsimp only

end Sys2Proof.Machine
end

