-- ==== Sys2Proof/Laws/SteadyLife.lean ====
section
/-! SUPPORT. Steady for sync counters, the life of operations, and reception. -/

set_option Elab.async false

namespace Sys2Proof.Machine

/-! ## Counters -/

theorem ctrPut_steady (c : Nat) (x : Ctr) {s t : State} (h : Steady s t) : Steady s (ctrPut c x t) := by
  unfold ctrPut
  repeat' first
    | with_reducible exact h
    | with_reducible rfl
    | with_reducible apply steady_mk

theorem sendRelease_steady (status : Nat) (reason : Nat) (ctr : Nat) (job : Nat) (tag : BitVec 32) (x : Ctr) (chip : Nat) (retOff : Nat) {s t : State} (h : Steady s t) : Steady s (sendRelease status reason ctr job tag x chip retOff t) := by
  unfold sendRelease
  repeat' first
    | with_reducible exact h
    | with_reducible apply sendWrite_steady

theorem releaseIf_steady (p : Waiter → Bool) (status : Nat) (reason : Nat) {s t : State} (h : Steady s t) : Steady s (releaseIf p status reason t) := by
  unfold releaseIf
  repeat' first
    | with_reducible exact h
    | with_reducible exact Steady.refl _
    | with_reducible rfl
    | with_reducible apply sendRelease_steady
    | with_reducible apply foldl_steady
    | with_reducible intro _
    | with_reducible apply steady_mk

theorem releaseSatisfied_steady (c : Nat) {s t : State} (h : Steady s t) : Steady s (releaseSatisfied c t) := by
  unfold releaseSatisfied
  repeat' first
    | with_reducible exact h
    | with_reducible apply releaseIf_steady

theorem ctrChange_steady (c : Nat) (x : Ctr) {s t : State} (h : Steady s t) : Steady s (ctrChange c x t) := by
  unfold ctrChange
  repeat' first
    | with_reducible exact h
    | with_reducible apply releaseSatisfied_steady
    | with_reducible apply ctrPut_steady

theorem syncDrop_steady (c : Nat) (job : Nat) {s t : State} (h : Steady s t) : Steady s (syncDrop c job t) := by
  unfold syncDrop
  repeat' first
    | with_reducible exact h
    | with_reducible apply count_steady

theorem syncAddApply_steady (c : Nat) (job : Nat) (chip : Nat) (d : BitVec 64) {s t : State} (h : Steady s t) : Steady s (syncAddApply c job chip d t) := by
  unfold syncAddApply
  repeat' first
    | with_reducible exact h
    | with_reducible apply syncDrop_steady
    | with_reducible apply ctrChange_steady
    | with_reducible apply notice_steady
    | split
    | dsimp only

theorem syncSetApply_steady (c : Nat) (job : Nat) (chip : Nat) (v : BitVec 64) {s t : State} (h : Steady s t) : Steady s (syncSetApply c job chip v t) := by
  unfold syncSetApply
  repeat' first
    | with_reducible exact h
    | with_reducible apply syncDrop_steady
    | with_reducible apply notice_steady
    | with_reducible apply count_steady
    | with_reducible apply ctrChange_steady
    | split
    | dsimp only

theorem syncClrfailApply_steady (c : Nat) (job : Nat) {s t : State} (h : Steady s t) : Steady s (syncClrfailApply c job t) := by
  unfold syncClrfailApply
  repeat' first
    | with_reducible exact h
    | with_reducible apply syncDrop_steady
    | with_reducible apply ctrPut_steady
    | split
    | dsimp only

theorem syncWaitApply_steady (c : Nat) (job : Nat) (chip : Nat) (retOff : Nat) (tmo : Nat) (tag : BitVec 32) (exp : BitVec 64) {s t : State} (h : Steady s t) : Steady s (syncWaitApply c job chip retOff tmo tag exp t) := by
  unfold syncWaitApply
  repeat' first
    | with_reducible exact h
    | with_reducible rfl
    | with_reducible apply sendRelease_steady
    | with_reducible apply count_steady
    | split
    | with_reducible apply steady_mk

theorem completionCount_steady (c : Nat) (ok : Bool) {s t : State} (h : Steady s t) : Steady s (completionCount c ok t) := by
  unfold completionCount
  repeat' first
    | with_reducible exact h
    | with_reducible apply ctrChange_steady
    | split
    | dsimp only

theorem clearCounters_steady (p : Ctr → Bool) {s t : State} (h : Steady s t) : Steady s (clearCounters p t) := by
  unfold clearCounters
  repeat' first
    | with_reducible exact h
    | with_reducible rfl
    | with_reducible apply steady_mk

theorem ctrLost_steady (c : Nat) {s t : State} (h : Steady s t) : Steady s (ctrLost c t) := by
  unfold ctrLost
  repeat' first
    | with_reducible exact h
    | with_reducible apply ctrPut_steady
    | with_reducible apply releaseIf_steady
    | with_reducible apply notice_steady
    | split
    | dsimp only

theorem takeCounter_steady (job : Nat) (c : Nat) {s t : State} (h : Steady s t) : Steady s (takeCounter job c t) := by
  unfold takeCounter
  repeat' first
    | with_reducible exact h
    | with_reducible apply ctrPut_steady
    | split

/-! ## Life -/

theorem opModify_steady (q : Nat) (d : BitVec 32) (f : Op → Op) {s t : State} (h : Steady s t) : Steady s (opModify q d f t) := by
  unfold opModify
  repeat' first
    | with_reducible exact h
    | with_reducible rfl
    | with_reducible apply steady_mk

theorem opRemove_steady (q : Nat) (d : BitVec 32) {s t : State} (h : Steady s t) : Steady s (opRemove q d t) := by
  unfold opRemove
  repeat' first
    | with_reducible exact h
    | with_reducible rfl
    | with_reducible apply steady_mk

theorem writeSample_steady (o : Op) {s t : State} (h : Steady s t) : Steady s (writeSample o t) := by
  unfold writeSample
  repeat' first
    | with_reducible exact h
    | with_reducible rfl
    | with_reducible apply send_steady
    | with_reducible apply count_steady
    | split
    | with_reducible apply steady_mk

theorem opFinish_steady (q : Nat) (d : BitVec 32) (status : Nat) (detail : Word) {s t : State} (h : Steady s t) : Steady s (opFinish q d status detail t) := by
  unfold opFinish
  repeat' first
    | with_reducible exact h
    | with_reducible exact Steady.refl _
    | with_reducible apply opModify_steady
    | with_reducible apply count_steady
    | with_reducible apply writeSample_steady
    | split

theorem queueToError_steady (q : Nat) (cause : Nat) (d : BitVec 32) {s t : State} (h : Steady s t) : Steady s (queueToError q cause d t) := by
  unfold queueToError
  repeat' first
    | with_reducible exact h
    | with_reducible apply queuePut_steady
    | split
    | dsimp only

theorem relayState_steady (q : Nat) {s t : State} (h : Steady s t) : Steady s (relayState q t) := by
  unfold relayState
  repeat' first
    | with_reducible exact h
    | with_reducible apply sendCtrls_steady
    | split
    | dsimp only

theorem queueError_steady (q : Nat) (cause : Nat) (d : BitVec 32) {s t : State} (h : Steady s t) : Steady s (queueError q cause d t) := by
  unfold queueError
  repeat' first
    | with_reducible exact h
    | with_reducible apply queueToError_steady
    | with_reducible apply relayState_steady
    | split
    | dsimp only

theorem memberStep_steady (q : QueueCtx) (o : Op) (i : Nat) {s t : State} (h : Steady s t) : Steady s (memberStep q o i t) := by
  unfold memberStep
  repeat' first
    | with_reducible exact h
    | with_reducible apply opModify_steady
    | with_reducible apply sendWrite_steady
    | with_reducible apply sendWrites_steady
    | split

theorem countStep_steady (o : Op) {s t : State} (h : Steady s t) : Steady s (countStep o t) := by
  unfold countStep
  repeat' first
    | with_reducible exact h
    | with_reducible apply opModify_steady
    | with_reducible apply completionCount_steady
    | split
    | dsimp only

theorem reportStep_steady (o : Op) {s t : State} (h : Steady s t) : Steady s (reportStep o t) := by
  unfold reportStep
  repeat' first
    | with_reducible exact h
    | with_reducible apply opModify_steady
    | with_reducible apply sendCtrl_steady
    | split
    | dsimp only

theorem noteEnd_steady (o : Op) {s t : State} (h : Steady s t) : Steady s (noteEnd o t) := by
  unfold noteEnd
  repeat' first
    | with_reducible exact h
    | with_reducible rfl
    | split
    | with_reducible apply steady_mk

theorem retireStep_steady (o : Op) {s t : State} (h : Steady s t) : Steady s (retireStep o t) := by
  unfold retireStep
  repeat' first
    | with_reducible exact h
    | with_reducible rfl
    | with_reducible apply noteEnd_steady
    | with_reducible apply opRemove_steady
    | split
    | with_reducible apply steady_mk

theorem withOp_steady (q : Nat) (d : BitVec 32) (f : Op → State → State) (h1 : ∀ (y0 : Op) (u : State), Steady u (f y0 u)) {s t : State} (h : Steady s t) : Steady s (withOp q d f t) := by
  unfold withOp
  repeat' first
    | with_reducible exact h
    | with_reducible refine Steady.trans ?_ (h1 _ _)
    | split

theorem markDone_steady (q : Nat) (d : BitVec 32) {s t : State} (h : Steady s t) : Steady s (markDone q d t) := by
  unfold markDone
  repeat' first
    | with_reducible exact h
    | with_reducible apply queuePut_steady
    | with_reducible apply relayState_steady
    | split
    | dsimp only

theorem posterStep_steady (q : QueueCtx) (o : Op) {s t : State} (h : Steady s t) : Steady s (posterStep q o t) := by
  unfold posterStep
  repeat' first
    | with_reducible exact h
    | with_reducible apply opModify_steady
    | with_reducible apply sendWrite_steady
    | with_reducible apply markDone_steady
    | split

theorem forgetPizz_steady (q : Nat) (d : BitVec 32) {s t : State} (h : Steady s t) : Steady s (forgetPizz q d t) := by
  unfold forgetPizz
  repeat' first
    | with_reducible exact h
    | with_reducible rfl
    | with_reducible apply steady_mk

theorem pizzEnd_steady (q : Nat) (d : BitVec 32) {s t : State} (h : Steady s t) : Steady s (pizzEnd q d t) := by
  unfold pizzEnd
  repeat' first
    | with_reducible exact h
    | with_reducible rfl
    | with_reducible apply forgetPizz_steady
    | with_reducible apply count_steady
    | split
    | with_reducible apply steady_mk

theorem streamModify_steady (job : Nat) (w : Nat) (f : StreamSet → StreamSet) {s t : State} (h : Steady s t) : Steady s (streamModify job w f t) := by
  unfold streamModify
  repeat' first
    | with_reducible exact h
    | with_reducible rfl
    | with_reducible apply steady_mk

theorem releaseHalf_steady (job : Nat) (w : Nat) (step : BitVec 32) {s t : State} (h : Steady s t) : Steady s (releaseHalf job w step t) := by
  unfold releaseHalf
  repeat' first
    | with_reducible exact h
    | with_reducible apply streamModify_steady

theorem releaseSource_steady (job : Nat) (u : UpdateDef) (step : BitVec 32) {s t : State} (h : Steady s t) : Steady s (releaseSource job u step t) := by
  unfold releaseSource
  repeat' first
    | with_reducible exact h
    | with_reducible rfl
    | with_reducible apply steady_mk

theorem releaseUsed_steady (o : Op) {s t : State} (h : Steady s t) : Steady s (releaseUsed o t) := by
  unfold releaseUsed
  repeat' first
    | with_reducible exact h
    | with_reducible apply releaseHalf_steady
    | with_reducible apply releaseSource_steady
    | split

theorem endStep_steady (o : Op) {s t : State} (h : Steady s t) : Steady s (endStep o t) := by
  unfold endStep
  repeat' first
    | with_reducible exact h
    | with_reducible apply pizzEnd_steady
    | with_reducible apply opFinish_steady
    | with_reducible apply releaseUsed_steady
    | split
    | dsimp only

theorem opEnd_steady (q : Nat) (d : BitVec 32) {s t : State} (h : Steady s t) : Steady s (opEnd q d t) := by
  unfold opEnd
  exact withOp_steady _ _ _ (fun o u => endStep_steady o (Steady.refl u)) (opModify_steady _ _ _ h)

theorem settleOp_steady (q : Nat) (d : BitVec 32) {s t : State} (h : Steady s t) : Steady s (settleOp q d t) := by
  unfold settleOp
  repeat' first
    | with_reducible exact h
    | with_reducible exact Steady.refl _
    | with_reducible apply withOp_steady
    | with_reducible apply endStep_steady
    | with_reducible apply memberStep_steady
    | with_reducible apply posterStep_steady
    | with_reducible apply reportStep_steady
    | with_reducible apply countStep_steady
    | with_reducible apply retireStep_steady
    | with_reducible apply foldl_steady
    | with_reducible intro _
    | split
    | dsimp only

theorem writePoster_steady (o : Op) {s t : State} (h : Steady s t) : Steady s (writePoster o t) := by
  unfold writePoster
  repeat' first
    | with_reducible exact h
    | with_reducible apply opModify_steady
    | with_reducible apply sendWrites_steady
    | with_reducible apply sendWrite_steady
    | split
    | dsimp only

theorem passDiscard_steady (es : List Entry) (job : Nat) (group : Nat) (q : Nat) (d : BitVec 32) (e : BitVec 8) (arg : BitVec 64) (came : Option Nat) {s t : State} (h : Steady s t) : Steady s (passDiscard es job group q d e arg came t) := by
  unfold passDiscard
  repeat' first
    | with_reducible exact h
    | with_reducible apply sendCtrls_steady
    | with_reducible intro _
    | dsimp only

theorem tellDiscard_steady (arg : BitVec 64) (came : Option Nat) (o : Op) {s t : State} (h : Steady s t) : Steady s (tellDiscard arg came o t) := by
  unfold tellDiscard
  repeat' first
    | with_reducible exact h
    | with_reducible apply passDiscard_steady

theorem tellTimeout_steady (came : Option Nat) (o : Op) {s t : State} (h : Steady s t) : Steady s (tellTimeout came o t) := by
  unfold tellTimeout
  repeat' first
    | with_reducible exact h
    | with_reducible exact Steady.refl _
    | with_reducible apply sendEntry_steady
    | with_reducible apply foldl_steady
    | with_reducible intro _
    | dsimp only

theorem dropKept_steady (tell : Op → State → State) (o : Op) (h1 : ∀ (y0 : Op) (u : State), Steady u (tell y0 u)) {s t : State} (h : Steady s t) : Steady s (dropKept tell o t) := by
  unfold dropKept
  repeat' first
    | with_reducible exact h
    | with_reducible exact Steady.refl _
    | with_reducible refine Steady.trans ?_ (h1 _ _)
    | with_reducible apply opRemove_steady
    | with_reducible intro _

theorem recordStep_steady (o : Op) {s t : State} (h : Steady s t) : Steady s (recordStep o t) := by
  unfold recordStep
  repeat' first
    | with_reducible exact h
    | with_reducible rfl
    | split
    | with_reducible apply steady_mk

theorem spoilSlots_steady (o : Op) {s t : State} (h : Steady s t) : Steady s (spoilSlots o t) := by
  unfold spoilSlots
  repeat' first
    | with_reducible exact h
    | with_reducible rfl
    | with_reducible intro _
    | split
    | dsimp only
    | with_reducible apply steady_mk

theorem leaveStep_steady (o : Op) {s t : State} (h : Steady s t) : Steady s (leaveStep o t) := by
  unfold leaveStep
  repeat' first
    | with_reducible exact h
    | with_reducible apply spoilSlots_steady
    | with_reducible apply recordStep_steady

theorem endShell_steady (status : Nat) (detail : Word) (o : Op) {s t : State} (h : Steady s t) : Steady s (endShell status detail o t) := by
  unfold endShell
  repeat' first
    | with_reducible exact h
    | with_reducible rfl
    | with_reducible apply pizzEnd_steady
    | with_reducible apply opRemove_steady
    | with_reducible apply steady_mk

theorem discardTold_steady (tell : Op → State → State) (status : Nat) (detail : Word) (o : Op) (h1 : ∀ (y0 : Op) (u : State), Steady u (tell y0 u)) {s t : State} (h : Steady s t) : Steady s (discardTold tell status detail o t) := by
  unfold discardTold
  repeat' first
    | with_reducible exact h
    | with_reducible exact Steady.refl _
    | with_reducible refine Steady.trans ?_ (h1 _ _)
    | with_reducible apply dropKept_steady
    | with_reducible apply endShell_steady
    | with_reducible apply pizzEnd_steady
    | with_reducible apply opFinish_steady
    | with_reducible apply leaveStep_steady
    | with_reducible intro _
    | split

theorem discardWith_steady (status : Nat) (arg : BitVec 64) (came : Option Nat) (detail : Word) (o : Op) {s t : State} (h : Steady s t) : Steady s (discardWith status arg came detail o t) := by
  unfold discardWith
  repeat' first
    | with_reducible exact h
    | with_reducible exact Steady.refl _
    | with_reducible apply discardTold_steady
    | with_reducible apply tellDiscard_steady
    | with_reducible intro _

theorem discardOp_steady (rseq : BitVec 32) (o : Op) {s t : State} (h : Steady s t) : Steady s (discardOp rseq o t) := by
  unfold discardOp
  repeat' first
    | with_reducible exact h
    | with_reducible apply discardWith_steady

theorem hitOp_steady (cls : Nat) (rseq : BitVec 32) (o : Op) {s t : State} (h : Steady s t) : Steady s (hitOp cls rseq o t) := by
  unfold hitOp
  repeat' first
    | with_reducible exact h
    | with_reducible apply discardOp_steady
    | with_reducible apply opFinish_steady
    | with_reducible apply leaveStep_steady
    | with_reducible apply pizzEnd_steady
    | with_reducible apply opModify_steady
    | with_reducible intro _
    | split
    | dsimp only

theorem rehit_steady (cls : Nat) (rseq : BitVec 32) (p : Op → Bool) {s t : State} (h : Steady s t) : Steady s (rehit cls rseq p t) := by
  unfold rehit
  repeat' first
    | with_reducible exact h
    | with_reducible rfl
    | with_reducible intro _
    | split
    | dsimp only
    | with_reducible apply steady_mk

theorem discardIf_steady (p : Op → Bool) (rseq : BitVec 32) {s t : State} (h : Steady s t) : Steady s (discardIf p rseq t) := by
  unfold discardIf
  repeat' first
    | with_reducible exact h
    | with_reducible exact Steady.refl _
    | with_reducible apply discardOp_steady
    | with_reducible apply foldl_steady
    | with_reducible intro _

theorem unrouted_steady (peer : Nat) (p : Op → Bool) {s t : State} (h : Steady s t) : Steady s (unrouted peer p t) := by
  unfold unrouted
  repeat' first
    | with_reducible exact h
    | with_reducible exact Steady.refl _
    | with_reducible apply hitOp_steady
    | with_reducible apply bbWrite_steady
    | with_reducible apply foldl_steady
    | with_reducible intro _
    | dsimp only

theorem setClass_nonfatal : ∀ c : Fin 32, classFatal c = false → BitVec.ofNat 32 (2 ^ c.val) &&& fatalMask = 0 := by decide
theorem setClass_fatal : ∀ c : Fin 32, classFatal c = true → BitVec.ofNat 32 (2 ^ c.val) &&& fatalMask ≠ 0 := by decide

theorem anyFatal_setClass (c : Nat) (t : State) :
    anyFatal (setClass c t) = (anyFatal t || decide (BitVec.ofNat 32 (2 ^ c) &&& fatalMask ≠ 0)) := by
  have d : (t.fault.classes ||| BitVec.ofNat 32 (2 ^ c)) &&& fatalMask =
      (t.fault.classes &&& fatalMask) ||| (BitVec.ofNat 32 (2 ^ c) &&& fatalMask) := by
    ext i; simp [Bool.and_or_distrib_right]
  have z : ∀ a b : Word, (a ||| b = 0) ↔ (a = 0 ∧ b = 0) := fun a b => BitVec.or_eq_zero_iff
  unfold setClass anyFatal
  rw [d, Bool.eq_iff_iff]
  simp only [ne_eq, z, decide_eq_true_eq, Bool.or_eq_true]
  exact Decidable.not_and_iff_not_or_not

theorem setClass_steady (c : Nat) {s t : State} (hl : c < 32) (hc : classFatal c = false) (h : Steady s t) : Steady s (setClass c t) := by
  have e := setClass_nonfatal ⟨c, hl⟩ hc
  have a : anyFatal (setClass c t) = anyFatal t := by rw [anyFatal_setClass]; simp at e; simp [e]
  exact h.trans ⟨⟨rfl, rfl, rfl, rfl, rfl, fun k => by unfold State.faultOk at *; rw [a]; exact k⟩, a⟩

theorem report_steady (n : Notice) (r : BBRec) {s t : State} (h : Steady s t) : Steady s (report n r t) := by
  unfold report
  repeat' first
    | with_reducible exact h
    | with_reducible apply bbWrite_steady
    | with_reducible apply notice_steady

theorem pathLost_steady (peer : Nat) (tc : Nat) (p : Op → Bool) {s t : State} (h : Steady s t) : Steady s (pathLost peer tc p t) := by
  unfold pathLost
  repeat' first
    | with_reducible exact h
    | with_reducible exact Steady.refl _
    | with_reducible apply report_steady
    | with_reducible apply setClass_steady
    | with_reducible apply hitOp_steady
    | with_reducible apply foldl_steady
    | with_reducible intro _
    | dsimp only
    | omega
    | rfl

theorem sweepLost_steady {s t : State} (h : Steady s t) : Steady s (sweepLost t) := by
  unfold sweepLost
  repeat' first
    | with_reducible exact h
    | with_reducible exact Steady.refl _
    | with_reducible rfl
    | with_reducible apply pathLost_steady
    | with_reducible apply unrouted_steady
    | with_reducible apply withOp_steady
    | with_reducible apply opModify_steady
    | with_reducible apply foldl_steady
    | with_reducible intro _
    | split
    | dsimp only
    | with_reducible apply steady_mk

theorem settle_steady {s t : State} (h : Steady s t) : Steady s (settle t) := by
  unfold settle
  repeat' first
    | with_reducible exact h
    | with_reducible exact Steady.refl _
    | with_reducible apply sweepLost_steady
    | with_reducible apply settleOp_steady
    | with_reducible apply foldl_steady
    | with_reducible intro _

theorem tellHits_steady {s t : State} (h : Steady s t) : Steady s (tellHits t) := by
  unfold tellHits
  repeat' first
    | with_reducible exact h
    | with_reducible exact Steady.refl _
    | with_reducible apply tellDiscard_steady
    | with_reducible apply opModify_steady
    | with_reducible apply settle_steady
    | with_reducible apply foldl_steady
    | with_reducible intro _
    | split
    | dsimp only

theorem endPegCommand_steady {s t : State} (h : Steady s t) : Steady s (endPegCommand t) := by
  unfold endPegCommand
  repeat' first
    | with_reducible exact h
    | with_reducible rfl
    | split
    | with_reducible apply steady_mk

theorem raiseFault_steady (cls : Nat) (u : FUnit) (found : Found) (p : Op → Bool) (hl : cls < 32) (hc : classFatal cls = false) {s t : State} (h : Steady s t) : Steady s (raiseFault cls u found p t) := by
  unfold raiseFault
  repeat' first
    | with_reducible exact h
    | with_reducible exact Steady.refl _
    | with_reducible apply report_steady
    | with_reducible apply setClass_steady
    | with_reducible apply drawn_steady
    | with_reducible apply rehit_steady
    | with_reducible apply endPegCommand_steady
    | with_reducible apply hitOp_steady
    | with_reducible apply foldl_steady
    | with_reducible intro _
    | split
    | dsimp only
    | assumption

theorem adminComplete_steady (slot : Nat) (aseq : BitVec 32) (status : Nat) (detail : Word) (result : Nat) {s t : State} (h : Steady s t) : Steady s (adminComplete slot aseq status detail result t) := by
  unfold adminComplete
  repeat' first
    | with_reducible exact h
    | with_reducible apply sendWrite_steady

theorem adminDone_steady (c : AdminCmd) (status : Nat) (detail : Word) (result : Nat) {s t : State} (h : Steady s t) : Steady s (adminDone c status detail result t) := by
  unfold adminDone
  repeat' first
    | with_reducible exact h
    | with_reducible apply adminComplete_steady

theorem dropImage_steady {s t : State} (h : Steady s t) : Steady s (dropImage t) := by
  unfold dropImage
  repeat' first
    | with_reducible exact h
    | with_reducible rfl
    | with_reducible apply steady_mk

theorem dropSleeps_steady (p : AdminCmd × Nat × Nat × Nat → Bool) {s t : State} (h : Steady s t) : Steady s (dropSleeps p t) := by
  unfold dropSleeps
  repeat' first
    | with_reducible exact h
    | with_reducible exact Steady.refl _
    | with_reducible rfl
    | with_reducible apply adminDone_steady
    | with_reducible apply foldl_steady
    | with_reducible intro _
    | with_reducible apply steady_mk

theorem drainAll_steady {s t : State} (h : Steady s t) : Steady s (drainAll t) := by
  unfold drainAll
  repeat' first
    | with_reducible exact h
    | with_reducible exact Steady.refl _
    | with_reducible apply drain_steady
    | with_reducible apply foldl_steady
    | with_reducible intro _

theorem endAllJobs_steady {s t : State} (h : Steady s t) : Steady s (endAllJobs t) := by
  unfold endAllJobs
  repeat' first
    | with_reducible exact h
    | with_reducible exact Steady.refl _
    | with_reducible rfl
    | with_reducible apply releaseIf_steady
    | with_reducible apply notice_steady
    | with_reducible apply drainAll_steady
    | with_reducible apply foldl_steady
    | with_reducible intro _
    | dsimp only
    | with_reducible apply steady_mk

theorem beginErase_steady {s t : State} (h : Steady s t) : Steady s (beginErase t) := by
  unfold beginErase
  repeat' first
    | with_reducible exact h
    | with_reducible rfl
    | split
    | with_reducible apply steady_mk

theorem startFlush_steady {s t : State} (h : Steady s t) : Steady s (startFlush t) := by
  unfold startFlush
  repeat' first
    | with_reducible exact h
    | with_reducible rfl
    | with_reducible apply bbWrite_steady
    | with_reducible apply endPegCommand_steady
    | split
    | dsimp only
    | with_reducible apply steady_mk

theorem recordNotice_steady (rseq : BitVec 32) (nseq : BitVec 32) {s t : State} (h : Steady s t) : Steady s (recordNotice rseq nseq t) := by
  unfold recordNotice
  repeat' first
    | with_reducible exact h
    | with_reducible rfl
    | with_reducible intro _
    | split
    | dsimp only
    | with_reducible apply steady_mk

theorem faultedNotice_steady (rseq : BitVec 32) {s t : State} (h : Steady s t) : Steady s (faultedNotice rseq t) := by
  unfold faultedNotice
  repeat' first
    | with_reducible exact h
    | with_reducible apply recordNotice_steady
    | with_reducible apply notice_steady
    | dsimp only

theorem setRegions_steady (n : Nat) (rs : List Region) {s t : State} (h : Steady s t) : Steady s (setRegions n rs t) := by
  unfold setRegions
  repeat' first
    | with_reducible exact h
    | with_reducible rfl
    | with_reducible apply steady_mk

theorem freeRegions_steady (was : List Region) {s t : State} (h : Steady s t) : Steady s (freeRegions was t) := by
  unfold freeRegions
  repeat' first
    | with_reducible exact h
    | with_reducible rfl
    | with_reducible intro _
    | dsimp only
    | with_reducible apply steady_mk

theorem enterFaulted_calm (cls : Nat) {s t : State} (hl : cls < 32) (hc : classFatal cls = true) (h : Calm s t) :
    Calm s (enterFaulted cls t) := by
  have w : anyFatal (setClass cls t) = true := by
    rw [anyFatal_setClass]; simp only [setClass_fatal ⟨cls, hl⟩ hc, ne_eq, not_false_eq_true, decide_true, Bool.or_true]
  have key : ∀ u : State, Steady (setClass cls t) u → Calm s (setState .faulted u) := by
    intro u k
    have f : anyFatal (setState .faulted u) = true := by
      unfold setState
      split
      · exact k.fatal.trans w
      · exact (bbWrite_steady _ (Steady.refl _)).fatal.trans ((fatal_of (x := u) rfl).trans (k.fatal.trans w))
    have g : (setState .faulted u).ctl.state = .faulted := by
      unfold setState
      split
      · assumption
      · rfl
    have q : ∀ {α : Type} (p : State → α), (∀ c, p { u with ctl := c } = p u) →
        (∀ r v, p (bbWrite r v) = p v) → p (setState .faulted u) = p u := by
      intro α p h1 h2
      unfold setState
      split
      · rfl
      · exact (h2 _ _).trans (h1 _)
    exact ⟨(q (·.pending) (fun _ => rfl) fun _ _ => rfl).trans (k.pending.trans h.pending),
      (q (·.hbm) (fun _ => rfl) fun _ _ => rfl).trans (k.hbm.trans h.hbm),
      (q (·.peg.flash) (fun _ => rfl) fun _ _ => rfl).trans (k.flash.trans h.flash),
      (q (·.time.gcount) (fun _ => rfl) fun _ _ => rfl).trans (k.gcount.trans h.gcount),
      (q (·.tap) (fun _ => rfl) fun _ _ => rfl).trans (k.tap.trans h.tap), fun _ => ⟨fun _ => f, fun _ => g⟩⟩
  unfold enterFaulted
  refine (key _ ?_).trans (startFlush_steady (settle_steady (faultedNotice_steady _ (.refl _)))).toCalm
  exact dropImage_steady (dropSleeps_steady _ (endAllJobs_steady (foldl_steady
    (fun o u => hitOp_steady _ _ _ (Steady.refl u)) (bbWrite_steady _ (Steady.refl _)))))

/-! ## Receive -/

theorem sendAck_steady (f : RxFlow) (neck : Nat) (run : List Nat) {s t : State} (h : Steady s t) : Steady s (sendAck f neck run t) := by
  unfold sendAck
  repeat' first
    | with_reducible exact h
    | with_reducible apply emitOn_steady
    | with_reducible apply drawn_steady
    | dsimp only

theorem commit_steady (a : Arrival) {s t : State} (h : Steady s t) : Steady s (commit a t) := by
  unfold commit
  repeat' first
    | with_reducible exact h
    | with_reducible rfl
    | with_reducible apply sendAck_steady
    | split
    | with_reducible apply steady_mk

theorem protErr_steady (a : Arrival) {s t : State} (h : Steady s t) : Steady s (protErr a t) := by
  unfold protErr
  repeat' first
    | with_reducible exact h
    | with_reducible apply count_steady

theorem dropWith_steady (ev : Nat) (c : Ctx) (a : Arrival) {s t : State} (h : Steady s t) : Steady s (dropWith ev c a t) := by
  unfold dropWith
  repeat' first
    | with_reducible exact h
    | with_reducible apply bwModify_steady
    | with_reducible apply count_steady

theorem lateDrop_steady (a : Arrival) {s t : State} (h : Steady s t) : Steady s (lateDrop a t) := by
  unfold lateDrop
  repeat' first
    | with_reducible exact h
    | with_reducible apply commit_steady
    | with_reducible apply dropWith_steady

theorem stateDrop_steady (a : Arrival) {s t : State} (h : Steady s t) : Steady s (stateDrop a t) := by
  unfold stateDrop
  repeat' first
    | with_reducible exact h
    | with_reducible apply count_steady
    | split

theorem retirePacket_steady (a : Arrival) {s t : State} (h : Steady s t) : Steady s (retirePacket a t) := by
  unfold retirePacket
  repeat' first
    | with_reducible exact h
    | with_reducible apply discardOp_steady
    | with_reducible apply notice_steady
    | split

theorem takeArrival_steady (a : Arrival) {s t : State} (h : Steady s t) : Steady s (takeArrival a t) := by
  unfold takeArrival
  repeat' first
    | with_reducible exact h
    | with_reducible apply cascModify_steady
    | with_reducible intro _
    | split
    | dsimp only

theorem countArrival_steady (a : Arrival) {s t : State} (h : Steady s t) : Steady s (countArrival a t) := by
  unfold countArrival
  repeat' first
    | with_reducible exact h
    | with_reducible apply count_steady
    | with_reducible apply bwModify_steady
    | split

theorem police_steady (a : Arrival) {s t : State} (h : Steady s t) : Steady s (police a t).2 := by
  unfold police
  repeat' first
    | with_reducible exact h
    | split
    | dsimp only
    | with_reducible apply steady_mk

/-- The state that either branch of a check gives. -/
def eitherState : Except State State → State
  | .error s => s
  | .ok s => s

theorem error_steady {s u : State} (h : Steady s u) : Steady s (eitherState (.error u)) := h
theorem ok_steady {s u : State} (h : Steady s u) : Steady s (eitherState (.ok u)) := h

theorem adopted_steady (a : Arrival) {s t : State} (h : Steady s t) : Steady s (adopted a t) :=
  h.trans ⟨⟨rfl, rfl, rfl, rfl, rfl, faultOk_of rfl rfl⟩, fatal_of rfl⟩

theorem checksFlow_steady (a : Arrival) {s t : State} (h : Steady s t) : Steady s (eitherState (checksFlow a t)) := by
  unfold checksFlow
  dsimp only
  repeat' first
    | with_reducible exact h
    | with_reducible apply dropWith_steady
    | with_reducible apply sendAck_steady
    | with_reducible apply adopted_steady
    | split
    | with_reducible apply error_steady
    | with_reducible apply ok_steady

theorem checksMetered_steady (a : Arrival) (c : Nat) {s t : State} (h : Steady s t) :
    Steady s (eitherState (checksMetered a c t)) := by
  have hc : Steady s (if c = 1 then count 0x2E (linkNeck a.link) 1 (arrivalPC t a) t else t) := by
    split
    · exact count_steady _ _ _ _ h
    · exact h
  unfold checksMetered
  split
  · exact dropWith_steady _ _ _ h
  · dsimp only
    split
    · exact retirePacket_steady _ (dropWith_steady _ _ _ hc)
    · exact hc.trans ⟨⟨rfl, rfl, rfl, rfl, rfl, faultOk_of rfl rfl⟩, fatal_of rfl⟩
    · exact checksFlow_steady a hc

theorem checks_steady (again : Bool) (a : Arrival) {s t : State} (h : Steady s t) : Steady s (eitherState (checks again a t)) := by
  unfold checks
  dsimp only
  repeat' first
    | with_reducible exact checksMetered_steady a _ h
    | with_reducible exact checksMetered_steady a _ (police_steady a h)
    | with_reducible exact error_steady (dropWith_steady _ _ _ h)
    | with_reducible exact error_steady (stateDrop_steady _ h)
    | with_reducible exact error_steady h
    | split

theorem oweCredit_steady (a : Arrival) {s t : State} (h : Steady s t) : Steady s (oweCredit a t) := by
  unfold oweCredit
  split
  · exact h
  · exact cascPump_steady _ (cascModify_steady _ _ h)

theorem leaveIngress_steady (a : Arrival) {x : Except State State} {s : State} (h : Steady s (eitherState x)) :
    Steady s (eitherState (leaveIngress a x)) := by
  unfold leaveIngress
  split
  · exact oweCredit_steady a h
  · split
    · exact h
    · exact oweCredit_steady a h

theorem receive_steady (a : Arrival) {s t : State} (h : Steady s t) : Steady s (eitherState (receive a t)) := by
  unfold receive
  repeat' first
    | with_reducible exact h
    | with_reducible rfl
    | with_reducible apply leaveIngress_steady
    | with_reducible apply checks_steady
    | with_reducible apply countArrival_steady
    | with_reducible apply takeArrival_steady
    | split
    | with_reducible apply error_steady
    | with_reducible apply ok_steady
    | with_reducible apply steady_mk

theorem onReceive_steady (a : Arrival) (f : State → State) (h1 : ∀ u : State, Steady u (f u)) {s t : State} (h : Steady s t) :
    Steady s (onReceive a t f) := by
  have k := receive_steady a h
  unfold onReceive
  cases e : receive a t with
  | error u => rw [e] at k; exact k
  | ok u => rw [e] at k; exact Steady.trans k (h1 u)

end Sys2Proof.Machine
end

