-- ==== Sys2Proof/Laws/SteadyOperations.lean ====
section
/-! SUPPORT. Steady for sync messages, chunks, delivery, streams and queues. -/

set_option Elab.async false

namespace Sys2Proof.Machine

/-! ## Sync -/

theorem syncEffect_steady (m : SyncMsg) (chip : Nat) {s t : State} (h : Steady s t) : Steady s (syncEffect m chip t) := by
  unfold syncEffect
  repeat' first
    | with_reducible exact h
    | with_reducible apply syncAddApply_steady
    | with_reducible apply syncSetApply_steady
    | with_reducible apply syncWaitApply_steady
    | with_reducible apply syncClrfailApply_steady
    | split

theorem syncMessage_steady (m : SyncMsg) (chip : Nat) {s t : State} (h : Steady s t) : Steady s (syncMessage m chip t) := by
  unfold syncMessage
  repeat' first
    | with_reducible exact h
    | with_reducible apply syncEffect_steady
    | with_reducible apply sendRelease_steady
    | with_reducible apply syncDrop_steady
    | split

theorem syncRow_steady (sop : Nat) (a : Arrival) {s t : State} (h : Steady s t) : Steady s (syncRow sop a t) := by
  unfold syncRow
  repeat' first
    | with_reducible exact h
    | with_reducible exact Steady.refl _
    | with_reducible apply onReceive_steady
    | with_reducible apply protErr_steady
    | with_reducible apply commit_steady
    | with_reducible apply syncDrop_steady
    | with_reducible apply syncMessage_steady
    | with_reducible intro _
    | split
    | dsimp only

theorem claimTiles_steady {s t : State} (h : Steady s t) : Steady s (claimTiles t) := by
  unfold claimTiles
  repeat' first
    | with_reducible exact h
    | with_reducible exact Steady.refl _
    | with_reducible rfl
    | with_reducible apply foldl_steady
    | with_reducible intro _
    | split
    | dsimp only
    | with_reducible apply steady_mk

/-! ## Chunks -/

theorem fixEpoch_steady (q : Nat) (d : BitVec 32) (e : BitVec 8) {s t : State} (h : Steady s t) : Steady s (fixEpoch q d e t) := by
  unfold fixEpoch
  repeat' first
    | with_reducible exact h
    | with_reducible apply opModify_steady

theorem fetchMember_steady (o : Op) (chunk : Nat) (step : Nat) (e : Entry) {s t : State} (h : Steady s t) : Steady s (fetchMember o chunk step e t) := by
  unfold fetchMember
  repeat' first
    | with_reducible exact h
    | with_reducible exact Steady.refl _
    | with_reducible apply sendRead_steady
    | with_reducible apply foldl_steady
    | with_reducible intro _

theorem fetchChunk_steady (o : Op) (chunk : Nat) {s t : State} (h : Steady s t) : Steady s (fetchChunk o chunk t) := by
  unfold fetchChunk
  repeat' first
    | with_reducible exact h
    | with_reducible exact Steady.refl _
    | with_reducible apply fetchMember_steady
    | with_reducible apply foldl_steady
    | with_reducible intro _

theorem fetchOp_steady (q : Nat) (d : BitVec 32) {s t : State} (h : Steady s t) : Steady s (fetchOp q d t) := by
  unfold fetchOp
  repeat' first
    | with_reducible exact h
    | with_reducible exact Steady.refl _
    | with_reducible apply withOp_steady
    | with_reducible apply opModify_steady
    | with_reducible apply fetchChunk_steady
    | with_reducible apply foldl_steady
    | with_reducible intro _
    | split

theorem fetchAll_steady {s t : State} (h : Steady s t) : Steady s (fetchAll t) := by
  unfold fetchAll
  repeat' first
    | with_reducible exact h
    | with_reducible exact Steady.refl _
    | with_reducible apply fetchOp_steady
    | with_reducible apply foldl_steady
    | with_reducible intro _

/-! ## Deliver -/

theorem sendOp_steady (o : Op) (e : Entry) (tc : Nat) (x : Ext) (payload : List Byte) (why : Purpose) {s t : State} (h : Steady s t) : Steady s (sendOp o e tc x payload why t) := by
  unfold sendOp
  repeat' first
    | with_reducible exact h
    | with_reducible apply sendEntry_steady

theorem bytesFor_steady (q : Nat) (d : BitVec 32) (n : Nat) {s t : State} (h : Steady s t) : Steady s (bytesFor q d n t) := by
  unfold bytesFor
  repeat' first
    | with_reducible exact h
    | with_reducible apply opModify_steady

theorem writeUnits_steady (o : Op) (p : Part) (off : Nat) (bs : List Byte) (e : Entry) {s t : State} (h : Steady s t) : Steady s (writeUnits o p off bs e t) := by
  unfold writeUnits
  repeat' first
    | with_reducible exact h
    | with_reducible apply sendOp_steady

theorem passUnits_steady (o : Op) (chunk : Nat) (p : Part) (off : Nat) (len : Nat) (bs : List Byte) (e : Entry) {s t : State} (h : Steady s t) : Steady s (passUnits o chunk p off len bs e t) := by
  unfold passUnits
  repeat' first
    | with_reducible exact h
    | with_reducible apply sendOp_steady

theorem deliverUnits_steady (o : Op) (chunk : Nat) (p : Part) (off : Nat) (len : Nat) (bs : List Byte) {s t : State} (h : Steady s t) : Steady s (deliverUnits o chunk p off len bs t) := by
  unfold deliverUnits
  repeat' first
    | with_reducible exact h
    | with_reducible exact Steady.refl _
    | with_reducible apply writeUnits_steady
    | with_reducible apply passUnits_steady
    | with_reducible apply foldl_steady
    | with_reducible intro _

theorem deliverPart_steady (o : Op) (chunk : Nat) (p : Part) (bs : List Byte) {s t : State} (h : Steady s t) : Steady s (deliverPart o chunk p bs t) := by
  unfold deliverPart
  repeat' first
    | with_reducible exact h
    | with_reducible exact Steady.refl _
    | with_reducible apply deliverUnits_steady
    | with_reducible apply foldl_steady
    | with_reducible intro _

theorem issuePart_steady (o : Op) (chunk : Nat) (p : Part) (bs : List Byte) {s t : State} (h : Steady s t) : Steady s (issuePart o chunk p bs t) := by
  unfold issuePart
  repeat' first
    | with_reducible exact h
    | with_reducible apply opModify_steady
    | with_reducible apply deliverPart_steady
    | split

theorem deliverPiece_steady (o : Op) (n : Nat) (p : Piece) {s t : State} (h : Steady s t) : Steady s (deliverPiece o n p t) := by
  unfold deliverPiece
  repeat' first
    | with_reducible exact h
    | with_reducible exact Steady.refl _
    | with_reducible apply deliverUnits_steady
    | with_reducible apply foldl_steady
    | with_reducible intro _
    | split

theorem deliverStaged_steady (q : Nat) (d : BitVec 32) (chunk : Nat) {s t : State} (h : Steady s t) : Steady s (deliverStaged q d chunk t) := by
  unfold deliverStaged
  repeat' first
    | with_reducible exact h
    | with_reducible exact Steady.refl _
    | with_reducible apply withOp_steady
    | with_reducible apply opModify_steady
    | with_reducible apply deliverPiece_steady
    | with_reducible apply foldl_steady
    | with_reducible intro _

theorem deliverEarly_steady (q : Nat) (d : BitVec 32) {s t : State} (h : Steady s t) : Steady s (deliverEarly q d t) := by
  unfold deliverEarly
  repeat' first
    | with_reducible exact h
    | with_reducible exact Steady.refl _
    | with_reducible apply withOp_steady
    | with_reducible apply deliverStaged_steady
    | with_reducible apply foldl_steady
    | with_reducible intro _
    | split

theorem sendMeta_steady (o : Op) {s t : State} (h : Steady s t) : Steady s (sendMeta o t) := by
  unfold sendMeta
  repeat' first
    | with_reducible exact h
    | with_reducible exact Steady.refl _
    | with_reducible apply sendOp_steady
    | with_reducible apply foldl_steady
    | with_reducible intro _

theorem endCheck_steady (q : Nat) (d : BitVec 32) {s t : State} (h : Steady s t) : Steady s (endCheck q d t) := by
  unfold endCheck
  repeat' first
    | with_reducible exact h
    | with_reducible exact Steady.refl _
    | with_reducible apply withOp_steady
    | with_reducible apply opEnd_steady
    | with_reducible apply sendMeta_steady
    | with_reducible intro _
    | split

theorem countCopiesOf_steady (gs : List WgradDef) (neck : Nat) (kind : Nat) (off : Nat) (n : Nat) (job : Nat) {s t : State} (h : Steady s t) : Steady s (countCopiesOf gs neck kind off n job t) := by
  unfold countCopiesOf
  repeat' first
    | with_reducible exact h
    | with_reducible exact Steady.refl _
    | with_reducible apply countWrite_steady
    | with_reducible apply countCross_steady
    | with_reducible apply foldl_steady
    | with_reducible intro _
    | split
    | dsimp only

/-! ## Streams -/

theorem opUp_steady (o : Op) (ctype : Nat) {s t : State} (h : Steady s t) : Steady s (opUp o ctype t) := by
  unfold opUp
  repeat' first
    | with_reducible exact h
    | with_reducible apply sendCtrl_steady
    | split

theorem stashCheck_steady (q : Nat) (d : BitVec 32) {s t : State} (h : Steady s t) : Steady s (stashCheck q d t) := by
  unfold stashCheck
  repeat' first
    | with_reducible exact h
    | with_reducible exact Steady.refl _
    | with_reducible apply withOp_steady
    | with_reducible apply opModify_steady
    | with_reducible apply opEnd_steady
    | with_reducible apply opUp_steady
    | with_reducible intro _
    | split

theorem stashChecks_steady (job : Nat) (w : Nat) (step : BitVec 32) {s t : State} (h : Steady s t) : Steady s (stashChecks job w step t) := by
  unfold stashChecks
  repeat' first
    | with_reducible exact h
    | with_reducible exact Steady.refl _
    | with_reducible apply stashCheck_steady
    | with_reducible apply foldl_steady
    | with_reducible intro _

theorem wgradBelow_steady (q : Nat) (d : BitVec 32) {s t : State} (h : Steady s t) : Steady s (wgradBelow q d t) := by
  unfold wgradBelow
  repeat' first
    | with_reducible exact h
    | with_reducible exact Steady.refl _
    | with_reducible apply withOp_steady
    | with_reducible apply opEnd_steady
    | with_reducible intro _
    | split

theorem streamChecks_steady (q : Nat) (d : BitVec 32) {s t : State} (h : Steady s t) : Steady s (streamChecks q d t) := by
  unfold streamChecks
  repeat' first
    | with_reducible exact h
    | with_reducible apply wgradBelow_steady
    | with_reducible apply stashCheck_steady

/-! ## Pizzicato -/

theorem pizzModify_steady (q : Nat) (d : BitVec 32) (f : PizzOp → PizzOp) {s t : State} (h : Steady s t) : Steady s (pizzModify q d f t) := by
  unfold pizzModify
  repeat' first
    | with_reducible exact h
    | with_reducible rfl
    | with_reducible apply steady_mk

theorem pizzOpen_steady (o : Op) {s t : State} (h : Steady s t) : Steady s (pizzOpen o t) := by
  unfold pizzOpen
  repeat' first
    | with_reducible exact h
    | with_reducible rfl
    | split
    | with_reducible apply steady_mk

theorem sendPizz_steady (o : Op) (e : Entry) (x : PizzExt) (bs : List Byte) {s t : State} (h : Steady s t) : Steady s (sendPizz o e x bs t) := by
  unfold sendPizz
  repeat' first
    | with_reducible exact h
    | with_reducible apply sendOp_steady

theorem sendPizzTerms_steady (o : Op) (e : Entry) {s t : State} (h : Steady s t) : Steady s (sendPizzTerms o e t) := by
  unfold sendPizzTerms
  repeat' first
    | with_reducible exact h
    | with_reducible exact Steady.refl _
    | with_reducible apply sendPizz_steady
    | with_reducible apply foldl_steady
    | with_reducible intro _
    | split

theorem pizzUp_steady (o : Op) (e : Entry) {s t : State} (h : Steady s t) : Steady s (pizzUp o e t) := by
  unfold pizzUp
  repeat' first
    | with_reducible exact h
    | with_reducible apply sendPizz_steady
    | with_reducible apply sendPizzTerms_steady
    | split
    | dsimp only

theorem pizzCast_steady (o : Op) (bs : List Byte) (pflags : BitVec 8) {s t : State} (h : Steady s t) : Steady s (pizzCast o bs pflags t) := by
  unfold pizzCast
  repeat' first
    | with_reducible exact h
    | with_reducible exact Steady.refl _
    | with_reducible apply sendOp_steady
    | with_reducible apply sendPizz_steady
    | with_reducible apply foldl_steady
    | with_reducible intro _

theorem pizzRoot_steady (o : Op) {s t : State} (h : Steady s t) : Steady s (pizzRoot o t) := by
  unfold pizzRoot
  repeat' first
    | with_reducible exact h
    | with_reducible exact Steady.refl _
    | with_reducible apply opModify_steady
    | with_reducible apply pizzModify_steady
    | with_reducible apply withOp_steady
    | with_reducible apply sendMeta_steady
    | with_reducible apply pizzCast_steady
    | with_reducible intro _

theorem pizzPass_steady (o : Op) {s t : State} (h : Steady s t) : Steady s (pizzPass o t) := by
  unfold pizzPass
  repeat' first
    | with_reducible exact h
    | with_reducible exact Steady.refl _
    | with_reducible apply opModify_steady
    | with_reducible apply pizzModify_steady
    | with_reducible apply withOp_steady
    | with_reducible apply pizzCast_steady
    | with_reducible intro _
    | split

theorem pizzCrosses_steady (o : Op) {s t : State} (h : Steady s t) : Steady s (pizzCrosses o t) := by
  unfold pizzCrosses
  repeat' first
    | with_reducible exact h
    | with_reducible exact Steady.refl _
    | with_reducible apply countCross_steady
    | with_reducible apply foldl_steady
    | with_reducible intro _
    | dsimp only

theorem pizzSend_steady (o : Op) {s t : State} (h : Steady s t) : Steady s (pizzSend o t) := by
  unfold pizzSend
  repeat' first
    | with_reducible exact h
    | with_reducible apply pizzCrosses_steady
    | with_reducible apply count_steady
    | with_reducible apply pizzRoot_steady
    | with_reducible apply pizzModify_steady
    | with_reducible apply pizzUp_steady
    | with_reducible intro _
    | split
    | dsimp only

theorem pizzCheck_steady (q : Nat) (d : BitVec 32) {s t : State} (h : Steady s t) : Steady s (pizzCheck q d t) := by
  unfold pizzCheck
  repeat' first
    | with_reducible exact h
    | with_reducible exact Steady.refl _
    | with_reducible apply withOp_steady
    | with_reducible apply pizzSend_steady
    | with_reducible apply pizzPass_steady
    | with_reducible apply pizzModify_steady
    | with_reducible intro _
    | split
    | dsimp only

theorem placeUnstarted_steady (o : Op) {s t : State} (h : Steady s t) : Steady s (placeUnstarted o t) := by
  unfold placeUnstarted
  repeat' first
    | with_reducible exact h
    | with_reducible rfl
    | with_reducible apply opRemove_steady
    | with_reducible apply pizzEnd_steady
    | with_reducible intro _
    | split
    | dsimp only
    | with_reducible apply steady_mk

/-! ## Queues -/

theorem failDesc_steady (q : Nat) (dseq : BitVec 32) (d : Desc) (status : Nat) (detail : Word) {s t : State} (h : Steady s t) : Steady s (failDesc q dseq d status detail t) := by
  unfold failDesc
  repeat' first
    | with_reducible exact h
    | with_reducible apply placeUnstarted_steady
    | with_reducible apply notice_steady
    | with_reducible apply queueError_steady
    | dsimp only

theorem failStarted_steady (cause : Nat) (detail : Word) (o : Op) {s t : State} (h : Steady s t) : Steady s (failStarted cause detail o t) := by
  unfold failStarted
  exact notice_steady _ (queueError_steady _ _ _ (discardWith_steady _ _ _ _ _ h))

theorem seedTaken_steady (o : Op) {s t : State} (h : Steady s t) : Steady s (seedTaken o t) := by
  unfold seedTaken
  repeat' first
    | with_reducible exact h
    | with_reducible rfl
    | with_reducible apply noteSet_steady
    | with_reducible apply drawn_steady
    | split
    | dsimp only
    | with_reducible apply steady_mk

theorem foreignTold_steady (o : Op) {s t : State} (h : Steady s t) : Steady s (foreignTold o t) := by
  unfold foreignTold
  repeat' first
    | with_reducible exact h
    | with_reducible apply streamModify_steady
    | with_reducible intro _
    | split
    | dsimp only

theorem streamGate_steady (q : Nat) (d : BitVec 32) {s t : State} (h : Steady s t) : Steady s (streamGate q d t) := by
  unfold streamGate
  repeat' first
    | with_reducible exact h
    | with_reducible exact Steady.refl _
    | with_reducible apply withOp_steady
    | with_reducible apply streamModify_steady
    | with_reducible apply notice_steady
    | with_reducible apply discardOp_steady
    | with_reducible intro _
    | split
    | dsimp only

theorem streamGates_steady {s t : State} (h : Steady s t) : Steady s (streamGates t) := by
  unfold streamGates
  repeat' first
    | with_reducible exact h
    | with_reducible exact Steady.refl _
    | with_reducible apply streamGate_steady
    | with_reducible apply foldl_steady
    | with_reducible intro _
    | dsimp only

theorem startChecks_steady (o : Op) {s t : State} (h : Steady s t) : Steady s (startChecks o t) := by
  unfold startChecks
  repeat' first
    | with_reducible exact h
    | with_reducible apply discardOp_steady
    | with_reducible apply notice_steady
    | with_reducible apply foreignTold_steady
    | with_reducible apply streamGate_steady
    | split
    | dsimp only

theorem renewSource_steady (o : Op) {s t : State} (h : Steady s t) : Steady s (renewSource o t) := by
  unfold renewSource
  repeat' first
    | with_reducible exact h
    | with_reducible rfl
    | with_reducible apply steady_mk

theorem earlyOver_steady (o : Op) {s t : State} (h : Steady s t) : Steady s (earlyOver o t) :=
  h.trans ⟨⟨rfl, rfl, rfl, rfl, rfl, faultOk_of rfl rfl⟩, fatal_of rfl⟩

theorem enterOp_steady (o : Op) {s t : State} (h : Steady s t) : Steady s (enterOp o t) := by
  unfold enterOp
  repeat' first
    | with_reducible exact h
    | with_reducible rfl
    | with_reducible apply earlyOver_steady
    | with_reducible apply renewSource_steady
    | with_reducible apply opRemove_steady
    | with_reducible apply claimTiles_steady
    | with_reducible apply seedTaken_steady
    | split
    | dsimp only
    | with_reducible apply steady_mk

theorem endEarly_steady (e : EarlyEnd) (writing : Bool) {s t : State} (h : Steady s t) : Steady s (endEarly e writing t) := by
  unfold endEarly
  repeat' first
    | with_reducible exact h
    | with_reducible rfl
    | with_reducible apply opModify_steady
    | with_reducible apply pizzEnd_steady
    | with_reducible apply opFinish_steady
    | with_reducible intro _
    | split
    | dsimp only
    | with_reducible apply steady_mk

theorem startHome_steady (q : Nat) (d : Desc) (z : ZsiOp) (stale : Option (BitVec 32)) {s t : State} (h : Steady s t) : Steady s (startHome q d z stale t) := by
  unfold startHome
  repeat' first
    | with_reducible exact h
    | with_reducible exact Steady.refl _
    | with_reducible apply recordStep_steady
    | with_reducible apply seedTaken_steady
    | with_reducible apply placeUnstarted_steady
    | with_reducible apply notice_steady
    | with_reducible apply queueError_steady
    | with_reducible apply queuePut_steady
    | with_reducible apply count_steady
    | with_reducible apply enterOp_steady
    | with_reducible apply sendCtrls_steady
    | with_reducible apply endEarly_steady
    | with_reducible apply withOp_steady
    | with_reducible apply discardWith_steady
    | with_reducible apply startChecks_steady
    | with_reducible apply pizzCheck_steady
    | with_reducible apply streamChecks_steady
    | with_reducible apply fetchOp_steady
    | with_reducible intro _
    | split
    | dsimp only

theorem startFetched_steady (q : Nat) (f : Fetched) {s t : State} (h : Steady s t) : Steady s (startFetched q f t) := by
  unfold startFetched
  repeat' first
    | with_reducible exact h
    | with_reducible exact Steady.refl _
    | with_reducible rfl
    | with_reducible apply queuePut_steady
    | with_reducible apply failDesc_steady
    | with_reducible apply startHome_steady
    | split
    | dsimp only

theorem fetchEntry_steady (q : Nat) (d : BitVec 32) {s t : State} (h : Steady s t) : Steady s (fetchEntry q d t) := by
  unfold fetchEntry
  repeat' first
    | with_reducible exact h
    | with_reducible apply countRead_steady
    | with_reducible apply queuePut_steady
    | split
    | dsimp only

theorem ctrlRow_steady (ctype : Nat) (a : Arrival) (f : Nat → Nat → BitVec 32 → BitVec 64 → State → State) (h1 : ∀ (y0 : Nat) (y1 : Nat) (y2 : BitVec 32) (y3 : BitVec 64) (u : State), Steady u (f y0 y1 y2 y3 u)) {s t : State} (h : Steady s t) : Steady s (ctrlRow ctype a t f) := by
  unfold ctrlRow
  repeat' first
    | with_reducible exact h
    | with_reducible exact Steady.refl _
    | with_reducible refine Steady.trans ?_ (h1 _ _ _ _ _)
    | with_reducible apply onReceive_steady
    | with_reducible apply commit_steady
    | with_reducible intro _
    | split

theorem sendUp_steady (g : Nat) (q : Nat) (d : BitVec 32) (ctype : Nat) (arg : BitVec 64) {s t : State} (h : Steady s t) : Steady s (sendUp g q d ctype arg t) := by
  unfold sendUp
  repeat' first
    | with_reducible exact h
    | with_reducible apply sendCtrl_steady
    | split

theorem startRelay_steady (g : Nat) (q : Nat) (d : Desc) (z : ZsiOp) {s t : State} (h : Steady s t) : Steady s (startRelay g q d z t) := by
  unfold startRelay
  repeat' first
    | with_reducible exact h
    | with_reducible exact Steady.refl _
    | with_reducible apply queuePut_steady
    | with_reducible apply enterOp_steady
    | with_reducible apply sendCtrls_steady
    | with_reducible apply opFinish_steady
    | with_reducible apply endEarly_steady
    | with_reducible apply withOp_steady
    | with_reducible apply discardWith_steady
    | with_reducible apply notice_steady
    | with_reducible apply queueToError_steady
    | with_reducible apply pizzCheck_steady
    | with_reducible apply streamChecks_steady
    | with_reducible apply endCheck_steady
    | with_reducible apply deliverEarly_steady
    | with_reducible apply fetchOp_steady
    | with_reducible apply startChecks_steady
    | split
    | dsimp only
    | with_reducible intro _

theorem takeDiscard_steady (a : Arrival) (group : Nat) (q : Nat) (d : BitVec 32) (status : Nat) (detail : Word) (tell : Op → State → State) (h1 : ∀ (y0 : Op) (u : State), Steady u (tell y0 u)) {s t : State} (h : Steady s t) : Steady s (takeDiscard a group q d status detail tell t) := by
  unfold takeDiscard
  repeat' first
    | with_reducible exact h
    | with_reducible exact Steady.refl _
    | with_reducible rfl
    | with_reducible refine Steady.trans ?_ (h1 _ _)
    | with_reducible apply discardTold_steady
    | with_reducible apply dropWith_steady
    | with_reducible intro _
    | split
    | dsimp only
    | with_reducible apply steady_mk

theorem queueOut_steady (q : Nat) (cause : Nat) (d : BitVec 32) {s t : State} (h : Steady s t) : Steady s (queueOut q cause d t) := by
  unfold queueOut
  repeat' first
    | with_reducible exact h
    | with_reducible apply queueError_steady
    | with_reducible apply queueToError_steady
    | split

end Sys2Proof.Machine
end

