-- ==== Sys2Proof/Laws/SteadyRegisters.lean ====
section
/-! SUPPORT. Steady for registers, the pegbox and the admin commands. -/

set_option Elab.async false

namespace Sys2Proof.Machine

/-! ## Registers -/

theorem gcountLatch_steady {s t : State} (h : Steady s t) : Steady s (gcountLatch t) := by
  unfold gcountLatch
  repeat' first
    | with_reducible exact h
    | with_reducible rfl
    | with_reducible apply steady_mk

theorem pmcModify_steady (i : Nat) (f : Pmc → Pmc) {s t : State} (h : Steady s t) : Steady s (pmcModify i f t) := by
  unfold pmcModify
  repeat' first
    | with_reducible exact h
    | with_reducible apply setPmc_steady

theorem pmcLatch_steady (i : Nat) {s t : State} (h : Steady s t) : Steady s (pmcLatch i t) := by
  unfold pmcLatch
  repeat' first
    | with_reducible exact h
    | with_reducible apply pmcModify_steady

theorem wrStatus_steady (w : RegWrite) {s t : State} (h : Steady s t) : Steady s (wrStatus w t) := by
  unfold wrStatus
  repeat' first
    | with_reducible exact h
    | with_reducible rfl
    | with_reducible apply reject_steady
    | split
    | with_reducible apply steady_mk

theorem wrIslCtl_steady (w : RegWrite) {s t : State} (h : Steady s t) : Steady s (wrIslCtl w t) := by
  unfold wrIslCtl
  repeat' first
    | with_reducible exact h
    | with_reducible rfl
    | with_reducible apply reject_steady
    | split
    | with_reducible apply steady_mk

theorem acceptLen_steady (n : Nat) {s t : State} (h : Steady s t) : Steady s (acceptLen n t) := by
  unfold acceptLen
  repeat' first
    | with_reducible exact h
    | with_reducible rfl
    | with_reducible apply steady_mk

theorem wrFrameLen_steady (w : RegWrite) {s t : State} (h : Steady s t) : Steady s (wrFrameLen w t) := by
  unfold wrFrameLen
  repeat' first
    | with_reducible exact h
    | with_reducible apply reject_steady
    | with_reducible apply acceptLen_steady
    | split
    | dsimp only

theorem wrDet_steady (w : RegWrite) {s t : State} (h : Steady s t) : Steady s (wrDet w t) := by
  unfold wrDet
  repeat' first
    | with_reducible exact h
    | with_reducible rfl
    | with_reducible apply steady_mk

theorem wrTsyncCtl_steady (w : RegWrite) {s t : State} (h : Steady s t) : Steady s (wrTsyncCtl w t) := by
  unfold wrTsyncCtl
  repeat' first
    | with_reducible exact h
    | with_reducible rfl
    | with_reducible apply steady_mk

theorem bounded_steady (w : RegWrite) (hi : Nat) (old : Nat) (lo : Nat) (up : Nat) (ok : Nat → Bool) (put : Nat → State → State) (h1 : ∀ (y0 : Nat) (u : State), Steady u (put y0 u)) {s t : State} (h : Steady s t) : Steady s (bounded w hi old lo up ok put t) := by
  unfold bounded
  repeat' first
    | with_reducible exact h
    | with_reducible refine Steady.trans ?_ (h1 _ _)
    | with_reducible apply reject_steady
    | split
    | dsimp only

theorem wrTsyncPer_steady (w : RegWrite) {s t : State} (h : Steady s t) : Steady s (wrTsyncPer w t) := by
  unfold wrTsyncPer
  repeat' first
    | with_reducible exact h
    | with_reducible exact Steady.refl _
    | with_reducible rfl
    | with_reducible apply bounded_steady
    | with_reducible intro _
    | with_reducible apply steady_mk

theorem wrPizzTmo_steady (w : RegWrite) {s t : State} (h : Steady s t) : Steady s (wrPizzTmo w t) := by
  unfold wrPizzTmo
  repeat' first
    | with_reducible exact h
    | with_reducible exact Steady.refl _
    | with_reducible rfl
    | with_reducible apply bounded_steady
    | with_reducible intro _
    | with_reducible apply steady_mk

theorem wrE2eRto_steady (w : RegWrite) {s t : State} (h : Steady s t) : Steady s (wrE2eRto w t) := by
  unfold wrE2eRto
  repeat' first
    | with_reducible exact h
    | with_reducible exact Steady.refl _
    | with_reducible rfl
    | with_reducible apply bounded_steady
    | with_reducible intro _
    | with_reducible apply steady_mk

theorem wrE2eTries_steady (w : RegWrite) {s t : State} (h : Steady s t) : Steady s (wrE2eTries w t) := by
  unfold wrE2eTries
  repeat' first
    | with_reducible exact h
    | with_reducible exact Steady.refl _
    | with_reducible rfl
    | with_reducible apply bounded_steady
    | with_reducible intro _
    | with_reducible apply steady_mk

theorem wrThrLo_steady (w : RegWrite) {s t : State} (h : Steady s t) : Steady s (wrThrLo w t) := by
  unfold wrThrLo
  repeat' first
    | with_reducible exact h
    | with_reducible exact Steady.refl _
    | with_reducible rfl
    | with_reducible apply bounded_steady
    | with_reducible intro _
    | with_reducible apply steady_mk

theorem wrThrHi_steady (w : RegWrite) {s t : State} (h : Steady s t) : Steady s (wrThrHi w t) := by
  unfold wrThrHi
  repeat' first
    | with_reducible exact h
    | with_reducible exact Steady.refl _
    | with_reducible rfl
    | with_reducible apply bounded_steady
    | with_reducible intro _
    | with_reducible apply steady_mk

theorem wrCeThr_steady (w : RegWrite) {s t : State} (h : Steady s t) : Steady s (wrCeThr w t) := by
  unfold wrCeThr
  repeat' first
    | with_reducible exact h
    | with_reducible exact Steady.refl _
    | with_reducible rfl
    | with_reducible apply bounded_steady
    | with_reducible intro _
    | with_reducible apply steady_mk

theorem wrAlertEn_steady (w : RegWrite) {s t : State} (h : Steady s t) : Steady s (wrAlertEn w t) := by
  unfold wrAlertEn
  repeat' first
    | with_reducible exact h
    | with_reducible rfl
    | with_reducible apply steady_mk

theorem wrBbCtl_steady (w : RegWrite) {s t : State} (h : Steady s t) : Steady s (wrBbCtl w t) := by
  unfold wrBbCtl
  repeat' first
    | with_reducible exact h
    | with_reducible apply reject_steady
    | with_reducible apply startFlush_steady
    | split

theorem wrPwr_steady (w : RegWrite) {s t : State} (h : Steady s t) : Steady s (wrPwr w t) := by
  unfold wrPwr
  repeat' first
    | with_reducible exact h
    | with_reducible rfl
    | with_reducible apply steady_mk

theorem wrWarn_steady (w : RegWrite) {s t : State} (h : Steady s t) : Steady s (wrWarn w t) := by
  unfold wrWarn
  repeat' first
    | with_reducible exact h
    | with_reducible rfl
    | with_reducible apply reject_steady
    | split
    | with_reducible apply steady_mk

theorem wrPegReg_steady (w : RegWrite) {s t : State} (h : Steady s t) : Steady s (wrPegReg w t) := by
  unfold wrPegReg
  repeat' first
    | with_reducible exact h
    | with_reducible rfl
    | split
    | with_reducible apply steady_mk

theorem pmcClearAll_steady {s t : State} (h : Steady s t) : Steady s (pmcClearAll t) := by
  unfold pmcClearAll
  repeat' first
    | with_reducible exact h
    | with_reducible apply setPmc_steady

theorem setFreeze_steady (b : Bool) {s t : State} (h : Steady s t) : Steady s (setFreeze b t) := by
  unfold setFreeze
  repeat' first
    | with_reducible exact h
    | with_reducible rfl
    | with_reducible apply steady_mk

theorem setArm_steady (b : Bool) {s t : State} (h : Steady s t) : Steady s (setArm b t) := by
  unfold setArm
  repeat' first
    | with_reducible exact h
    | with_reducible rfl
    | with_reducible apply steady_mk

theorem wrGctl_steady (w : RegWrite) {s t : State} (h : Steady s t) : Steady s (wrGctl w t) := by
  unfold wrGctl
  repeat' first
    | with_reducible exact h
    | with_reducible apply reject_steady
    | with_reducible apply pmcClearAll_steady
    | with_reducible apply setArm_steady
    | with_reducible apply setFreeze_steady
    | split
    | dsimp only

theorem resetSseq_steady {s t : State} (h : Steady s t) : Steady s (resetSseq t) := by
  unfold resetSseq
  repeat' first
    | with_reducible exact h
    | with_reducible rfl
    | with_reducible apply steady_mk

theorem wrSmpCtl_steady (w : RegWrite) {s t : State} (h : Steady s t) : Steady s (wrSmpCtl w t) := by
  unfold wrSmpCtl
  repeat' first
    | with_reducible exact h
    | with_reducible rfl
    | with_reducible apply reject_steady
    | with_reducible apply resetSseq_steady
    | split
    | with_reducible apply steady_mk

theorem wrObsReg_steady (w : RegWrite) {s t : State} (h : Steady s t) : Steady s (wrObsReg w t) := by
  unfold wrObsReg
  repeat' first
    | with_reducible exact h
    | with_reducible rfl
    | with_reducible apply resetSseq_steady
    | split
    | with_reducible apply steady_mk

theorem clearSums_steady {s t : State} (h : Steady s t) : Steady s (clearSums t) := by
  unfold clearSums
  repeat' first
    | with_reducible exact h
    | with_reducible rfl
    | with_reducible apply steady_mk

theorem wrBwCtl_steady (w : RegWrite) {s t : State} (h : Steady s t) : Steady s (wrBwCtl w t) := by
  unfold wrBwCtl
  repeat' first
    | with_reducible exact h
    | with_reducible rfl
    | with_reducible apply reject_steady
    | with_reducible apply clearSums_steady
    | split
    | with_reducible apply steady_mk

theorem wrPmcSel_steady (i : Nat) (w : RegWrite) {s t : State} (h : Steady s t) : Steady s (wrPmcSel i w t) := by
  unfold wrPmcSel
  repeat' first
    | with_reducible exact h
    | with_reducible apply reject_steady
    | with_reducible apply pmcModify_steady
    | split
    | dsimp only

theorem wrPmcValue_steady (i : Nat) (k : Nat) (w : RegWrite) {s t : State} (h : Steady s t) : Steady s (wrPmcValue i k w t) := by
  unfold wrPmcValue
  repeat' first
    | with_reducible exact h
    | with_reducible apply pmcModify_steady
    | split

theorem laneModify_steady (c : Nat) (n : Nat) (f : Lane → Lane) {s t : State} (h : Steady s t) : Steady s (laneModify c n f t) := by
  unfold laneModify
  repeat' first
    | with_reducible exact h
    | with_reducible apply cascModify_steady

theorem wrLane_steady (c : Nat) (n : Nat) (w : RegWrite) {s t : State} (h : Steady s t) : Steady s (wrLane c n w t) := by
  unfold wrLane
  repeat' first
    | with_reducible exact h
    | with_reducible apply reject_steady
    | with_reducible apply laneModify_steady
    | split
    | dsimp only

theorem syncCascPort_steady (c : Nat) {s t : State} (h : Steady s t) : Steady s (syncCascPort c t) := by
  unfold syncCascPort
  repeat' first
    | with_reducible exact h
    | with_reducible apply portPut_steady

theorem lanesChange_steady (c : Nat) (f : Casc → Casc) {s t : State} (h : Steady s t) : Steady s (lanesChange c f t) := by
  unfold lanesChange
  repeat' first
    | with_reducible exact h
    | with_reducible rfl
    | with_reducible apply syncCascPort_steady
    | with_reducible apply cascPump_steady
    | with_reducible apply markerSend_steady
    | with_reducible intro _
    | split
    | dsimp only
    | with_reducible apply steady_mk

theorem sleepBits_steady (c : Nat) (rx : BitVec 16) (tx : BitVec 16) {s t : State} (h : Steady s t) : Steady s (sleepBits c rx tx t) := by
  unfold sleepBits
  repeat' first
    | with_reducible exact h
    | with_reducible apply lanesChange_steady
    | with_reducible intro _
    | split
    | dsimp only

theorem wrCasc_steady (c : Nat) (w : RegWrite) {s t : State} (h : Steady s t) : Steady s (wrCasc c w t) := by
  unfold wrCasc
  repeat' first
    | with_reducible exact h
    | with_reducible apply reject_steady
    | with_reducible apply sleepBits_steady
    | split
    | dsimp only

theorem wrMeter_steady (i : Nat) (k : Nat) (w : RegWrite) {s t : State} (h : Steady s t) : Steady s (wrMeter i k w t) := by
  unfold wrMeter
  repeat' first
    | with_reducible exact h
    | with_reducible rfl
    | with_reducible apply reject_steady
    | split
    | with_reducible apply steady_mk

theorem wrShadow_steady (chip : Nat) (k : Nat) (w : RegWrite) {s t : State} (h : Steady s t) : Steady s (wrShadow chip k w t) := by
  unfold wrShadow
  repeat' first
    | with_reducible exact h
    | with_reducible rfl
    | with_reducible apply reject_steady
    | split
    | with_reducible apply steady_mk

/-! ## Pegbox -/

theorem setPeg_steady (p : Peg) {s t : State} (e : p.flash = t.peg.flash) (h : Steady s t) : Steady s (setPeg p t) :=
  h.trans ⟨⟨rfl, rfl, e, rfl, rfl, faultOk_of rfl rfl⟩, fatal_of rfl⟩

theorem pegResult_steady (r : Nat) {s t : State} (h : Steady s t) : Steady s (pegResult r t) := by
  unfold pegResult
  repeat' first
    | with_reducible exact h
    | with_reducible rfl
    | with_reducible apply setPeg_steady

theorem pegBegin_steady (c : Nat) {s t : State} (h : Steady s t) : Steady s (pegBegin c t) := by
  unfold pegBegin
  repeat' first
    | with_reducible exact h
    | with_reducible rfl
    | with_reducible apply setPeg_steady

theorem pegStartErase_steady {s t : State} (h : Steady s t) : Steady s (pegStartErase t) := by
  unfold pegStartErase
  repeat' first
    | with_reducible exact h
    | with_reducible apply pegResult_steady
    | with_reducible apply setPeg_steady
    | with_reducible apply pegBegin_steady
    | split
    | rfl

theorem pegStartProgram_steady {s t : State} (h : Steady s t) : Steady s (pegStartProgram t) := by
  unfold pegStartProgram
  repeat' first
    | with_reducible exact h
    | with_reducible apply pegResult_steady
    | with_reducible apply sendReads_steady
    | with_reducible apply setPeg_steady
    | with_reducible apply pegBegin_steady
    | split
    | dsimp only
    | rfl

theorem pegStartVerify_steady {s t : State} (h : Steady s t) : Steady s (pegStartVerify t) := by
  unfold pegStartVerify
  repeat' first
    | with_reducible exact h
    | with_reducible apply pegBegin_steady

theorem pegStartCommit_steady {s t : State} (h : Steady s t) : Steady s (pegStartCommit t) := by
  unfold pegStartCommit
  repeat' first
    | with_reducible exact h
    | with_reducible apply pegBegin_steady
    | with_reducible apply pegResult_steady
    | split

theorem wrPegCmd_steady (w : RegWrite) {s t : State} (h : Steady s t) : Steady s (wrPegCmd w t) := by
  unfold wrPegCmd
  repeat' first
    | with_reducible exact h
    | with_reducible apply reject_steady
    | with_reducible apply pegStartErase_steady
    | with_reducible apply pegStartProgram_steady
    | with_reducible apply pegStartVerify_steady
    | with_reducible apply pegStartCommit_steady
    | split

theorem pegEndVerify_steady (ok : Bool) {s t : State} (h : Steady s t) : Steady s (pegEndVerify ok t) := by
  unfold pegEndVerify
  repeat' first
    | with_reducible exact h
    | with_reducible apply setPeg_steady
    | split
    | dsimp only

theorem whenUp_steady (f : State → State) (h1 : ∀ (u : State), Steady u (f  u)) {s t : State} (h : Steady s t) : Steady s (whenUp f t) := by
  unfold whenUp
  repeat' first
    | with_reducible exact h
    | with_reducible refine Steady.trans ?_ (h1 _)
    | split

theorem controlWrite_steady (w : RegWrite) {s t : State} (h : Steady s t) : Steady s (controlWrite w t) := by
  unfold controlWrite
  repeat' first
    | with_reducible exact h
    | with_reducible apply wrStatus_steady
    | with_reducible apply wrIslCtl_steady
    | with_reducible apply wrFrameLen_steady
    | with_reducible apply wrDet_steady
    | with_reducible apply wrTsyncCtl_steady
    | with_reducible apply wrTsyncPer_steady
    | with_reducible apply wrPizzTmo_steady
    | with_reducible apply wrE2eRto_steady
    | with_reducible apply wrE2eTries_steady
    | with_reducible apply wrThrLo_steady
    | with_reducible apply wrThrHi_steady
    | with_reducible apply wrCeThr_steady
    | with_reducible apply wrAlertEn_steady
    | with_reducible apply wrBbCtl_steady
    | with_reducible apply wrPwr_steady
    | with_reducible apply wrWarn_steady
    | with_reducible apply wrPegCmd_steady
    | with_reducible apply wrPegReg_steady
    | with_reducible apply wrGctl_steady
    | with_reducible apply wrObsReg_steady
    | with_reducible apply wrSmpCtl_steady
    | with_reducible apply wrBwCtl_steady
    | split

theorem regWrite_steady (w : RegWrite) {s t : State} (h : Steady s t) : Steady s (regWrite w t) := by
  unfold regWrite
  repeat' first
    | with_reducible exact h
    | with_reducible exact Steady.refl _
    | with_reducible rfl
    | with_reducible apply reject_steady
    | with_reducible apply controlWrite_steady
    | with_reducible apply wrLane_steady
    | with_reducible apply wrCasc_steady
    | with_reducible apply wrPmcSel_steady
    | with_reducible apply wrPmcValue_steady
    | with_reducible apply wrMeter_steady
    | with_reducible apply wrShadow_steady
    | with_reducible apply foldl_steady
    | with_reducible intro _
    | split
    | dsimp only

theorem regRow_steady (p : Nat → Bool) (w : RegWrite) {s t : State} (h : Steady s t) : Steady s (regRow p w t) := by
  unfold regRow
  repeat' first
    | with_reducible exact h
    | with_reducible exact Steady.refl _
    | with_reducible rfl
    | with_reducible apply regWrite_steady
    | with_reducible apply foldl_steady
    | with_reducible intro _
    | split

/-! ## Admin -/

theorem authFail_steady (slot : Nat) (chip : Nat) {s t : State} (h : Steady s t) : Steady s (authFail slot chip t) := by
  unfold authFail
  repeat' first
    | with_reducible exact h
    | with_reducible apply notice_steady
    | with_reducible apply count_steady

theorem advanceAseq_steady (slot : Nat) {s t : State} (h : Steady s t) : Steady s (advanceAseq slot t) := by
  unfold advanceAseq
  repeat' first
    | with_reducible exact h
    | with_reducible rfl
    | with_reducible apply steady_mk

theorem adminReady_steady (c : AdminCmd) {s t : State} (h : Steady s t) : Steady s (adminReady c t) := by
  unfold adminReady
  repeat' first
    | with_reducible exact h
    | with_reducible rfl
    | with_reducible apply adminDone_steady
    | split
    | with_reducible apply steady_mk

theorem takeStaged_steady (slot n : Nat) {s t : State} (h : Steady s t) : Steady s (takeStaged slot n t) := by
  induction n generalizing t with
  | zero => rw [takeStaged]; exact h
  | succ n ih =>
    rw [takeStaged]
    dsimp only
    split
    · exact h
    · exact ih (adminReady_steady _ (advanceAseq_steady _ (h.trans ⟨⟨rfl, rfl, rfl, rfl, rfl, faultOk_of rfl rfl⟩, fatal_of rfl⟩)))

theorem adminOrder_steady (c : AdminCmd) {s t : State} (h : Steady s t) : Steady s (adminOrder c t) := by
  unfold adminOrder
  repeat' first
    | with_reducible exact h
    | with_reducible rfl
    | with_reducible apply takeStaged_steady
    | with_reducible apply adminReady_steady
    | with_reducible apply advanceAseq_steady
    | with_reducible apply count_steady
    | split
    | with_reducible apply steady_mk

theorem adminArrive_steady (chip : Nat) (b : List Byte) {s t : State} (h : Steady s t) : Steady s (adminArrive chip b t) := by
  unfold adminArrive
  repeat' first
    | with_reducible exact h
    | with_reducible exact Steady.refl _
    | with_reducible rfl
    | with_reducible apply authFail_steady
    | with_reducible apply adminOrder_steady
    | split
    | with_reducible apply steady_mk

theorem adminAgain_steady (c : AdminCmd) {s t : State} (h : Steady s t) : Steady s (adminAgain c t) := by
  unfold adminAgain
  repeat' first
    | with_reducible exact h
    | with_reducible rfl
    | with_reducible apply steady_mk

theorem adminRow_steady (acode : Nat) (f : AdminCmd → State → State) (h1 : ∀ (y0 : AdminCmd) (u : State), Steady u (f y0 u)) {s t : State} (h : Steady s t) : Steady s (adminRow acode t f) := by
  unfold adminRow
  repeat' first
    | with_reducible exact h
    | with_reducible rfl
    | with_reducible refine Steady.trans ?_ (h1 _ _)
    | with_reducible apply adminDone_steady
    | split
    | with_reducible apply steady_mk

theorem adminBad_steady (c : AdminCmd) (reason : Nat) (off : Nat) {s t : State} (h : Steady s t) : Steady s (adminBad c reason off t) := by
  unfold adminBad
  repeat' first
    | with_reducible exact h
    | with_reducible apply adminDone_steady

theorem endUnstarted_steady (q : Nat) (x : QueueCtx) (status : Nat) (detail : Word) (d : BitVec 32) {s t : State} (h : Steady s t) : Steady s (endUnstarted q x status detail t d) := by
  unfold endUnstarted
  repeat' first
    | with_reducible exact h
    | with_reducible apply placeUnstarted_steady

theorem endDescs_steady (q status : Nat) (detail : Word) {s t : State} (h : Steady s t) :
    Steady s (endDescs q status detail t).2 := by
  have live : ∀ (l : List Op) (u : State), Steady s u → Steady s (l.foldl (fun s o =>
      withOp q o.dseq (discardWith status (discardArg status s.ctl.id.chip detail) none detail) s) u) := fun l u k =>
    foldl_steady (fun o _ => withOp_steady _ _ _ (fun _ _ => discardWith_steady _ _ _ _ _ (.refl _)) (.refl _)) k
  exact foldl_steady (fun d _ => endUnstarted_steady q _ status detail d (.refl _)) (live _ _ h)

theorem drainQueue_steady (q status : Nat) (dest : QState) (slot : Option (Nat × BitVec 32)) (next : BitVec 32) {s t : State}
    (h : Steady s t) : Steady s (drainQueue q status dest slot next t) := by
  have k := endDescs_steady q status 0 h
  unfold drainQueue
  exact relayState_steady _ (queuePut_steady _ _ (k.trans ⟨⟨rfl, rfl, rfl, rfl, rfl, faultOk_of rfl rfl⟩, fatal_of rfl⟩))

theorem stopsDone_steady {s t : State} (h : Steady s t) : Steady s (stopsDone t) := by
  unfold stopsDone
  repeat' first
    | with_reducible exact h
    | with_reducible exact Steady.refl _
    | with_reducible rfl
    | with_reducible apply adminDone_steady
    | with_reducible apply foldl_steady
    | with_reducible intro _
    | with_reducible apply steady_mk

theorem releaseJob_steady (j : Nat) {s t : State} (h : Steady s t) : Steady s (releaseJob j t) := by
  unfold releaseJob
  repeat' first
    | with_reducible exact h
    | with_reducible rfl
    | with_reducible apply steady_mk

theorem discardPizz_steady (j : Nat) {s t : State} (h : Steady s t) : Steady s (discardPizz j t) := by
  unfold discardPizz
  repeat' first
    | with_reducible exact h
    | with_reducible exact Steady.refl _
    | with_reducible apply discardOp_steady
    | with_reducible apply foldl_steady
    | with_reducible intro _
    | dsimp only

theorem stopJob_steady (j : Nat) {s t : State} (h : Steady s t) : Steady s (stopJob j t) := by
  unfold stopJob
  repeat' first
    | with_reducible exact h
    | with_reducible exact Steady.refl _
    | with_reducible rfl
    | with_reducible apply discardPizz_steady
    | with_reducible apply queuePut_steady
    | with_reducible apply drainQueue_steady
    | with_reducible apply releaseIf_steady
    | with_reducible apply notice_steady
    | with_reducible apply releaseJob_steady
    | with_reducible apply clearCounters_steady
    | with_reducible apply freeRegions_steady
    | with_reducible apply settleState_steady
    | with_reducible apply jobPut_steady
    | with_reducible apply foldl_steady
    | with_reducible intro _
    | split
    | dsimp only
    | with_reducible apply steady_mk

theorem sendDomain_steady (p : Nat × Nat) (ctype : Nat) (arg : BitVec 64) (payload : List Byte) {s t : State} (h : Steady s t) : Steady s (sendDomain p ctype arg payload t) := by
  unfold sendDomain
  repeat' first
    | with_reducible exact h
    | with_reducible apply sendCtrl_steady

theorem adminAwait_steady (c : AdminCmd) (status : Nat) (result : Nat) {s t : State} (h : Steady s t) : Steady s (adminAwait c status result t) := by
  unfold adminAwait
  repeat' first
    | with_reducible exact h
    | with_reducible rfl
    | with_reducible apply steady_mk

theorem adminSettle_steady {s t : State} (h : Steady s t) : Steady s (adminSettle t) := by
  unfold adminSettle
  repeat' first
    | with_reducible exact h
    | with_reducible exact Steady.refl _
    | with_reducible rfl
    | with_reducible apply adminDone_steady
    | with_reducible apply foldl_steady
    | with_reducible intro _
    | with_reducible apply steady_mk

theorem elim_steady {α : Type} (o : Option α) {f : α → State} {s t : State} (hf : ∀ a, Steady s (f a)) (h : Steady s t) :
    Steady s (o.elim t f) := by
  cases o
  · exact h
  · exact hf _

theorem placeImage_steady (len : Nat) {s t : State} (h : Steady s t) : Steady s (placeImage len t) :=
  elim_steady (imagePlace len t) (fun _ => setRegions_steady _ _ h) h

/-! ## ChordLoad -/

theorem withImage_steady (tc : Nat) (chip : Nat) (off : Nat) (len : Nat) (hold : List Byte → State → Bool) (c : AdminCmd) (f : List Byte → State → State) (h1 : ∀ (y0 : List Byte) (u : State), Steady u (f y0 u)) {s t : State} (h : Steady s t) : Steady s (withImage tc chip off len hold c t f) := by
  unfold withImage
  repeat' first
    | with_reducible exact h
    | with_reducible exact Steady.refl _
    | with_reducible rfl
    | with_reducible refine Steady.trans ?_ (h1 _ _)
    | with_reducible apply placeImage_steady
    | with_reducible apply adminAgain_steady
    | with_reducible apply sendReads_steady
    | with_reducible apply adminBad_steady
    | with_reducible apply dropImage_steady
    | with_reducible intro _
    | split
    | dsimp only
    | with_reducible apply steady_mk

theorem withLoad_steady (hold : List Byte → State → Bool) (c : AdminCmd) (f : List Byte → State → State) (h1 : ∀ (y0 : List Byte) (u : State), Steady u (f y0 u)) {s t : State} (h : Steady s t) : Steady s (withLoad hold c t f) := by
  unfold withLoad
  repeat' first
    | with_reducible exact h
    | with_reducible exact Steady.refl _
    | with_reducible rfl
    | with_reducible refine Steady.trans ?_ (h1 _ _)
    | with_reducible apply withImage_steady
    | with_reducible apply adminBad_steady
    | with_reducible intro _
    | split

theorem setShadow_steady (c : ChordCopy) {s t : State} (h : Steady s t) : Steady s (setShadow c t) := by
  unfold setShadow
  repeat' first
    | with_reducible exact h
    | with_reducible rfl
    | with_reducible apply steady_mk

theorem loadFault_steady (c : AdminCmd) (f : RecordFault) {s t : State} (h : Steady s t) : Steady s (loadFault c f t) := by
  unfold loadFault
  repeat' first
    | with_reducible exact h
    | with_reducible apply adminDone_steady

theorem loadRecords_steady (c : AdminCmd) (bs : List Byte) {s t : State} (h : Steady s t) : Steady s (loadRecords c bs t) := by
  unfold loadRecords
  repeat' first
    | with_reducible exact h
    | with_reducible apply adminBad_steady
    | with_reducible apply loadFault_steady
    | with_reducible apply adminDone_steady
    | with_reducible apply setShadow_steady
    | split

theorem sendSection_steady (p : Nat × Nat) (epoch : Nat) (bs : List Byte) {s t : State} (h : Steady s t) : Steady s (sendSection p epoch bs t) := by
  unfold sendSection
  repeat' first
    | with_reducible exact h
    | with_reducible exact Steady.refl _
    | with_reducible apply sendDomain_steady
    | with_reducible apply foldl_steady
    | with_reducible intro _

theorem finishDomain_steady (d : DomainLoad) {s t : State} (h : Steady s t) : Steady s (finishDomain d t) := by
  unfold finishDomain
  repeat' first
    | with_reducible exact h
    | with_reducible rfl
    | with_reducible apply adminDone_steady
    | with_reducible apply setShadow_steady
    | with_reducible apply drawn_steady
    | split
    | with_reducible apply steady_mk

theorem loadDomain_steady (c : AdminCmd) (bs : List Byte) {s t : State} (h : Steady s t) : Steady s (loadDomain c bs t) := by
  unfold loadDomain
  repeat' first
    | with_reducible exact h
    | with_reducible exact Steady.refl _
    | with_reducible rfl
    | with_reducible apply loadFault_steady
    | with_reducible apply finishDomain_steady
    | with_reducible apply sendSection_steady
    | with_reducible apply foldl_steady
    | with_reducible intro _
    | split
    | dsimp only
    | with_reducible apply steady_mk

theorem reportSection_steady (status : Nat) (reason : Nat) {s t : State} (h : Steady s t) : Steady s (reportSection status reason t) := by
  unfold reportSection
  repeat' first
    | with_reducible exact h
    | with_reducible apply sendDomain_steady

theorem takeSection_steady (epoch : BitVec 8) (bs : List Byte) {s t : State} (h : Steady s t) : Steady s (takeSection epoch bs t) := by
  unfold takeSection
  repeat' first
    | with_reducible exact h
    | with_reducible apply reportSection_steady
    | with_reducible apply setShadow_steady
    | split

/-! ## Schedule -/

theorem loadZsi_steady (job : Nat) (slot : Nat) (x3 : List Byte) (b : ZsiBody) {s t : State} (h : Steady s t) : Steady s (loadZsi job slot x3 b t) := by
  unfold loadZsi
  repeat' first
    | with_reducible exact h
    | with_reducible exact Steady.refl _
    | with_reducible rfl
    | with_reducible apply takeCounter_steady
    | with_reducible apply jobPut_steady
    | with_reducible apply foldl_steady
    | with_reducible intro _
    | with_reducible apply steady_mk

end Sys2Proof.Machine
end

