-- ==== Sys2Proof/Laws/SteadyData.lean ====
section
/-! SUPPORT. Steady for shards, sleep and the data operations. -/

set_option Elab.async false

namespace Sys2Proof.Machine

/-! ## Shards -/

theorem shardModify_steady (job : Nat) (wtensor : Nat) (e0 : Nat) (f : Shard → Shard) {s t : State} (h : Steady s t) : Steady s (shardModify job wtensor e0 f t) := by
  unfold shardModify
  repeat' first
    | with_reducible exact h
    | with_reducible rfl
    | with_reducible apply steady_mk

theorem completeJournals_steady {s t : State} (h : Steady s t) : Steady s (completeJournals t) := by
  unfold completeJournals
  repeat' first
    | with_reducible exact h
    | with_reducible rfl
    | with_reducible apply steady_mk

theorem writeSection_steady (c : AdminCmd) (head : List Byte) (body : List Byte) {s t : State} (h : Steady s t) : Steady s (writeSection c head body t) := by
  unfold writeSection
  repeat' first
    | with_reducible exact h
    | with_reducible apply sendWrites_steady
    | with_reducible apply adminSettle_steady
    | with_reducible apply adminAwait_steady

theorem restoreJob_steady (c : AdminCmd) (x2 : List Byte) (body : List Byte) {s t : State} (h : Steady s t) : Steady s (restoreJob c x2 body t) := by
  unfold restoreJob
  repeat' first
    | with_reducible exact h
    | with_reducible exact Steady.refl _
    | with_reducible apply adminBad_steady
    | with_reducible apply jobPut_steady
    | with_reducible apply ctrChange_steady
    | with_reducible apply adminDone_steady
    | with_reducible apply foldl_steady
    | with_reducible intro _
    | split
    | dsimp only

theorem restoreShard_steady (c : AdminCmd) (x : Shard) (x3 : List Byte) (body : List Byte) {s t : State} (h : Steady s t) : Steady s (restoreShard c x x3 body t) := by
  unfold restoreShard
  repeat' first
    | with_reducible exact h
    | with_reducible apply adminBad_steady
    | with_reducible apply adminDone_steady
    | with_reducible apply shardModify_steady
    | split
    | dsimp only

theorem wantBody_steady (c : AdminCmd) (len : Nat) {s t : State} (h : Steady s t) : Steady s (wantBody c len t) := by
  unfold wantBody
  repeat' first
    | with_reducible exact h
    | with_reducible rfl
    | with_reducible apply adminAgain_steady
    | with_reducible apply sendReads_steady
    | with_reducible apply steady_mk

theorem restoreWith_steady (c : AdminCmd) (bs : List Byte) {s t : State} (h : Steady s t) : Steady s (restoreWith c bs t) := by
  unfold restoreWith
  repeat' first
    | with_reducible exact h
    | with_reducible apply adminDone_steady
    | with_reducible apply dropImage_steady
    | with_reducible apply wantBody_steady
    | with_reducible apply completeJournals_steady
    | with_reducible apply adminBad_steady
    | with_reducible apply restoreShard_steady
    | with_reducible apply restoreJob_steady
    | split
    | dsimp only

/-! ## Sleep -/

theorem targetRow_steady (acode : Nat) (target : Nat) (f : AdminCmd → Nat → State → State) (h1 : ∀ (y0 : AdminCmd) (y1 : Nat) (u : State), Steady u (f y0 y1 u)) {s t : State} (h : Steady s t) : Steady s (targetRow acode target t f) := by
  unfold targetRow
  repeat' first
    | with_reducible exact h
    | with_reducible exact Steady.refl _
    | with_reducible refine Steady.trans ?_ (h1 _ _ _)
    | with_reducible apply adminRow_steady
    | with_reducible apply adminBad_steady
    | with_reducible intro _
    | split
    | dsimp only

theorem sleepRow_steady (target : Nat) {s t : State} (h : Steady s t) : Steady s (sleepRow target t) := by
  unfold sleepRow
  repeat' first
    | with_reducible exact h
    | with_reducible exact Steady.refl _
    | with_reducible rfl
    | with_reducible apply targetRow_steady
    | with_reducible apply adminBad_steady
    | with_reducible apply adminDone_steady
    | with_reducible intro _
    | split
    | with_reducible apply steady_mk

theorem dieModify_steady (d : Nat) (f : Die → Die) {s t : State} (h : Steady s t) : Steady s (dieModify d f t) := by
  unfold dieModify
  repeat' first
    | with_reducible exact h
    | with_reducible rfl
    | with_reducible apply steady_mk

theorem diesAll_steady (f : Die → Die) {s t : State} (h : Steady s t) : Steady s (diesAll f t) := by
  unfold diesAll
  repeat' first
    | with_reducible exact h
    | with_reducible exact Steady.refl _
    | with_reducible apply dieModify_steady
    | with_reducible apply foldl_steady
    | with_reducible intro _

theorem gateTemps_steady (p : Nat → Bool) {s t : State} (h : Steady s t) : Steady s (gateTemps p t) := by
  unfold gateTemps
  repeat' first
    | with_reducible exact h
    | with_reducible rfl
    | with_reducible apply steady_mk

theorem gateDies_steady {s t : State} (h : Steady s t) : Steady s (gateDies t) := by
  unfold gateDies
  repeat' first
    | with_reducible exact h
    | with_reducible rfl
    | with_reducible apply gateTemps_steady
    | with_reducible apply diesAll_steady
    | with_reducible intro _
    | split
    | dsimp only
    | with_reducible apply steady_mk

theorem modsFrom_steady (a : Nat) (b : Nat) {s t : State} (h : Steady s t) : Steady s (modsFrom a b t) := by
  unfold modsFrom
  repeat' first
    | with_reducible exact h
    | with_reducible rfl
    | with_reducible apply steady_mk

theorem foldl_keeps {α β : Type} {f : State → α → State} (p : State → β) (hf : ∀ a u, p (f u a) = p u) (l : List α) (t : State) :
    p (l.foldl f t) = p t := by
  induction l generalizing t with
  | nil => rfl
  | cons a l ih => exact (ih (f t a)).trans (hf a t)

theorem dieModify_ctl_eq (d : Nat) (f : Die → Die) (t : State) : (dieModify d f t).ctl = t.ctl := rfl
theorem modsFrom_ctl (a b : Nat) (t : State) : (modsFrom a b t).ctl = t.ctl := rfl
theorem gateTemps_ctl (p : Nat → Bool) (t : State) : (gateTemps p t).ctl = t.ctl := rfl
theorem completeJournals_ctl (t : State) : (completeJournals t).ctl = t.ctl := rfl
theorem dropImage_ctl (t : State) : (dropImage t).ctl = t.ctl := rfl

theorem diesAll_ctl (f : Die → Die) (t : State) : (diesAll f t).ctl = t.ctl := by
  unfold diesAll
  generalize List.range 64 = l
  exact foldl_keeps (f := fun s d => dieModify d f s) State.ctl (fun a u => dieModify_ctl_eq a f u) l t

theorem gateDies_ctl (t : State) : (gateDies t).ctl = t.ctl := by
  simp only [gateDies, gateTemps_ctl, diesAll_ctl]

theorem enterDormant_steady {s t : State} (h2 : t.ctl.state ≠ .faulted) (h : Steady s t) : Steady s (enterDormant t) := by
  unfold enterDormant
  refine setState_steady _ (by decide) ?_ (modsFrom_steady _ _ (gateDies_steady (completeJournals_steady (dropImage_steady h))))
  rw [modsFrom_ctl, gateDies_ctl, completeJournals_ctl, dropImage_ctl]; exact h2

theorem afterAck_steady (dst : Nat) (tc : Nat) {s t : State} (h : Steady s t) : Steady s (afterAck dst tc t) := by
  unfold afterAck
  repeat' first
    | with_reducible exact h
    | with_reducible apply adminSettle_steady
    | with_reducible apply settle_steady
    | with_reducible apply drain_steady

theorem flowFail_steady (f : TxFlow) (gone : List Held) {s t : State} (h : Steady s t) : Steady s (flowFail f gone t) := by
  unfold flowFail
  repeat' first
    | with_reducible exact h
    | with_reducible exact Steady.refl _
    | with_reducible rfl
    | with_reducible apply txPut_steady
    | with_reducible apply readLost_steady
    | with_reducible apply pathLost_steady
    | with_reducible apply opModify_steady
    | with_reducible apply afterAck_steady
    | with_reducible apply foldl_steady
    | with_reducible intro _
    | split
    | dsimp only
    | with_reducible apply steady_mk

theorem failStranded_steady {s t : State} (h : Steady s t) : Steady s (failStranded t) := by
  unfold failStranded
  repeat' first
    | with_reducible exact h
    | with_reducible exact Steady.refl _
    | with_reducible apply flowFail_steady
    | with_reducible apply foldl_steady
    | with_reducible intro _
    | split
    | dsimp only

theorem sleepPortNow_steady (c : Nat) {s t : State} (h : Steady s t) : Steady s (sleepPortNow c t) := by
  unfold sleepPortNow
  repeat' first
    | with_reducible exact h
    | with_reducible apply lanesChange_steady
    | with_reducible apply portPut_steady
    | with_reducible apply failStranded_steady
    | with_reducible apply parentLost_steady
    | with_reducible intro _
    | split
    | dsimp only

theorem sleepNow_steady (target unit : Nat) {s t : State} (h2 : target = 0 → t.ctl.state ≠ .faulted) (h : Steady s t) :
    Steady s (sleepNow target unit t) := by
  unfold sleepNow
  split
  · exact enterDormant_steady (h2 rfl) h
  · exact gateTemps_steady _ (dieModify_steady _ _ h)
  · exact sleepPortNow_steady _ h

theorem sleepFinish_steady (x : AdminCmd × Nat × Nat × Nat) {s t : State} (h : Steady s t) : Steady s (sleepFinish x t) := by
  unfold sleepFinish
  split
  · rename_i k
    refine adminDone_steady _ _ _ _ (sleepNow_steady _ _ (fun e => ?_) h)
    rw [e] at k
    simp only [sleepAllowed, Bool.and_eq_true, beq_iff_eq] at k
    rw [k.1]; decide
  · exact adminDone_steady _ _ _ _ h

theorem loseDieClaims_steady (p : Op → Bool) (rseq : BitVec 32) {s t : State} (h : Steady s t) : Steady s (loseDieClaims p rseq t) := by
  unfold loseDieClaims
  repeat' first
    | with_reducible exact h
    | with_reducible rfl
    | with_reducible apply settle_steady
    | with_reducible apply discardIf_steady
    | with_reducible intro _
    | dsimp only
    | with_reducible apply steady_mk

theorem wakeNow_steady {s t : State} (h2 : t.ctl.state ≠ .faulted) (h : Steady s t) : Steady s (wakeNow t) := by
  unfold wakeNow
  have k : Steady s { t with power := { t.power with gated := false } } :=
    h.trans ⟨⟨rfl, rfl, rfl, rfl, rfl, faultOk_of rfl rfl⟩, fatal_of rfl⟩
  refine loseDieClaims_steady _ _ (settleState_steady (setState_steady _ (by decide) ?_
    (diesAll_steady _ (completeJournals_steady (modsFrom_steady _ _ k)))))
  rw [diesAll_ctl, completeJournals_ctl, modsFrom_ctl]; exact h2

theorem wakeRow_steady (target : Nat) (wake : Nat → State → State) (h1 : ∀ (y0 : Nat) (u : State), Steady u (wake y0 u)) {s t : State} (h : Steady s t) : Steady s (wakeRow target t wake) := by
  unfold wakeRow
  repeat' first
    | with_reducible exact h
    | with_reducible exact Steady.refl _
    | with_reducible refine Steady.trans ?_ (h1 _ _)
    | with_reducible apply targetRow_steady
    | with_reducible apply dropSleeps_steady
    | with_reducible apply adminDone_steady
    | with_reducible intro _

/-! ## Bulk -/

theorem foreignPacket_steady (a : Arrival) (o : Op) {s t : State} (h : Steady s t) : Steady s (foreignPacket a o t) := by
  unfold foreignPacket
  repeat' first
    | with_reducible exact h
    | with_reducible apply commit_steady
    | with_reducible apply count_steady
    | with_reducible apply settle_steady
    | with_reducible apply notice_steady
    | with_reducible apply discardOp_steady

theorem epochGate_steady (a : Arrival) (o : Op) (f : Op → State → State) (h1 : ∀ (y0 : Op) (u : State), Steady u (f y0 u)) {s t : State} (h : Steady s t) : Steady s (epochGate a o t f) := by
  unfold epochGate
  repeat' first
    | with_reducible exact h
    | with_reducible exact Steady.refl _
    | with_reducible refine Steady.trans ?_ (h1 _ _)
    | with_reducible apply withOp_steady
    | with_reducible apply bytesFor_steady
    | with_reducible apply fixEpoch_steady
    | with_reducible apply foreignPacket_steady
    | with_reducible intro _
    | split
    | dsimp only

theorem onOp_steady (a : Arrival) (q : Nat) (d : BitVec 32) (f : Op → State → State) (h1 : ∀ (y0 : Op) (u : State), Steady u (f y0 u)) {s t : State} (h : Steady s t) : Steady s (onOp a q d t f) := by
  unfold onOp
  repeat' first
    | with_reducible exact h
    | with_reducible exact Steady.refl _
    | with_reducible rfl
    | with_reducible refine Steady.trans ?_ (h1 _ _)
    | with_reducible apply lateDrop_steady
    | with_reducible apply epochGate_steady
    | with_reducible intro _
    | split
    | with_reducible apply steady_mk

theorem stagePieces_steady (q : Nat) (d : BitVec 32) (ps : List Piece) {s t : State} (h : Steady s t) : Steady s (stagePieces q d ps t) := by
  unfold stagePieces
  repeat' first
    | with_reducible exact h
    | with_reducible apply opModify_steady

theorem detDrop_steady (a : Arrival) (o : Op) {s t : State} (h : Steady s t) : Steady s (detDrop a o t) := by
  unfold detDrop
  repeat' first
    | with_reducible exact h
    | with_reducible apply commit_steady
    | with_reducible apply count_steady
    | with_reducible apply settle_steady
    | with_reducible apply notice_steady
    | with_reducible apply discardOp_steady

theorem takeResult_steady (o : Op) (x : NodeExt) (p : Part) (bs : List Byte) {s t : State} (h : Steady s t) : Steady s (takeResult o x p bs t) := by
  unfold takeResult
  repeat' first
    | with_reducible exact h
    | with_reducible apply opModify_steady
    | with_reducible apply deliverUnits_steady
    | with_reducible apply settle_steady
    | with_reducible apply endCheck_steady
    | split

theorem sendPartials_steady (o : Op) (e : Entry) (base : NodeExt) (k : Nat) (of : Bool) (vs : List Val) {s t : State} (h : Steady s t) : Steady s (sendPartials o e base k of vs t) := by
  unfold sendPartials
  repeat' first
    | with_reducible exact h
    | with_reducible exact Steady.refl _
    | with_reducible apply sendOp_steady
    | with_reducible apply foldl_steady
    | with_reducible intro _

theorem sendRaw_steady (o : Op) (e : Entry) (chunk : Nat) (step : Nat) (ord : Nat) {s t : State} (h : Steady s t) : Steady s (sendRaw o e chunk step ord t) := by
  unfold sendRaw
  repeat' first
    | with_reducible exact h
    | with_reducible exact Steady.refl _
    | with_reducible apply sendOp_steady
    | with_reducible apply foldl_steady
    | with_reducible intro _

theorem sendTerms_steady (o : Op) (e : Entry) (chunk : Nat) {s t : State} (h : Steady s t) : Steady s (sendTerms o e chunk t) := by
  unfold sendTerms
  repeat' first
    | with_reducible exact h
    | with_reducible exact Steady.refl _
    | with_reducible apply sendRaw_steady
    | with_reducible apply sendPartials_steady
    | with_reducible apply foldl_steady
    | with_reducible intro _
    | split

theorem chunkModify_steady (q : Nat) (d : BitVec 32) (i : Nat) (f : ChunkSt → ChunkSt) {s t : State} (h : Steady s t) : Steady s (chunkModify q d i f t) := by
  unfold chunkModify
  repeat' first
    | with_reducible exact h
    | with_reducible apply opModify_steady

theorem chunkDone_steady (q : Nat) (d : BitVec 32) (i : Nat) {s t : State} (h : Steady s t) : Steady s (chunkDone q d i t) := by
  unfold chunkDone
  repeat' first
    | with_reducible exact h
    | with_reducible apply opModify_steady
    | with_reducible apply chunkModify_steady

theorem chunkPending_steady (o : Op) (i : Nat) (level : Nat) (resume : Nat) (running : List Val) {s t : State} (h : Steady s t) : Steady s (chunkPending o i level resume running t) := by
  unfold chunkPending
  repeat' first
    | with_reducible exact h
    | with_reducible apply chunkModify_steady

theorem rootFormed_steady (o : Op) (i : Nat) (c : ChunkSt) (k : Nat) (kept : List Val) (m : Made) {s t : State} (h : Steady s t) : Steady s (rootFormed o i c k kept m t) := by
  unfold rootFormed
  repeat' first
    | with_reducible exact h
    | with_reducible exact Steady.refl _
    | with_reducible apply opModify_steady
    | with_reducible apply chunkModify_steady
    | with_reducible apply chunkDone_steady
    | with_reducible apply issuePart_steady
    | with_reducible apply foldl_steady
    | with_reducible intro _

theorem rootSumDone_steady (o : Op) (i : Nat) (c : ChunkSt) {s t : State} (h : Steady s t) : Steady s (rootSumDone o i c t) := by
  unfold rootSumDone
  repeat' first
    | with_reducible exact h
    | with_reducible apply rootFormed_steady
    | with_reducible apply chunkPending_steady
    | split
    | dsimp only

theorem upForward_steady (o : Op) (i : Nat) (c : ChunkSt) (e : Entry) (place : NodeExt) (k : Nat) (nodes : List (List Val × Bool)) {s t : State} (h : Steady s t) : Steady s (upForward o i c e place k nodes t) := by
  unfold upForward
  repeat' first
    | with_reducible exact h
    | with_reducible exact Steady.refl _
    | with_reducible apply sendPartials_steady
    | with_reducible apply chunkDone_steady
    | with_reducible apply opModify_steady
    | with_reducible apply foldl_steady
    | with_reducible intro _
    | dsimp only

theorem upSumDone_steady (o : Op) (i : Nat) (c : ChunkSt) (e : Entry) {s t : State} (h : Steady s t) : Steady s (upSumDone o i c e t) := by
  unfold upSumDone
  repeat' first
    | with_reducible exact h
    | with_reducible apply chunkDone_steady
    | with_reducible apply opModify_steady
    | with_reducible apply sendTerms_steady
    | with_reducible apply upForward_steady
    | with_reducible apply chunkPending_steady
    | with_reducible intro _
    | split
    | dsimp only

theorem combineDone_steady (o : Op) (i : Nat) (c : ChunkSt) {s t : State} (h : Steady s t) : Steady s (combineDone o i c t) := by
  unfold combineDone
  repeat' first
    | with_reducible exact h
    | with_reducible exact Steady.refl _
    | with_reducible apply countCross_steady
    | with_reducible apply chunkDone_steady
    | with_reducible apply count_steady
    | with_reducible apply upSumDone_steady
    | with_reducible apply opModify_steady
    | with_reducible apply sendTerms_steady
    | with_reducible apply rootSumDone_steady
    | with_reducible apply rootFormed_steady
    | with_reducible apply settle_steady
    | with_reducible apply endCheck_steady
    | with_reducible apply foldl_steady
    | with_reducible intro _
    | split
    | dsimp only

theorem deliverDone_steady (o : Op) (i : Nat) (c : ChunkSt) {s t : State} (h : Steady s t) : Steady s (deliverDone o i c t) := by
  unfold deliverDone
  repeat' first
    | with_reducible exact h
    | with_reducible exact Steady.refl _
    | with_reducible apply deliverStaged_steady
    | with_reducible apply settle_steady
    | with_reducible apply endCheck_steady
    | with_reducible apply chunkDone_steady
    | with_reducible apply foldl_steady
    | with_reducible intro _

/-! ## Pizz -/

theorem pizzLate_steady (a : Arrival) (group : Nat) {s t : State} (h : Steady s t) : Steady s (pizzLate a group t) := by
  unfold pizzLate
  repeat' first
    | with_reducible exact h
    | with_reducible apply commit_steady
    | with_reducible apply count_steady

theorem onPizz_steady (a : Arrival) (x : PizzExt) (fits : State → Op → Bool) (uses : State → Op → Bool) (late : State → State) (f : Op → State → State) (h1 : ∀ (u : State), Steady u (late u)) (h2 : ∀ (y0 : Op) (u : State), Steady u (f y0 u)) {s t : State} (h : Steady s t) : Steady s (onPizz a x fits uses late t f) := by
  unfold onPizz
  repeat' first
    | with_reducible exact h
    | with_reducible exact Steady.refl _
    | with_reducible rfl
    | with_reducible refine Steady.trans ?_ (h1 _)
    | with_reducible refine Steady.trans ?_ (h2 _ _)
    | with_reducible apply dropWith_steady
    | with_reducible apply commit_steady
    | with_reducible apply epochGate_steady
    | with_reducible apply pizzOpen_steady
    | with_reducible intro _
    | split
    | dsimp only
    | with_reducible apply steady_mk

theorem pizzEnter_steady (o : Op) (ords : List Nat) (ps : List Piece) {s t : State} (h : Steady s t) : Steady s (pizzEnter o ords ps t) := by
  unfold pizzEnter
  repeat' first
    | with_reducible exact h
    | with_reducible apply pizzModify_steady
    | with_reducible apply opModify_steady
    | with_reducible apply settle_steady
    | with_reducible apply pizzCheck_steady

theorem pizzInput_steady (a : Arrival) (o : Op) (ords : List Nat) (ecnt : Nat) (ps : List Piece) {s t : State} (h : Steady s t) : Steady s (pizzInput a o ords ecnt ps t) := by
  unfold pizzInput
  repeat' first
    | with_reducible exact h
    | with_reducible apply commit_steady
    | with_reducible apply pizzLate_steady
    | with_reducible apply count_steady
    | with_reducible apply pizzEnter_steady
    | split
    | dsimp only

theorem pizzRow_steady (sub : Nat) (a : Arrival) (f : PizzExt → State → State) (h1 : ∀ (y0 : PizzExt) (u : State), Steady u (f y0 u)) {s t : State} (h : Steady s t) : Steady s (pizzRow sub a t f) := by
  unfold pizzRow
  repeat' first
    | with_reducible exact h
    | with_reducible exact Steady.refl _
    | with_reducible refine Steady.trans ?_ (h1 _ _)
    | with_reducible apply onReceive_steady
    | with_reducible intro _
    | split

/-! ## Wgrad -/

theorem streamForeign_steady (a : Arrival) (g : Nat) (w : Nat) (step : BitVec 32) {s t : State} (h : Steady s t) : Steady s (streamForeign a g w step t) := by
  unfold streamForeign
  repeat' first
    | with_reducible exact h
    | with_reducible exact Steady.refl _
    | with_reducible apply commit_steady
    | with_reducible apply count_steady
    | with_reducible apply streamModify_steady
    | with_reducible apply settle_steady
    | with_reducible apply notice_steady
    | with_reducible apply discardOp_steady
    | with_reducible apply foldl_steady
    | with_reducible intro _
    | split
    | dsimp only

theorem dropOver_steady (job : Nat) (w : Nat) (step : BitVec 32) {s t : State} (h : Steady s t) : Steady s (dropOver job w step t) := by
  unfold dropOver
  repeat' first
    | with_reducible exact h
    | with_reducible rfl
    | with_reducible intro _
    | split
    | dsimp only
    | with_reducible apply steady_mk

theorem streamPut_steady (a : Arrival) (g : Nat) (w : Nat) (kind : Nat) (step : BitVec 32) (off : Nat) (neck : Nat) (x8 : StreamSet) {s t : State} (h : Steady s t) : Steady s (streamPut a g w kind step off neck x8 t) := by
  unfold streamPut
  repeat' first
    | with_reducible exact h
    | with_reducible rfl
    | with_reducible apply streamModify_steady
    | with_reducible apply commit_steady
    | with_reducible apply count_steady
    | with_reducible apply notice_steady
    | with_reducible apply countCopiesOf_steady
    | with_reducible apply dropOver_steady
    | with_reducible apply settle_steady
    | with_reducible apply stashChecks_steady
    | with_reducible intro _
    | split
    | dsimp only
    | with_reducible apply steady_mk

theorem wgradPending_steady (q : Nat) (d : BitVec 32) (chunk : Nat) (level : Nat) (of : Bool) {s t : State} (h : Steady s t) : Steady s (wgradPending q d chunk level of t) := by
  unfold wgradPending
  repeat' first
    | with_reducible exact h
    | with_reducible apply opModify_steady

theorem sendTiles_steady (o : Op) (e : Entry) (chunk : Nat) (x4 : TileSet) {s t : State} (h : Steady s t) : Steady s (sendTiles o e chunk x4 t) := by
  unfold sendTiles
  repeat' first
    | with_reducible exact h
    | with_reducible exact Steady.refl _
    | with_reducible apply sendPartials_steady
    | with_reducible apply foldl_steady
    | with_reducible intro _

theorem wgradChunkEnd_steady (q : Nat) (d : BitVec 32) (chunk : Nat) {s t : State} (h : Steady s t) : Steady s (wgradChunkEnd q d chunk t) := by
  unfold wgradChunkEnd
  repeat' first
    | with_reducible exact h
    | with_reducible exact Steady.refl _
    | with_reducible apply withOp_steady
    | with_reducible apply opModify_steady
    | with_reducible apply wgradBelow_steady
    | with_reducible apply sendTiles_steady
    | with_reducible intro _
    | split

theorem runPart_steady (g : WgradDef) (x2 : Half) (steps : List (Nat × Nat)) (q : Nat) (d : BitVec 32) (chunk : Nat) {s t : State} (h : Steady s t) : Steady s (runPart g x2 steps q d chunk t) := by
  unfold runPart
  repeat' first
    | with_reducible exact h
    | with_reducible exact Steady.refl _
    | with_reducible apply withOp_steady
    | with_reducible apply count_steady
    | with_reducible apply wgradPending_steady
    | with_reducible apply opModify_steady
    | with_reducible intro _
    | split
    | dsimp only

theorem partDone_steady (g : WgradDef) (q : Nat) (d : BitVec 32) (i : Nat) {s t : State} (h : Steady s t) : Steady s (partDone g q d i t) := by
  unfold partDone
  repeat' first
    | with_reducible exact h
    | with_reducible exact Steady.refl _
    | with_reducible apply withOp_steady
    | with_reducible apply chunkModify_steady
    | with_reducible apply chunkDone_steady
    | with_reducible intro _
    | split
    | dsimp only

theorem sliceDone_steady (o : Op) (i : Nat) (c : ChunkSt) {s t : State} (h : Steady s t) : Steady s (sliceDone o i c t) := by
  unfold sliceDone
  repeat' first
    | with_reducible exact h
    | with_reducible exact Steady.refl _
    | with_reducible apply countRead_steady
    | with_reducible apply runPart_steady
    | with_reducible apply partDone_steady
    | with_reducible apply settle_steady
    | with_reducible apply wgradChunkEnd_steady
    | with_reducible apply foldl_steady
    | with_reducible intro _
    | split
    | dsimp only

theorem sendLevels_steady (o : Op) (g : WgradDef) (k : Nat) (c : Nat) {s t : State} (h : Steady s t) : Steady s (sendLevels o g k c t) := by
  unfold sendLevels
  repeat' first
    | with_reducible exact h
    | with_reducible apply sendCtrls_steady

theorem raiseLater_steady (q : Nat) (d : BitVec 32) (k : Nat) (c : Nat) {s t : State} (h : Steady s t) : Steady s (raiseLater q d k c t) := by
  unfold raiseLater
  repeat' first
    | with_reducible exact h
    | with_reducible exact Steady.refl _
    | with_reducible apply withOp_steady
    | with_reducible apply opModify_steady
    | with_reducible apply wgradPending_steady
    | with_reducible apply foldl_steady
    | with_reducible intro _
    | split

theorem passTile_steady (a : Arrival) (o : Op) {s t : State} (h : Steady s t) : Steady s (passTile a o t) := by
  unfold passTile
  repeat' first
    | with_reducible exact h
    | with_reducible apply sendOp_steady
    | split

theorem takeTile_steady (a : Arrival) (x : NodeExt) (o : Op) {s t : State} (h : Steady s t) : Steady s (takeTile a x o t) := by
  unfold takeTile
  repeat' first
    | with_reducible exact h
    | with_reducible apply commit_steady
    | with_reducible apply passTile_steady
    | with_reducible apply opModify_steady
    | split
    | dsimp only

theorem recompute_steady (o : Op) (g : WgradDef) (chunk : Nat) (k : Nat) (of : Bool) {s t : State} (h : Steady s t) : Steady s (recompute o g chunk k of t) := by
  unfold recompute
  repeat' first
    | with_reducible exact h
    | with_reducible apply wgradPending_steady
    | with_reducible apply opModify_steady
    | with_reducible apply sendLevels_steady
    | split

theorem releaseCovered_steady (f : Op) (opid : Nat) {s t : State} (h : Steady s t) : Steady s (releaseCovered f opid t) := by
  unfold releaseCovered
  repeat' first
    | with_reducible exact h
    | with_reducible rfl
    | with_reducible apply releaseHalf_steady
    | split
    | with_reducible apply steady_mk

/-! ## Update -/

theorem writeBlock_steady (o : Op) (u : UpdateDef) (x : Op) (b : Nat) {s t : State} (h : Steady s t) : Steady s (writeBlock o u x b t) := by
  unfold writeBlock
  repeat' first
    | with_reducible exact h
    | with_reducible apply commit_steady
    | with_reducible apply shardModify_steady
    | with_reducible apply countRead_steady
    | with_reducible apply countWrite_steady
    | with_reducible apply count_steady
    | with_reducible apply opModify_steady
    | with_reducible intro _
    | split
    | dsimp only

theorem epochStep_steady (o : Op) (u : UpdateDef) {s t : State} (h : Steady s t) : Steady s (epochStep o u t) := by
  unfold epochStep
  repeat' first
    | with_reducible exact h
    | with_reducible apply shardModify_steady
    | split

theorem deliverCopies_steady (o : Op) (lo : Nat) (hi : Nat) {s t : State} (h : Steady s t) : Steady s (deliverCopies o lo hi t) := by
  unfold deliverCopies
  repeat' first
    | with_reducible exact h
    | with_reducible exact Steady.refl _
    | with_reducible apply countRead_steady
    | with_reducible apply deliverPart_steady
    | with_reducible apply foldl_steady
    | with_reducible intro _
    | split
    | dsimp only

theorem countCopies_steady (bs : List Nat) (o : Op) {s t : State} (h : Steady s t) : Steady s (countCopies bs o t) := by
  unfold countCopies
  repeat' first
    | with_reducible exact h
    | with_reducible apply opModify_steady
    | with_reducible intro _
    | split
    | dsimp only

theorem copyFinish_steady (q : Nat) (d : BitVec 32) (epoch : BitVec 32) (cscale : BitVec 32) (skipped : Bool) {s t : State} (h : Steady s t) : Steady s (copyFinish q d epoch cscale skipped t) := by
  unfold copyFinish
  repeat' first
    | with_reducible exact h
    | with_reducible exact Steady.refl _
    | with_reducible apply withOp_steady
    | with_reducible apply opModify_steady
    | with_reducible apply opEnd_steady
    | with_reducible apply sendMeta_steady
    | with_reducible intro _
    | split

theorem copyEnd_steady (q : Nat) (d : BitVec 32) {s t : State} (h : Steady s t) : Steady s (copyEnd q d t) := by
  unfold copyEnd
  repeat' first
    | with_reducible exact h
    | with_reducible exact Steady.refl _
    | with_reducible apply withOp_steady
    | with_reducible apply copyFinish_steady
    | with_reducible intro _
    | split
    | dsimp only

theorem checkDone_steady (o : Op) (i : Nat) (c : ChunkSt) {s t : State} (h : Steady s t) : Steady s (checkDone o i c t) := by
  unfold checkDone
  repeat' first
    | with_reducible exact h
    | with_reducible exact Steady.refl _
    | with_reducible apply opModify_steady
    | with_reducible apply chunkDone_steady
    | with_reducible apply settle_steady
    | with_reducible apply withOp_steady
    | with_reducible apply copyFinish_steady
    | with_reducible intro _
    | split

theorem applyDone_steady (o : Op) (i : Nat) (c : ChunkSt) {s t : State} (h : Steady s t) : Steady s (applyDone o i c t) := by
  unfold applyDone
  repeat' first
    | with_reducible exact h
    | with_reducible exact Steady.refl _
    | with_reducible apply recordStep_steady
    | with_reducible apply completeJournals_steady
    | with_reducible apply writeBlock_steady
    | with_reducible apply countCopies_steady
    | with_reducible apply epochStep_steady
    | with_reducible apply chunkDone_steady
    | with_reducible apply settle_steady
    | with_reducible apply copyEnd_steady
    | with_reducible apply foldl_steady
    | with_reducible intro _
    | split
    | dsimp only

theorem copyDone_steady (o : Op) (i : Nat) (c : ChunkSt) {s t : State} (h : Steady s t) : Steady s (copyDone o i c t) := by
  unfold copyDone
  repeat' first
    | with_reducible exact h
    | with_reducible apply completeJournals_steady
    | with_reducible apply countCopies_steady
    | with_reducible apply opModify_steady
    | with_reducible apply deliverCopies_steady
    | with_reducible apply settle_steady
    | with_reducible apply copyEnd_steady
    | with_reducible apply chunkDone_steady
    | with_reducible intro _
    | split
    | dsimp only

theorem openApply_steady (o : Op) {s t : State} (h : Steady s t) : Steady s (openApply o t) := by
  unfold openApply
  repeat' first
    | with_reducible exact h
    | with_reducible exact Steady.refl _
    | with_reducible apply shardModify_steady
    | with_reducible apply discardWith_steady
    | with_reducible apply foldl_steady
    | with_reducible intro _
    | split

theorem openApplies_steady {s t : State} (h : Steady s t) : Steady s (openApplies t) := by
  unfold openApplies
  repeat' first
    | with_reducible exact h
    | with_reducible exact Steady.refl _
    | with_reducible apply openApply_steady
    | with_reducible apply foldl_steady
    | with_reducible intro _

end Sys2Proof.Machine
end

