-- ==== Sys2Proof/Laws/SteadyFrames.lean ====
section
/-! SUPPORT. Steady for epoch swaps, frames and faults. -/

set_option Elab.async false

namespace Sys2Proof.Machine

/-! ## Swaps -/

theorem retakeEpoch_steady {s t : State} (h : Steady s t) : Steady s (retakeEpoch t) := by
  unfold retakeEpoch
  repeat' first
    | with_reducible exact h
    | with_reducible rfl
    | with_reducible apply steady_mk

theorem routingSwap_steady {s t : State} (h : Steady s t) : Steady s (routingSwap t) := by
  unfold routingSwap
  repeat' first
    | with_reducible exact h
    | with_reducible rfl
    | with_reducible apply drainAll_steady
    | with_reducible apply retakeEpoch_steady
    | with_reducible apply steady_mk

theorem fixOpened_steady (back : Nat) {s t : State} (h : Steady s t) : Steady s (fixOpened back t) := by
  unfold fixOpened
  repeat' first
    | with_reducible exact h
    | with_reducible exact Steady.refl _
    | with_reducible apply withOp_steady
    | with_reducible apply fixEpoch_steady
    | with_reducible apply foldl_steady
    | with_reducible intro _
    | split

theorem renewEntries_steady {s t : State} (h : Steady s t) : Steady s (renewEntries t) := by
  unfold renewEntries
  repeat' first
    | with_reducible exact h
    | with_reducible rfl
    | with_reducible apply steady_mk

theorem chordSwap_steady {s t : State} (h : Steady s t) : Steady s (chordSwap t) := by
  unfold chordSwap
  repeat' first
    | with_reducible exact h
    | with_reducible rfl
    | with_reducible apply fixOpened_steady
    | with_reducible apply renewEntries_steady
    | with_reducible apply retakeEpoch_steady
    | with_reducible apply steady_mk

/-! ## Frames -/

theorem commitChunk_steady (o : Op) (i : Nat) {s t : State} (h : Steady s t) : Steady s (commitChunk o i t) := by
  unfold commitChunk
  repeat' first
    | with_reducible exact h
    | with_reducible apply fixEpoch_steady
    | with_reducible apply opModify_steady
    | with_reducible apply chunkModify_steady

theorem slipFrom_steady (n : Nat) (o : Op) (i : Nat) (c : ChunkSt) {s t : State} (h : Steady s t) : Steady s (slipFrom n o i c t) := by
  unfold slipFrom
  repeat' first
    | with_reducible exact h
    | with_reducible apply count_steady
    | with_reducible apply chunkModify_steady
    | with_reducible intro _
    | split
    | dsimp only

theorem slipChunk_steady (o : Op) (i : Nat) (c : ChunkSt) {s t : State} (h : Steady s t) : Steady s (slipChunk o i c t) := by
  unfold slipChunk
  repeat' first
    | with_reducible exact h
    | with_reducible apply slipFrom_steady

theorem earlySlip_steady (o : Op) (i : Nat) (p : ChunkPlan) {s t : State} (h : Steady s t) : Steady s (earlySlip o i p t) := by
  unfold earlySlip
  repeat' first
    | with_reducible exact h
    | with_reducible rfl
    | with_reducible apply count_steady
    | split
    | with_reducible apply steady_mk

theorem chunkEffect_steady (o : Op) (i : Nat) (c : ChunkSt) {s t : State} (h : Steady s t) : Steady s (chunkEffect o i c t) := by
  unfold chunkEffect
  repeat' first
    | with_reducible exact h
    | with_reducible apply combineDone_steady
    | with_reducible apply sliceDone_steady
    | with_reducible apply checkDone_steady
    | with_reducible apply applyDone_steady
    | with_reducible apply copyDone_steady
    | with_reducible apply deliverDone_steady
    | split

theorem capoRunning_steady (o : Op) (off : Nat) {s t : State} (h : Steady s t) : Steady s (capoRunning o off t) := by
  unfold capoRunning
  repeat' first
    | with_reducible exact h
    | with_reducible apply discardWith_steady
    | with_reducible apply notice_steady
    | with_reducible apply queueError_steady
    | with_reducible apply queueToError_steady
    | split

theorem markReplay_steady (o : Op) (i : Nat) (c : ChunkSt) {s t : State} (h : Steady s t) : Steady s (markReplay o i c t) := by
  unfold markReplay
  repeat' first
    | with_reducible exact h
    | with_reducible apply count_steady
    | with_reducible apply opModify_steady
    | with_reducible intro _
    | split
    | dsimp only

theorem releaseAll_steady {s t : State} (h : Steady s t) : Steady s (releaseAll t) := by
  unfold releaseAll
  repeat' first
    | with_reducible exact h
    | with_reducible rfl
    | with_reducible apply settle_steady
    | with_reducible apply steady_mk

theorem strPut_steady (k : Nat) (x : Str) {s t : State} (h : Steady s t) : Steady s (strPut k x t) := by
  unfold strPut
  repeat' first
    | with_reducible exact h
    | with_reducible rfl
    | with_reducible apply steady_mk

theorem repairEnd_steady (k : Nat) {s t : State} (h : Steady s t) : Steady s (repairEnd k t) := by
  unfold repairEnd
  repeat' first
    | with_reducible exact h
    | with_reducible apply strPut_steady
    | with_reducible apply report_steady
    | split
    | dsimp only

theorem spareAll_steady {s t : State} (h : Steady s t) : Steady s (spareAll t) := by
  unfold spareAll
  repeat' first
    | with_reducible exact h
    | with_reducible exact Steady.refl _
    | with_reducible apply repairEnd_steady
    | with_reducible apply foldl_steady
    | with_reducible intro _

theorem rejoinAll_steady {s t : State} (h : Steady s t) : Steady s (rejoinAll t) := by
  unfold rejoinAll
  repeat' first
    | with_reducible exact h
    | with_reducible rfl
    | with_reducible apply steady_mk

theorem jobsRun_steady {s t : State} (h : Steady s t) : Steady s (jobsRun t) := by
  unfold jobsRun
  repeat' first
    | with_reducible exact h
    | with_reducible rfl
    | with_reducible apply settleState_steady
    | with_reducible apply steady_mk

theorem startJobs_steady {s t : State} (h : Steady s t) : Steady s (startJobs t) := by
  unfold startJobs
  repeat' first
    | with_reducible exact h
    | with_reducible rfl
    | with_reducible apply jobsRun_steady
    | with_reducible intro _
    | split
    | dsimp only
    | with_reducible apply steady_mk

theorem newLength_steady {s t : State} (h : Steady s t) : Steady s (newLength t) := by
  unfold newLength
  repeat' first
    | with_reducible exact h
    | with_reducible rfl
    | with_reducible apply clearSums_steady
    | with_reducible apply steady_mk

theorem giveRole_steady (job : Nat) (z : ZsiOp) (p : ChunkPlan) {s t : State} (h : Steady s t) : Steady s (giveRole t job z p) := by
  unfold giveRole
  repeat' first
    | with_reducible exact h
    | with_reducible rfl
    | with_reducible intro _
    | dsimp only
    | with_reducible apply steady_mk

theorem openRetry_steady (q : Nat) (d : BitVec 32) (i : Nat) {s t : State} (h : Steady s t) : Steady s (openRetry q d i t) := by
  unfold openRetry
  repeat' first
    | with_reducible exact h
    | with_reducible exact Steady.refl _
    | with_reducible apply withOp_steady
    | with_reducible apply giveRole_steady
    | with_reducible apply chunkModify_steady
    | with_reducible intro _
    | split
    | dsimp only

theorem openRunning_steady (q : Nat) (d : BitVec 32) {s t : State} (h : Steady s t) : Steady s (openRunning q d t) := by
  unfold openRunning
  repeat' first
    | with_reducible exact h
    | with_reducible exact Steady.refl _
    | with_reducible rfl
    | with_reducible apply withOp_steady
    | with_reducible intro _
    | split
    | dsimp only
    | with_reducible apply steady_mk

theorem assignRoles_steady {s t : State} (h : Steady s t) : Steady s (assignRoles t) := by
  unfold assignRoles
  repeat' first
    | with_reducible exact h
    | with_reducible exact Steady.refl _
    | with_reducible rfl
    | with_reducible apply openRetry_steady
    | with_reducible apply giveRole_steady
    | with_reducible apply openRunning_steady
    | with_reducible apply foldl_steady
    | with_reducible intro _
    | split
    | dsimp only
    | with_reducible apply steady_mk

theorem countRoles_steady {s t : State} (h : Steady s t) : Steady s (countRoles t) := by
  unfold countRoles
  repeat' first
    | with_reducible exact h
    | with_reducible exact Steady.refl _
    | with_reducible apply count_steady
    | with_reducible apply foldl_steady
    | with_reducible intro _

theorem beginRepairs_steady {s t : State} (h : Steady s t) : Steady s (beginRepairs t) := by
  unfold beginRepairs
  repeat' first
    | with_reducible exact h
    | with_reducible rfl
    | with_reducible apply steady_mk

theorem openFrame_steady {s t : State} (h : Steady s t) : Steady s (openFrame t) := by
  unfold openFrame
  repeat' first
    | with_reducible exact h
    | with_reducible apply countRoles_steady
    | with_reducible apply assignRoles_steady
    | with_reducible apply claimTiles_steady
    | with_reducible apply count_steady
    | with_reducible apply beginRepairs_steady
    | with_reducible apply fetchAll_steady
    | with_reducible apply settle_steady
    | with_reducible apply streamGates_steady
    | with_reducible apply fixOpened_steady
    | with_reducible apply openApplies_steady
    | dsimp only

/-! ## Faults -/

theorem loseResults_steady (gone : List Op) (rseq : BitVec 32) {s t : State} (h : Steady s t) : Steady s (loseResults gone rseq t) := by
  unfold loseResults
  repeat' first
    | with_reducible exact h
    | with_reducible rfl
    | with_reducible apply steady_mk

theorem raiseLosing_steady (cls : Nat) (u : FUnit) (found : Found) (p : Op → Bool) (kept : Op → Bool) (hl : cls < 32) (hc : classFatal cls = false) {s t : State} (h : Steady s t) : Steady s (raiseLosing cls u found p kept t) := by
  unfold raiseLosing
  repeat' first
    | with_reducible exact h
    | with_reducible apply loseResults_steady
    | with_reducible apply raiseFault_steady
    | with_reducible intro _
    | dsimp only
    | assumption

theorem islandLevel_steady (level : Nat) (up : Nat) {s t : State} (h : Steady s t) : Steady s (islandLevel level up t) := by
  unfold islandLevel
  repeat' first
    | with_reducible exact h
    | with_reducible apply settleState_steady
    | with_reducible apply dropImage_steady
    | with_reducible apply endAllJobs_steady
    | split

theorem stringOut_steady (k : Nat) (phys : Option Nat) {s t : State} (h : Steady s t) : Steady s (stringOut k phys t) := by
  unfold stringOut
  repeat' first
    | with_reducible exact h
    | with_reducible apply raiseLosing_steady
    | with_reducible apply strPut_steady
    | with_reducible apply report_steady
    | split
    | dsimp only
    | omega
    | rfl

theorem scrubbed_steady (cls : Nat) (u : FUnit) (found : Found) (hl : cls < 32) (hc : classFatal cls = false) {s t : State} (h : Steady s t) : Steady s (scrubbed cls u found t) := by
  unfold scrubbed
  repeat' first
    | with_reducible exact h
    | with_reducible apply raiseFault_steady
    | with_reducible intro _
    | dsimp only
    | assumption

theorem fretRetire_steady (string : Nat) (phys : Nat) {s t : State} (h : Steady s t) : Steady s (fretRetire string phys t) := by
  unfold fretRetire
  repeat' first
    | with_reducible exact h
    | with_reducible apply stringOut_steady
    | with_reducible apply strPut_steady
    | with_reducible apply bbWrite_steady
    | split
    | dsimp only

theorem dieOut_steady (d : Nat) (up : Nat) (found : Found) (f : Die → Die) {s t : State} (h : Steady s t) : Steady s (dieOut d up found f t) := by
  unfold dieOut
  repeat' first
    | with_reducible exact h
    | with_reducible apply raiseLosing_steady
    | with_reducible apply report_steady
    | with_reducible apply dieModify_steady
    | with_reducible apply islandLevel_steady
    | dsimp only
    | omega
    | rfl

theorem dieReturned_steady (d : Nat) {s t : State} (h : Steady s t) : Steady s (dieReturned d t) := by
  unfold dieReturned
  repeat' first
    | with_reducible exact h
    | with_reducible apply dieModify_steady
    | with_reducible apply loseDieClaims_steady
    | with_reducible apply report_steady
    | with_reducible intro _
    | dsimp only

theorem chordGone_steady (g : Nat) (copy : Nat) {s t : State} (h : Steady s t) : Steady s (chordGone g copy t) := by
  unfold chordGone
  repeat' first
    | with_reducible exact h
    | with_reducible rfl
    | split
    | with_reducible apply steady_mk

theorem windowSlips_steady (frame : Nat) {s t : State} (h : Steady s t) : Steady s (windowSlips frame t) := by
  unfold windowSlips
  repeat' first
    | with_reducible exact h
    | with_reducible exact Steady.refl _
    | with_reducible apply withOp_steady
    | with_reducible apply slipChunk_steady
    | with_reducible apply foldl_steady
    | with_reducible intro _
    | split

theorem ringDamaged_steady (pos : Nat) (both : Bool) {s t : State} (h : Steady s t) : Steady s (ringDamaged pos both t) := by
  unfold ringDamaged
  repeat' first
    | with_reducible exact h
    | with_reducible rfl
    | split
    | with_reducible apply steady_mk

theorem tsramEffect_steady (region : TsramRegion) (rseq : BitVec 32) {s t : State} (h : Steady s t) : Steady s (tsramEffect region rseq t) := by
  unfold tsramEffect
  repeat' first
    | with_reducible exact h
    | with_reducible rfl
    | with_reducible apply chordGone_steady
    | with_reducible apply queueError_steady
    | with_reducible apply queueToError_steady
    | with_reducible apply ctrLost_steady
    | with_reducible apply windowSlips_steady
    | with_reducible apply ringDamaged_steady
    | with_reducible apply raiseFault_steady
    | with_reducible apply pmcModify_steady
    | with_reducible apply endDescs_steady
    | split
    | with_reducible apply steady_mk
    | omega
    | rfl

theorem unitGone_steady (job : Nat) (w : Nat) (half : Nat) (chip : Nat) (kind : Nat) (u : Nat) {s t : State} (h : Steady s t) : Steady s (unitGone job w half chip kind u t) := by
  unfold unitGone
  repeat' first
    | with_reducible exact h
    | with_reducible apply streamModify_steady

theorem blockLost_steady (job : Nat) (w : Nat) (e0 : Nat) (b : Nat) (rseq : BitVec 32) {s t : State} (h : Steady s t) : Steady s (blockLost job w e0 b rseq t) := by
  unfold blockLost
  repeat' first
    | with_reducible exact h
    | with_reducible apply shardModify_steady

theorem updateLost_steady (z0 : State) (job : Nat) (w : Nat) (e0 : Nat) (b : Nat) {s t : State} (h : Steady s t) : Steady s (updateLost z0 job w e0 b t) := by
  unfold updateLost
  repeat' first
    | with_reducible exact h
    | with_reducible exact Steady.refl _
    | with_reducible apply notice_steady
    | with_reducible apply foldl_steady
    | with_reducible intro _
    | split
    | dsimp only

theorem raiseCorrected_steady (u : FUnit) (errors : Nat) {s t : State} (h : Steady s t) : Steady s (raiseCorrected u errors t) := by
  unfold raiseCorrected
  repeat' first
    | with_reducible exact h
    | with_reducible rfl
    | with_reducible apply report_steady
    | with_reducible apply setClass_steady
    | with_reducible intro _
    | dsimp only
    | with_reducible apply steady_mk
    | omega
    | rfl

theorem fatal_calm (cls : Nat) {s t : State} (hl : cls < 32) (hc : classFatal cls = true) (h : Calm s t) : Calm s (fatal cls t) := by
  unfold fatal
  split
  · rename_i e
    have w : anyFatal (setClass cls t) = true := by
      rw [anyFatal_setClass]; simp only [setClass_fatal ⟨cls, hl⟩ hc, ne_eq, not_false_eq_true, decide_true, Bool.or_true]
    have k : Calm t (setClass cls t) := ⟨rfl, rfl, rfl, rfl, rfl, fun _ => ⟨fun _ => w, fun _ => e⟩⟩
    have f := faultedNotice_steady t.fault.rseq (bbWrite_steady (faultRec cls .none []) (.refl (setClass cls t)))
    refine (h.trans k).trans ?_
    dsimp only
    split
    · exact f.toCalm
    · exact (startFlush_steady f).toCalm
  · exact enterFaulted_calm _ hl hc h

theorem thermalTrip_calm {s t : State} (h : Calm s t) : Calm s (thermalTrip t) := by
  unfold thermalTrip
  split
  · exact h
  · have k : Calm t { t with power := { t.power with tripLow := true } } := ⟨rfl, rfl, rfl, rfl, rfl, faultOk_of rfl rfl⟩
    exact (fatal_calm 20 (by decide) (by decide) (h.trans k)).trans (gateDies_steady (.refl _)).toCalm

end Sys2Proof.Machine
end

