-- ==== Sys2Proof/Laws/SteadyLinks.lean ====
section
/-! SUPPORT. Steady for transport, links, power, windows and reset. -/

set_option Elab.async false

namespace Sys2Proof.Machine

/-! ## Transport -/

theorem readContribution_steady (q : Nat) (d : BitVec 32) (step : Nat) (chunk : Nat) (ord : Nat) (off : Nat) (len : Nat) (bs : List Byte) {s t : State} (h : Steady s t) : Steady s (readContribution q d step chunk ord off len bs t) := by
  unfold readContribution
  repeat' first
    | with_reducible exact h
    | with_reducible exact Steady.refl _
    | with_reducible apply withOp_steady
    | with_reducible apply stagePieces_steady
    | with_reducible apply bytesFor_steady
    | with_reducible intro _
    | split
    | dsimp only

theorem readTaken_steady (ok : Bool) (r : ReadReq) (bs : List Byte) {s t : State} (h : Steady s t) : Steady s (readTaken ok r bs t) := by
  unfold readTaken
  repeat' first
    | with_reducible exact h
    | with_reducible rfl
    | with_reducible apply readContribution_steady
    | with_reducible apply readLost_steady
    | split
    | with_reducible apply steady_mk

theorem resend_steady (f : TxFlow) (u : Unacked) {s t : State} (h : Steady s t) : Steady s (resend f u t) := by
  unfold resend
  repeat' first
    | with_reducible exact h
    | with_reducible apply txPut_steady
    | with_reducible apply emit_steady
    | with_reducible apply drawn_steady
    | with_reducible apply count_steady
    | with_reducible apply noRoute_steady
    | with_reducible intro _
    | split
    | dsimp only

/-! ## Discovery -/

theorem sendDisc_steady (p : Nat) (dst : Nat) (sub : Nat) (agreed : Nat) (assign : Nat) (reason : Nat) {s t : State} (h : Steady s t) : Steady s (sendDisc p dst sub agreed assign reason t) := by
  unfold sendDisc
  repeat' first
    | with_reducible exact h
    | with_reducible apply emit_steady

theorem onDisc_steady (sub : Nat) (a : Arrival) (f : Nat → DiscExt → State → State) (h1 : ∀ (y0 : Nat) (y1 : DiscExt) (u : State), Steady u (f y0 y1 u)) {s t : State} (h : Steady s t) : Steady s (onDisc sub a t f) := by
  unfold onDisc
  repeat' first
    | with_reducible exact h
    | with_reducible exact Steady.refl _
    | with_reducible refine Steady.trans ?_ (h1 _ _ _)
    | with_reducible apply onReceive_steady
    | with_reducible intro _
    | split

theorem portLeaves_steady (p : Nat) (x : Port) {s t : State} (h : Steady s t) : Steady s (portLeaves p x t) := by
  unfold portLeaves
  repeat' first
    | with_reducible exact h
    | with_reducible apply portPut_steady
    | with_reducible apply failStranded_steady
    | with_reducible apply parentLost_steady
    | with_reducible apply cascModify_steady
    | split
    | dsimp only

theorem portLost_steady (was : Bool) (p : Nat) (cause : Nat) {s t : State} (h : Steady s t) : Steady s (portLost was p cause t) := by
  unfold portLost
  repeat' first
    | with_reducible exact h
    | with_reducible apply report_steady
    | with_reducible apply portDownNotice_steady
    | with_reducible apply setClass_steady
    | with_reducible apply notice_steady
    | split
    | omega
    | rfl

theorem portDown_steady (p : Nat) (cause : Nat) {s t : State} (h : Steady s t) : Steady s (portDown p cause t) := by
  unfold portDown
  repeat' first
    | with_reducible exact h
    | with_reducible apply portLost_steady
    | with_reducible apply portLeaves_steady
    | split
    | dsimp only

theorem echoLost_steady (p : Nat) {s t : State} (h : Steady s t) : Steady s (echoLost p t) := by
  unfold echoLost
  repeat' first
    | with_reducible exact h
    | with_reducible apply portLost_steady
    | with_reducible apply portLeaves_steady
    | dsimp only

theorem quarantine_steady (p : Nat) (reason : Nat) (dst : Nat) (src : Nat) (id : BitVec 64) {s t : State} (h : Steady s t) : Steady s (quarantine p reason dst src id t) := by
  unfold quarantine
  repeat' first
    | with_reducible exact h
    | with_reducible exact Steady.refl _
    | with_reducible apply portLeaves_steady
    | with_reducible apply sendDisc_steady
    | with_reducible apply notice_steady

/-! ## TimeSync -/

theorem timeModify_steady (f : Time → Time) {s t : State} (e : (f t.time).gcount = t.time.gcount) (h : Steady s t) :
    Steady s (timeModify f t) :=
  h.trans ⟨⟨rfl, rfl, rfl, e, rfl, faultOk_of rfl rfl⟩, fatal_of rfl⟩

theorem enterHoldover_steady (since : Nat) {s t : State} (h : Steady s t) : Steady s (enterHoldover since t) := by
  unfold enterHoldover
  repeat' first
    | with_reducible exact h
    | with_reducible rfl
    | with_reducible apply notice_steady
    | with_reducible apply timeModify_steady

theorem sendTsync_steady (dst : Nat) (run : List Nat) (x : Ext) {s t : State} (h : Steady s t) : Steady s (sendTsync dst run x t) := by
  unfold sendTsync
  repeat' first
    | with_reducible exact h
    | with_reducible apply emitOn_steady

theorem correctRate_steady {s t : State} (h : Steady s t) : Steady s (correctRate t) := by
  unfold correctRate
  repeat' first
    | with_reducible exact h
    | with_reducible rfl
    | with_reducible apply timeModify_steady
    | with_reducible apply drawn_steady

theorem copyLength_steady (n : Nat) {s t : State} (h : Steady s t) : Steady s (copyLength n t) := by
  unfold copyLength
  repeat' first
    | with_reducible exact h
    | with_reducible apply acceptLen_steady
    | split

theorem exchangeGood_steady (ofs : Int) (hops : Nat) {s t : State} (h : Steady s t) : Steady s (exchangeGood ofs hops t) := by
  unfold exchangeGood
  repeat' first
    | with_reducible exact h
    | with_reducible apply timeModify_steady
    | with_reducible intro _
    | split
    | dsimp only
    | rfl

theorem missExchange_steady {s t : State} (h : Steady s t) : Steady s (missExchange t) := by
  unfold missExchange
  repeat' first
    | with_reducible exact h
    | with_reducible rfl
    | with_reducible apply timeModify_steady
    | split

theorem reselect_steady {s t : State} (h : Steady s t) : Steady s (reselect t) := by
  unfold reselect
  repeat' first
    | with_reducible exact h
    | with_reducible rfl
    | with_reducible apply enterHoldover_steady
    | with_reducible apply timeModify_steady
    | split

theorem askParent_steady {s t : State} (h : Steady s t) : Steady s (askParent t) := by
  unfold askParent
  repeat' first
    | with_reducible exact h
    | with_reducible rfl
    | with_reducible apply timeModify_steady
    | with_reducible apply sendTsync_steady
    | split

/-! ## Cascade -/

theorem linkLost_steady (c : Nat) (cause : Nat) {s t : State} (h : Steady s t) : Steady s (linkLost c cause t) := by
  unfold linkLost
  repeat' first
    | with_reducible exact h
    | with_reducible apply portDown_steady
    | with_reducible apply cascModify_steady

theorem sendNak_steady (c : Nat) {s t : State} (h : Steady s t) : Steady s (sendNak c t) := by
  unfold sendNak
  repeat' first
    | with_reducible exact h
    | with_reducible apply wireSend_steady
    | with_reducible apply cascModify_steady
    | with_reducible intro _
    | split
    | dsimp only

theorem dropUnknown_steady (c : Nat) (b : List Byte) {s t : State} (h : Steady s t) : Steady s (dropUnknown c b t) := by
  unfold dropUnknown
  repeat' first
    | with_reducible exact h
    | with_reducible apply count_steady
    | with_reducible apply bwModify_steady
    | with_reducible apply cascModify_steady

theorem takePackets_steady (c : Nat) (ps : List (List Byte)) {s t : State} (h : Steady s t) : Steady s (takePackets c ps t) := by
  unfold takePackets
  repeat' first
    | with_reducible exact h
    | with_reducible exact Steady.refl _
    | with_reducible apply dropUnknown_steady
    | with_reducible apply cascModify_steady
    | with_reducible apply foldl_steady
    | with_reducible intro _
    | split

theorem takeData_steady (c : Nat) (f : Flit) {s t : State} (h : Steady s t) : Steady s (takeData c f t) := by
  unfold takeData
  repeat' first
    | with_reducible exact h
    | with_reducible rfl
    | with_reducible apply cascPump_steady
    | with_reducible apply takePackets_steady
    | with_reducible apply steady_mk

theorem cascReplay_steady (c : Nat) {s t : State} (h : Steady s t) : Steady s (cascReplay c t) := by
  unfold cascReplay
  repeat' first
    | with_reducible exact h
    | with_reducible apply wireSend_steady
    | with_reducible apply count_steady
    | with_reducible apply cascModify_steady
    | with_reducible apply portDown_steady
    | with_reducible apply lanesChange_steady
    | with_reducible intro _
    | split
    | dsimp only

theorem onFlit_steady (c : Nat) (ftype : Nat) (words : List (List Pam4)) (take : Flit → State → State) (h1 : ∀ (y0 : Flit) (u : State), Steady u (take y0 u)) {s t : State} (h : Steady s t) : Steady s (onFlit c ftype words t take) := by
  have k : ∀ x, Steady s { t with casc := x } := fun _ =>
    h.trans ⟨⟨rfl, rfl, rfl, rfl, rfl, faultOk_of rfl rfl⟩, fatal_of rfl⟩
  unfold onFlit
  split
  · exact h
  · dsimp only
    generalize laneFlit (cascGet t c) words = r
    generalize flitRead r.1 = o
    rcases o with _ | ⟨_ | f, n⟩
    · exact sendNak_steady c (count_steady _ _ _ _ (k _))
    · exact k _
    · dsimp only
      split
      · exact h
      · refine Steady.trans (cascModify_steady _ _ ?_) (h1 f _)
        split
        · exact k _
        · exact count_steady _ _ _ _ (k _)

theorem takeFiller_steady (c : Nat) (f : Flit) {s t : State} (h : Steady s t) : Steady s (takeFiller c f t) := by
  unfold takeFiller
  repeat' first
    | with_reducible exact h
    | with_reducible apply cascPump_steady
    | with_reducible apply cascModify_steady
    | with_reducible apply sendNak_steady
    | split
    | dsimp only

theorem modPut_steady (m : Nat) (x : Module) {s t : State} (h : Steady s t) : Steady s (modPut m x t) := by
  unfold modPut
  repeat' first
    | with_reducible exact h
    | with_reducible rfl
    | with_reducible apply steady_mk

theorem moduleOut_steady (m : Nat) (up : Nat) {s t : State} (h : Steady s t) : Steady s (moduleOut m up t) := by
  unfold moduleOut
  repeat' first
    | with_reducible exact h
    | with_reducible exact Steady.refl _
    | with_reducible apply modPut_steady
    | with_reducible apply raiseFault_steady
    | with_reducible apply report_steady
    | with_reducible apply portLeaves_steady
    | with_reducible apply foldl_steady
    | with_reducible intro _
    | dsimp only
    | omega
    | rfl

/-! ## Power -/

theorem tempPut_steady (k : Nat) (x : Temp) {s t : State} (h : Steady s t) : Steady s (tempPut k x t) := by
  unfold tempPut
  repeat' first
    | with_reducible exact h
    | with_reducible rfl
    | with_reducible apply steady_mk

theorem raiseHot_steady (k : Nat) {s t : State} (h : Steady s t) : Steady s (raiseHot k t) := by
  unfold raiseHot
  repeat' first
    | with_reducible apply bbWrite_steady
    | with_reducible apply setClass_steady
    | split
    | omega
    | rfl

/-! ## Windows -/

theorem bwAlert_steady (p : Nat) (w : Nat) (ns : Nat) {s t : State} (h : Steady s t) : Steady s (bwAlert p w ns t) := by
  unfold bwAlert
  repeat' first
    | with_reducible exact h
    | with_reducible apply notice_steady
    | split
    | dsimp only

theorem bwRewrite_steady (w : Nat) {s t : State} (h : Steady s t) : Steady s (bwRewrite w t) := by
  unfold bwRewrite
  repeat' first
    | with_reducible exact h
    | with_reducible exact Steady.refl _
    | with_reducible apply bwModify_steady
    | with_reducible apply bwAlert_steady
    | with_reducible apply foldl_steady
    | with_reducible intro _
    | split
    | dsimp only

theorem vinTake_steady (v : Nat) (outsideNs : Nat) {s t : State} (h : Steady s t) : Steady s (vinTake v outsideNs t) := by
  unfold vinTake
  repeat' first
    | with_reducible exact h
    | with_reducible rfl
    | with_reducible apply noteSet_steady
    | with_reducible apply drawn_steady
    | with_reducible intro _
    | split
    | dsimp only
    | with_reducible apply steady_mk

/-! ## Reset -/

theorem tuneStrings_steady (trim : List Byte) (found : List (Nat × Nat)) {s t : State} (h : Steady s t) : Steady s (tuneStrings trim found t) := by
  unfold tuneStrings
  repeat' first
    | with_reducible exact h
    | with_reducible exact Steady.refl _
    | with_reducible apply strPut_steady
    | with_reducible apply foldl_steady
    | with_reducible intro _

theorem tuneRing_steady (survives : List Bool) {s t : State} (h : Steady s t) : Steady s (tuneRing survives t) := by
  unfold tuneRing
  repeat' first
    | with_reducible exact h
    | with_reducible rfl
    | with_reducible apply steady_mk

theorem tuneModules_steady (r : TuningResult) {s t : State} (h : Steady s t) : Steady s (tuneModules r t) := by
  unfold tuneModules
  repeat' first
    | with_reducible exact h
    | with_reducible exact Steady.refl _
    | with_reducible apply moduleOut_steady
    | with_reducible apply modPut_steady
    | with_reducible apply foldl_steady
    | with_reducible intro _
    | split
    | dsimp only

theorem tuneCascade_steady (r : TuningResult) {s t : State} (h : Steady s t) : Steady s (tuneCascade r t) := by
  unfold tuneCascade
  repeat' first
    | with_reducible exact h
    | with_reducible exact Steady.refl _
    | with_reducible apply lanesChange_steady
    | with_reducible apply notice_steady
    | with_reducible apply foldl_steady
    | with_reducible intro _
    | split

theorem tuneStraps_steady {s t : State} (h : Steady s t) : Steady s (tuneStraps t) := by
  unfold tuneStraps
  repeat' first
    | with_reducible exact h
    | with_reducible exact Steady.refl _
    | with_reducible apply portPut_steady
    | with_reducible apply notice_steady
    | with_reducible apply foldl_steady
    | with_reducible intro _
    | split

theorem tuneRoutes_steady (img : List Byte) {s t : State} (h : Steady s t) : Steady s (tuneRoutes img t) := by
  unfold tuneRoutes
  repeat' first
    | with_reducible exact h
    | with_reducible rfl
    | with_reducible apply steady_mk

theorem tuneRegs_steady (img : List Byte) {s t : State} (h : Steady s t) : Steady s (tuneRegs img t) := by
  unfold tuneRegs
  repeat' first
    | with_reducible exact h
    | with_reducible exact Steady.refl _
    | with_reducible apply regWrite_steady
    | with_reducible apply foldl_steady
    | with_reducible intro _
    | split

theorem tuneReady_steady {s t : State} (h2 : t.ctl.state ≠ .faulted) (h : Steady s t) : Steady s (tuneReady t) := by
  unfold tuneReady
  exact beginErase_steady (settleState_steady (setState_steady _ (by decide) h2 (timeModify_steady _ rfl h)))

end Sys2Proof.Machine
end

