-- ==== Sys2Proof/Laws/Kept.lean ====
section
/-! SUPPORT. Kept: what every operation keeps, those that write HBM, flash or the count too. Every write of HBM or flash keeps
the canonical form. -/

set_option Elab.async false

namespace Sys2Proof.Machine

/-- The queue stays, memory keeps its canonical form, and FAULTED stays tied to the fatal classes. -/
structure Kept (s t : State) : Prop where
  pending : t.pending = s.pending
  memory : s.memOk → t.memOk
  faults : s.faultOk → t.faultOk

theorem Kept.refl (s : State) : Kept s s := ⟨rfl, id, id⟩

theorem Kept.trans {s t u : State} (h : Kept s t) (k : Kept t u) : Kept s u :=
  ⟨k.pending.trans h.pending, k.memory ∘ h.memory, k.faults ∘ h.faults⟩

theorem memOk_of {x y : State} (e : y.hbm = x.hbm) (f : y.peg.flash = x.peg.flash) (h : x.memOk) : y.memOk := by
  unfold State.memOk at *
  rw [e, f]; exact h

theorem Calm.kept {s t : State} (h : Calm s t) : Kept s t := ⟨h.pending, memOk_of h.hbm h.flash, h.faults⟩

theorem Steady.kept {s t : State} (h : Steady s t) : Kept s t := h.toCalm.kept

theorem foldl_kept {α : Type} {f : State → α → State} {l : List α} {s t : State} (hf : ∀ a u, Kept u (f u a)) (h : Kept s t) :
    Kept s (l.foldl f t) := by
  induction l generalizing t with
  | nil => exact h
  | cons a l ih => exact ih (h.trans (hf a t))

/-! ## Writes of memory -/

theorem hbmWrite_kept (off : Nat) (bs : List Byte) (s : State) : Kept s (hbmWrite off bs s) :=
  ⟨rfl, fun h => ⟨Table.wf_putAll off bs h.1, h.2⟩, faultOk_of rfl rfl⟩

theorem flashProgram_kept (off : Nat) (bs : List Byte) (s : State) : Kept s (flashProgram off bs s) :=
  ⟨rfl, fun h => ⟨h.1, Table.wf_putAll off _ h.2⟩, faultOk_of rfl rfl⟩

theorem flashErase_kept (off len : Nat) (s : State) : Kept s (flashErase off len s) :=
  ⟨rfl, fun h => ⟨h.1, Table.wf_filter _ h.2⟩, faultOk_of rfl rfl⟩

theorem flashUnknown_kept (off len : Nat) (s : State) : Kept s (flashUnknown off len s) :=
  ⟨rfl, fun h => ⟨h.1, Table.wf_putAll off _ h.2⟩, faultOk_of rfl rfl⟩

/-! ## Descriptor rings -/

theorem takeInline_kept (q : Nat) (bs : List Byte) (s : State) : Kept s (takeInline q bs s) := by
  unfold takeInline
  dsimp only
  split
  · exact .refl s
  · exact ((countWrite_steady _ _ _ (.refl s)).kept.trans (hbmWrite_kept _ bs _)).trans (queuePut_steady _ _ (.refl _)).kept

theorem doorbellInline_kept (q : Nat) (d : Doorbell) (s : State) : Kept s (doorbellInline q d s) := by
  unfold doorbellInline
  dsimp only
  split
  · exact foldl_kept (fun b u => takeInline_kept q b u) (.refl s)
  · refine foldl_kept (fun b u => ?_) (.refl s)
    have fd := fun p => (failDesc_steady q (descParse b).dseq p 5 (malformed 0x05 0).2 (.refl u)).kept
    split
    · exact .refl u
    · split
      · split
        · split
          · exact .refl u
          · exact (failStarted_steady _ _ _ (.refl u)).kept
        · exact fd _
      · exact fd _

theorem doorbellTake_kept (q : Nat) (d : Doorbell) (s : State) : Kept s (doorbellTake q d s) := by
  unfold doorbellTake
  dsimp only
  split
  · exact (notice_steady _ (queueError_steady _ _ _ (count_steady _ _ _ _ (.refl s)))).kept
  · rename_i n _
    have h := (queuePut_steady q { queueGet s q with tail := n } (.refl s)).kept.trans (doorbellInline_kept q d _)
    split
    · exact h.trans (relayState_steady _ (queuePut_steady _ _ (.refl _))).kept
    · exact h

/-! ## Running tiles -/

theorem withOp_kept (q : Nat) (d : BitVec 32) {f : Op → State → State} (hf : ∀ o u, Kept u (f o u)) (s : State) : Kept s (withOp q d f s) := by
  unfold withOp
  split
  · exact hf _ s
  · exact .refl s

theorem drainTiles_kept (q : Nat) (d : BitVec 32) (s : State) : Kept s (drainTiles q d s) := by
  refine withOp_kept q d (fun o u => ?_) s
  dsimp only
  split
  · split
    · exact .refl u
    · exact (hbmWrite_kept _ _ u).trans (opModify_steady _ _ _ (countWrite_steady _ _ _ (.refl _))).kept
  · exact .refl u

theorem wgradFinish_kept (o : Op) (g : WgradDef) (s : State) : Kept s (wgradFinish o g s) :=
  (opModify_steady _ _ _ (.refl s)).kept.trans ((drainTiles_kept o.queue o.dseq _).trans (opEnd_steady _ _ (.refl _)).kept)

theorem combineTiles_kept (o : Op) (g : WgradDef) (chunk k : Nat) (vs : List Val) (of : Bool) (s : State) :
    Kept s (combineTiles o g chunk k vs of s) := by
  unfold combineTiles
  extract_lets run new s0 set put s1 s2
  have h0 : Steady s s0 := count_steady _ _ _ _ (.refl s)
  have h2 : Steady s s2 := by
    unfold s2
    split
    · exact raiseLater_steady _ _ _ _ (sendLevels_steady _ _ _ _ (opModify_steady _ _ _ h0))
    · exact opModify_steady _ _ _ h0
  split
  · exact (recompute_steady _ _ _ _ _ h0).kept
  · split
    · exact h2.kept.trans (withOp_kept _ _ (fun o u => wgradFinish_kept o g u) _)
    · exact h2.kept

/-! ## Overrun and zeroization -/

theorem zeroizeFreed_kept (s : State) : Kept s (zeroizeFreed s) :=
  ⟨rfl, fun h => ⟨Table.wf_filter _ h.1, h.2⟩, faultOk_of rfl rfl⟩

theorem spoilRegion_kept (o : Op) (s : State) : Kept s (spoilRegion o s) := by
  unfold spoilRegion
  split
  · exact (hbmWrite_kept _ _ s).trans ⟨rfl, id, id⟩
  · exact .refl s

theorem overrunOp_kept (o : Op) (s : State) : Kept s (overrunOp o s) := by
  unfold overrunOp
  split
  · exact .refl s
  · refine ((leaveStep_steady o (.refl s)).kept.trans (spoilRegion_kept o _)).trans (notice_steady _ ?_).kept
    split
    · exact queueError_steady _ _ _ (discardWith_steady _ _ _ _ _ (.refl _))
    · exact queueToError_steady _ _ _ (discardWith_steady _ _ _ _ _ (.refl _))

theorem closeFrame_kept (s : State) : Kept s (closeFrame s) := by
  unfold closeFrame
  refine Kept.trans (foldl_kept (fun k u => withOp_kept _ _ (fun o v => ?_) u) (.refl s)) (settle_steady (.refl _)).kept
  split
  · exact overrunOp_kept o v
  · refine (foldl_steady (fun i w => withOp_steady _ _ _ (fun o x => ?_) (.refl w)) (.refl v)).kept
    split
    · split
      · exact slipFrom_steady _ _ _ _ (.refl x)
      · exact .refl x
    · exact .refl x

theorem stepDo_kept (k : Nat) (s : State) : Kept s (stepDo k s) := by
  unfold stepDo
  split
  · exact closeFrame_kept s
  · exact (releaseAll_steady (.refl s)).kept
  · exact (routingSwap_steady (.refl s)).kept
  · exact (chordSwap_steady (.refl s)).kept
  · exact (spareAll_steady (.refl s)).kept
  · exact (rejoinAll_steady (.refl s)).kept
  · exact (startJobs_steady (.refl s)).kept
  · exact (newLength_steady (.refl s)).kept
  · exact .refl s

theorem slotGone_kept (addr : Nat) (s : State) : Kept s (slotGone addr s) := by
  unfold slotGone
  dsimp only
  split
  · exact .refl s
  · exact hbmWrite_kept _ _ s

theorem hbmEffect_kept (region : HbmRegion) (rseq : BitVec 32) (before s : State) : Kept s (hbmEffect region rseq before s) := by
  unfold hbmEffect
  split
  · exact slotGone_kept _ s
  · exact (unitGone_steady _ _ _ _ _ _ (.refl s)).kept
  · split
    · exact (updateLost_steady _ _ _ _ _ (blockLost_steady _ _ _ _ _ (.refl s))).kept
    · exact (shardModify_steady _ _ _ _ (.refl s)).kept
  · extract_lets lost s1
    have h1 : Steady s s1 := shardModify_steady _ _ _ _ (.refl s)
    split
    · exact (updateLost_steady _ _ _ _ _ (blockLost_steady _ _ _ _ _ h1)).kept
    · exact h1.kept
  · exact (loseResults_steady _ _ (.refl s)).kept
  · exact ⟨rfl, memOk_of rfl rfl, faultOk_of rfl rfl⟩
  · exact ⟨rfl, memOk_of rfl rfl, faultOk_of rfl rfl⟩
  · exact .refl s

/-! ## Flash -/

theorem flushWrite_kept (s : State) (f : Flush) : Kept s (flushWrite s f) :=
  ((flashErase_kept _ _ s).trans (flashProgram_kept _ _ _)).trans ((flashProgram_kept _ _ _).trans (flashProgram_kept _ _ _))

theorem flushBroken_kept (s : State) (f : Flush) : Kept s (flushBroken s f) :=
  (flashErase_kept _ _ s).trans ((flashUnknown_kept _ _ _).trans (flashUnknown_kept _ _ _))

theorem setPeg_kept (p : Peg) {s : State} (e : p.flash = s.peg.flash) : Kept s (setPeg p s) := (setPeg_steady p e (.refl s)).kept

theorem pegEndErase_kept (ok : Bool) (s : State) : Kept s (pegEndErase ok s) := by
  cases ok
  · exact (flashUnknown_kept _ _ s).trans (setPeg_kept _ rfl)
  · exact (flashErase_kept _ _ s).trans (setPeg_kept _ rfl)

theorem pegEndProgram_kept (ok : Bool) (s : State) : Kept s (pegEndProgram ok s) := by
  unfold pegEndProgram
  split
  · exact setPeg_kept _ rfl
  · split
    · exact .refl s
    · cases ok
      · exact (flashUnknown_kept _ _ s).trans (setPeg_kept _ rfl)
      · exact (flashProgram_kept _ _ s).trans (setPeg_kept _ rfl)

theorem pegEndCommit_kept (ok : Bool) (s : State) : Kept s (pegEndCommit ok s) := by
  cases ok
  · exact (flashUnknown_kept _ _ s).trans (setPeg_kept _ rfl)
  · exact (flashProgram_kept _ _ s).trans (setPeg_kept _ rfl)

theorem flashHalfErased_kept (off len : Nat) (s : State) : Kept s (flashHalfErased off len s) :=
  foldl_kept (fun _ u => flashUnknown_kept _ _ u) (.refl s)

theorem flashBroken_kept (s : State) : Kept s (flashBroken s) := by
  unfold flashBroken
  dsimp only
  have a : Kept s (match s.fault.flush with | some f => flushBroken s f | none => s) := by
    split
    · exact flushBroken_kept s _
    · exact .refl s
  have b : ∀ u, Kept s u → Kept s (if u.fault.erasing then flashHalfErased (slotBase (flushTarget u).1) 0x100000 u else u) := by
    intro u h
    split
    · exact h.trans (flashHalfErased_kept _ _ u)
    · exact h
  have c := b _ a
  split
  · exact c.trans (pegEndErase_kept false _)
  · exact c.trans (flashUnknown_kept _ _ _)
  · exact c.trans (pegEndCommit_kept false _)
  · exact c

/-! ## Reset and tuning -/

theorem wiped_faultOk (held low : Bool) (s : State) : (wiped held low s).faultOk := by
  cases held <;> simp [wiped, State.faultOk, anyFatal]

theorem wiped_kept (held low : Bool) (s : State) : Kept s (wiped held low s) :=
  ⟨rfl, fun h => ⟨rfl, h.2⟩, fun _ => wiped_faultOk held low s⟩

theorem setState_rest (x : IslState) (s : State) :
    (setState x s).pending = s.pending ∧ (s.memOk → (setState x s).memOk) := by
  unfold setState
  split <;> exact ⟨rfl, id⟩

theorem enterReset_kept (held low : Bool) (s : State) : Kept s (enterReset held low s) := by
  unfold enterReset
  split
  · rename_i e
    refine ⟨rfl, memOk_of rfl rfl, fun h => ?_⟩
    cases held
    · rcases e with e | e <;> simp [State.faultOk, anyFatal, e]
    · exact h
  · have k := flashBroken_kept (setState .reset s)
    have w := wiped_kept held low (flashBroken (setState .reset s))
    have b := setState_rest .reset s
    exact ⟨w.pending.trans (k.pending.trans b.1), fun h => w.memory (k.memory (b.2 h)), fun _ => wiped_faultOk _ _ _⟩

theorem tuneWith_kept (r : TuningResult) (trim img : List Byte) (copy : Nat) {s : State} (e : s.ctl.state = .tuning) :
    Kept s (tuneWith r trim img copy s) := by
  unfold tuneWith
  dsimp only
  generalize hu : State.mk _ _ _ _ _ _ _ _ _ _ _ _ _ _ _ _ _ _ _ _ _ _ _ _ _ _ _ _ _ _ _ _ _ _ _ _ _ _ _ _ = u
  have a : Kept s u := by
    subst hu
    exact ⟨rfl, fun h => ⟨rfl, h.2⟩, faultOk_of rfl rfl⟩
  have f : anyFatal u = anyFatal s := by
    subst hu
    exact fatal_of rfl
  have k : Steady u (tuneStraps (tuneCascade r (tuneModules r (tuneStrings trim r.retired (tuneRoutes img u))))) :=
    tuneStraps_steady (tuneCascade_steady r (tuneModules_steady _ (tuneStrings_steady _ _ (tuneRoutes_steady _ (.refl u)))))
  have l := k.trans (tuneRegs_steady img (.refl _))
  split
  · exact a.trans (fatal_calm 26 (by decide) (by decide) k.toCalm).kept
  · split
    · exact a.trans (fatal_calm 24 (by decide) (by decide) l.toCalm).kept
    · have m := l.trans (timeModify_steady (fun t => { t with nextExch := t.gcount }) rfl (.refl _))
      have b := setState_rest .ready (timeModify (fun t => { t with nextExch := t.gcount })
        (tuneRegs img (tuneStraps (tuneCascade r (tuneModules r (tuneStrings trim r.retired (tuneRoutes img u)))))))
      have d := (beginErase_steady (settleState_steady (.refl (setState .ready (timeModify (fun t => { t with nextExch := t.gcount })
        (tuneRegs img (tuneStraps (tuneCascade r (tuneModules r
          (tuneStrings trim r.retired (tuneRoutes img u))))))))))).kept
      refine ⟨d.pending.trans (b.1.trans (m.pending.trans a.pending)), fun h => d.memory (b.2 (m.kept.memory (a.memory h))), fun h => ?_⟩
      · have g := l.faults (a.faults h)
        have n : anyFatal s = false := by simpa [State.faultOk, e] using h
        refine (tuneReady_steady (s := u) ?_ l).faults (a.faults h)
        intro c
        have := g.1 c
        rw [l.fatal, f, n] at this
        exact absurd this (by decide)

/-! ## Supply and the idle step -/

theorem stagesStop_kept (s : State) : Kept s (stagesStop s) := by
  unfold stagesStop
  dsimp only
  split
  · have k := flashBroken_kept { s with power := { s.power with stagesOff := true, critIn := none } }
    have w := wiped_kept false s.ctl.resetLow (flashBroken { s with power := { s.power with stagesOff := true, critIn := none } })
    exact ⟨w.pending.trans k.pending, fun h => w.memory (k.memory h), w.faults ∘ fun h => k.faults (faultOk_of rfl rfl h)⟩
  · rename_i e
    refine ⟨rfl, memOk_of rfl rfl, fun _ => ?_⟩
    simp [regsUp] at e
    by_cases g : s.ctl.state = .off
    · simp [State.faultOk, anyFatal, g]
    · simp [State.faultOk, anyFatal, e g]

theorem critTick_kept (s : State) : Kept s (critTick s) := by
  unfold critTick
  split
  · exact .refl s
  · split
    · exact stagesStop_kept s
    · exact ⟨rfl, memOk_of rfl rfl, faultOk_of rfl rfl⟩

theorem nanosecond_kept (s : State) : Kept s (nanosecond s) := by
  unfold nanosecond
  split
  · exact .refl s
  · extract_lets t s'
    have a : Kept s s' := ⟨rfl, memOk_of rfl rfl, faultOk_of rfl rfl⟩
    refine a.trans (foldl_steady (fun c u => markerTick_steady c (.refl u)) (pmcFoldAll_steady ?_)).kept
    split
    · exact .refl _
    · exact countNanosecond_steady (.refl _)

theorem idle_kept (s : State) : Kept s (idle s) :=
  (critTick_kept s).trans ((nanosecond_kept _).trans (tellHits_steady (completeJournals_steady (.refl _))).kept)

end Sys2Proof.Machine
end

