-- ==== Sys2Proof/Laws/Sending.lean ====
section
/-! SUPPORT. What sending changes: an emission leaves everything but the counters, the cascade links and the log of what left the
island; a send and a notice change the flows and the notice generator besides. -/

set_option Elab.async false

namespace Sys2Proof.Machine

/-- Two states that differ only in what an emission changes. -/
def Emits (s t : State) : Prop :=
  ∃ obs casc out freeCtr, t = { s with obs := obs, casc := casc, out := out, freeCtr := freeCtr }

/-- Two states that differ only in what a send or a notice changes. -/
def Sends (s t : State) : Prop :=
  ∃ notices net obs casc out freeCtr,
    t = { s with notices := notices, net := net, obs := obs, casc := casc, out := out, freeCtr := freeCtr }

theorem Emits.refl (s : State) : Emits s s := ⟨_, _, _, _, rfl⟩

theorem Emits.trans {s t u : State} (h : Emits s t) (k : Emits t u) : Emits s u := by
  obtain ⟨_, _, _, _, rfl⟩ := h
  obtain ⟨_, _, _, _, rfl⟩ := k
  exact ⟨_, _, _, _, rfl⟩

theorem Sends.refl (s : State) : Sends s s := ⟨_, _, _, _, _, _, rfl⟩

theorem Sends.trans {s t u : State} (h : Sends s t) (k : Sends t u) : Sends s u := by
  obtain ⟨_, _, _, _, _, _, rfl⟩ := h
  obtain ⟨_, _, _, _, _, _, rfl⟩ := k
  exact ⟨_, _, _, _, _, _, rfl⟩

theorem Emits.sends {s t : State} (h : Emits s t) : Sends s t := by
  obtain ⟨_, _, _, _, rfl⟩ := h
  exact ⟨_, _, _, _, _, _, rfl⟩

theorem foldl_sends {α : Type} {f : State → α → State} (hf : ∀ a u, Sends u (f u a)) (l : List α) (s : State) :
    Sends s (l.foldl f s) := by
  induction l generalizing s with
  | nil => exact .refl s
  | cons a l ih => exact (hf a s).trans (ih _)

/-! ## Emissions -/

theorem count_emits (ev neck n : Nat) (c : Ctx) (s : State) : Emits s (count ev neck n c s) := by
  unfold count
  split
  · exact .refl s
  · exact ⟨_, _, _, _, rfl⟩

theorem foldl_emits {α : Type} {f : State → α → State} (hf : ∀ a u, Emits u (f u a)) (l : List α) (s : State) :
    Emits s (l.foldl f s) := by
  induction l generalizing s with
  | nil => exact .refl s
  | cons a l ih => exact (hf a s).trans (ih _)

theorem countSent_emits (port job tc n : Nat) (s : State) : Emits s (countSent port job tc n s) :=
  ((count_emits _ _ _ _ s).trans (count_emits _ _ _ _ _)).trans ⟨_, _, _, _, rfl⟩

theorem cascPump_emits (c : Nat) (s : State) : Emits s (cascPump c s) := by
  unfold cascPump
  dsimp only
  refine Emits.trans ?_ (foldl_emits (fun e u => countSent_emits _ _ _ _ u) _ _)
  exact ⟨_, _, _, _, rfl⟩

theorem emit_emits (port : Nat) (p : Packet) (s : State) : Emits s (emit port p s) := by
  unfold emit
  extract_lets m p s'
  have h : Emits s s' := ⟨_, _, _, _, rfl⟩
  split
  · exact h.trans (countSent_emits _ _ _ _ _)
  · exact (h.trans ⟨_, _, _, _, rfl⟩).trans (cascPump_emits _ _)

theorem emitOn_emits (neck : Nat) (run : List Nat) (p : Packet) (s : State) : Emits s (emitOn neck run p s) := by
  unfold emitOn
  split
  · exact Emits.trans ⟨_, _, _, _, rfl⟩ (emit_emits _ _ (drawn s))
  · split
    · exact count_emits _ _ _ _ s
    · exact .refl s

/-- An ACK changes no flow. -/
theorem sendAck_emits (f : RxFlow) (neck : Nat) (run : List Nat) (s : State) : Emits s (sendAck f neck run s) :=
  Emits.trans ⟨_, _, _, _, rfl⟩ (emitOn_emits _ _ _ (drawn s))

/-! ## Sends -/

/-- A packet of no operation adds to the bytes of none. -/
theorem bytesSent_none (h : Held) (ho : heldOp h = none) (s : State) : bytesSent h s = s := by
  simp [bytesSent, ho]

theorem launch_sends (f : TxFlow) (h : Held) (ho : heldOp h = none) (s : State) : Sends s (launch f h s) := by
  unfold launch
  rw [bytesSent_none h ho]
  exact Sends.trans ⟨_, _, _, _, _, _, rfl⟩ (emitOn_emits _ _ _ (txPut _ s)).sends

theorem loseOp_sends (k : Option (Nat × BitVec 32)) (peer tc : Nat) (path : Bool) (s : State) : Sends s (loseOp k peer tc path s) := by
  unfold loseOp
  split
  · exact ⟨_, _, _, _, _, _, rfl⟩
  · exact .refl s

/-- What a READ was for may touch a command of the pegbox besides: not so what any other packet leaves behind. -/
theorem dropHeld_sends (h : Held) (hr : ∀ o l g, h.pkt.ext ≠ .read o l g) (s : State) : Sends s (dropHeld h s) := by
  unfold dropHeld
  extract_lets path s'
  have k : Sends s s' := by
    unfold s'
    split
    · exact .refl s
    · exact (count_emits _ _ _ _ s).sends
  split
  · exact absurd ‹_› (hr _ _ _)
  · exact k.trans (loseOp_sends _ _ _ _ _)

/-- A packet of no operation, other than a READ, changes nothing but what sending changes. -/
theorem send_sends (h : Held) (hr : ∀ o l g, h.pkt.ext ≠ .read o l g) (ho : heldOp h = none) (s : State) : Sends s (send h s) := by
  unfold send
  dsimp only
  split
  · exact dropHeld_sends h hr s
  · split
    · exact launch_sends _ h ho s
    · exact ⟨_, _, _, _, _, _, rfl⟩

theorem sendWrite_sends (tc dst off job : Nat) (bs : List Byte) (why : Purpose) (hw : purposeOp why = none) (s : State) :
    Sends s (sendWrite tc dst off job bs why s) := send_sends _ (by simp) (by simpa [heldOp, extOp] using hw) s

theorem sendWrites_sends (tc dst off job : Nat) (bs : List Byte) (why : Purpose) (hw : purposeOp why = none) (s : State) :
    Sends s (sendWrites tc dst off job bs why s) := foldl_sends (fun _ u => sendWrite_sends _ _ _ _ _ _ hw u) _ s

theorem sendRelease_sends (status reason ctr job : Nat) (tag : BitVec 32) (x : Ctr) (chip retOff : Nat) (s : State) :
    Sends s (sendRelease status reason ctr job tag x chip retOff s) := sendWrite_sends _ _ _ _ _ _ rfl s

theorem commit_sends (a : Arrival) (s : State) : Sends s (commit a s) := by
  unfold commit
  split
  · exact .refl s
  · exact Sends.trans ⟨_, _, _, _, _, _, rfl⟩ (sendAck_emits _ _ _ _).sends

theorem noticeTo_sends (bs : List Byte) (slot : Nat) (m : Manager) (s : State) : Sends s (noticeTo bs slot m s) := by
  unfold noticeTo
  dsimp only
  split
  · exact send_sends _ (by simp) (by simp [heldOp, extOp, purposeOp]) s
  · exact (count_emits _ _ _ _ s).sends

theorem notice_sends (n : Notice) (s : State) : Sends s (notice n s) := by
  have fire : ∀ (supp : Nat) (others : List (Nat × Nat × Nat × Nat)) (g : Nat), Sends s (notice.fire n supp others g s) :=
    fun _ _ _ => Sends.trans ⟨_, _, _, _, _, _, rfl⟩ (foldl_sends (fun m u => noticeTo_sends _ _ m u) _ _)
  unfold notice
  dsimp only
  split
  · split
    · exact ⟨_, _, _, _, _, _, rfl⟩
    · exact fire _ _ _
  · exact fire _ _ _

/-! ## Draining held packets -/

/-- What a drain of the held packets changes: sending, the bytes an operation has sent, and a READ of the pegbox that fails. -/
def Drains (s t : State) : Prop :=
  ∃ net obs casc out freeCtr ops failed,
    t = { s with net := net, obs := obs, casc := casc, out := out, freeCtr := freeCtr, ops := ops, peg := { s.peg with failed := failed } } ∧
    ops.map (fun o => { o with bytesOut := 0 }) = s.ops.map fun o => { o with bytesOut := 0 }

theorem Drains.refl (s : State) : Drains s s := ⟨_, _, _, _, _, s.ops, s.peg.failed, rfl, rfl⟩

theorem Drains.trans {s t u : State} (h : Drains s t) (k : Drains t u) : Drains s u := by
  obtain ⟨_, _, _, _, _, _, _, rfl, m⟩ := h
  obtain ⟨_, _, _, _, _, _, _, rfl, n⟩ := k
  exact ⟨_, _, _, _, _, _, _, rfl, n.trans m⟩

theorem Emits.drains {s t : State} (h : Emits s t) : Drains s t := by
  obtain ⟨_, _, _, _, rfl⟩ := h
  exact ⟨_, _, _, _, _, s.ops, s.peg.failed, rfl, rfl⟩

theorem foldl_drains {α : Type} {f : State → α → State} (hf : ∀ a u, Drains u (f u a)) (l : List α) (s : State) :
    Drains s (l.foldl f s) := by
  induction l generalizing s with
  | nil => exact .refl s
  | cons a l ih => exact (hf a s).trans (ih _)

theorem txPut_drains (f : TxFlow) (s : State) : Drains s (txPut f s) := ⟨_, _, _, _, _, s.ops, s.peg.failed, rfl, rfl⟩

theorem bytesSent_drains (h : Held) (s : State) : Drains s (bytesSent h s) := by
  refine ⟨_, _, _, _, _, _, s.peg.failed, rfl, ?_⟩
  simp only [List.map_map]
  congr 1
  funext o
  simp only [Function.comp]
  split <;> rfl

theorem launch_drains (f : TxFlow) (h : Held) (s : State) : Drains s (launch f h s) :=
  ((bytesSent_drains h s).trans (txPut_drains _ _)).trans (Emits.drains (emitOn_emits _ _ _ _))

theorem loseOp_drains (k peer tc path) (s : State) : Drains s (loseOp k peer tc path s) := by
  unfold loseOp
  split
  · exact ⟨_, _, _, _, _, s.ops, s.peg.failed, rfl, rfl⟩
  · exact .refl s

theorem readLost_drains (r path) (s : State) : Drains s (readLost r path s) := by
  unfold readLost
  split
  · exact loseOp_drains _ _ _ _ s
  · exact ⟨_, _, _, _, _, s.ops, s.peg.failed, rfl, rfl⟩
  · exact ⟨_, _, _, _, _, s.ops, _, rfl, rfl⟩

theorem dropHeld_drains (h : Held) (s : State) : Drains s (dropHeld h s) := by
  unfold dropHeld
  extract_lets path s'
  have k : Drains s s' := by
    unfold s'
    split
    · exact .refl s
    · exact Emits.drains (count_emits _ _ _ _ s)
  split
  · refine k.trans (Drains.trans ?_ (foldl_drains (fun r u => readLost_drains r _ u) _ _))
    exact ⟨_, _, _, _, _, s'.ops, s'.peg.failed, rfl, rfl⟩
  · exact k.trans (loseOp_drains _ _ _ _ _)

theorem drainFlow_drains (dst tc n : Nat) (l : List Held) (s : State) : Drains s (drainFlow dst tc n l s) := by
  induction n generalizing l s with
  | zero => exact .refl s
  | succ n ih =>
    cases l with
    | nil => exact .refl s
    | cons h hs =>
      simp only [drainFlow]
      split
      · exact ((txPut_drains _ s).trans (dropHeld_drains _ _)).trans (ih _ _)
      · split
        · exact (launch_drains _ _ s).trans (ih _ _)
        · exact ih _ _

theorem drain_drains (dst tc : Nat) (s : State) : Drains s (drain dst tc s) := drainFlow_drains _ _ _ _ s

theorem drainAll_drains (s : State) : Drains s (drainAll s) := foldl_drains (fun _ u => drain_drains _ _ u) _ s

end Sys2Proof.Machine
end

