-- ==== Sys2Proof/Laws/State.lean ====
section
/-! SUPPORT. What each operation that changes one field of the state leaves alone: one lemma for each operation and field,
so that no proof unfolds a record update. -/

set_option Elab.async false

namespace Sys2Proof.Machine

variable (s : State)

/-! Replacing the performance counters changes `obs` alone. -/

@[simp] theorem setPmc_pending (x : Table Pmc) : (setPmc x s).pending = s.pending := rfl
@[simp] theorem setPmc_ctl (x : Table Pmc) : (setPmc x s).ctl = s.ctl := rfl
@[simp] theorem setPmc_time (x : Table Pmc) : (setPmc x s).time = s.time := rfl
@[simp] theorem setPmc_chord (x : Table Pmc) : (setPmc x s).chord = s.chord := rfl
@[simp] theorem setPmc_routing (x : Table Pmc) : (setPmc x s).routing = s.routing := rfl
@[simp] theorem setPmc_queues (x : Table Pmc) : (setPmc x s).queues = s.queues := rfl
@[simp] theorem setPmc_admin (x : Table Pmc) : (setPmc x s).admin = s.admin := rfl
@[simp] theorem setPmc_notices (x : Table Pmc) : (setPmc x s).notices = s.notices := rfl
@[simp] theorem setPmc_zsis (x : Table Pmc) : (setPmc x s).zsis = s.zsis := rfl
@[simp] theorem setPmc_jobs (x : Table Pmc) : (setPmc x s).jobs = s.jobs := rfl
@[simp] theorem setPmc_ctrs (x : Table Pmc) : (setPmc x s).ctrs = s.ctrs := rfl
@[simp] theorem setPmc_waiters (x : Table Pmc) : (setPmc x s).waiters = s.waiters := rfl
@[simp] theorem setPmc_ops (x : Table Pmc) : (setPmc x s).ops = s.ops := rfl
@[simp] theorem setPmc_sources (x : Table Pmc) : (setPmc x s).sources = s.sources := rfl
@[simp] theorem setPmc_lostSrc (x : Table Pmc) : (setPmc x s).lostSrc = s.lostSrc := rfl
@[simp] theorem setPmc_ended (x : Table Pmc) : (setPmc x s).ended = s.ended := rfl
@[simp] theorem setPmc_early (x : Table Pmc) : (setPmc x s).early = s.early := rfl
@[simp] theorem setPmc_earlyEnds (x : Table Pmc) : (setPmc x s).earlyEnds = s.earlyEnds := rfl
@[simp] theorem setPmc_pizzOps (x : Table Pmc) : (setPmc x s).pizzOps = s.pizzOps := rfl
@[simp] theorem setPmc_roles (x : Table Pmc) : (setPmc x s).roles = s.roles := rfl
@[simp] theorem setPmc_tileOwn (x : Table Pmc) : (setPmc x s).tileOwn = s.tileOwn := rfl
@[simp] theorem setPmc_regions (x : Table Pmc) : (setPmc x s).regions = s.regions := rfl
@[simp] theorem setPmc_streams (x : Table Pmc) : (setPmc x s).streams = s.streams := rfl
@[simp] theorem setPmc_shards (x : Table Pmc) : (setPmc x s).shards = s.shards := rfl
@[simp] theorem setPmc_zeroize (x : Table Pmc) : (setPmc x s).zeroize = s.zeroize := rfl
@[simp] theorem setPmc_hbm (x : Table Pmc) : (setPmc x s).hbm = s.hbm := rfl
@[simp] theorem setPmc_net (x : Table Pmc) : (setPmc x s).net = s.net := rfl
@[simp] theorem setPmc_meters (x : Table Pmc) : (setPmc x s).meters = s.meters := rfl
@[simp] theorem setPmc_ports (x : Table Pmc) : (setPmc x s).ports = s.ports := rfl
@[simp] theorem setPmc_casc (x : Table Pmc) : (setPmc x s).casc = s.casc := rfl
@[simp] theorem setPmc_mods (x : Table Pmc) : (setPmc x s).mods = s.mods := rfl
@[simp] theorem setPmc_dies (x : Table Pmc) : (setPmc x s).dies = s.dies := rfl
@[simp] theorem setPmc_strs (x : Table Pmc) : (setPmc x s).strs = s.strs := rfl
@[simp] theorem setPmc_fault (x : Table Pmc) : (setPmc x s).fault = s.fault := rfl
@[simp] theorem setPmc_power (x : Table Pmc) : (setPmc x s).power = s.power := rfl
@[simp] theorem setPmc_peg (x : Table Pmc) : (setPmc x s).peg = s.peg := rfl
@[simp] theorem setPmc_tap (x : Table Pmc) : (setPmc x s).tap = s.tap := rfl
@[simp] theorem setPmc_out (x : Table Pmc) : (setPmc x s).out = s.out := rfl
@[simp] theorem setPmc_freeCtr (x : Table Pmc) : (setPmc x s).freeCtr = s.freeCtr := rfl

/-! Changing a port's bandwidth sums changes `obs` alone. -/

@[simp] theorem bwModify_pending (p : Nat) (f : BwPort → BwPort) : (bwModify p f s).pending = s.pending := rfl
@[simp] theorem bwModify_ctl (p : Nat) (f : BwPort → BwPort) : (bwModify p f s).ctl = s.ctl := rfl
@[simp] theorem bwModify_time (p : Nat) (f : BwPort → BwPort) : (bwModify p f s).time = s.time := rfl
@[simp] theorem bwModify_chord (p : Nat) (f : BwPort → BwPort) : (bwModify p f s).chord = s.chord := rfl
@[simp] theorem bwModify_routing (p : Nat) (f : BwPort → BwPort) : (bwModify p f s).routing = s.routing := rfl
@[simp] theorem bwModify_queues (p : Nat) (f : BwPort → BwPort) : (bwModify p f s).queues = s.queues := rfl
@[simp] theorem bwModify_admin (p : Nat) (f : BwPort → BwPort) : (bwModify p f s).admin = s.admin := rfl
@[simp] theorem bwModify_notices (p : Nat) (f : BwPort → BwPort) : (bwModify p f s).notices = s.notices := rfl
@[simp] theorem bwModify_zsis (p : Nat) (f : BwPort → BwPort) : (bwModify p f s).zsis = s.zsis := rfl
@[simp] theorem bwModify_jobs (p : Nat) (f : BwPort → BwPort) : (bwModify p f s).jobs = s.jobs := rfl
@[simp] theorem bwModify_ctrs (p : Nat) (f : BwPort → BwPort) : (bwModify p f s).ctrs = s.ctrs := rfl
@[simp] theorem bwModify_waiters (p : Nat) (f : BwPort → BwPort) : (bwModify p f s).waiters = s.waiters := rfl
@[simp] theorem bwModify_ops (p : Nat) (f : BwPort → BwPort) : (bwModify p f s).ops = s.ops := rfl
@[simp] theorem bwModify_sources (p : Nat) (f : BwPort → BwPort) : (bwModify p f s).sources = s.sources := rfl
@[simp] theorem bwModify_lostSrc (p : Nat) (f : BwPort → BwPort) : (bwModify p f s).lostSrc = s.lostSrc := rfl
@[simp] theorem bwModify_ended (p : Nat) (f : BwPort → BwPort) : (bwModify p f s).ended = s.ended := rfl
@[simp] theorem bwModify_early (p : Nat) (f : BwPort → BwPort) : (bwModify p f s).early = s.early := rfl
@[simp] theorem bwModify_earlyEnds (p : Nat) (f : BwPort → BwPort) : (bwModify p f s).earlyEnds = s.earlyEnds := rfl
@[simp] theorem bwModify_pizzOps (p : Nat) (f : BwPort → BwPort) : (bwModify p f s).pizzOps = s.pizzOps := rfl
@[simp] theorem bwModify_roles (p : Nat) (f : BwPort → BwPort) : (bwModify p f s).roles = s.roles := rfl
@[simp] theorem bwModify_tileOwn (p : Nat) (f : BwPort → BwPort) : (bwModify p f s).tileOwn = s.tileOwn := rfl
@[simp] theorem bwModify_regions (p : Nat) (f : BwPort → BwPort) : (bwModify p f s).regions = s.regions := rfl
@[simp] theorem bwModify_streams (p : Nat) (f : BwPort → BwPort) : (bwModify p f s).streams = s.streams := rfl
@[simp] theorem bwModify_shards (p : Nat) (f : BwPort → BwPort) : (bwModify p f s).shards = s.shards := rfl
@[simp] theorem bwModify_zeroize (p : Nat) (f : BwPort → BwPort) : (bwModify p f s).zeroize = s.zeroize := rfl
@[simp] theorem bwModify_hbm (p : Nat) (f : BwPort → BwPort) : (bwModify p f s).hbm = s.hbm := rfl
@[simp] theorem bwModify_net (p : Nat) (f : BwPort → BwPort) : (bwModify p f s).net = s.net := rfl
@[simp] theorem bwModify_meters (p : Nat) (f : BwPort → BwPort) : (bwModify p f s).meters = s.meters := rfl
@[simp] theorem bwModify_ports (p : Nat) (f : BwPort → BwPort) : (bwModify p f s).ports = s.ports := rfl
@[simp] theorem bwModify_casc (p : Nat) (f : BwPort → BwPort) : (bwModify p f s).casc = s.casc := rfl
@[simp] theorem bwModify_mods (p : Nat) (f : BwPort → BwPort) : (bwModify p f s).mods = s.mods := rfl
@[simp] theorem bwModify_dies (p : Nat) (f : BwPort → BwPort) : (bwModify p f s).dies = s.dies := rfl
@[simp] theorem bwModify_strs (p : Nat) (f : BwPort → BwPort) : (bwModify p f s).strs = s.strs := rfl
@[simp] theorem bwModify_fault (p : Nat) (f : BwPort → BwPort) : (bwModify p f s).fault = s.fault := rfl
@[simp] theorem bwModify_power (p : Nat) (f : BwPort → BwPort) : (bwModify p f s).power = s.power := rfl
@[simp] theorem bwModify_peg (p : Nat) (f : BwPort → BwPort) : (bwModify p f s).peg = s.peg := rfl
@[simp] theorem bwModify_tap (p : Nat) (f : BwPort → BwPort) : (bwModify p f s).tap = s.tap := rfl
@[simp] theorem bwModify_out (p : Nat) (f : BwPort → BwPort) : (bwModify p f s).out = s.out := rfl
@[simp] theorem bwModify_freeCtr (p : Nat) (f : BwPort → BwPort) : (bwModify p f s).freeCtr = s.freeCtr := rfl

/-! Replacing a port state changes `ports` alone. -/

@[simp] theorem portPut_pending (p : Nat) (x : Port) : (portPut p x s).pending = s.pending := rfl
@[simp] theorem portPut_ctl (p : Nat) (x : Port) : (portPut p x s).ctl = s.ctl := rfl
@[simp] theorem portPut_time (p : Nat) (x : Port) : (portPut p x s).time = s.time := rfl
@[simp] theorem portPut_chord (p : Nat) (x : Port) : (portPut p x s).chord = s.chord := rfl
@[simp] theorem portPut_routing (p : Nat) (x : Port) : (portPut p x s).routing = s.routing := rfl
@[simp] theorem portPut_queues (p : Nat) (x : Port) : (portPut p x s).queues = s.queues := rfl
@[simp] theorem portPut_admin (p : Nat) (x : Port) : (portPut p x s).admin = s.admin := rfl
@[simp] theorem portPut_notices (p : Nat) (x : Port) : (portPut p x s).notices = s.notices := rfl
@[simp] theorem portPut_zsis (p : Nat) (x : Port) : (portPut p x s).zsis = s.zsis := rfl
@[simp] theorem portPut_jobs (p : Nat) (x : Port) : (portPut p x s).jobs = s.jobs := rfl
@[simp] theorem portPut_ctrs (p : Nat) (x : Port) : (portPut p x s).ctrs = s.ctrs := rfl
@[simp] theorem portPut_waiters (p : Nat) (x : Port) : (portPut p x s).waiters = s.waiters := rfl
@[simp] theorem portPut_ops (p : Nat) (x : Port) : (portPut p x s).ops = s.ops := rfl
@[simp] theorem portPut_sources (p : Nat) (x : Port) : (portPut p x s).sources = s.sources := rfl
@[simp] theorem portPut_lostSrc (p : Nat) (x : Port) : (portPut p x s).lostSrc = s.lostSrc := rfl
@[simp] theorem portPut_ended (p : Nat) (x : Port) : (portPut p x s).ended = s.ended := rfl
@[simp] theorem portPut_early (p : Nat) (x : Port) : (portPut p x s).early = s.early := rfl
@[simp] theorem portPut_earlyEnds (p : Nat) (x : Port) : (portPut p x s).earlyEnds = s.earlyEnds := rfl
@[simp] theorem portPut_pizzOps (p : Nat) (x : Port) : (portPut p x s).pizzOps = s.pizzOps := rfl
@[simp] theorem portPut_roles (p : Nat) (x : Port) : (portPut p x s).roles = s.roles := rfl
@[simp] theorem portPut_tileOwn (p : Nat) (x : Port) : (portPut p x s).tileOwn = s.tileOwn := rfl
@[simp] theorem portPut_regions (p : Nat) (x : Port) : (portPut p x s).regions = s.regions := rfl
@[simp] theorem portPut_streams (p : Nat) (x : Port) : (portPut p x s).streams = s.streams := rfl
@[simp] theorem portPut_shards (p : Nat) (x : Port) : (portPut p x s).shards = s.shards := rfl
@[simp] theorem portPut_zeroize (p : Nat) (x : Port) : (portPut p x s).zeroize = s.zeroize := rfl
@[simp] theorem portPut_hbm (p : Nat) (x : Port) : (portPut p x s).hbm = s.hbm := rfl
@[simp] theorem portPut_net (p : Nat) (x : Port) : (portPut p x s).net = s.net := rfl
@[simp] theorem portPut_meters (p : Nat) (x : Port) : (portPut p x s).meters = s.meters := rfl
@[simp] theorem portPut_casc (p : Nat) (x : Port) : (portPut p x s).casc = s.casc := rfl
@[simp] theorem portPut_mods (p : Nat) (x : Port) : (portPut p x s).mods = s.mods := rfl
@[simp] theorem portPut_dies (p : Nat) (x : Port) : (portPut p x s).dies = s.dies := rfl
@[simp] theorem portPut_strs (p : Nat) (x : Port) : (portPut p x s).strs = s.strs := rfl
@[simp] theorem portPut_fault (p : Nat) (x : Port) : (portPut p x s).fault = s.fault := rfl
@[simp] theorem portPut_obs (p : Nat) (x : Port) : (portPut p x s).obs = s.obs := rfl
@[simp] theorem portPut_power (p : Nat) (x : Port) : (portPut p x s).power = s.power := rfl
@[simp] theorem portPut_peg (p : Nat) (x : Port) : (portPut p x s).peg = s.peg := rfl
@[simp] theorem portPut_tap (p : Nat) (x : Port) : (portPut p x s).tap = s.tap := rfl
@[simp] theorem portPut_out (p : Nat) (x : Port) : (portPut p x s).out = s.out := rfl
@[simp] theorem portPut_freeCtr (p : Nat) (x : Port) : (portPut p x s).freeCtr = s.freeCtr := rfl

/-! Replacing a queue context changes `queues` alone. -/

@[simp] theorem queuePut_pending (q : Nat) (x : QueueCtx) : (queuePut q x s).pending = s.pending := rfl
@[simp] theorem queuePut_ctl (q : Nat) (x : QueueCtx) : (queuePut q x s).ctl = s.ctl := rfl
@[simp] theorem queuePut_time (q : Nat) (x : QueueCtx) : (queuePut q x s).time = s.time := rfl
@[simp] theorem queuePut_chord (q : Nat) (x : QueueCtx) : (queuePut q x s).chord = s.chord := rfl
@[simp] theorem queuePut_routing (q : Nat) (x : QueueCtx) : (queuePut q x s).routing = s.routing := rfl
@[simp] theorem queuePut_admin (q : Nat) (x : QueueCtx) : (queuePut q x s).admin = s.admin := rfl
@[simp] theorem queuePut_notices (q : Nat) (x : QueueCtx) : (queuePut q x s).notices = s.notices := rfl
@[simp] theorem queuePut_zsis (q : Nat) (x : QueueCtx) : (queuePut q x s).zsis = s.zsis := rfl
@[simp] theorem queuePut_jobs (q : Nat) (x : QueueCtx) : (queuePut q x s).jobs = s.jobs := rfl
@[simp] theorem queuePut_ctrs (q : Nat) (x : QueueCtx) : (queuePut q x s).ctrs = s.ctrs := rfl
@[simp] theorem queuePut_waiters (q : Nat) (x : QueueCtx) : (queuePut q x s).waiters = s.waiters := rfl
@[simp] theorem queuePut_ops (q : Nat) (x : QueueCtx) : (queuePut q x s).ops = s.ops := rfl
@[simp] theorem queuePut_sources (q : Nat) (x : QueueCtx) : (queuePut q x s).sources = s.sources := rfl
@[simp] theorem queuePut_lostSrc (q : Nat) (x : QueueCtx) : (queuePut q x s).lostSrc = s.lostSrc := rfl
@[simp] theorem queuePut_ended (q : Nat) (x : QueueCtx) : (queuePut q x s).ended = s.ended := rfl
@[simp] theorem queuePut_early (q : Nat) (x : QueueCtx) : (queuePut q x s).early = s.early := rfl
@[simp] theorem queuePut_earlyEnds (q : Nat) (x : QueueCtx) : (queuePut q x s).earlyEnds = s.earlyEnds := rfl
@[simp] theorem queuePut_pizzOps (q : Nat) (x : QueueCtx) : (queuePut q x s).pizzOps = s.pizzOps := rfl
@[simp] theorem queuePut_roles (q : Nat) (x : QueueCtx) : (queuePut q x s).roles = s.roles := rfl
@[simp] theorem queuePut_tileOwn (q : Nat) (x : QueueCtx) : (queuePut q x s).tileOwn = s.tileOwn := rfl
@[simp] theorem queuePut_regions (q : Nat) (x : QueueCtx) : (queuePut q x s).regions = s.regions := rfl
@[simp] theorem queuePut_streams (q : Nat) (x : QueueCtx) : (queuePut q x s).streams = s.streams := rfl
@[simp] theorem queuePut_shards (q : Nat) (x : QueueCtx) : (queuePut q x s).shards = s.shards := rfl
@[simp] theorem queuePut_zeroize (q : Nat) (x : QueueCtx) : (queuePut q x s).zeroize = s.zeroize := rfl
@[simp] theorem queuePut_hbm (q : Nat) (x : QueueCtx) : (queuePut q x s).hbm = s.hbm := rfl
@[simp] theorem queuePut_net (q : Nat) (x : QueueCtx) : (queuePut q x s).net = s.net := rfl
@[simp] theorem queuePut_meters (q : Nat) (x : QueueCtx) : (queuePut q x s).meters = s.meters := rfl
@[simp] theorem queuePut_ports (q : Nat) (x : QueueCtx) : (queuePut q x s).ports = s.ports := rfl
@[simp] theorem queuePut_casc (q : Nat) (x : QueueCtx) : (queuePut q x s).casc = s.casc := rfl
@[simp] theorem queuePut_mods (q : Nat) (x : QueueCtx) : (queuePut q x s).mods = s.mods := rfl
@[simp] theorem queuePut_dies (q : Nat) (x : QueueCtx) : (queuePut q x s).dies = s.dies := rfl
@[simp] theorem queuePut_strs (q : Nat) (x : QueueCtx) : (queuePut q x s).strs = s.strs := rfl
@[simp] theorem queuePut_fault (q : Nat) (x : QueueCtx) : (queuePut q x s).fault = s.fault := rfl
@[simp] theorem queuePut_obs (q : Nat) (x : QueueCtx) : (queuePut q x s).obs = s.obs := rfl
@[simp] theorem queuePut_power (q : Nat) (x : QueueCtx) : (queuePut q x s).power = s.power := rfl
@[simp] theorem queuePut_peg (q : Nat) (x : QueueCtx) : (queuePut q x s).peg = s.peg := rfl
@[simp] theorem queuePut_tap (q : Nat) (x : QueueCtx) : (queuePut q x s).tap = s.tap := rfl
@[simp] theorem queuePut_out (q : Nat) (x : QueueCtx) : (queuePut q x s).out = s.out := rfl
@[simp] theorem queuePut_freeCtr (q : Nat) (x : QueueCtx) : (queuePut q x s).freeCtr = s.freeCtr := rfl

/-! Replacing a job changes `jobs` alone. -/

@[simp] theorem jobPut_pending (j : Nat) (x : Job) : (jobPut j x s).pending = s.pending := rfl
@[simp] theorem jobPut_ctl (j : Nat) (x : Job) : (jobPut j x s).ctl = s.ctl := rfl
@[simp] theorem jobPut_time (j : Nat) (x : Job) : (jobPut j x s).time = s.time := rfl
@[simp] theorem jobPut_chord (j : Nat) (x : Job) : (jobPut j x s).chord = s.chord := rfl
@[simp] theorem jobPut_routing (j : Nat) (x : Job) : (jobPut j x s).routing = s.routing := rfl
@[simp] theorem jobPut_queues (j : Nat) (x : Job) : (jobPut j x s).queues = s.queues := rfl
@[simp] theorem jobPut_admin (j : Nat) (x : Job) : (jobPut j x s).admin = s.admin := rfl
@[simp] theorem jobPut_notices (j : Nat) (x : Job) : (jobPut j x s).notices = s.notices := rfl
@[simp] theorem jobPut_zsis (j : Nat) (x : Job) : (jobPut j x s).zsis = s.zsis := rfl
@[simp] theorem jobPut_ctrs (j : Nat) (x : Job) : (jobPut j x s).ctrs = s.ctrs := rfl
@[simp] theorem jobPut_waiters (j : Nat) (x : Job) : (jobPut j x s).waiters = s.waiters := rfl
@[simp] theorem jobPut_ops (j : Nat) (x : Job) : (jobPut j x s).ops = s.ops := rfl
@[simp] theorem jobPut_sources (j : Nat) (x : Job) : (jobPut j x s).sources = s.sources := rfl
@[simp] theorem jobPut_lostSrc (j : Nat) (x : Job) : (jobPut j x s).lostSrc = s.lostSrc := rfl
@[simp] theorem jobPut_ended (j : Nat) (x : Job) : (jobPut j x s).ended = s.ended := rfl
@[simp] theorem jobPut_early (j : Nat) (x : Job) : (jobPut j x s).early = s.early := rfl
@[simp] theorem jobPut_earlyEnds (j : Nat) (x : Job) : (jobPut j x s).earlyEnds = s.earlyEnds := rfl
@[simp] theorem jobPut_pizzOps (j : Nat) (x : Job) : (jobPut j x s).pizzOps = s.pizzOps := rfl
@[simp] theorem jobPut_roles (j : Nat) (x : Job) : (jobPut j x s).roles = s.roles := rfl
@[simp] theorem jobPut_tileOwn (j : Nat) (x : Job) : (jobPut j x s).tileOwn = s.tileOwn := rfl
@[simp] theorem jobPut_regions (j : Nat) (x : Job) : (jobPut j x s).regions = s.regions := rfl
@[simp] theorem jobPut_streams (j : Nat) (x : Job) : (jobPut j x s).streams = s.streams := rfl
@[simp] theorem jobPut_shards (j : Nat) (x : Job) : (jobPut j x s).shards = s.shards := rfl
@[simp] theorem jobPut_zeroize (j : Nat) (x : Job) : (jobPut j x s).zeroize = s.zeroize := rfl
@[simp] theorem jobPut_hbm (j : Nat) (x : Job) : (jobPut j x s).hbm = s.hbm := rfl
@[simp] theorem jobPut_net (j : Nat) (x : Job) : (jobPut j x s).net = s.net := rfl
@[simp] theorem jobPut_meters (j : Nat) (x : Job) : (jobPut j x s).meters = s.meters := rfl
@[simp] theorem jobPut_ports (j : Nat) (x : Job) : (jobPut j x s).ports = s.ports := rfl
@[simp] theorem jobPut_casc (j : Nat) (x : Job) : (jobPut j x s).casc = s.casc := rfl
@[simp] theorem jobPut_mods (j : Nat) (x : Job) : (jobPut j x s).mods = s.mods := rfl
@[simp] theorem jobPut_dies (j : Nat) (x : Job) : (jobPut j x s).dies = s.dies := rfl
@[simp] theorem jobPut_strs (j : Nat) (x : Job) : (jobPut j x s).strs = s.strs := rfl
@[simp] theorem jobPut_fault (j : Nat) (x : Job) : (jobPut j x s).fault = s.fault := rfl
@[simp] theorem jobPut_obs (j : Nat) (x : Job) : (jobPut j x s).obs = s.obs := rfl
@[simp] theorem jobPut_power (j : Nat) (x : Job) : (jobPut j x s).power = s.power := rfl
@[simp] theorem jobPut_peg (j : Nat) (x : Job) : (jobPut j x s).peg = s.peg := rfl
@[simp] theorem jobPut_tap (j : Nat) (x : Job) : (jobPut j x s).tap = s.tap := rfl
@[simp] theorem jobPut_out (j : Nat) (x : Job) : (jobPut j x s).out = s.out := rfl
@[simp] theorem jobPut_freeCtr (j : Nat) (x : Job) : (jobPut j x s).freeCtr = s.freeCtr := rfl

/-! Drawing a free value changes `freeCtr` alone. -/

@[simp] theorem drawn_pending : (drawn s).pending = s.pending := rfl
@[simp] theorem drawn_ctl : (drawn s).ctl = s.ctl := rfl
@[simp] theorem drawn_time : (drawn s).time = s.time := rfl
@[simp] theorem drawn_chord : (drawn s).chord = s.chord := rfl
@[simp] theorem drawn_routing : (drawn s).routing = s.routing := rfl
@[simp] theorem drawn_queues : (drawn s).queues = s.queues := rfl
@[simp] theorem drawn_admin : (drawn s).admin = s.admin := rfl
@[simp] theorem drawn_notices : (drawn s).notices = s.notices := rfl
@[simp] theorem drawn_zsis : (drawn s).zsis = s.zsis := rfl
@[simp] theorem drawn_jobs : (drawn s).jobs = s.jobs := rfl
@[simp] theorem drawn_ctrs : (drawn s).ctrs = s.ctrs := rfl
@[simp] theorem drawn_waiters : (drawn s).waiters = s.waiters := rfl
@[simp] theorem drawn_ops : (drawn s).ops = s.ops := rfl
@[simp] theorem drawn_sources : (drawn s).sources = s.sources := rfl
@[simp] theorem drawn_lostSrc : (drawn s).lostSrc = s.lostSrc := rfl
@[simp] theorem drawn_ended : (drawn s).ended = s.ended := rfl
@[simp] theorem drawn_early : (drawn s).early = s.early := rfl
@[simp] theorem drawn_earlyEnds : (drawn s).earlyEnds = s.earlyEnds := rfl
@[simp] theorem drawn_pizzOps : (drawn s).pizzOps = s.pizzOps := rfl
@[simp] theorem drawn_roles : (drawn s).roles = s.roles := rfl
@[simp] theorem drawn_tileOwn : (drawn s).tileOwn = s.tileOwn := rfl
@[simp] theorem drawn_regions : (drawn s).regions = s.regions := rfl
@[simp] theorem drawn_streams : (drawn s).streams = s.streams := rfl
@[simp] theorem drawn_shards : (drawn s).shards = s.shards := rfl
@[simp] theorem drawn_zeroize : (drawn s).zeroize = s.zeroize := rfl
@[simp] theorem drawn_hbm : (drawn s).hbm = s.hbm := rfl
@[simp] theorem drawn_net : (drawn s).net = s.net := rfl
@[simp] theorem drawn_meters : (drawn s).meters = s.meters := rfl
@[simp] theorem drawn_ports : (drawn s).ports = s.ports := rfl
@[simp] theorem drawn_casc : (drawn s).casc = s.casc := rfl
@[simp] theorem drawn_mods : (drawn s).mods = s.mods := rfl
@[simp] theorem drawn_dies : (drawn s).dies = s.dies := rfl
@[simp] theorem drawn_strs : (drawn s).strs = s.strs := rfl
@[simp] theorem drawn_fault : (drawn s).fault = s.fault := rfl
@[simp] theorem drawn_obs : (drawn s).obs = s.obs := rfl
@[simp] theorem drawn_power : (drawn s).power = s.power := rfl
@[simp] theorem drawn_peg : (drawn s).peg = s.peg := rfl
@[simp] theorem drawn_tap : (drawn s).tap = s.tap := rfl
@[simp] theorem drawn_out : (drawn s).out = s.out := rfl

/-! Setting the REJECT bit changes `ctl` alone. -/

@[simp] theorem reject_pending (a : Nat) : (reject a s).pending = s.pending := rfl
@[simp] theorem reject_time (a : Nat) : (reject a s).time = s.time := rfl
@[simp] theorem reject_chord (a : Nat) : (reject a s).chord = s.chord := rfl
@[simp] theorem reject_routing (a : Nat) : (reject a s).routing = s.routing := rfl
@[simp] theorem reject_queues (a : Nat) : (reject a s).queues = s.queues := rfl
@[simp] theorem reject_admin (a : Nat) : (reject a s).admin = s.admin := rfl
@[simp] theorem reject_notices (a : Nat) : (reject a s).notices = s.notices := rfl
@[simp] theorem reject_zsis (a : Nat) : (reject a s).zsis = s.zsis := rfl
@[simp] theorem reject_jobs (a : Nat) : (reject a s).jobs = s.jobs := rfl
@[simp] theorem reject_ctrs (a : Nat) : (reject a s).ctrs = s.ctrs := rfl
@[simp] theorem reject_waiters (a : Nat) : (reject a s).waiters = s.waiters := rfl
@[simp] theorem reject_ops (a : Nat) : (reject a s).ops = s.ops := rfl
@[simp] theorem reject_sources (a : Nat) : (reject a s).sources = s.sources := rfl
@[simp] theorem reject_lostSrc (a : Nat) : (reject a s).lostSrc = s.lostSrc := rfl
@[simp] theorem reject_ended (a : Nat) : (reject a s).ended = s.ended := rfl
@[simp] theorem reject_early (a : Nat) : (reject a s).early = s.early := rfl
@[simp] theorem reject_earlyEnds (a : Nat) : (reject a s).earlyEnds = s.earlyEnds := rfl
@[simp] theorem reject_pizzOps (a : Nat) : (reject a s).pizzOps = s.pizzOps := rfl
@[simp] theorem reject_roles (a : Nat) : (reject a s).roles = s.roles := rfl
@[simp] theorem reject_tileOwn (a : Nat) : (reject a s).tileOwn = s.tileOwn := rfl
@[simp] theorem reject_regions (a : Nat) : (reject a s).regions = s.regions := rfl
@[simp] theorem reject_streams (a : Nat) : (reject a s).streams = s.streams := rfl
@[simp] theorem reject_shards (a : Nat) : (reject a s).shards = s.shards := rfl
@[simp] theorem reject_zeroize (a : Nat) : (reject a s).zeroize = s.zeroize := rfl
@[simp] theorem reject_hbm (a : Nat) : (reject a s).hbm = s.hbm := rfl
@[simp] theorem reject_net (a : Nat) : (reject a s).net = s.net := rfl
@[simp] theorem reject_meters (a : Nat) : (reject a s).meters = s.meters := rfl
@[simp] theorem reject_ports (a : Nat) : (reject a s).ports = s.ports := rfl
@[simp] theorem reject_casc (a : Nat) : (reject a s).casc = s.casc := rfl
@[simp] theorem reject_mods (a : Nat) : (reject a s).mods = s.mods := rfl
@[simp] theorem reject_dies (a : Nat) : (reject a s).dies = s.dies := rfl
@[simp] theorem reject_strs (a : Nat) : (reject a s).strs = s.strs := rfl
@[simp] theorem reject_fault (a : Nat) : (reject a s).fault = s.fault := rfl
@[simp] theorem reject_obs (a : Nat) : (reject a s).obs = s.obs := rfl
@[simp] theorem reject_power (a : Nat) : (reject a s).power = s.power := rfl
@[simp] theorem reject_peg (a : Nat) : (reject a s).peg = s.peg := rfl
@[simp] theorem reject_tap (a : Nat) : (reject a s).tap = s.tap := rfl
@[simp] theorem reject_out (a : Nat) : (reject a s).out = s.out := rfl
@[simp] theorem reject_freeCtr (a : Nat) : (reject a s).freeCtr = s.freeCtr := rfl

/-! Changing a cascade link changes `casc` alone. -/

@[simp] theorem cascModify_pending (c : Nat) (f : Casc → Casc) : (cascModify c f s).pending = s.pending := rfl
@[simp] theorem cascModify_ctl (c : Nat) (f : Casc → Casc) : (cascModify c f s).ctl = s.ctl := rfl
@[simp] theorem cascModify_time (c : Nat) (f : Casc → Casc) : (cascModify c f s).time = s.time := rfl
@[simp] theorem cascModify_chord (c : Nat) (f : Casc → Casc) : (cascModify c f s).chord = s.chord := rfl
@[simp] theorem cascModify_routing (c : Nat) (f : Casc → Casc) : (cascModify c f s).routing = s.routing := rfl
@[simp] theorem cascModify_queues (c : Nat) (f : Casc → Casc) : (cascModify c f s).queues = s.queues := rfl
@[simp] theorem cascModify_admin (c : Nat) (f : Casc → Casc) : (cascModify c f s).admin = s.admin := rfl
@[simp] theorem cascModify_notices (c : Nat) (f : Casc → Casc) : (cascModify c f s).notices = s.notices := rfl
@[simp] theorem cascModify_zsis (c : Nat) (f : Casc → Casc) : (cascModify c f s).zsis = s.zsis := rfl
@[simp] theorem cascModify_jobs (c : Nat) (f : Casc → Casc) : (cascModify c f s).jobs = s.jobs := rfl
@[simp] theorem cascModify_ctrs (c : Nat) (f : Casc → Casc) : (cascModify c f s).ctrs = s.ctrs := rfl
@[simp] theorem cascModify_waiters (c : Nat) (f : Casc → Casc) : (cascModify c f s).waiters = s.waiters := rfl
@[simp] theorem cascModify_ops (c : Nat) (f : Casc → Casc) : (cascModify c f s).ops = s.ops := rfl
@[simp] theorem cascModify_sources (c : Nat) (f : Casc → Casc) : (cascModify c f s).sources = s.sources := rfl
@[simp] theorem cascModify_lostSrc (c : Nat) (f : Casc → Casc) : (cascModify c f s).lostSrc = s.lostSrc := rfl
@[simp] theorem cascModify_ended (c : Nat) (f : Casc → Casc) : (cascModify c f s).ended = s.ended := rfl
@[simp] theorem cascModify_early (c : Nat) (f : Casc → Casc) : (cascModify c f s).early = s.early := rfl
@[simp] theorem cascModify_earlyEnds (c : Nat) (f : Casc → Casc) : (cascModify c f s).earlyEnds = s.earlyEnds := rfl
@[simp] theorem cascModify_pizzOps (c : Nat) (f : Casc → Casc) : (cascModify c f s).pizzOps = s.pizzOps := rfl
@[simp] theorem cascModify_roles (c : Nat) (f : Casc → Casc) : (cascModify c f s).roles = s.roles := rfl
@[simp] theorem cascModify_tileOwn (c : Nat) (f : Casc → Casc) : (cascModify c f s).tileOwn = s.tileOwn := rfl
@[simp] theorem cascModify_regions (c : Nat) (f : Casc → Casc) : (cascModify c f s).regions = s.regions := rfl
@[simp] theorem cascModify_streams (c : Nat) (f : Casc → Casc) : (cascModify c f s).streams = s.streams := rfl
@[simp] theorem cascModify_shards (c : Nat) (f : Casc → Casc) : (cascModify c f s).shards = s.shards := rfl
@[simp] theorem cascModify_zeroize (c : Nat) (f : Casc → Casc) : (cascModify c f s).zeroize = s.zeroize := rfl
@[simp] theorem cascModify_hbm (c : Nat) (f : Casc → Casc) : (cascModify c f s).hbm = s.hbm := rfl
@[simp] theorem cascModify_net (c : Nat) (f : Casc → Casc) : (cascModify c f s).net = s.net := rfl
@[simp] theorem cascModify_meters (c : Nat) (f : Casc → Casc) : (cascModify c f s).meters = s.meters := rfl
@[simp] theorem cascModify_ports (c : Nat) (f : Casc → Casc) : (cascModify c f s).ports = s.ports := rfl
@[simp] theorem cascModify_mods (c : Nat) (f : Casc → Casc) : (cascModify c f s).mods = s.mods := rfl
@[simp] theorem cascModify_dies (c : Nat) (f : Casc → Casc) : (cascModify c f s).dies = s.dies := rfl
@[simp] theorem cascModify_strs (c : Nat) (f : Casc → Casc) : (cascModify c f s).strs = s.strs := rfl
@[simp] theorem cascModify_fault (c : Nat) (f : Casc → Casc) : (cascModify c f s).fault = s.fault := rfl
@[simp] theorem cascModify_obs (c : Nat) (f : Casc → Casc) : (cascModify c f s).obs = s.obs := rfl
@[simp] theorem cascModify_power (c : Nat) (f : Casc → Casc) : (cascModify c f s).power = s.power := rfl
@[simp] theorem cascModify_peg (c : Nat) (f : Casc → Casc) : (cascModify c f s).peg = s.peg := rfl
@[simp] theorem cascModify_tap (c : Nat) (f : Casc → Casc) : (cascModify c f s).tap = s.tap := rfl
@[simp] theorem cascModify_out (c : Nat) (f : Casc → Casc) : (cascModify c f s).out = s.out := rfl
@[simp] theorem cascModify_freeCtr (c : Nat) (f : Casc → Casc) : (cascModify c f s).freeCtr = s.freeCtr := rfl

/-! Replacing a flow changes `net` alone. -/

@[simp] theorem txPut_pending (f : TxFlow) : (txPut f s).pending = s.pending := rfl
@[simp] theorem txPut_ctl (f : TxFlow) : (txPut f s).ctl = s.ctl := rfl
@[simp] theorem txPut_time (f : TxFlow) : (txPut f s).time = s.time := rfl
@[simp] theorem txPut_chord (f : TxFlow) : (txPut f s).chord = s.chord := rfl
@[simp] theorem txPut_routing (f : TxFlow) : (txPut f s).routing = s.routing := rfl
@[simp] theorem txPut_queues (f : TxFlow) : (txPut f s).queues = s.queues := rfl
@[simp] theorem txPut_admin (f : TxFlow) : (txPut f s).admin = s.admin := rfl
@[simp] theorem txPut_notices (f : TxFlow) : (txPut f s).notices = s.notices := rfl
@[simp] theorem txPut_zsis (f : TxFlow) : (txPut f s).zsis = s.zsis := rfl
@[simp] theorem txPut_jobs (f : TxFlow) : (txPut f s).jobs = s.jobs := rfl
@[simp] theorem txPut_ctrs (f : TxFlow) : (txPut f s).ctrs = s.ctrs := rfl
@[simp] theorem txPut_waiters (f : TxFlow) : (txPut f s).waiters = s.waiters := rfl
@[simp] theorem txPut_ops (f : TxFlow) : (txPut f s).ops = s.ops := rfl
@[simp] theorem txPut_sources (f : TxFlow) : (txPut f s).sources = s.sources := rfl
@[simp] theorem txPut_lostSrc (f : TxFlow) : (txPut f s).lostSrc = s.lostSrc := rfl
@[simp] theorem txPut_ended (f : TxFlow) : (txPut f s).ended = s.ended := rfl
@[simp] theorem txPut_early (f : TxFlow) : (txPut f s).early = s.early := rfl
@[simp] theorem txPut_earlyEnds (f : TxFlow) : (txPut f s).earlyEnds = s.earlyEnds := rfl
@[simp] theorem txPut_pizzOps (f : TxFlow) : (txPut f s).pizzOps = s.pizzOps := rfl
@[simp] theorem txPut_roles (f : TxFlow) : (txPut f s).roles = s.roles := rfl
@[simp] theorem txPut_tileOwn (f : TxFlow) : (txPut f s).tileOwn = s.tileOwn := rfl
@[simp] theorem txPut_regions (f : TxFlow) : (txPut f s).regions = s.regions := rfl
@[simp] theorem txPut_streams (f : TxFlow) : (txPut f s).streams = s.streams := rfl
@[simp] theorem txPut_shards (f : TxFlow) : (txPut f s).shards = s.shards := rfl
@[simp] theorem txPut_zeroize (f : TxFlow) : (txPut f s).zeroize = s.zeroize := rfl
@[simp] theorem txPut_hbm (f : TxFlow) : (txPut f s).hbm = s.hbm := rfl
@[simp] theorem txPut_meters (f : TxFlow) : (txPut f s).meters = s.meters := rfl
@[simp] theorem txPut_ports (f : TxFlow) : (txPut f s).ports = s.ports := rfl
@[simp] theorem txPut_casc (f : TxFlow) : (txPut f s).casc = s.casc := rfl
@[simp] theorem txPut_mods (f : TxFlow) : (txPut f s).mods = s.mods := rfl
@[simp] theorem txPut_dies (f : TxFlow) : (txPut f s).dies = s.dies := rfl
@[simp] theorem txPut_strs (f : TxFlow) : (txPut f s).strs = s.strs := rfl
@[simp] theorem txPut_fault (f : TxFlow) : (txPut f s).fault = s.fault := rfl
@[simp] theorem txPut_obs (f : TxFlow) : (txPut f s).obs = s.obs := rfl
@[simp] theorem txPut_power (f : TxFlow) : (txPut f s).power = s.power := rfl
@[simp] theorem txPut_peg (f : TxFlow) : (txPut f s).peg = s.peg := rfl
@[simp] theorem txPut_tap (f : TxFlow) : (txPut f s).tap = s.tap := rfl
@[simp] theorem txPut_out (f : TxFlow) : (txPut f s).out = s.out := rfl
@[simp] theorem txPut_freeCtr (f : TxFlow) : (txPut f s).freeCtr = s.freeCtr := rfl

/-! Writing a black-box record changes `fault` alone. -/

@[simp] theorem bbWrite_pending (r : BBRec) : (bbWrite r s).pending = s.pending := rfl
@[simp] theorem bbWrite_ctl (r : BBRec) : (bbWrite r s).ctl = s.ctl := rfl
@[simp] theorem bbWrite_time (r : BBRec) : (bbWrite r s).time = s.time := rfl
@[simp] theorem bbWrite_chord (r : BBRec) : (bbWrite r s).chord = s.chord := rfl
@[simp] theorem bbWrite_routing (r : BBRec) : (bbWrite r s).routing = s.routing := rfl
@[simp] theorem bbWrite_queues (r : BBRec) : (bbWrite r s).queues = s.queues := rfl
@[simp] theorem bbWrite_admin (r : BBRec) : (bbWrite r s).admin = s.admin := rfl
@[simp] theorem bbWrite_notices (r : BBRec) : (bbWrite r s).notices = s.notices := rfl
@[simp] theorem bbWrite_zsis (r : BBRec) : (bbWrite r s).zsis = s.zsis := rfl
@[simp] theorem bbWrite_jobs (r : BBRec) : (bbWrite r s).jobs = s.jobs := rfl
@[simp] theorem bbWrite_ctrs (r : BBRec) : (bbWrite r s).ctrs = s.ctrs := rfl
@[simp] theorem bbWrite_waiters (r : BBRec) : (bbWrite r s).waiters = s.waiters := rfl
@[simp] theorem bbWrite_ops (r : BBRec) : (bbWrite r s).ops = s.ops := rfl
@[simp] theorem bbWrite_sources (r : BBRec) : (bbWrite r s).sources = s.sources := rfl
@[simp] theorem bbWrite_lostSrc (r : BBRec) : (bbWrite r s).lostSrc = s.lostSrc := rfl
@[simp] theorem bbWrite_ended (r : BBRec) : (bbWrite r s).ended = s.ended := rfl
@[simp] theorem bbWrite_early (r : BBRec) : (bbWrite r s).early = s.early := rfl
@[simp] theorem bbWrite_earlyEnds (r : BBRec) : (bbWrite r s).earlyEnds = s.earlyEnds := rfl
@[simp] theorem bbWrite_pizzOps (r : BBRec) : (bbWrite r s).pizzOps = s.pizzOps := rfl
@[simp] theorem bbWrite_roles (r : BBRec) : (bbWrite r s).roles = s.roles := rfl
@[simp] theorem bbWrite_tileOwn (r : BBRec) : (bbWrite r s).tileOwn = s.tileOwn := rfl
@[simp] theorem bbWrite_regions (r : BBRec) : (bbWrite r s).regions = s.regions := rfl
@[simp] theorem bbWrite_streams (r : BBRec) : (bbWrite r s).streams = s.streams := rfl
@[simp] theorem bbWrite_shards (r : BBRec) : (bbWrite r s).shards = s.shards := rfl
@[simp] theorem bbWrite_zeroize (r : BBRec) : (bbWrite r s).zeroize = s.zeroize := rfl
@[simp] theorem bbWrite_hbm (r : BBRec) : (bbWrite r s).hbm = s.hbm := rfl
@[simp] theorem bbWrite_net (r : BBRec) : (bbWrite r s).net = s.net := rfl
@[simp] theorem bbWrite_meters (r : BBRec) : (bbWrite r s).meters = s.meters := rfl
@[simp] theorem bbWrite_ports (r : BBRec) : (bbWrite r s).ports = s.ports := rfl
@[simp] theorem bbWrite_casc (r : BBRec) : (bbWrite r s).casc = s.casc := rfl
@[simp] theorem bbWrite_mods (r : BBRec) : (bbWrite r s).mods = s.mods := rfl
@[simp] theorem bbWrite_dies (r : BBRec) : (bbWrite r s).dies = s.dies := rfl
@[simp] theorem bbWrite_strs (r : BBRec) : (bbWrite r s).strs = s.strs := rfl
@[simp] theorem bbWrite_obs (r : BBRec) : (bbWrite r s).obs = s.obs := rfl
@[simp] theorem bbWrite_power (r : BBRec) : (bbWrite r s).power = s.power := rfl
@[simp] theorem bbWrite_peg (r : BBRec) : (bbWrite r s).peg = s.peg := rfl
@[simp] theorem bbWrite_tap (r : BBRec) : (bbWrite r s).tap = s.tap := rfl
@[simp] theorem bbWrite_out (r : BBRec) : (bbWrite r s).out = s.out := rfl
@[simp] theorem bbWrite_freeCtr (r : BBRec) : (bbWrite r s).freeCtr = s.freeCtr := rfl

/-! Writing island HBM changes `hbm` alone. -/

@[simp] theorem hbmWrite_pending (a : Nat) (bs : List Byte) : (hbmWrite a bs s).pending = s.pending := rfl
@[simp] theorem hbmWrite_ctl (a : Nat) (bs : List Byte) : (hbmWrite a bs s).ctl = s.ctl := rfl
@[simp] theorem hbmWrite_time (a : Nat) (bs : List Byte) : (hbmWrite a bs s).time = s.time := rfl
@[simp] theorem hbmWrite_chord (a : Nat) (bs : List Byte) : (hbmWrite a bs s).chord = s.chord := rfl
@[simp] theorem hbmWrite_routing (a : Nat) (bs : List Byte) : (hbmWrite a bs s).routing = s.routing := rfl
@[simp] theorem hbmWrite_queues (a : Nat) (bs : List Byte) : (hbmWrite a bs s).queues = s.queues := rfl
@[simp] theorem hbmWrite_admin (a : Nat) (bs : List Byte) : (hbmWrite a bs s).admin = s.admin := rfl
@[simp] theorem hbmWrite_notices (a : Nat) (bs : List Byte) : (hbmWrite a bs s).notices = s.notices := rfl
@[simp] theorem hbmWrite_zsis (a : Nat) (bs : List Byte) : (hbmWrite a bs s).zsis = s.zsis := rfl
@[simp] theorem hbmWrite_jobs (a : Nat) (bs : List Byte) : (hbmWrite a bs s).jobs = s.jobs := rfl
@[simp] theorem hbmWrite_ctrs (a : Nat) (bs : List Byte) : (hbmWrite a bs s).ctrs = s.ctrs := rfl
@[simp] theorem hbmWrite_waiters (a : Nat) (bs : List Byte) : (hbmWrite a bs s).waiters = s.waiters := rfl
@[simp] theorem hbmWrite_ops (a : Nat) (bs : List Byte) : (hbmWrite a bs s).ops = s.ops := rfl
@[simp] theorem hbmWrite_sources (a : Nat) (bs : List Byte) : (hbmWrite a bs s).sources = s.sources := rfl
@[simp] theorem hbmWrite_lostSrc (a : Nat) (bs : List Byte) : (hbmWrite a bs s).lostSrc = s.lostSrc := rfl
@[simp] theorem hbmWrite_ended (a : Nat) (bs : List Byte) : (hbmWrite a bs s).ended = s.ended := rfl
@[simp] theorem hbmWrite_early (a : Nat) (bs : List Byte) : (hbmWrite a bs s).early = s.early := rfl
@[simp] theorem hbmWrite_earlyEnds (a : Nat) (bs : List Byte) : (hbmWrite a bs s).earlyEnds = s.earlyEnds := rfl
@[simp] theorem hbmWrite_pizzOps (a : Nat) (bs : List Byte) : (hbmWrite a bs s).pizzOps = s.pizzOps := rfl
@[simp] theorem hbmWrite_roles (a : Nat) (bs : List Byte) : (hbmWrite a bs s).roles = s.roles := rfl
@[simp] theorem hbmWrite_tileOwn (a : Nat) (bs : List Byte) : (hbmWrite a bs s).tileOwn = s.tileOwn := rfl
@[simp] theorem hbmWrite_regions (a : Nat) (bs : List Byte) : (hbmWrite a bs s).regions = s.regions := rfl
@[simp] theorem hbmWrite_streams (a : Nat) (bs : List Byte) : (hbmWrite a bs s).streams = s.streams := rfl
@[simp] theorem hbmWrite_shards (a : Nat) (bs : List Byte) : (hbmWrite a bs s).shards = s.shards := rfl
@[simp] theorem hbmWrite_zeroize (a : Nat) (bs : List Byte) : (hbmWrite a bs s).zeroize = s.zeroize := rfl
@[simp] theorem hbmWrite_net (a : Nat) (bs : List Byte) : (hbmWrite a bs s).net = s.net := rfl
@[simp] theorem hbmWrite_meters (a : Nat) (bs : List Byte) : (hbmWrite a bs s).meters = s.meters := rfl
@[simp] theorem hbmWrite_ports (a : Nat) (bs : List Byte) : (hbmWrite a bs s).ports = s.ports := rfl
@[simp] theorem hbmWrite_casc (a : Nat) (bs : List Byte) : (hbmWrite a bs s).casc = s.casc := rfl
@[simp] theorem hbmWrite_mods (a : Nat) (bs : List Byte) : (hbmWrite a bs s).mods = s.mods := rfl
@[simp] theorem hbmWrite_dies (a : Nat) (bs : List Byte) : (hbmWrite a bs s).dies = s.dies := rfl
@[simp] theorem hbmWrite_strs (a : Nat) (bs : List Byte) : (hbmWrite a bs s).strs = s.strs := rfl
@[simp] theorem hbmWrite_fault (a : Nat) (bs : List Byte) : (hbmWrite a bs s).fault = s.fault := rfl
@[simp] theorem hbmWrite_obs (a : Nat) (bs : List Byte) : (hbmWrite a bs s).obs = s.obs := rfl
@[simp] theorem hbmWrite_power (a : Nat) (bs : List Byte) : (hbmWrite a bs s).power = s.power := rfl
@[simp] theorem hbmWrite_peg (a : Nat) (bs : List Byte) : (hbmWrite a bs s).peg = s.peg := rfl
@[simp] theorem hbmWrite_tap (a : Nat) (bs : List Byte) : (hbmWrite a bs s).tap = s.tap := rfl
@[simp] theorem hbmWrite_out (a : Nat) (bs : List Byte) : (hbmWrite a bs s).out = s.out := rfl
@[simp] theorem hbmWrite_freeCtr (a : Nat) (bs : List Byte) : (hbmWrite a bs s).freeCtr = s.freeCtr := rfl

/-! Changing the time state changes `time` alone. -/

@[simp] theorem timeModify_pending (f : Time → Time) : (timeModify f s).pending = s.pending := rfl
@[simp] theorem timeModify_ctl (f : Time → Time) : (timeModify f s).ctl = s.ctl := rfl
@[simp] theorem timeModify_chord (f : Time → Time) : (timeModify f s).chord = s.chord := rfl
@[simp] theorem timeModify_routing (f : Time → Time) : (timeModify f s).routing = s.routing := rfl
@[simp] theorem timeModify_queues (f : Time → Time) : (timeModify f s).queues = s.queues := rfl
@[simp] theorem timeModify_admin (f : Time → Time) : (timeModify f s).admin = s.admin := rfl
@[simp] theorem timeModify_notices (f : Time → Time) : (timeModify f s).notices = s.notices := rfl
@[simp] theorem timeModify_zsis (f : Time → Time) : (timeModify f s).zsis = s.zsis := rfl
@[simp] theorem timeModify_jobs (f : Time → Time) : (timeModify f s).jobs = s.jobs := rfl
@[simp] theorem timeModify_ctrs (f : Time → Time) : (timeModify f s).ctrs = s.ctrs := rfl
@[simp] theorem timeModify_waiters (f : Time → Time) : (timeModify f s).waiters = s.waiters := rfl
@[simp] theorem timeModify_ops (f : Time → Time) : (timeModify f s).ops = s.ops := rfl
@[simp] theorem timeModify_sources (f : Time → Time) : (timeModify f s).sources = s.sources := rfl
@[simp] theorem timeModify_lostSrc (f : Time → Time) : (timeModify f s).lostSrc = s.lostSrc := rfl
@[simp] theorem timeModify_ended (f : Time → Time) : (timeModify f s).ended = s.ended := rfl
@[simp] theorem timeModify_early (f : Time → Time) : (timeModify f s).early = s.early := rfl
@[simp] theorem timeModify_earlyEnds (f : Time → Time) : (timeModify f s).earlyEnds = s.earlyEnds := rfl
@[simp] theorem timeModify_pizzOps (f : Time → Time) : (timeModify f s).pizzOps = s.pizzOps := rfl
@[simp] theorem timeModify_roles (f : Time → Time) : (timeModify f s).roles = s.roles := rfl
@[simp] theorem timeModify_tileOwn (f : Time → Time) : (timeModify f s).tileOwn = s.tileOwn := rfl
@[simp] theorem timeModify_regions (f : Time → Time) : (timeModify f s).regions = s.regions := rfl
@[simp] theorem timeModify_streams (f : Time → Time) : (timeModify f s).streams = s.streams := rfl
@[simp] theorem timeModify_shards (f : Time → Time) : (timeModify f s).shards = s.shards := rfl
@[simp] theorem timeModify_zeroize (f : Time → Time) : (timeModify f s).zeroize = s.zeroize := rfl
@[simp] theorem timeModify_hbm (f : Time → Time) : (timeModify f s).hbm = s.hbm := rfl
@[simp] theorem timeModify_net (f : Time → Time) : (timeModify f s).net = s.net := rfl
@[simp] theorem timeModify_meters (f : Time → Time) : (timeModify f s).meters = s.meters := rfl
@[simp] theorem timeModify_ports (f : Time → Time) : (timeModify f s).ports = s.ports := rfl
@[simp] theorem timeModify_casc (f : Time → Time) : (timeModify f s).casc = s.casc := rfl
@[simp] theorem timeModify_mods (f : Time → Time) : (timeModify f s).mods = s.mods := rfl
@[simp] theorem timeModify_dies (f : Time → Time) : (timeModify f s).dies = s.dies := rfl
@[simp] theorem timeModify_strs (f : Time → Time) : (timeModify f s).strs = s.strs := rfl
@[simp] theorem timeModify_fault (f : Time → Time) : (timeModify f s).fault = s.fault := rfl
@[simp] theorem timeModify_obs (f : Time → Time) : (timeModify f s).obs = s.obs := rfl
@[simp] theorem timeModify_power (f : Time → Time) : (timeModify f s).power = s.power := rfl
@[simp] theorem timeModify_peg (f : Time → Time) : (timeModify f s).peg = s.peg := rfl
@[simp] theorem timeModify_tap (f : Time → Time) : (timeModify f s).tap = s.tap := rfl
@[simp] theorem timeModify_out (f : Time → Time) : (timeModify f s).out = s.out := rfl
@[simp] theorem timeModify_freeCtr (f : Time → Time) : (timeModify f s).freeCtr = s.freeCtr := rfl

/-! Changing a die changes `dies` alone. -/

@[simp] theorem dieModify_pending (d : Nat) (f : Die → Die) : (dieModify d f s).pending = s.pending := rfl
@[simp] theorem dieModify_ctl (d : Nat) (f : Die → Die) : (dieModify d f s).ctl = s.ctl := rfl
@[simp] theorem dieModify_time (d : Nat) (f : Die → Die) : (dieModify d f s).time = s.time := rfl
@[simp] theorem dieModify_chord (d : Nat) (f : Die → Die) : (dieModify d f s).chord = s.chord := rfl
@[simp] theorem dieModify_routing (d : Nat) (f : Die → Die) : (dieModify d f s).routing = s.routing := rfl
@[simp] theorem dieModify_queues (d : Nat) (f : Die → Die) : (dieModify d f s).queues = s.queues := rfl
@[simp] theorem dieModify_admin (d : Nat) (f : Die → Die) : (dieModify d f s).admin = s.admin := rfl
@[simp] theorem dieModify_notices (d : Nat) (f : Die → Die) : (dieModify d f s).notices = s.notices := rfl
@[simp] theorem dieModify_zsis (d : Nat) (f : Die → Die) : (dieModify d f s).zsis = s.zsis := rfl
@[simp] theorem dieModify_jobs (d : Nat) (f : Die → Die) : (dieModify d f s).jobs = s.jobs := rfl
@[simp] theorem dieModify_ctrs (d : Nat) (f : Die → Die) : (dieModify d f s).ctrs = s.ctrs := rfl
@[simp] theorem dieModify_waiters (d : Nat) (f : Die → Die) : (dieModify d f s).waiters = s.waiters := rfl
@[simp] theorem dieModify_ops (d : Nat) (f : Die → Die) : (dieModify d f s).ops = s.ops := rfl
@[simp] theorem dieModify_sources (d : Nat) (f : Die → Die) : (dieModify d f s).sources = s.sources := rfl
@[simp] theorem dieModify_lostSrc (d : Nat) (f : Die → Die) : (dieModify d f s).lostSrc = s.lostSrc := rfl
@[simp] theorem dieModify_ended (d : Nat) (f : Die → Die) : (dieModify d f s).ended = s.ended := rfl
@[simp] theorem dieModify_early (d : Nat) (f : Die → Die) : (dieModify d f s).early = s.early := rfl
@[simp] theorem dieModify_earlyEnds (d : Nat) (f : Die → Die) : (dieModify d f s).earlyEnds = s.earlyEnds := rfl
@[simp] theorem dieModify_pizzOps (d : Nat) (f : Die → Die) : (dieModify d f s).pizzOps = s.pizzOps := rfl
@[simp] theorem dieModify_roles (d : Nat) (f : Die → Die) : (dieModify d f s).roles = s.roles := rfl
@[simp] theorem dieModify_tileOwn (d : Nat) (f : Die → Die) : (dieModify d f s).tileOwn = s.tileOwn := rfl
@[simp] theorem dieModify_regions (d : Nat) (f : Die → Die) : (dieModify d f s).regions = s.regions := rfl
@[simp] theorem dieModify_streams (d : Nat) (f : Die → Die) : (dieModify d f s).streams = s.streams := rfl
@[simp] theorem dieModify_shards (d : Nat) (f : Die → Die) : (dieModify d f s).shards = s.shards := rfl
@[simp] theorem dieModify_zeroize (d : Nat) (f : Die → Die) : (dieModify d f s).zeroize = s.zeroize := rfl
@[simp] theorem dieModify_hbm (d : Nat) (f : Die → Die) : (dieModify d f s).hbm = s.hbm := rfl
@[simp] theorem dieModify_net (d : Nat) (f : Die → Die) : (dieModify d f s).net = s.net := rfl
@[simp] theorem dieModify_meters (d : Nat) (f : Die → Die) : (dieModify d f s).meters = s.meters := rfl
@[simp] theorem dieModify_ports (d : Nat) (f : Die → Die) : (dieModify d f s).ports = s.ports := rfl
@[simp] theorem dieModify_casc (d : Nat) (f : Die → Die) : (dieModify d f s).casc = s.casc := rfl
@[simp] theorem dieModify_mods (d : Nat) (f : Die → Die) : (dieModify d f s).mods = s.mods := rfl
@[simp] theorem dieModify_strs (d : Nat) (f : Die → Die) : (dieModify d f s).strs = s.strs := rfl
@[simp] theorem dieModify_fault (d : Nat) (f : Die → Die) : (dieModify d f s).fault = s.fault := rfl
@[simp] theorem dieModify_obs (d : Nat) (f : Die → Die) : (dieModify d f s).obs = s.obs := rfl
@[simp] theorem dieModify_power (d : Nat) (f : Die → Die) : (dieModify d f s).power = s.power := rfl
@[simp] theorem dieModify_peg (d : Nat) (f : Die → Die) : (dieModify d f s).peg = s.peg := rfl
@[simp] theorem dieModify_tap (d : Nat) (f : Die → Die) : (dieModify d f s).tap = s.tap := rfl
@[simp] theorem dieModify_out (d : Nat) (f : Die → Die) : (dieModify d f s).out = s.out := rfl
@[simp] theorem dieModify_freeCtr (d : Nat) (f : Die → Die) : (dieModify d f s).freeCtr = s.freeCtr := rfl

end Sys2Proof.Machine
end

