-- ==== Sys2Proof/Laws/Taking.lean ====
section
/-! SUPPORT. What a row does once its conditions hold: one lemma for each shared gate of the rows. -/

set_option Elab.async false

namespace Sys2Proof.Machine

/-! ## Arrivals, admin commands and the operations that packets name -/

theorem onReceive_ok {a : Arrival} {s : State} {f : State → State} (h : accepts a s) : onReceive a s f = f (accepted a s) := by
  unfold accepts accepted onReceive at *
  split <;> simp_all [Except.isOk, Except.toBool]

theorem adminRow_takes {n : Nat} {c : AdminCmd} {s : State} {f : AdminCmd → State → State} (h : adminTakes n c s) :
    adminRow n s f = f c (adminLeft s) := by
  obtain ⟨h1, h2, h3⟩ := h
  unfold adminRow
  cases hr : s.admin.ready with
  | nil => simp [hr] at h1
  | cons d l =>
    simp only [hr, List.head?_cons, Option.some.injEq] at h1
    subst h1
    simp only [AdminCmd.arg] at h2
    simp [h2, h3, adminLeft, hr]

theorem adminTakes_ready {n : Nat} {c : AdminCmd} {s : State} (h : adminTakes n c s) : ∃ l, s.admin.ready = c :: l := by
  cases hr : s.admin.ready with
  | nil => simp [adminTakes, hr] at h
  | cons d l =>
    have := h.1
    simp only [hr, List.head?_cons, Option.some.injEq] at this
    exact ⟨l, by rw [this]⟩

theorem knownOp_names {q d s y v} (n : packetNames q d s y v) :
    knownOp s q d = some y ∧ y.status = none ∧ v = if (opFind s q d).isSome then s else { s with ops := s.ops ++ [y] } := by
  obtain ⟨n0, ⟨n1, rfl⟩ | ⟨n1, n2, n3, rfl⟩⟩ := n
  · simp [knownOp, n1, n0]
  · simp [knownOp, n1, n2, n3, n0]

theorem epochGate_takes {a : Arrival} {y v o t} {f : Op → State → State} (h : epochTakes a y v o t) : epochGate a y v f = f o t := by
  obtain ⟨e, et, ef⟩ := h
  have g : (if y.fixed = true then decide (a.pkt.hdr.cepoch = y.cepoch) else (chordAt v a.pkt.hdr.cepoch).isSome) = true := by
    cases hx : y.fixed <;> simp_all
  subst et
  unfold epochGate
  dsimp only
  rw [if_pos g]
  simp only [withOp, ef]

theorem onOp_accepted {a : Arrival} {q d s o t} {f : Op → State → State} (h : opTakes a q d s o t) :
    onOp a q d (accepted a s) f = f o t := by
  obtain ⟨h1, y, v, n, e⟩ := h
  obtain ⟨k, z, w⟩ := knownOp_names n
  unfold onOp
  rw [k]
  dsimp only
  rw [← w, epochGate_takes e, z]
  simp

theorem onOp_takes {a : Arrival} {q d s o t} {f : Op → State → State} (h : opTakes a q d s o t) :
    onReceive a s (fun s => onOp a q d s f) = f o t := by
  rw [onReceive_ok h.1, onOp_accepted h]

theorem takes_notKept {a : Arrival} {q d s o t} (h : opTakes a q d s o t) : (opFind (accepted a s) q d).filter keepsForLevel = none := by
  obtain ⟨h1, y, v, ⟨n0, ⟨n1, -⟩ | ⟨n1, -⟩⟩, -⟩ := h
  · simp [n1, Option.filter, keepsForLevel, n0]
  · simp [n1]

theorem syncRow_ok (a s n) (h1 : isSync a = true) (h2 : a.pkt.payload.length = 32) (h3 : a.pkt.hdr.tc = 1) (h4 : accepts a s)
   (h5 : jobStopped (accepted a s) (syncParse a.pkt.payload).job = false)
   (h6 : syncSender (accepted a s) (((ctrGet (accepted a s) (syncParse a.pkt.payload).ctr).owner).getD (syncParse a.pkt.payload).job) a.pkt.hdr.src = true)
   (h7 : syncFailure (commit a (accepted a s)) (syncParse a.pkt.payload) = none) (h8 : (syncParse a.pkt.payload).sop = n)
   (h9 : 1 ≤ n) (h10 : n ≤ 4) : syncRow n a s = syncEffect (syncParse a.pkt.payload) a.pkt.hdr.src (commit a (accepted a s)) := by
  have : sopDefined (syncParse a.pkt.payload).sop = true := by simp [sopDefined, h8, h9, h10]
  simp [syncRow, h1, h2, onReceive_ok h4, h3, h5, h6, h7, syncMessage, h8]
  intro h
  rw [← h8, this] at h
  simp at h

theorem onPizz_takes {sub : Nat} {a : Arrival} {s : State} {x len uses o u} {fits : State → Op → Bool} {late : State → State}
    {f : Op → State → State} (h : pizzTakes sub a s x len uses o u)
    (hf : ∀ y, a.pkt.payload.length = len (accepted a s) y → fits (accepted a s) y = true) :
    onPizz a x fits uses late (accepted a s) f = f o u := by
  obtain ⟨-, -, -, y, v, t, n, h1, h2, h3, h4, e, rfl⟩ := h
  have fy := hf y h3
  obtain ⟨k, z, w⟩ := knownOp_names n
  unfold onPizz
  rw [k]
  dsimp only
  rw [← w, epochGate_takes e, if_neg (by simp [z, h1, h2]), if_neg (by simp [fy])]
  have u : (!y.fixed && (chordAt (accepted a s) a.pkt.hdr.cepoch).isSome && !uses (accepted a s) { y with fixed := true, cepoch := a.pkt.hdr.cepoch }) = false := by
    cases g : y.fixed
    · simp [h4 g]
    · simp
  rw [u]
  simp

theorem pizzInput_waits {a o ords ecnt ps u} (h : pizzWaits u o ords ecnt) : pizzInput a o ords ecnt ps u = pizzEnter o ords ps (commit a u) := by
  obtain ⟨p, h1, h2, h3, h4, h5, h6⟩ := h
  have e : (ords.all (pizzNeeds (opGroup u o).nmem (opEntries u o) o).contains) = true := by
    simpa [List.all_eq_true] using h6
  have e1 : (ords.any p.arrived.contains) = false := by simpa [List.any_eq_false] using h3
  have e2 : ords.isEmpty = false := by simpa using h4
  simp only [pizzInput, pizzUses, h1, h2, e1, e2, h5, e]
  simp

theorem onDisc_takes {n a s p x t} {f} (h : discTakes n a s p x t) : onDisc n a s f = f p x t := by
  obtain ⟨h1, h2, h3, h4, h5, h6⟩ := h
  subst h4 h5
  simp [onDisc, h1, h2, onReceive_ok h3, h6]

theorem onFlit_takes {n c ws s f t} {g} (h : flitTakes n c ws s f t) : onFlit c n ws s g = g f t := by
  obtain ⟨h1, h2, h3, h4, h5, m, u, h6, h7, h8⟩ := h
  subst h7
  subst h8
  simp only [onFlit, h1, h3, h4, h5, h6, Nat.not_le.mpr h2]
  simp

theorem onFlit_bad {n c ws s} {g} (h1 : regsUp s = true) (h2 : c < 4) (h3 : wordsWhole ws = true) (h4 : (cascUp (cascGet s c)).2 = true)
    (h5 : flitRead (laneFlit (cascGet s c) ws).1 = none) :
    onFlit c n ws s g = sendNak c (count 0x51 (4 * c) 1 (cascCtx c)
      { s with casc := Table.put {} s.casc c (laneFlit (cascGet s c) ws).2 }) := by
  simp only [onFlit, h1, h3, h4, h5, Nat.not_le.mpr h2]
  simp

/-! ## Writes of registers -/

theorem rwField_full (hi lo : Nat) (o : Word) (w : RegWrite) (h : w.mask = 0xFFFFFFFF) : rwField o w hi lo = bits w.value.toNat hi lo := by
  have : (o &&& ~~~ w.mask) ||| (w.value &&& w.mask) = w.value := by rw [h]; ext i; simp; intro hi; interval_cases i <;> simp
  unfold rwField; rw [this]

theorem unreachable_zero (s : State) : unreachable s 0 = false := by simp [unreachable]

theorem regRow_on {p : Nat → Bool} {w s} (h : regsUp s = true) (h4 : w.addr % 4 = 0) (hp : p w.addr = true) : regRow p w s = regWrite w s := by
  simp [regRow, h, h4, hp]

theorem regWrite_ctl {w s} (h : w.addr < 0x4000) (h2 : w.addr ≠ 0x2000) : regWrite w s = controlWrite w s := by
  have e : regNeck w.addr = 0 := by simp [regNeck, h]
  have e3 : partialWo w = false := by simp [partialWo, h2]
  have q : w.addr < 65536 := by omega
  unfold regWrite
  dsimp only
  rw [show cutOff s w.addr = false by simp [cutOff, e, unreachable_zero], e3]
  simp [q]

theorem regWrite_pmc {w i k s} (h1 : w.addr = 0x20000 + 16 * i + 4 * k) (hk : k < 3) (hc : i < 1088) (h2 : cutOff s w.addr = false) :
    regWrite w s = match k with | 0 => wrPmcSel i w s | k => wrPmcValue i k w s := by
  have e2 : (w.addr - 0x20000) / 16 = i := by omega
  have e4 : w.addr % 16 = 4 * k := by omega
  have e3 : partialWo w = false := by simp [partialWo, h1]; omega
  have q1 : ¬ w.addr < 65536 := by omega
  have q2 : ¬ (69632 ≤ w.addr ∧ w.addr < 69888) := by omega
  have q3 : ¬ (69888 ≤ w.addr ∧ w.addr < 69904) := by omega
  have q4 : (131072 ≤ w.addr ∧ w.addr < 148480) := by omega
  unfold regWrite
  dsimp only
  rw [h2, e3]
  simp only [q1, q2, q3, q4, e2, e4]
  interval_cases k <;> simp

theorem bits_whole (w : Word) : bits w.toNat 31 0 = w.toNat := by
  simp [bits]; omega

theorem regWrite_casc {w c s} (h1 : w.addr = 0x11100 + 4 * c) (hc : c < 4) (h2 : unreachable s (4 * c) = false) : regWrite w s = wrCasc c w s := by
  have e : regNeck w.addr = 4 * c := by unfold regNeck; rw [if_neg (by omega), if_neg (by omega), if_neg (by omega), if_pos (by omega)]; omega
  have e2 : (w.addr - 0x11100) / 4 = c := by omega
  have e3 : partialWo w = false := by simp [partialWo, h1]; omega
  have q1 : ¬ w.addr < 65536 := by omega
  have q2 : ¬ (69632 ≤ w.addr ∧ w.addr < 69888) := by omega
  have q3 : (69888 ≤ w.addr ∧ w.addr < 69904) := by omega
  unfold regWrite
  dsimp only
  rw [show cutOff s w.addr = false by simp [cutOff, e, h2], e3]
  simp only [q1, q2, q3, e2]
  simp

theorem regWrite_meter {w i k s} (h1 : w.addr = 0x40000 + 16 * i + 4 * k) (hk : k < 4) (hc : i < 16384) (h2 : unreachable s (i / 1024) = false) :
    regWrite w s = wrMeter i k w s := by
  have e : regNeck w.addr = i / 1024 := by unfold regNeck; rw [if_neg (by omega), if_neg (by omega), if_neg (by omega), if_neg (by omega), if_neg (by omega), if_neg (by omega), if_neg (by omega), if_neg (by omega), if_neg (by omega), if_pos (by omega)]; omega
  have e2 : (w.addr - 0x40000) / 16 = i := by omega
  have e4 : w.addr % 16 / 4 = k := by omega
  have e3 : partialWo w = false := by simp [partialWo, h1]; omega
  have q1 : ¬ w.addr < 65536 := by omega
  have q2 : ¬ (69632 ≤ w.addr ∧ w.addr < 69888) := by omega
  have q3 : ¬ (69888 ≤ w.addr ∧ w.addr < 69904) := by omega
  have q4 : ¬ (131072 ≤ w.addr ∧ w.addr < 148480) := by omega
  have q5 : (262144 ≤ w.addr ∧ w.addr < 524288) := by omega
  unfold regWrite
  dsimp only
  rw [show cutOff s w.addr = false by simp [cutOff, e, h2], e3]
  simp only [q1, q2, q3, q4, q5, e2, e4]
  simp

theorem regWrite_shadow {w i k s} (h1 : w.addr = 0x600000 + 32 * i + 4 * k) (hk : k < 8) (hc : i < 65536) :
    regWrite w s = wrShadow i k w s := by
  have e : regNeck w.addr = 0 := by unfold regNeck; rw [if_neg (by omega), if_neg (by omega), if_neg (by omega), if_neg (by omega), if_neg (by omega), if_neg (by omega), if_neg (by omega), if_neg (by omega), if_neg (by omega), if_neg (by omega), if_neg (by omega), if_neg (by omega), if_pos (by omega)]
  have e2 : (w.addr - 0x600000) / 32 = i := by omega
  have e4 : w.addr % 32 / 4 = k := by omega
  have e3 : partialWo w = false := by simp [partialWo, h1]; omega
  have q1 : ¬ w.addr < 65536 := by omega
  have q2 : ¬ (69632 ≤ w.addr ∧ w.addr < 69888) := by omega
  have q3 : ¬ (69888 ≤ w.addr ∧ w.addr < 69904) := by omega
  have q4 : ¬ (131072 ≤ w.addr ∧ w.addr < 148480) := by omega
  have q5 : ¬ (262144 ≤ w.addr ∧ w.addr < 524288) := by omega
  have q6 : (0x600000 ≤ w.addr ∧ w.addr < 0x800000) := by omega
  unfold regWrite
  dsimp only
  rw [show cutOff s w.addr = false by simp [cutOff, e, unreachable_zero], e3]
  simp only [q1, q2, q3, q4, q5, q6, e2, e4]
  simp

theorem regWrite_lane {w c n s} (h1 : w.addr = 0x11000 + 64 * c + 4 * n) (hn : n < 16) (hc : c < 4) (h2 : unreachable s (4 * c) = false) : regWrite w s = wrLane c n w s := by
  have e : regNeck w.addr = 4 * c := by unfold regNeck; rw [if_neg (by omega), if_neg (by omega), if_pos (by omega)]; omega
  have e2 : (w.addr - 0x11000) / 64 = c := by omega
  have e4 : (w.addr - 0x11000) % 64 / 4 = n := by omega
  have e3 : partialWo w = false := by simp [partialWo, h1]; omega
  have q1 : ¬ w.addr < 65536 := by omega
  have q2 : (69632 ≤ w.addr ∧ w.addr < 69888) := by omega
  unfold regWrite
  dsimp only
  rw [show cutOff s w.addr = false by simp [cutOff, e, h2], e3]
  simp only [q1, q2, e2, e4]
  simp

end Sys2Proof.Machine
end

