-- ==== Sys2Proof/Tests/Slice0.lean ====
section
/-! SUPPORT. Tests of the model: the spec's worked examples, a state and operands that meet the hypotheses of every statement (each clause at
a boundary of its range where it has one), and the checks of well-formedness. Expected values come from the spec or, for CRC-32, from zlib. -/

set_option Elab.async false

open Sys2Proof Sys2Proof.Machine

namespace Sys2Proof.Tests

/-! ## Small states -/

/-- 64 bytes with fields given as (lowest byte, width in bytes, value). -/
def image (n : Nat) (fs : List (Nat × Nat × Nat)) : List Byte :=
  fs.foldl (fun b f => b.take f.1 ++ le f.2.1 f.2.2 ++ b.drop (f.1 + f.2.1)) (List.replicate n 0)

/-- An admin command of the manager in slot 0. -/
def cmd (acode : Nat) (fs : List (Nat × Nat × Nat)) : AdminCmd :=
  { slot := 0, src := 7, bytes := image 64 ([(0, 1, 2), (1, 1, acode)] ++ fs) }

/-- A routing entry that is valid, with port 0. -/
def route : Route := { w2 := 0x80000000 }

/-- Chip 0x20, READY at 1 ms, with a manager at chip 7, routes to chips 7 and 9, module 0 and its four ports up. -/
def isl : State :=
  { State.reset with
    ctl := { state := .ready, id := { chip := 0x20, managers := [{ valid := true, chip := 7, cqOff := 0x1000, nqOff := 0x2000 }] } },
    ports := (List.range 4).map fun p => (p, { state := 2 }),
    time := { running := true, gcount := 1000000 },
    routing := { cur := [(7, route), (9, route)], shadow := [] },
    mods := [(0, { state := 1 })] }

/-- The island with one executable admin command. -/
def withCmd (c : AdminCmd) (s : State) : State := { s with admin := { s.admin with ready := [c] } }

/-- A packet from chip `src` on module 0. -/
def arrive (src tc : Nat) (x : Ext) (payload : List Byte) : Arrival :=
  let p : Packet := { hdr := { ver := 2, tc, hlen := extHlen x, src, dst := 0x20 }, ext := x, payload }
  { link := .module 0, delivered := pktLen p, pkt := p }

/-! ## Admin arrivals -/

def bellAdmin : Arrival := arrive 7 1 (.write doorbellOff) (image 96 [(0, 1, 2), (1, 1, 1), (32, 1, 2), (33, 1, 1)])

theorem test_adminDoorbell_meets : isDoorbell bellAdmin = true ∧ (doorbellParse bellAdmin.pkt.payload).queue = 0 ∧
    bellAdmin.pkt.hdr.tc = 1 ∧ adminDoorbellBad (doorbellParse bellAdmin.pkt.payload) bellAdmin.pkt.payload.length = false ∧
    accepts bellAdmin isl := by unfold accepts; decide +kernel

def isl_staged : State := { isl with admin := { isl.admin with staged := [{ cmd 2 [] with slot := 0 }] } }

theorem test_adminAseqTimeout_meets :
    ∃ c ∈ isl_staged.admin.staged, c.slot = 0 ∧ c.since + 1000000 ≤ isl_staged.time.gcount := by decide

theorem test_identify_meets : adminTakes 0x01 (cmd 1 []) (withCmd (cmd 1 []) isl) := by unfold adminTakes; decide +kernel

/-! ## Queues -/

/-- The island with group 1, of two members, rooted here. -/
def islGroup : State :=
  { isl with chord := { isl.chord with
      cur := { groups := [(1, { valid := true, root := true, aligned := true, nmem := 2, d := 1, ecnt := 2, ops := 8, desc := 64 })],
               entries := [(0, { kind := 1, chip := 7, ord := 0 }), (1, { kind := 1, chip := 9, ord := 1 })] },
      open_ := false } }

def create : AdminCmd := cmd 2 [(8, 2, 8191), (10, 2, 1), (12, 2, 3), (14, 1, 6), (15, 1, 1), (16, 2, 4), (18, 2, 9)]

/-- Where nothing is allocated a need that its space holds finds room, whatever place the admission controller would choose. -/
theorem placeNeed_empty (d : Nat) (x : Need) (h : pageUp x.size ≤ islandArea) : ∃ r, placeNeed d [] x = some r := by
  unfold placeNeed
  have k : pageUp x.size + islandArea ≤ neckWindow := by unfold islandArea neckWindow at *; omega
  let lo := fun (x : Need) => neckWindow * x.neck + if x.area then 0 else islandArea
  cases e : x.area <;> simp only [Bool.false_eq_true, if_false, if_true]
  all_goals
    rw [← Option.isSome_iff_exists, Option.isSome_map]
    refine (Option.isSome_iff_exists.2 ⟨_, List.getElem?_eq_getElem (Nat.mod_lt _ (List.length_pos_of_mem (a := lo x) ?_))⟩)
    unfold holeEnds
    refine List.mem_filter.2 ⟨by simp [lo, e], ?_⟩
    simp only [lo, e, Bool.false_eq_true, if_false, if_true]
    simp only [List.any_nil, Bool.not_false, Bool.and_true, Bool.and_eq_true, decide_eq_true_eq]
    unfold islandArea neckWindow at *
    omega

/-- With HOME 1 and, the same command, HOME 0. -/
def createAway : AdminCmd := cmd 2 [(8, 2, 8191), (10, 2, 1), (12, 2, 3), (14, 1, 6), (15, 1, 0), (16, 2, 4), (18, 2, 9)]

theorem test_createQueue_meets : ∀ c ∈ [create, createAway], adminTakes 0x02 c (withCmd c islGroup) ∧
    createFailure (adminLeft (withCmd c islGroup)) c = none ∧
    cacheFull (adminLeft (withCmd c islGroup)) (c.arg 9 8) (c.arg 17 16) = false ∧
    liveRegions (adminLeft (withCmd c islGroup)) = [] ∧ bit (c.arg 15 15) 0 = decide (c = create) := by unfold adminTakes; decide +kernel

theorem test_createQueue_room : ∃ r, placeNeed islGroup.freeCtr [] { neck := 15, size := 64 * 2 ^ 6, use := .ring 8191 } = some r :=
  placeNeed_empty _ _ (by decide)

/-- The same with queue 5, which is idle. -/
def islQueue : State :=
  let x : QueueCtx := { state := .idle, job := 3, group := 1, poster := 9, home := true, log2sz := 6, prefetch := 4 }
  { islGroup with queues := [(5, { x with ring := 0x7810000000 })] }

theorem test_destroyQueue_meets : adminTakes 0x03 (cmd 3 [(8, 2, 5)]) (withCmd (cmd 3 [(8, 2, 5)]) islQueue) ∧
    drainRefused (withCmd (cmd 3 [(8, 2, 5)]) islQueue) ((cmd 3 [(8, 2, 5)]).arg 9 8) = false := by
  unfold adminTakes; decide +kernel

theorem test_resetQueue_meets : adminTakes 0x04 (cmd 4 [(8, 2, 5)]) (withCmd (cmd 4 [(8, 2, 5)]) islQueue) ∧
    drainRefused (withCmd (cmd 4 [(8, 2, 5)]) islQueue) ((cmd 4 [(8, 2, 5)]).arg 9 8) = false := by
  unfold adminTakes; decide +kernel

def islDraining (q : QState) : State := { islQueue with queues := [(5, { state := .draining, drainTo := some q })] }

theorem test_queueDrained_meets : (drained (islDraining .idle) 5 = true ∧ (queueGet (islDraining .idle) 5).drainTo = some .idle) ∧
    drained (islDraining .absent) 5 = true ∧ (queueGet (islDraining .absent) 5).drainTo ≠ some .idle := by decide +kernel

/-! ## Loads and epochs -/

/-- A chord image that removes group 1. -/
def chordImage : List Byte := image 64 [(0, 2, 1), (2, 1, 2)]

def withImage (bs : List Byte) (c : AdminCmd) (s : State) : State :=
  { withCmd c s with net := { s.net with image := some { want := bs.length, got := [(0, bs)] } } }

/-- The CRC is zlib's for the same bytes. -/
def loadC : AdminCmd := cmd 5 [(8, 1, 1), (28, 4, 0x4DFE8802)]

def islShadow : State := { islGroup with chord := { islGroup.chord with open_ := true } }

theorem test_loadChord_meets : ∃ rs l sh, adminTakes 0x05 loadC (withImage chordImage loadC islShadow) ∧
    inDomain islShadow = false ∧ islShadow.admin.domain = none ∧ imageWhole chordImage (withImage chordImage loadC islShadow) ∧
    (crc32 chordImage).toNat = loadC.arg 31 28 ∧ loadStale (withImage chordImage loadC islShadow) (loadC.arg 8 8) = false ∧
    chordRecords chordImage = some rs ∧ recordsCheck islShadow.ctl.cascId 0 rs = .ok l ∧
    shadowAfter (dropImage (adminLeft (withImage chordImage loadC islShadow))) l = .ok sh := by
  refine ⟨[(chordImage, [])], [(1, none)], { groups := [] , entries := []}, ?_⟩
  unfold adminTakes imageWhole
  refine ⟨by decide +kernel, by decide +kernel, by decide +kernel, ⟨_, rfl, rfl, rfl, by decide +kernel, by decide +kernel⟩, by decide +kernel, by decide +kernel, by decide +kernel, ?_, ?_⟩ <;> rfl

def zsiImage : List Byte := image 64 [(0, 1, 2), (1, 1, 0x5A), (2, 1, 1), (4, 4, 8), (8, 4, 1)]

def zsi : ZsiBody := { nframes := 1, sbase := 100, scnt := 1, ops := [], queues := [(5, [])] }

def loadZ : AdminCmd := cmd 6 [(8, 1, 15), (10, 2, 3), (28, 4, 0x94B86947)]

theorem test_loadSchedule_meets : let s := withImage zsiImage loadZ isl
    ∃ all, adminTakes 0x06 loadZ s ∧ imageWhole zsiImage s ∧ (needsSpace (some (normalBody zsi)) = true → s.zeroize = 0) ∧
    (crc32 zsiImage).toNat = loadZ.arg 31 28 ∧ 64 ≤ zsiImage.length ∧
    admitFault (dropImage (adminLeft s)) (loadZ.arg 11 10) (loadZ.arg 8 8) zsiImage.length (slice zsiImage 0 64) (some (normalBody zsi)) =
      .ok all := by
  intro s
  let t := dropImage (adminLeft s)
  let need : Need := { neck := 15, size := 64, area := true, use := .zsi 15 }
  obtain ⟨r, room⟩ := placeNeed_empty t.freeCtr need (by decide)
  have needs : bodyNeeds t 3 15 64 (normalBody zsi) = [need] := by decide +kernel
  have place : placeNeeds t.freeCtr (liveRegions t) [need] = .ok [r] := by
    rw [show liveRegions t = [] by decide +kernel]
    unfold placeNeeds
    rw [if_neg (by decide), room]
    rfl
  refine ⟨[r], ?_⟩
  unfold adminTakes imageWhole
  refine ⟨by decide +kernel, ⟨_, rfl, rfl, rfl, by decide +kernel, by decide +kernel⟩, by decide +kernel, by decide +kernel,
    by decide +kernel, ?_⟩
  unfold admitFault
  rw [show headerFault (dropImage (adminLeft s)) (loadZ.arg 8 8) (slice zsiImage 0 64) = none by decide +kernel]
  simp only
  rw [if_neg (by decide +kernel), show (normalBody zsi).ops.findSome? _ = none by rfl, show loadZ.arg 11 10 = 3 by decide +kernel,
    show loadZ.arg 8 8 = 15 by decide +kernel, show zsiImage.length = 64 by decide +kernel, needs, place]
  simp only
  rw [if_neg (by decide +kernel), if_neg (by decide +kernel)]

/-- SET_EPOCH of a table to epoch 1 at the tick at 1,002,000. -/
def setEpoch (table : Nat) : AdminCmd := cmd 9 [(8, 1, table), (9, 1, 1), (16, 8, 1002000)]

theorem test_setEpoch_meets : let s := withCmd (setEpoch 0) isl
    let d := { s with ctl := { s.ctl with masterSel := true, id := { s.ctl.id with cascaded := true } } }
    adminTakes 0x09 (setEpoch 0) s ∧ (setEpoch 0).arg 8 8 = 0 ∧ s.admin.domain = none ∧ inDomain s = false ∧
    epochAccepted s s.chord ((setEpoch 0).arg 9 9) ((setEpoch 0).arg 23 16) = true ∧
    inDomain d = true ∧ isMaster d = true ∧ (setEpoch 1).arg 8 8 = 1 ∧ adminTakes 0x09 (setEpoch 1) (withCmd (setEpoch 1) isl) ∧
    epochAccepted s s.routing ((setEpoch 1).arg 9 9) ((setEpoch 1).arg 23 16) = true := by unfold adminTakes; decide +kernel

/-! ## Swaps -/

def dueSwap (s : State) : State := { s with chord := { s.chord with swapAt := some 1000000 } }

theorem test_swaps_meet : stepTurn 4 (dueSwap isl) = true ∧
    stepTurn 3 { isl with routing := { isl.routing with swapAt := some 1000000 } } = true := by decide +kernel

theorem test_retires_meet : let s : State := { isl with
      chord := { isl.chord with retiring := some ({}, 0xFF, 998000) }
      routing := { isl.routing with retiring := some ([], 0xFF, 998000) } }
    s.chord.retiring = some ({}, 0xFF, 998000) ∧ (∀ o ∈ s.ops, usesChord 0xFF o = false) ∧ (∀ p ∈ s.pizzOps, pizzIn 0xFF p = false) ∧
    s.routing.retiring = some ([], 0xFF, 998000) ∧ inFlight s 0xFF = [] := by decide +kernel

theorem test_shadowOpen_meets : let s : State := { isl with
      chord := { isl.chord with open_ := false }
      routing := { isl.routing with open_ := false } }
    s.chord.open_ = false ∧ s.chord.retiring = none ∧ s.routing.open_ = false ∧ s.routing.retiring = none := by decide

/-! ## Jobs -/

/-- The island, its own time root, with the schedule of job 3 in slot 15. -/
def islZsi : State :=
  { isl with zsis := [(15, some { job := 3, det := true, flen := 8, body := zsi })], time := { isl.time with root := true } }

/-- START_JOB of job 3 on slot 15 at a count. -/
def startAt (g : Nat) : AdminCmd := cmd 7 [(8, 2, 3), (10, 2, 0x8000), (16, 8, g), (24, 8, 0x1234)]

/-- The first tick at which a start still fits, 10 us away (R64). -/
theorem test_startJob_meets : let c := startAt 1010000
    let s := withCmd c islZsi
    adminTakes 0x07 c s ∧ isTick s (c.arg 23 16) = true ∧ sleepsBefore s (c.arg 23 16) = false ∧
    startFits s (c.arg 9 8) (c.arg 23 16) (c.arg 11 10) = true := by unfold adminTakes; decide +kernel

theorem test_startOffTick_meets : let c := startAt 1010001
    adminTakes 0x07 c (withCmd c islZsi) ∧ c.arg 23 16 % frameNs (withCmd c islZsi) ≠ 0 := by unfold adminTakes; decide +kernel

theorem test_jobStart_meets : let s : State := { islZsi with jobs := [(3, { armed := some 1000000 })] }
    stepTurn 7 s = true ∧ (jobGet s 3).armed = some 1000000 ∧ 1000000 ≤ s.time.gcount := by decide +kernel

theorem test_stopJob_meets : adminTakes 0x08 (cmd 8 [(8, 2, 3)]) (withCmd (cmd 8 [(8, 2, 3)]) islZsi) := by
  unfold adminTakes; decide +kernel

theorem test_zeroize_meets : let s : State := { isl with zeroize := 1 }
    s.zeroize ≠ 0 ∧ s.ctl.state ≠ .dormant := by decide

/-! ## Registers of the admin queue -/

/-- READ_REG of the last two words of the last block. -/
def readC : AdminCmd := cmd 0x0A [(8, 4, 0x1FFFFF8), (12, 2, 2)]

theorem test_readReg_meets : adminTakes 0x0A readC (withCmd readC isl) ∧ readC.arg 11 8 % 4 = 0 ∧ 1 ≤ readC.arg 13 12 ∧
    readC.arg 13 12 ≤ 1024 ∧ (∀ i < readC.arg 13 12, inBlock (readC.arg 11 8 + 4 * i) = true) := by
  unfold adminTakes; decide +kernel

def writeC : AdminCmd := cmd 0x0B [(8, 4, 0x0040), (12, 4, 5), (16, 4, 0xFF)]

theorem test_writeReg_meets : adminTakes 0x0B writeC (withCmd writeC isl) ∧ writeC.arg 11 8 % 4 = 0 ∧
    inBlock (writeC.arg 11 8) = true := by unfold adminTakes; decide +kernel

/-! ## Snapshots -/

/-- A shard of one AdamW block of job 3. -/
def shard : Shard := { sdef := { wtensor := 9, e0 := 0, nb := 1, opt := 1, ofmt := 2, neck := 0, region := 0 }, job := 3 }

def islShard : State := { isl with shards := [shard], ctrs := [(100, { owner := some 3, value := 5 })] }

/-- SNAPSHOT or RESTORE of a job (kind 1) or of the shard (kind 2). -/
def snapC (acode kind : Nat) : AdminCmd := cmd acode [(8, 1, kind), (10, 2, 3), (12, 4, 9)]

theorem test_snapshot_meets : let c := snapC 0x0C 1
    let d := snapC 0x0C 2
    adminTakes 0x0C c (withCmd c islShard) ∧ c.arg 8 8 = 1 ∧ (∀ e ∈ jobCounters (withCmd c islShard) (c.arg 11 10), e.2.err = false) ∧
    adminTakes 0x0C d (withCmd d islShard) ∧ d.arg 8 8 = 2 ∧ cmdShard (completeJournals (withCmd d islShard)) d = some shard ∧
    firstLost shard = none := by unfold adminTakes; decide +kernel

theorem test_snapshotSection_meets : let c := snapC 0x0C 2
    let s : State := { islShard with admin := { islShard.admin with snaps := [c] } }
    isTick s s.time.gcount = true ∧ s.admin.snaps.find? (snapReady s) = some c ∧ cmdShard (completeJournals s) c = some shard ∧
    firstLost shard = none := by decide +kernel

/-- The header of a section with its body of `n` zero bytes, and zlib's CRC of them. -/
def sectionOf (fs : List (Nat × Nat × Nat)) (n crc : Nat) : List Byte :=
  image 64 ([(0, 1, 2), (44, 4, crc), (48, 8, n)] ++ fs) ++ List.replicate n 0

theorem test_restoreJob_meets : let bs := sectionOf [(1, 1, 1)] 16 0xECBB4B55
    let c := snapC 0x0D 1
    let s := withImage bs c islShard
    adminTakes 0x0D c s ∧ c.arg 8 8 = 1 ∧ imageWhole bs s ∧ restoreHeld (adminLeft s) c = false ∧ restoreFault (adminLeft s) c (bs.take 64) = none ∧
    64 + fld (bs.take 64) 55 48 ≤ bs.length ∧ (crc32 (bs.drop 64)).toNat = fld (bs.take 64) 47 44 := by
  unfold adminTakes imageWhole
  exact ⟨by decide +kernel, by decide +kernel, ⟨_, rfl, rfl, rfl, by decide +kernel, by decide +kernel⟩, by decide +kernel,
    by decide +kernel, by decide +kernel, by decide +kernel⟩

/-- A region of no blocks holds only the recorded step, which keeps the evaluation of its CRC short. -/
def shard0 : Shard := { shard with sdef := { shard.sdef with nb := 0 } }

theorem test_restoreShard_meets : let bs := sectionOf [(1, 1, 2), (2, 1, 1), (3, 1, 2), (24, 4, 9)] 64 0x758D6336
    let c := snapC 0x0D 2
    let s := withImage bs c { islShard with shards := [shard0] }
    adminTakes 0x0D c s ∧ c.arg 8 8 = 2 ∧ imageWhole bs s ∧ restoreHeld (adminLeft s) c = false ∧ restoreFault (adminLeft s) c (bs.take 64) = none ∧
    64 + fld (bs.take 64) 55 48 ≤ bs.length ∧ (crc32 (bs.drop 64)).toNat = fld (bs.take 64) 47 44 ∧
    cmdShard s c = some shard0 ∧ cmdShard (completeJournals s) c = some shard0 := by
  unfold adminTakes imageWhole
  exact ⟨by decide +kernel, by decide +kernel, ⟨_, rfl, rfl, rfl, by decide +kernel, by decide +kernel⟩, by decide +kernel,
    by decide +kernel, by decide +kernel, by decide +kernel, by decide +kernel, by decide +kernel⟩

/-! ## Sleep and wake -/

/-- SLEEP of a target and unit, for the first tick at least 10 us away. -/
def sleepC (target unit : Nat) : AdminCmd := cmd 0x0E [(8, 1, target), (10, 2, unit), (16, 8, 1010000)]

theorem test_sleep_meets : ∀ x ∈ [(0, 0), (1, 63), (2, 3)],
    let c := sleepC x.1 x.2
    let s := withCmd c isl
    (s.admin.ready.head? = some c ∧ c.arg 1 1 = 0x0E ∧ adminAllowed s.ctl.state 0x0E = true) ∧ c.arg 8 8 = x.1 ∧ c.arg 11 10 = x.2 ∧
    isTick s (c.arg 23 16) = true ∧ s.time.gcount + 10000 ≤ c.arg 23 16 ∧ sleepAllowed s x.1 x.2 (c.arg 23 16) = true := by
  decide +kernel

theorem test_sleepTick_meets : let x := (sleepC 1 63, 1, 63, 1000000)
    let s : State := { isl with admin := { isl.admin with sleeps := [x] }, time := { isl.time with lastTick := some 1000000 } }
    s.admin.sleeps = [x] ∧ sleepDue s x = true ∧ sleepAllowed s 1 63 1000000 = true := by decide +kernel

def wakeC (target unit : Nat) : AdminCmd := cmd 0x0F [(8, 1, target), (10, 2, unit)]

theorem test_wake_meets : let s : State := { isl with ctl := { isl.ctl with state := .dormant }, dies := [(63, { state := 1 })] }
    adminTakes 0x0F (wakeC 0 0) (withCmd (wakeC 0 0) s) ∧ (wakeC 0 0).arg 8 8 = 0 ∧ (wakeC 0 0).arg 11 10 = 0 ∧
    (dropSleeps (fun x => x.2.1 == 0 && x.2.2.1 == 0) (adminLeft (withCmd (wakeC 0 0) s))).ctl.state = .dormant ∧
    adminTakes 0x0F (wakeC 1 63) (withCmd (wakeC 1 63) s) ∧ (wakeC 1 63).arg 8 8 = 1 ∧ (wakeC 1 63).arg 11 10 < 64 ∧
    (Table.get {} (dropSleeps (fun x => x.2.1 == 1 && x.2.2.1 == 63) (adminLeft (withCmd (wakeC 1 63) s))).dies 63).state = 1 ∧
    adminTakes 0x0F (wakeC 2 3) (withCmd (wakeC 2 3) s) ∧ (wakeC 2 3).arg 8 8 = 2 ∧ (wakeC 2 3).arg 11 10 < 4 ∧
    portAsleep (dropSleeps (fun x => x.2.1 == 2 && x.2.2.1 == 3) (adminLeft (withCmd (wakeC 2 3) s))) 3 = true := by
  unfold adminTakes; decide +kernel

theorem test_unitRejoin_meets : let s : State := { isl with dies := [(63, { rejoin := some 999999 })] }
    stepTurn 6 s = true ∧ rejoinDue s (Table.get {} s.dies 63) = true := by decide +kernel

/-! ## Descriptors and rings -/

/-- The first and the last slot of the ring of queue 5, written by its poster. -/
def ringW (slot : Nat) : Arrival := arrive 9 1 (.write (0x7810000000 + 64 * slot)) (List.replicate 64 0)

theorem test_ringWrite_meets : ∀ k ∈ [0, 63], let a := ringW k
    ringWrite? a = some (0x7810000000 + 64 * k) ∧ (receive a islQueue).isOk = true ∧ a.pkt.hdr.tc = 1 ∧
    (ringQueue (accepted a islQueue) (0x7810000000 + 64 * k) a.pkt.payload.length).map (fun x => (x.1, x.2.poster)) = some (5, 9) := by
  decide +kernel

/-- A doorbell of the poster of queue 5 with TAIL 1. -/
def bell : Arrival := arrive 9 1 (.write doorbellOff) (image 32 [(0, 1, 2), (2, 2, 5), (4, 4, 1)])

theorem test_doorbell_meets : let d := doorbellParse bell.pkt.payload
    isDoorbell bell = true ∧ accepts bell islQueue ∧ bell.pkt.hdr.tc = 1 ∧ d.queue ≠ 0 ∧
    doorbellDropped (queueGet (accepted bell islQueue) d.queue) bell.pkt.hdr.src bell.pkt.payload.length d = false := by
  unfold accepts; decide +kernel

/-- Queue 5 active with one descriptor to fetch; the ring entry in HBM holds DSEQ 0. -/
def islActive : State := { islQueue with queues := islQueue.queues.map fun e => (e.1, { e.2 with state := .active, tail := 1 }) }

def descBytes : List Byte := image 64 [(60, 4, 0x02000000)]

theorem test_descriptorStart_meets : let s := islActive
    let t := fetchEntry 5 (queueGet s 5).startNext s
    queueStarts (queueGet s 5) = true ∧ s.ctl.state ≠ .faulted ∧ nextFetched (queueGet s 5) = none ∧ mayFetch (queueGet s 5) = true ∧
    (nextFetched (queueGet t 5)).isSome = true ∧ queueStarts (queueGet t 5) = true := by decide +kernel

theorem test_reread_meets :
    let s : State := { islActive with queues := islActive.queues.map fun e => (e.1, { e.2 with rereadAt := some 1000000, rereadSince := some 999000 }) }
    let t := fetchEntry 5 (queueGet s 5).startNext s
    (queueGet s 5).rereadAt = some 1000000 ∧ (queueGet s 5).rereadSince = some 999000 ∧ queueStarts (queueGet s 5) = true ∧
    1000000 ≤ s.time.gcount ∧ ((queueGet t 5).rereadAt = none ∨ s.time.gcount < 999000 + 64000) := by decide +kernel

/-! ## Sync messages -/

/-- A sync message of the poster on counter 65535 of job 3. -/
def sync (sop v : Nat) (fs : List (Nat × Nat × Nat)) : Arrival :=
  arrive 9 1 (.write syncOff) (image 32 ([(0, 1, 2), (1, 1, sop), (4, 2, 65535), (6, 2, 3), (24, 8, v)] ++ fs))

/-- Counter 65535 at 5, and queue 5 of the same job. -/
def islCtr : State := { islQueue with ctrs := [(65535, { value := 5, owner := some 3 })] }

/-- What every sync message needs. -/
def syncMeets (a : Arrival) (s : State) : Bool :=
  let m := syncParse a.pkt.payload
  isSync a && a.pkt.payload.length == 32 && a.pkt.hdr.tc == 1 && (receive a s).isOk && !jobStopped (accepted a s) m.job &&
  syncSender (accepted a s) (((ctrGet (accepted a s) m.ctr).owner).getD m.job) a.pkt.hdr.src &&
  syncFailure (commit a (accepted a s)) m == none && !(ctrGet (commit a (accepted a s)) m.ctr).err

/-- An ADD up to the last value below saturation, a SET above the value, CLRFAIL, a WAIT that is satisfied and one that waits. -/
theorem test_sync_meets : let x := ctrGet (commit (sync 1 3 []) (accepted (sync 1 3 []) islCtr)) 65535
    (∀ a ∈ [sync 1 3 [], sync 2 6 [], sync 4 0 [], sync 3 5 [], sync 3 6 [(12, 4, 1000000)]], syncMeets a islCtr = true) ∧
    x.sat = false ∧ x.value.toNat + 3 ≤ ctrMax.toNat ∧ x.value.toNat ≤ 6 ∧ satisfied 5 x = true ∧ satisfied 6 x = false ∧
    neckWaiters islCtr 15 < 1024 := by decide +kernel

theorem test_waitTimeout_meets :
    let w : Waiter := { ctr := 65535, job := 3, exp := 6, tag := 1, chip := 9, retOff := 0, expiry := some 1000000 }
    let s : State := { islCtr with waiters := [w] }
    s.waiters.filter (waitDue s 65535 1) = [w] := by decide +kernel

/-! ## Transport -/

theorem test_readRefused_meets : accepts (arrive 9 1 (.read 0 4096 1) []) isl := by unfold accepts; decide +kernel

def islRead : State :=
  { isl with net := { isl.net with
      reads := [{ rtag := 1, chip := 9, tc := 1, len := 16, why := .image 0 }]
      image := some { want := 16 } } }

theorem test_readRsp_meets : let a := arrive 9 1 (.readRsp 1 0) (List.replicate 16 0)
    accepts a islRead ∧ (readOf (accepted a islRead) a 1).map (fun r => (readLate (accepted a islRead) r, r.len)) =
      some (false, a.pkt.payload.length) := by unfold accepts; decide +kernel

/-- A flow to chip 9 with one packet that has waited 16 us. -/
def islFlow : State :=
  let p : Packet := { hdr := { ver := 2, tc := 1, hlen := 3, src := 0x20, dst := 9 }, ext := .write 0, payload := List.replicate 16 0 }
  let f : TxFlow := { dst := 9, tc := 1, incarn := 0, psn := 1 }
  { isl with net := { isl.net with tx := [{ f with unacked := [{ psn := 0, at_ := 984000, pkt := p, why := .other }] }] } }

theorem test_ack_meets : let a := arrive 9 1 (.ack 1 0 0) []
    accepts a islFlow ∧ ((accepted a islFlow).net.tx.find? fun f => f.dst == a.pkt.hdr.src && f.tc == a.pkt.hdr.tc).isSome = true := by
  unfold accepts; decide +kernel

theorem test_retransmit_meets : ∃ f ∈ islFlow.net.tx, (f.dst == 9 && f.tc == 1) = true ∧
    ∃ u ∈ f.unacked, u.psn = 0 ∧ retryDue islFlow f u = true ∧ regsUp islFlow = true := by decide +kernel

/-! ## Operations -/

/-- The operation that a packet names, with the state that holds it (`packetNames`). -/
def named (q : Nat) (d : BitVec 32) (s : State) : Option (Op × State) :=
  (match opFind s q d with
    | some y => some (y, s)
    | none => if endedEarly s q d then none else (shellOp s q d).map fun y => (y, { s with ops := s.ops ++ [y] })).filter (·.1.status.isNone)

theorem named_names {q : Nat} {d : BitVec 32} {s v : State} {y : Op} (h : named q d s = some (y, v)) : packetNames q d s y v := by
  unfold named at h
  rw [Option.filter_eq_some_iff] at h
  obtain ⟨h, k⟩ := h
  refine ⟨by simpa using k, ?_⟩
  split at h
  · rename_i z hz
    obtain ⟨rfl, rfl⟩ := Prod.mk.inj (Option.some.inj h)
    exact .inl ⟨hz, rfl⟩
  · rename_i hz
    split at h
    · cases h
    · rename_i he
      obtain ⟨z, hs, h⟩ := Option.map_eq_some_iff.mp h
      obtain ⟨rfl, rfl⟩ := Prod.mk.inj h
      exact .inr ⟨hz, by simpa using he, hs, rfl⟩

/-- An arrival takes the operation it names (`opTakes`), and a property of the operation and the state then holds. -/
def opMeets (a : Arrival) (q : Nat) (d : BitVec 32) (s : State) (p : Op → State → Bool) : Bool :=
  (receive a s).isOk && match named q d (accepted a s) with
    | some (x, v) =>
      (if x.fixed then a.pkt.hdr.cepoch == x.cepoch else (chordAt v a.pkt.hdr.cepoch).isSome) &&
      let t := bytesFor x.queue x.dseq (pktLen a.pkt) (fixEpoch x.queue x.dseq a.pkt.hdr.cepoch v)
      match opFind t x.queue x.dseq with | some o => p o t | none => false
    | none => false

theorem opMeets_takes {a : Arrival} {q : Nat} {d : BitVec 32} {s : State} {p : Op → State → Bool} (h : opMeets a q d s p = true) :
    ∃ o t, opTakes a q d s o t ∧ p o t = true := by
  unfold opMeets at h
  simp only [Bool.and_eq_true] at h
  obtain ⟨h1, h2⟩ := h
  split at h2
  · rename_i x v hx
    simp only [Bool.and_eq_true] at h2
    obtain ⟨h4, h5⟩ := h2
    split at h5
    · rename_i o ho
      refine ⟨o, _, ⟨h1, x, v, named_names hx, ?_, rfl, ho⟩, h5⟩
      split at h4 <;> simp_all
    · cases h5
  · cases h2

/-- An ALLREDUCE of FP32 sums, 4,096 elements, in two-member group 1 on queue 5. -/
def zop : ZsiOp := { opid := 1, opcode := 1, group := 1, count := 4096, fmt := 2, ofmt := 2, chl := 12 }

def desc : Desc := { descParse descBytes with fmt := 2, ofmt := 2 }

def oper (z : ZsiOp) (home : Bool) : Op :=
  { queue := 5, dseq := 0, group := 1, job := 3, slot := 15, zop := z, desc, home, cepoch := 0, fixed := true, opened := true, startAt := 0 }

def withOpn (z : ZsiOp) (home : Bool) (s : State) : State := { s with ops := [oper z home] }

/-! ## Bulk packets: the last four elements of the one chunk -/

def nodeExt : NodeExt := { group := 1, queue := 5, dseq := 0, chunk := 0, eoff := 4092, ecnt := 4, nodej := 1, rcnt := 1 }

theorem test_partial_meets : let x := { nodeExt with rcnt := 0 }
    let a := arrive 9 2 (.node .partialNode x) (List.replicate 32 0)
    x.pflags.getLsbD 5 = false ∧ opMeets a 5 0 (withOpn zop true islQueue) (fun o t =>
      !(x.pflags.getLsbD 7 && jobIsDet t o.job) && inputFits (opGroup t o).nmem o x) = true := by decide +kernel

theorem test_raw_meets : let a := arrive 9 2 (.node .raw nodeExt) (List.replicate 16 0)
    opMeets a 5 0 (withOpn zop true islQueue) (fun o t =>
      elemsForm o.zop.fmt nodeExt nodeExt.rcnt a.pkt.payload.length && inputFits (opGroup t o).nmem o nodeExt) = true := by
  decide +kernel

theorem test_result_meets : let x := { nodeExt with nodej := 0, rcnt := 0 }
    let a := arrive 9 2 (.node .result x) (List.replicate 16 0)
    opMeets a 5 0 (withOpn zop false islQueue) (fun o t => !o.home &&
      (!isMx (outFmt o) || isEntry o.zop || (x.ecnt % 1024 == 0 && x.eoff % 1024 == 0)) &&
      a.pkt.payload.length == unitBytes o x.eoff x.ecnt && (partAt (opGroup t o).nmem o x.chunk x.nodej x.eoff x.ecnt).isSome) = true := by
  decide +kernel

theorem test_resultMeta_meets :
    opMeets (arrive 9 2 (.resultMeta 1 5 0 0 0) (List.replicate 1296 0)) 5 0 (withOpn zop false islQueue) (fun o _ => !o.home) = true := by decide +kernel

/-! ## The weight-gradient engine -/

/-- One tile of tensor 9: 64 rows by 64 columns, 32 tokens, BF16 inputs, chunks of one member. -/
def wdef : WgradDef :=
  { wtensor := 9, kin := 64, kout := 64, tok := 32, nmb := 1, xfmt := 3, dfmt := 3, xlayout := 0, mask := 0, rowp0 := 0, nrowp := 1,
    colp0 := 0, ncolp := 1, chm := 1, neck := 0, nbuf := 2, order := 0 }

def zopW : ZsiOp := { zop with opcode := 0x0B, extra := .wgrad wdef }

/-- The last slice elements of the last chunk. -/
def sliceExt : NodeExt := { nodeExt with chunk := 1, eoff := 4092, ecnt := 4, nodej := 0, rcnt := 0, pflags := 0x20 }

theorem test_wgradTile_meets : let x := sliceExt
    let a := arrive 9 2 (.node .partialNode x) (List.replicate 32 0)
    let p := fun (o : Op) (t : State) => (wgradOf o.zop).isSome && decide (x.chunk < chunkCount (opGroup t o).nmem o.zop) &&
      decide (x.eoff + x.ecnt ≤ 4096 * blockTiles wdef)
    x.pflags.getLsbD 5 = true ∧
    opMeets a 5 0 (withOpn zopW true islQueue) (fun o t => p o t && o.home && decide (o.combined ≤ x.chunk) &&
      decide (max (runningLevel o) (inputLevel o x.chunk) ≤ x.pflags.toNat % 4)) = true ∧
    opMeets a 5 0 (withOpn zopW false islQueue) (fun o t => p o t && !o.home) = true := by decide +kernel

/-- With a tile ID of its own, the last one. -/
theorem test_runningTile_meets : let g := { wdef with tileIds := [(131071, 131072)] }
    let o := { oper { zopW with extra := .wgrad g } true with tiles := [{ chunk := some 0, full := true }] }
    let s : State := { islQueue with
      ops := [o]
      tileOwn := [{ queue := 5, dseq := 0, ids := [(131071, 131072)] }]
      roles := [(3, { frame := 0, lo := 16383, hi := 16384, role := 2 })] }
    opFind s 5 0 = some o ∧ wgradOf o.zop = some g ∧ o.home = true ∧ o.opened = true ∧ o.status = none ∧ ownsTiles s o = true ∧
    runningHold s o.zop g = true ∧ 0 = o.combined ∧ (chunkTiles o g 0).map (·.1) = some 0 ∧ runningLevel o ≤ 0 := by decide +kernel

/-- A CTRL packet about descriptor 0 of queue 5. -/
def ctrl (c : Nat) (arg : BitVec 64) (payload : List Byte) : Arrival := arrive 9 1 (.ctrl 1 5 0 c arg) payload

theorem test_level_meets : let a := ctrl 3 3 []
    let s := withOpn zopW false islQueue
    (ctrlOf 0x03 a).isSome = true ∧ (receive a s).isOk = true ∧
    ((opFind (commit a (accepted a s)) 5 0).any fun o => (wgradOf o.zop).isSome && !o.home && o.opened && (o.status.isNone || keepsForLevel o)) = true := by decide +kernel

theorem test_masksSatisfied_meets : let a := ctrl 5 0 []
    (ctrlOf 0x05 a).isSome = true ∧ (receive a islQueue).isOk = true := by decide +kernel

/-- A fence whose one covered operation ended OK, at its root and below it; one whose operation ended otherwise; one below a root that
did not complete it. -/
theorem test_phaseFence_meets : ∀ home ∈ [true, false], ∀ end_ ∈ [0, 1],
    let o := oper { zop with opcode := 0x10, extra := .fence [2] } home
    let s : State := { islQueue with ops := [o], ended := [(15, 2, o.desc.step, end_)] }
    opFind s 5 0 = some o ∧ o.opened = true ∧ o.status = none ∧ o.home = home ∧ (∀ c ∈ [2], coveredEnd s o c = some end_) := by
  decide +kernel

/-- The last bytes of the region of X of job 3's tensor 9. -/
theorem test_stream_meets : let a : Arrival := arrive 9 3 (.stream 1 9 1 0 (4096 - 16)) (List.replicate 16 0)
    let a := { a with pkt := { a.pkt with hdr := { a.pkt.hdr with job := 3 } } }
    let z : ZsiSlot := { job := 3, det := true, flen := 8, body := { zsi with ops := [zopW] } }
    let s : State := { islQueue with zsis := [(15, some z)], streams := [{ wtensor := 9, job := 3, nbuf := 2, halves := [{}, {}] }] }
    let t := accepted a s
    (receive a s).isOk = true ∧ jobStopped t a.pkt.hdr.job = false ∧ streamSender t 1 a.pkt.hdr.src = true ∧
    (tensorDef t a.pkt.hdr.job 9).isSome = true ∧ (streamSet t a.pkt.hdr.job 9).isSome = true ∧
    4096 - 16 + a.pkt.payload.length ≤ regionSize wdef 1 ∧ streamEpochBad t a.pkt.hdr.job 9 0 a.pkt.hdr.cepoch = false := by
  decide +kernel

/-! ## The pizzicato path -/

/-- A pizzicato ALLREDUCE of one FP32 sum. -/
def zopP : ZsiOp := { zop with count := 1, pizz := true }

def islPizz (home : Bool) (p : PizzOp) : State :=
  { withOpn zopP home islQueue with pizzOps := [{ p with queue := 5, group := 1, dseq := 0, cepoch := 0 }] }

def pizzExt (sub : Nat) : PizzExt := { group := 1, queue := 5, dseq := 0, sub, nodej := 1, ecnt := 1 }

/-- Queue 5 on an island below its home. -/
def islDown : State := { islGroup with queues := [(5, { state := .active, job := 3, group := 1, poster := 9, prefetch := 4 })] }

/-- The same operation known from its queue's list only: its descriptor has not come. -/
def islListed : State :=
  { islDown with zsis := [(15, some { job := 3, det := true, flen := 8, body := { zsi with ops := [zopP], queues := [(5, [1])] } })] }

/-- A packet takes a pizzicato operation (`pizzTakes`) from a state, and a property of the operation and its state then holds. -/
def pizzMeets (sub : Nat) (a : Arrival) (x : PizzExt) (s : State) (len : State → Op → Nat) (uses : State → Op → Bool)
    (p : Op → State → Bool) : Bool :=
  decide (a.pkt.ext = .pizz x) && x.sub == sub &&
  (named x.queue x.dseq (accepted a s)).any (fun y => y.1.zop.pizz && y.1.group == x.group &&
    a.pkt.payload.length == len (accepted a s) y.1 && (y.1.fixed || uses (accepted a s) { y.1 with fixed := true, cepoch := a.pkt.hdr.cepoch })) &&
  opMeets a x.queue x.dseq s fun o t => p o (pizzOpen o t)

theorem pizzMeets_takes {sub : Nat} {a : Arrival} {x : PizzExt} {s : State} {len : State → Op → Nat} {uses : State → Op → Bool}
    {p : Op → State → Bool} (h : pizzMeets sub a x s len uses p = true) : ∃ o u, pizzTakes sub a s x len uses o u ∧ p o u = true := by
  unfold pizzMeets at h
  simp only [Bool.and_eq_true, beq_iff_eq, decide_eq_true_eq, Option.any_eq_true] at h
  obtain ⟨⟨⟨h1, h2⟩, ⟨y', v'⟩, hy, ⟨⟨h3, h4⟩, h5⟩, hu⟩, h6⟩ := h
  unfold opMeets at h6
  simp only [Bool.and_eq_true, hy] at h6
  obtain ⟨h7, h8, h9⟩ := h6
  split at h9
  · rename_i o ho
    refine ⟨o, _, ⟨h1, h2, h7, y', v', _, named_names hy, h3, h4, h5, fun e => by simpa [e] using hu, ⟨?_, rfl, ho⟩, rfl⟩, h9⟩
    split at h8 <;> simp_all
  · cases h9

/-- The inputs for some ordinals are waited for (`pizzWaits`). -/
def pizzDue (u : State) (o : Op) (ords : List Nat) (ecnt : Nat) : Bool :=
  (pizzFind u o.queue o.dseq).any (fun p => !pizzOverdue u p && ords.all fun i => decide (i ∉ p.arrived)) && decide (ords ≠ []) &&
  ecnt == pizzCount o && ords.all fun i => decide (i ∈ pizzNeeds (opGroup u o).nmem (opEntries u o) o)

theorem pizzDue_waits {u : State} {o : Op} {ords : List Nat} {ecnt : Nat} (h : pizzDue u o ords ecnt = true) : pizzWaits u o ords ecnt := by
  unfold pizzDue at h
  simp only [Bool.and_eq_true, Option.any_eq_true, List.all_eq_true, decide_eq_true_eq, beq_iff_eq] at h
  obtain ⟨⟨⟨⟨p, h1, h2, h3⟩, h4⟩, h5⟩, h6⟩ := h
  exact ⟨p, h1, by simpa using h2, h3, h4, h5, h6⟩

/-- A member's term, a node and a run of one, each for ordinal 1, before and after the descriptor has come. -/
theorem test_pizzInputs_meet : ∀ s ∈ [islPizz true { queue := 5, group := 1, dseq := 0, cepoch := 0 }, islListed],
    (let a := arrive 9 0 (.pizz (pizzExt 1)) (List.replicate 4 0)
     pizzMeets 1 a (pizzExt 1) s (fun _ o => pizzTermBytes o (pizzExt 1))
       (fun t y => pizzUses (pizzMember t y 9).toList 1 t y) fun o u => pizzDue u o (pizzMember u o 9).toList 1) = true ∧
    (let a := arrive 9 0 (.pizz (pizzExt 2)) (List.replicate 16 0)
     pizzMeets 2 a (pizzExt 2) s (fun _ _ => 16) (fun t y => pizzUses (pizzNodeOrds t y (pizzExt 2)) 1 t y) fun o u => pizzDue u o (nodeOrds (opGroup u o).nmem 0 1) 1) = true ∧
    (let x := { pizzExt 3 with rcnt := 1 }
     let a := arrive 9 0 (.pizz x) (List.replicate 4 0)
     pizzMeets 3 a x s (fun _ o => x.rcnt * pizzTermBytes o x) (pizzUses (pizzRunOrds x) 1) fun o u => pizzDue u o [1] 1) = true := by decide +kernel

theorem test_pizzResult_meets : let a := arrive 9 0 (.pizz (pizzExt 4)) (List.replicate 4 0)
    let s := islPizz false { queue := 5, group := 1, dseq := 0, cepoch := 0 }
    pizzMeets 4 a (pizzExt 4) s (pizzResultLen a) (fun _ _ => true) (fun o u =>
      !o.home && (pizzResult o).isNone && !(pizzFind u o.queue o.dseq).any (·.passed)) = true := by decide +kernel

theorem test_pizzDiscard_meets : let a := arrive 9 0 (.pizz (pizzExt 5)) []
    let s := islPizz true { queue := 5, group := 1, dseq := 0, cepoch := 0 }
    ((receive a s).isOk = true ∧ unended (accepted a s) 5 0 = true) ∧
    (receive a islListed).isOk = true ∧ opFind (accepted a islListed) 5 0 = none ∧ unended (accepted a islListed) 5 0 = true := by
  decide +kernel

/-- Exactly 50 us after the first contribution, and exactly 50 us after a packet of the operation went unacknowledged. -/
theorem test_pizzTimeout_meets : let p : PizzOp := { queue := 5, group := 1, dseq := 0, cepoch := 0, firstAt := some 950000 }
    let s := islPizz true p
    let a := arrive 9 0 (.pizz (pizzExt 4)) (List.replicate 4 0)
    let f : TxFlow := { dst := 9, tc := 0, incarn := 0, psn := 1 }
    let t := { s with net := { s.net with tx := [{ f with unacked := [{ psn := 0, at_ := 950000, pkt := a.pkt, why := .pizz 5 0 }] }] } }
    opFind s 5 0 = some (oper zopP true) ∧ pizzFind s 5 0 = some p ∧ (oper zopP true).status = none ∧ pizzOverdue s p = true ∧
    pizzUnanswered t 5 0 = true := by decide +kernel

/-! ## Control messages -/

theorem test_relay_meets : let a := ctrl 1 0 descBytes
    let z : ZsiSlot := { job := 3, det := true, flen := 8, body := { zsi with ops := [{ zop with opid := (descParse descBytes).opid }] } }
    let s : State := { islDown with zsis := [(0, some z)] }
    let t := commit a (accepted a s)
    let x := descParse a.pkt.payload
    (ctrlOf 0x01 a).isSome = true ∧ (receive a s).isOk = true ∧ (jobGet t a.pkt.hdr.job).stopped = none ∧ (zsiOp t x.sched x.opid).isSome = true ∧
    (queueGet t 5).state ≠ .absent ∧ (queueGet t 5).home = false ∧ (opFind t 5 0).any (·.opened) = false := by decide +kernel

theorem test_refused_meets : let a := ctrl 2 0 []
    let s := withOpn zop true islQueue
    let t := commit a (accepted a s)
    (ctrlOf 0x02 a).isSome = true ∧ (receive a s).isOk = true ∧ (queueGet t 5).home = true ∧
    ((opFind t 5 0).any fun o => o.status.isNone) = true := by decide +kernel

theorem test_discard_done_meet : ∀ x ∈ [(4, (5 : BitVec 64)), (6, 9)], (ctrlOf x.1 (ctrl x.1 x.2 [])).isSome = true ∧
    (receive (ctrl x.1 x.2 []) (withOpn zop true islQueue)).isOk = true := by decide +kernel

theorem test_posterCompletion_meets : let o := { oper zop true with status := some 0, poster := some { chip := 9, base := 0 } }
    posterDue o = true := by decide +kernel

theorem test_queueState_meets : let a := ctrl 7 3 []
    let t := commit a (accepted a islDown)
    (ctrlOf 0x07 a).isSome = true ∧ (receive a islDown).isOk = true ∧ (queueGet t 5).home = false ∧ (queueGet t 5).state ≠ .absent ∧
    draining t 5 = false ∧ queueStateOf 3 ≠ .absent := by decide +kernel

/-! ## Domain messages -/

/-- The same packet over cascade port 0. -/
def overCascade (a : Arrival) : Arrival := { a with link := .cascade 0 }

/-- An island of CASC_ID 1 in a domain mastered by CASC_ID 0, or the other way round, with a packet on cascade port 0. -/
def islDomain (master : Bool) (a : Arrival) : State :=
  let own := if master then 1 else 2
  { islGroup with
    ctl := { islGroup.ctl with cascId := own, masterSel := master
                               id := { islGroup.ctl.id with cascaded := true, ownCasc := own, masterCasc := if master then 1 else 0 } }
    casc := [(0, { inPkts := [pktEncode a.pkt] })]
    ports := islGroup.ports ++ [(512, { state := 2 })] }

theorem test_sectionData_meets : let a := overCascade (ctrl 8 0x100000000 [0])
    let s := islDomain false a
    (ctrlOf 0x08 a).isSome = true ∧ (receive a s).isOk = true ∧ fromMaster (commit a (accepted a s)) a = true := by decide +kernel

theorem test_epochRelay_meets : let a := overCascade (ctrl 9 501 [])
    let s := islDomain false a
    (ctrlOf 0x09 a).isSome = true ∧ (receive a s).isOk = true ∧ fromMaster (commit a (accepted a s)) a = true := by decide +kernel

theorem test_sectionChecked_meets : let a := overCascade (ctrl 10 0 [])
    let d : DomainLoad := { cmd := cmd 5 [], shadow := .ok {}, order := [1, 0], waitFor := [0], groups := 1 }
    let s := { islDomain true a with admin := { isl.admin with domain := some d } }
    (ctrlOf 0x0A a).isSome = true ∧ (receive a s).isOk = true ∧ a.link = .cascade 0 ∧
    (commit a (accepted a s)).admin.domain = some d := by decide +kernel

/-! ## Time -/

theorem test_tsyncReq_meets : (receive (arrive 9 1 (.tsync 1 5 0 0 0 0 0) []) isl).isOk = true := by decide +kernel

/-- The island asks its parent, chip 9 on port 0, with TSEQ 5. -/
def islAsked : State :=
  { isl with
    time := { isl.time with asked := some 999000, answered := false, tseq := 5, parent := some 0 }
    ctl := { isl.ctl with id := { isl.ctl.id with wiring := [(0, { kind := 2, tup := true, chip := 9 })] } } }

/-- An answer of a parent at most 3 hops from the root. -/
theorem test_tsyncRsp_meets : let a := arrive 9 1 (.tsync 2 5 0 0 999500 999500 3) []
    (receive a islAsked).isOk = true ∧ (accepted a islAsked).time.asked = some 999000 ∧
    answersExchange (accepted a islAsked) a 5 3 = true := by decide +kernel

theorem test_tsyncExchange_meets : ∀ root ∈ [true, false],
    let s : State := { isl with time := { isl.time with rootReg := root, nextExch := 1000000 } }
    discovers s = true ∧ s.time.nextExch ≤ s.time.gcount ∧ s.time.rootReg = root := by decide

theorem test_holdover_meets : let h : Holdover := { since := 990000, parent := none }
    let s : State := { isl with time := { isl.time with gcount := 10990000, holdover := some h } }
    s.time.holdover = some h ∧ discovers s = true ∧ h.since + 10000000 ≤ s.time.gcount ∧ s.fault.classes.getLsbD 18 = false := by
  decide

def islTop : State := { isl with time := { isl.time with gcount := 2 ^ 64 - 1 } }

theorem test_gcountLimit_meets : regsUp islTop = true ∧ islTop.time.gcount = gcountTop ∧ islTop.fault.gcLimit = false ∧
    islTop.pending = [] := by decide

/-! ## Discovery: leaf port 0 is wired to a chip, port 4 to an island -/

def islPorts (p : Port) : State :=
  { islAsked with
    mods := [(0, { state := 1 }), (1, { state := 1 })]
    ports := if p = {} then [] else [(0, p)]
    ctl := { islAsked.ctl with id := { islAsked.ctl.id with wiring := [(0, { kind := 2, chip := 9, expId := 77, expPort := 40 })] } } }

/-- A DISC message of the island at the other end of port 0. -/
def disc (sub : Nat) (id : BitVec 64) : DiscExt := 
  { sub, revs := 3, iport := 40, islandId := id, skind := 2, reason := if sub = 6 then 1 else 0 }

def discA (sub : Nat) (id : BitVec 64) : Arrival := arrive 9 1 (.disc (disc sub id)) []

/-- Every SUB arrives; a REPLY that passes every check, and one whose island ID is another. -/
theorem test_disc_meets :
    (∀ sub ∈ [1, 2, 3, 4, 5, 6], let a := discA sub 77
      let t := accepted a (islPorts { state := 1 })
      (receive a (islPorts { state := 1 })).isOk = true ∧ arrivalPort t a = 0 ∧ portWired t 0 = true ∧ (portGet t 0).state ≠ 2) ∧
    (∀ c ∈ replyChecks (islPorts {}) 0 9 (disc 2 77), c.2 = true) ∧
    (replyChecks (islPorts {}) 0 9 (disc 2 78)).find? (fun c => !c.2) = some (2, false) := by decide +kernel

theorem test_echoRsp_meets : ∀ src ∈ [9, 0xFFFF], let a := arrive src 1 (.disc (disc 5 77)) []
    let t := accepted a (islPorts { state := 2 })
    (receive a (islPorts { state := 2 })).isOk = true ∧ (portGet t 0).state = 2 ∧ portWired t 0 = true := by decide +kernel

theorem test_discoveryTimers_meet :
    (let s := islPorts { state := 3, nextDisc := 1000000 }
     discovers s = true ∧ portWired s 0 = true ∧ linkActive s 0 = true ∧ (portGet s 0).state ≠ 2 ∧ (portGet s 0).nextDisc ≤ s.time.gcount) ∧
    (let s := islPorts { state := 1, passed := some 999999, confirmed := some 999998 }
     upDue s (portGet s 0) = true) ∧
    (let s := islPorts { state := 2, echoOut := true, echoMiss := 2, nextDisc := 1000000 }
     (portGet s 0).state = 2 ∧ (portGet s 0).nextDisc ≤ s.time.gcount ∧ (portGet s 0).echoMiss + 1 < 4) ∧
    (let s := islPorts { state := 2, echoOut := true, echoMiss := 3, nextDisc := 1000000 }
     (portGet s 0).echoOut = true ∧ 3 ≤ (portGet s 0).echoMiss) := by decide +kernel

theorem test_qdepth_meets : (receive (arrive 0 1 (.qdepth [1, 2, 3, 65535]) []) isl).isOk = true := by decide +kernel

/-- A depth is stale more than 1 us after it came. -/
theorem test_qdepthStale_meets : let s : State := { isl with net := { isl.net with depths := [(3, (500, 999000))] } }
    Table.get (0, 0) s.net.depths 3 = (500, 999000) ∧ 999000 ≠ 0 ∧ 999000 + 1000 < s.time.gcount + 1 := by decide

/-! ## Cascade flits, lanes and modules -/

/-- Cascade port 3 with every lane ACTIVE after a marker; the lanes of its cable are swapped end for end. -/
def islCasc : State :=
  { isl with casc := [(3, { lanes := (List.range 16).map fun n =>
      { tx := .active, rx := .active, laneId := 15 - n, scram := scramSeed (15 - n), txScram := scramSeed n } })] }

/-- The words that bytes give on the lanes of such a cable. -/
def wire (b : List Byte) : List (List Pam4) := (wireFlit (cascGet islCasc 3) b).1.reverse

/-- A flit of one type and sequence number, with no packet. -/
def flit (ftype : Nat) (seq : BitVec 12) : Flit :=
  { ackseq := 0, fseq := seq, sop := 0xFF, cred := 0, ccls := 0, ftype, payload := List.replicate 240 0 }

set_option maxRecDepth 100000 in
/-- The receiver reads these flits with nothing corrected: a filler, three DATA flits, a NAK. -/
theorem test_flits_meet : ∀ x ∈ [(0, (0 : BitVec 12)), (1, 0), (1, 4095), (1, 1), (2, 0)],
    let b := flitBytes (flit x.1 x.2)
    regsUp islCasc = true ∧ b.length = 272 ∧ (cascUp (cascGet islCasc 3)).2 = true ∧
    flitRead b = some (some (flit x.1 x.2), 0) := by
  intro x hx
  have read : ∀ x ∈ [(0, (0 : BitVec 12)), (1, 0), (1, 4095), (1, 1), (2, 0)],
      ([(flitBytes (flit x.1 x.2), 0)].find? fun w => fld w.1 251 248 == (crc32 (w.1.take 248)).toNat).map
        (fun w => (flitFields w.1, w.2)) = some (some (flit x.1 x.2), 0) := by decide +kernel
  refine ⟨by decide, flitBytes_length List.length_replicate, by decide +kernel, ?_⟩
  unfold flitRead
  rw [rsCorrect_flit (f := flit x.1 x.2) List.length_replicate]
  exact read x hx

set_option maxRecDepth 100000 in
/-- The words of a flit, and those of bytes that no flit gives, arrive as they were sent. -/
theorem test_words_meet : ∀ b ∈ [flitBytes (flit 1 0), List.replicate 272 0], wordsWhole (wire b) = true ∧
    (laneFlit (cascGet islCasc 3) (wire b)).1 = b := by decide +kernel

set_option maxRecDepth 100000 in
theorem test_damagedFlit_meets : flitRead (List.replicate 272 0) = none := by decide +kernel

theorem test_flitOrder_meets : (cascGet islCasc 3).rxSeq = 0 ∧ seqBehind (cascGet islCasc 3) 4095 = true ∧
    seqBehind (cascGet islCasc 3) 1 = false := by decide +kernel

theorem test_replayTimeout_meets : regsUp islCasc = true ∧ (cascUp (cascGet islCasc 3)).1 = true ∧
    (cascGet islCasc 3).ackAt + 1000 ≤ islCasc.time.gcount := by decide +kernel

/-- Lanes 0 to 3 of port 3: one that aligns, one that equalises, one locked and one ACTIVE after a slip, each with its last marker
5,240 ns ago. -/
theorem test_lanes_meet : let ls : List Lane :=
      [{ rx := .align }, { rx := .eq }, { rx := .align, amlock := true, markerAt := 994760 }, { rx := .active, markerAt := 994760 }]
    let s : State := { isl with casc := [(3, { lanes := ls ++ List.replicate 12 {} })] }
    let l := fun i => (cascGet s 3).lanes.getD i {}
    regsUp s = true ∧ (l 0).rx = .align ∧ markerRead (markerWord 15) = some 15 ∧ markerRead (List.replicate 68 .m3) = none ∧
    (l 1).rx = .eq ∧ (l 2).amlock = true ∧ (l 2).markerAt + 5240 ≤ s.time.gcount ∧ (l 3).rx = .active ∧
    (l 3).markerAt + 5240 ≤ s.time.gcount := by decide +kernel

theorem test_modules_meet : let s : State := { isl with mods := [(0, { state := 1 }), (126, { state := 3 }), (127, { state := 2, retryAt := 1000000 })] }
    regsUp s = true ∧ (modGet s 0).state = 1 ∧ (modGet s 126).state = 3 ∧ (modGet s 127).state = 2 ∧
    (modGet s 127).retryAt ≤ s.time.gcount := by decide +kernel

/-! ## Frames -/

theorem test_frameTick_meets : tickOpen isl = true ∧ ∀ k < 9, stepDue k isl = false := by decide +kernel

theorem test_tickSteps_meet :
    stepTurn 2 { isl with ops := [{ oper zop true with release := true }] } = true ∧
    stepTurn 8 { isl with time := { isl.time with len := 4, lenAt := some 1000000 } } = true := by decide +kernel

/-- The four-element sum with both contributions staged, its one chunk planned at the tick of ZSI frame 0. -/
def chunk (st : ChunkState) : ChunkSt :=
  { plan := { chunk := 0, frame := 0, commit := 0, workEnd := 1000, stride := 1, neck := 0 }, state := st, attempt := 0, committedIn := 500 }

def operC (st : ChunkState) (here : List Nat) : Op :=
  { oper { zop with count := 4 } true with
    chunks := [chunk st]
    pieces := here.map fun i => { step := 0, chunk := 0, place := .leaf i, off := 0, len := 4, data := .elems (List.replicate 16 0) } }

def islFrame (o : Op) : State := { islQueue with ops := [o], jobs := [(3, { f0 := some 500 })] }

theorem test_chunks_meet :
    (∀ st ∈ [ChunkState.waiting, .slipped], ∀ here ∈ [[0, 1], [0]], let o := operC st here
      let s := islFrame o
      opFind s 5 0 = some o ∧ o.opened = true ∧ o.chunks[0]? = some (chunk st) ∧ opWorks o = true ∧ atCommit s o (chunk st) = true ∧
      chunkReady s o 0 (chunk st) = decide (here = [0, 1]) ∧ (o.skipped && decide (3 ≤ (chunk st).plan.kind)) = false) ∧
    (let o := operC .committed [0, 1]
     opFind (islFrame o) 5 0 = some o ∧ opWorks o = true ∧ (chunk .committed).committedIn = frameNo (islFrame o)) ∧
    (let o := operC .replayPending [0, 1]
     let c := chunk .replayPending
     let s := islFrame o
     opFind s 5 0 = some o ∧ atCommit s o c = true ∧ chunkReady s o 0 c = true ∧
     replayNeed o c + ((reserveOps s o).map reserveUsed).sum + ((reserveOps s o).map reserveHeld).sum ≤ (opGroup s o).rresRb) := by
  decide +kernel

/-- A chunk of an operation that its queue's list names and whose descriptor has not come. -/
theorem test_earlySlip_meets : let z := { zop with count := 4, chunks := [(chunk .waiting).plan] }
    let s := { islListed with zsis := [(15, some { job := 3, det := true, flen := 8, body := { zsi with ops := [z], queues := [(5, [1])] } })] }
    (opFind s 5 0).filter (·.opened) = none ∧ (unopened s 5 0).map (·.zop.chunks[0]?) = some (some (chunk .waiting).plan) := by decide +kernel

/-! ## Faults of units and storage -/

/-- A fret and the spare of the last string. -/
theorem test_fretFault_meets : regsUp isl = true ∧ fretReports (strGet isl 1023) 0 = true ∧ fretReports (strGet isl 1023) 16 = true ∧
    dieServes isl 63 = true ∧ (∀ c ∈ [FretCause.ecc 0, .residue, .lane], c ≠ .scrub 0) := by decide +kernel

theorem test_retest_meets : let s : State := { isl with strs := [(1023, { repair := true, testing := [16], times := [(16, 1), (16, 2)] })] }
    (strGet s 1023).repair = true ∧ 16 ∈ (strGet s 1023).testing ∧ thirdReport (strGet s 1023) 16 = false := by decide +kernel

theorem test_spare_meets : let s : State := { isl with strs := [(1023, { repair := true, swapAt := some (999000, 3) })] }
    stepTurn 5 s = true ∧ 1023 ∈ repairsDue s := by decide +kernel

theorem test_die_meets : let s : State := { isl with dies := [(63, { state := 2, fails := 1 })] }
    regsUp s = true ∧ s.power.gated = false ∧ dieServes isl 63 = true ∧ (strGet isl 1023).out = false ∧ returnDue s (Table.get {} s.dies 63) = true ∧
    (Table.get {} s.dies 63 : Die).fails < 2 := by decide +kernel

/-- A die whose third return test can fail. -/
theorem test_dieGone_meets : let s : State := { isl with dies := [(63, { state := 2, fails := 2 })] }
    s.power.gated = false ∧ returnDue s (Table.get {} s.dies 63) = true ∧ 2 ≤ (Table.get {} s.dies 63 : Die).fails := by decide +kernel

/-- Items in the necks and at the addresses that hold them: queue 5's context, the last byte of its ring, and storage of no item at the
top of island HBM. -/
theorem test_errorRegions_meet : tsramHolds islQueue 5 (.queueContext 5) = true ∧ tsramHolds islQueue 8 .blackBoxCopy = true ∧
    (let a := 0x7810000000 + 64 * 64 - 1
     a < hbmTop ∧ addrStack a = 10 ∧ hbmHolds islQueue (.ringSlot (a / 64 * 64)) a = true) ∧
    addrStack (hbmTop - 1) = 31 ∧ hbmHolds islQueue .unclaimed (hbmTop - 1) = true := by decide +kernel

theorem test_corrected_meets : ceNeck (.stack 31) = some 15 ∧ 16 ≤ isl.ctl.ceThr ∧
    (count 0x1B 15 17 {} isl).ctl.ceThr < 17 ∧ ceRaised (count 0x1B 15 17 {} isl) (.stack 31) = false := by decide +kernel

/-! ## Fatal faults, power and reset -/

theorem test_fatal_meets : regsUp isl = true ∧ isl.ctl.state ≠ .faulted ∧
    (let s : State := { isl with ctl := { isl.ctl with state := .tuning } }
     regsUp s = true ∧ s.ctl.state ≠ .faulted) ∧
    (FatalClass.trim ∈ [FatalClass.pegbox, .trim, .tuning]) := by decide

def islFaulted : State :=
  { isl with ctl := { isl.ctl with state := .faulted }, fault := { isl.fault with classes := 0x10000, erasing := true } }

/-- A further fatal class in FAULTED, with and without a flush that runs. -/
theorem test_furtherFatal_meets : islFaulted.ctl.state = .faulted ∧ islFaulted.power.gated = false ∧ islFaulted.fault.flush = none ∧
    FatalClass.base ∉ [FatalClass.pegbox, .trim, .tuning, .thermal] := by decide

theorem test_clearFault_meets : let c := cmd 0x10 [(8, 4, 0x10000)]
    adminTakes 0x10 c (withCmd c islFaulted) := by unfold adminTakes; decide +kernel

theorem test_flush_meets : regsUp isl = true ∧ isl.fault.flush = none ∧ isl.fault.erasing = false ∧ islFaulted.fault.erasing = true ∧
    ({ isl.fault with flush := some { slot := 0, seq := 1, fclass := 0, gcount := 0, records := [] } } : FaultSt).flush ≠ none := by
  decide

theorem test_power_meets : tempGated isl 127 = false ∧ isl.ctl.state ≠ .faulted ∧ 1000 < 1001 ∧
    pulseTakes isl 50 = true ∧ (let s : State := { isl with ctl := { isl.ctl with swresetAt := some 1000000 } }
      ∃ t, s.ctl.swresetAt = some t ∧ t ≤ s.time.gcount) := by
  refine ⟨by decide +kernel, by decide, by decide, by decide +kernel, 1000000, rfl, by decide⟩

/-- The last compute or base die and the last power stage at their critical temperatures, a supply sample that stops a stage whatever its
thresholds, and one that stops none. -/
theorem test_supply_meets : (79 < 80 ∧ (125 : Int) ≤ 125) ∧ (112 ≤ 127 ∧ 127 < 128 ∧ (140 : Int) ≤ 140) ∧ regsUp isl = true ∧
    isl.power.critIn = none ∧ stageStops 464 = true ∧ stageStops 530 = false ∧ regsUp State.reset = false := by
  refine ⟨by decide, by decide, by decide, rfl, ?_, ?_, rfl⟩
  · simp only [stageStops, Bool.or_eq_true, decide_eq_true_eq]
    omega
  · have := Config.lockoutFalling.isLt
    simp only [stageStops, Bool.or_eq_false_iff, decide_eq_false_iff_not]
    omega

theorem test_powerGood_meets : State.reset.ctl.state = .reset ∧ State.reset.power.stagesOff = false ∧ State.reset.power.lockout = false :=
  ⟨rfl, rfl, rfl⟩

/-! ## Registers -/

/-- A write of a whole word. -/
def wr (a v : Nat) : RegWrite := { addr := a, value := BitVec.ofNat 32 v, mask := 0xFFFFFFFF }

theorem test_registerWrites_meet : regsUp isl = true ∧
    ((wr 0x0008 1).mask.getLsbD 0 = true ∧ (wr 0x0008 1).value.getLsbD 0 = true) ∧ bits (wr 0x0018 64).mask.toNat 6 0 = 127 ∧
    anyRunning isl = false ∧ anyArmed isl = false ∧ (inDomain isl = true → isMaster isl = true) ∧ (wr 0x0020 1).mask.getLsbD 0 = true ∧
    anyRunning (islFrame (operC .waiting [])) = true := by decide +kernel

/-- Lane 15 of port 3, a port that is not the island's own and one that is, meter 16383, routing entry 65535 word 7. -/
theorem test_linkRegisters_meet : unreachable isl 12 = false ∧ 3 ≠ isl.ctl.cascId % 4 ∧ 0 = isl.ctl.cascId % 4 ∧ unreachable isl 0 = false ∧ unreachable isl 15 = false ∧
    ({ addr := 0x11000 + 64 * 3 + 4 * 15, value := 0x100, mask := 0x100 } : RegWrite).value.getLsbD 8 = true ∧
    (wr (0x40000 + 16 * 16383) 0).addr = 0x7FFF0 ∧ (wr (0x600000 + 32 * 65535 + 4 * 7) 0).addr = 0x7FFFFC := by decide +kernel

theorem test_pmc_meets : (∀ k < 3, cutOff isl (0x20000 + 4 * k + 16 * 1087) = false) ∧ setNow .freeze isl = false ∧
    setNow .freeze (noteSet .freeze isl) = true ∧
    (let s : State := { isl with obs := { isl.obs with arm := true, frzLo := 1000000 } }
     s.obs.arm = true ∧ freezeCount s ≤ s.time.gcount) := by decide +kernel

/-! ## Pegbox, windows and the test port -/

theorem test_pegbox_meets : let s : State := { isl with ctl := { isl.ctl with pegcopy := 0 }, peg := { isl.peg with foff := 0x500000, len := 0x400000 } }
    s.peg.cmd = none ∧ pegRangeOk s = true ∧ pegAligned 65536 s = true ∧ pegAligned 256 s = true ∧
    ∀ c ∈ [1, 2, 3, 4], ({ s.peg with cmd := some c } : Peg).cmd ≠ none := by decide +kernel

theorem test_window_meets : let s : State := { isl with obs := { isl.obs with bwCtl := 0x80000001 } }
    bwEn s = true ∧ isTick s s.time.gcount = true ∧ frameNo s % bwWfr s = 0 ∧ s.obs.bwOpen ≠ some (frameNo s / bwWfr s) := by
  decide +kernel

theorem test_tap_meets : ∃ e : TckEdge, e.rising = true ∧ ∃ f : TckEdge, f.rising = false ∧ isl.tap.state = .testLogicReset :=
  ⟨{ rising := true, tms := false, tdi := false }, rfl, { rising := false, tms := false, tdi := false }, rfl, rfl⟩

/-! ## Invariants and rules of the whole machine -/

theorem test_reset_meets_invariants : State.reset.memOk ∧ State.reset.faultOk ∧ State.reset.queueOk ∧
    (∃ t, step State.reset = .next t) := ⟨by unfold State.memOk; decide, by unfold State.faultOk; decide, by unfold State.queueOk; decide, _, rfl⟩

/-- The forms of an idle step: counter stopped, held, running, at its limit; the last nanosecond of a critical shutdown, and the one before
it. -/
theorem test_idle_meets : State.reset.pending = [] ∧ State.reset.time.running = false ∧ isl.pending = [] ∧ isl.time.running = true ∧
    isl.time.hold = 0 ∧ isl.time.gcount < 2 ^ 64 - 1 ∧ (let s : State := { isl with time := { isl.time with hold := 1 } }
      s.time.running = true ∧ 0 < s.time.hold) ∧ islTop.time.running = true ∧ islTop.time.hold = 0 ∧
    2 ^ 64 - 1 ≤ islTop.time.gcount ∧ stagesEnd isl = false ∧ (∀ o ∈ isl.ops, o.hit = none) ∧ (∀ h ∈ State.reset.shards, h.journal = []) ∧
    (let s := fun (n : Nat) => ({ isl with power := { isl.power with critIn := some n } } : State)
     stagesEnd (s 1) = true ∧ stagesEnd (s 2) = false ∧ regsUp (s 1) = true) := by decide

/-- Two commands leave the queue in the order they stand in. -/
theorem test_queueIsFifo : let s : State := { isl with pending := [.trstLow, .gcountLoRead] }
    step s = exec .trstLow { s with pending := [.gcountLoRead] } := rfl

theorem test_noWordSpellsACommand : decodeTableWord 0 0 = none ∧ decodeTableWord 64 1 = none ∧ isl.withFetchWord 64 1 = isl := ⟨rfl, rfl, rfl⟩

/-- A FAULTED island that CLEAR_FAULT leaves, one that a RESET leaves, and a READY one that a thermal trip takes into FAULTED. -/
theorem test_faultMoves_meet : islFaulted.faultOk ∧ isl.faultOk ∧
    (∃ c ∈ ({ islFaulted with pending := [.clearFault] } : State).pending.head?, mayLeaveFaulted c = true) ∧
    stagesEnd ({ islFaulted with power := { islFaulted.power with critIn := some 1 } } : State) = true ∧
    mayFault (.fatalFault .thermal) = true ∧ tapInstr islFaulted ≤ 2 := by unfold State.faultOk; decide +kernel

/-- Commands that the guards of the storage rule and of the counter rule let through. -/
theorem test_storageGuards_meet : writesHbm .gcountLoRead = false ∧ writesFlash .gcountLoRead = false ∧ drivesTap .gcountLoRead = false ∧
    restartsCount .gcountLoRead = false ∧ restartsCount .frameTick = false := by decide

/-- A packet with a given extension, every bit of the header fields above it set. -/
def full (x : Ext) (n : Nat) : Packet :=
  let h : Hdr := { ver := 255, tc := 7, color := 3, retx := true, hlen := extHlen x, src := 65535, dst := 65535 }
  { hdr := { h with repoch := 255, cepoch := 255, psn := 0xFFFFFFFF, job := 65535, incarn := 0xFFFF }, ext := x,
    payload := List.replicate n 0xFF }

def fullNode : NodeExt :=
  { group := 65535, queue := 65535, dseq := 0xFFFFFFFF, chunk := 2 ^ 32 - 1, eoff := 2 ^ 32 - 1, ecnt := 65535, stepno := 65535,
    nodej := 65535, nodel := 255, pflags := 0xFF, rcnt := 65535 }

def fullPizz : PizzExt :=
  { group := 65535, queue := 65535, dseq := 0xFFFFFFFF, sub := 255, pflags := 0xFF, nodel := 255, nodej := 65535, rcnt := 65535, ecnt := 65535 }

def fullDisc : DiscExt :=
  { sub := 255, revs := 0xFF, agreed := 255, portsel := 3, iport := 65535, assign := 65535, islandId := -1, pegseq := -1, skind := 255,
    master := true, cascId := 3, reason := 255 }

/-- One packet of each type with every field at the top of its range. -/
def fullExts : List Ext :=
  [.write (2 ^ 48 - 1), .read (2 ^ 48 - 1) (2 ^ 32 - 1) (-1), .readRsp (-1) 255, .ack (-1) (-1) (2 ^ 32 - 1), .node .partialNode fullNode,
   .node .raw fullNode, .node .result fullNode, .resultMeta 65535 65535 (-1) (-1) 255, .stream 65535 65535 255 (-1) (2 ^ 48 - 1),
   .pizz fullPizz, .ctrl 65535 65535 (-1) 255 (-1), .tsync 255 (-1) (2 ^ 32 - 1) (2 ^ 32 - 1) (2 ^ 64 - 1) (2 ^ 64 - 1) 255,
   .disc fullDisc, .qdepth [65535, 65535, 65535, 65535]]

theorem test_packetFits_meets : ∀ x ∈ fullExts, packetFits (full x 1) = true := by decide +kernel

/-- The top fields of each type come back, and so does the longest payload. -/
theorem test_packetTop : ∀ x ∈ fullExts, pktDecode (pktEncode (full x 0)) = some (full x 0, true, true) := by decide +kernel

theorem test_flitFits_meets : flitFits (flit 0 0) = true ∧ flitFits { flit 2 4095 with ackseq := 4095, sop := 255, cred := 65535, ccls := 5 } = true := by
  decide +kernel

/-- A counter below saturation and a saturated one. -/
theorem test_counterCases_meet : ({ value := 5 } : Ctr).sat = false ∧ ({ value := ctrMax, sat := true } : Ctr).sat = true ∧
    (addValue { value := ctrMax - 1 } 1).sat = true ∧ (addValue { value := 0 } (ctrMax - 1)).sat = false ∧
    [(1 : BitVec 64), 2].Perm [2, 1] := by
  refine ⟨rfl, rfl, by decide, by decide, List.Perm.swap _ _ _⟩

theorem test_setUnderflow_meets : (ctrGet islCtr 65535).err = false ∧ (ctrGet islCtr 65535).sat = false ∧
    (4 : BitVec 64).toNat < (ctrGet islCtr 65535).value.toNat ∧ Table.wf {} islCtr.ctrs = true := by decide +kernel

/-- A waiter that a change to 6 satisfies goes, one at 7 stays. -/
theorem test_waiters : let w : Waiter := { ctr := 65535, job := 3, exp := 6, tag := 1, chip := 9, retOff := 0, expiry := none }
    (ctrChange 65535 { value := 6, owner := some 3 } { islCtr with waiters := [w, { w with exp := 7, tag := 2 }] }).waiters.map (·.tag) = [2] := by
  decide +kernel

/-- A frame length from 2 us to 3 us takes effect at the next multiple of 6 us. -/
theorem test_lengthChange : lengthChangeAt 1000000 8 12 = 1002000 ∧ lengthChangeAt 1002000 8 12 = 1008000 ∧
    (let s : State := { isl with time := { isl.time with len := 4, lenAt := some 1000000 } }
     stepTurn 8 s = true) := by decide +kernel

theorem test_adminChecks_meet :
    fld ({ cmd 2 [] with bytes := image 64 [(0, 1, 1), (1, 1, 2)] } : AdminCmd).bytes 0 0 ≠ 2 ∧
    (fld (cmd 4 [(14, 1, 1)]).bytes 0 0 = 2 ∧ adminReserved (cmd 4 [(14, 1, 1)]).bytes = some 14) ∧
    (fld (cmd 0x11 []).bytes 0 0 = 2 ∧ adminReserved (cmd 0x11 []).bytes = none ∧ adminArgs (fld (cmd 0x11 []).bytes 1 1) = none) ∧
    (fld (cmd 0x10 []).bytes 0 0 = 2 ∧ adminReserved (cmd 0x10 []).bytes = none ∧ adminArgs (fld (cmd 0x10 []).bytes 1 1) ≠ none) := by
  decide +kernel

theorem test_committed_meets : sequenced (arrive 9 1 (.write 0) []).pkt.ext = true ∧
    (rxBase isl (arrive 9 1 (.write 0) [])).ahead.length < 2 ^ 31 - 1 := by decide +kernel

theorem test_candidates_meet : let a : Cand := { elem := .nan, ord := 0, idx := 0 }
    a.ord ≠ ({ a with ord := 1 } : Cand).ord := by decide

theorem test_alignedNode : alignedNode 6 [4, 5] = some (1, 2) ∧ alignedNode 5 [4] = some (0, 4) ∧ alignedNode 6 [1, 2] = none := by decide

/-- Another chip than the manager, and the manager with a wrong MAC. -/
theorem test_authentication_meets : managerIs isl (fld (cmd 8 []).bytes 2 2) 9 = false ∧ managerIs isl (fld (cmd 8 []).bytes 2 2) 7 = true ∧
    fld (cmd 8 []).bytes 1 1 ≠ 1 := by decide +kernel

/-- The regions and units at the ends of their ranges, for an island whose registers are up. -/
theorem test_storage_meets : regsUp isl = true ∧ ceNeck (.stack 31) = some 15 ∧ isl.admin.snaps = [] := by decide +kernel

/-! ## Well-formed commands -/

/-- A packet arrival with one field of the header out of range. -/
def badHdr (f : Hdr → Hdr) : Arrival := { bell with pkt := { bell.pkt with hdr := f bell.pkt.hdr } }

def badExt (x : Ext) : Arrival := { bell with pkt := { bell.pkt with ext := x } }

/-- One ill-formed command for each check, in three lists. -/
def illPackets : List Instr :=
  [.doorbell (badHdr fun h => { h with ver := 256 }), .doorbell (badHdr fun h => { h with tc := 8 }),
   .doorbell (badHdr fun h => { h with color := 4 }), .doorbell (badHdr fun h => { h with hlen := 256 }),
   .doorbell (badHdr fun h => { h with src := 65536 }), .doorbell (badHdr fun h => { h with dst := 65536 }),
   .doorbell (badHdr fun h => { h with job := 65536 }), .doorbell { bell with link := .module 128 },
   .doorbell { bell with link := .cascade 4 }, .doorbell { bell with pkt := { bell.pkt with payload := List.replicate 8192 0 } },
   .doorbell (badExt (.write (2 ^ 48))), .readRefused (badExt (.read (2 ^ 48) 0 0)), .readRefused (badExt (.read 0 (2 ^ 32) 0)),
   .readRsp (badExt (.readRsp 0 256)), .ack (badExt (.ack 0 0 (2 ^ 32))), .raw (badExt (.node .raw { fullNode with group := 65536 })),
   .raw (badExt (.node .raw { fullNode with queue := 65536 })), .raw (badExt (.node .raw { fullNode with chunk := 2 ^ 32 })),
   .raw (badExt (.node .raw { fullNode with eoff := 2 ^ 32 })), .raw (badExt (.node .raw { fullNode with ecnt := 65536 })),
   .raw (badExt (.node .raw { fullNode with stepno := 65536 })), .raw (badExt (.node .raw { fullNode with nodej := 65536 })),
   .raw (badExt (.node .raw { fullNode with nodel := 256 })), .raw (badExt (.node .raw { fullNode with rcnt := 65536 })),
   .resultMeta (badExt (.resultMeta 65536 0 0 0 0)), .resultMeta (badExt (.resultMeta 0 65536 0 0 0)),
   .resultMeta (badExt (.resultMeta 0 0 0 0 256)), .stream (badExt (.stream 65536 0 0 0 0)), .stream (badExt (.stream 0 65536 0 0 0)),
   .stream (badExt (.stream 0 0 256 0 0)), .stream (badExt (.stream 0 0 0 0 (2 ^ 48))), .doorbell (badExt (.reserved 1)),
   .doorbell (badExt (.reserved 0x0F)), .doorbell (badExt (.reserved 256))]

def illExtensions : List Instr :=
  [.pizzNode (badExt (.pizz { fullPizz with group := 65536 })), .pizzNode (badExt (.pizz { fullPizz with queue := 65536 })),
   .pizzNode (badExt (.pizz { fullPizz with sub := 256 })), .pizzNode (badExt (.pizz { fullPizz with nodel := 256 })),
   .pizzNode (badExt (.pizz { fullPizz with nodej := 65536 })), .pizzNode (badExt (.pizz { fullPizz with rcnt := 65536 })),
   .pizzNode (badExt (.pizz { fullPizz with ecnt := 65536 })), .level (badExt (.ctrl 65536 0 0 0 0)),
   .level (badExt (.ctrl 0 65536 0 0 0)), .level (badExt (.ctrl 0 0 0 256 0)), .tsyncReq (badExt (.tsync 256 0 0 0 0 0 0)),
   .tsyncReq (badExt (.tsync 0 0 (2 ^ 32) 0 0 0 0)), .tsyncReq (badExt (.tsync 0 0 0 (2 ^ 32) 0 0 0)),
   .tsyncReq (badExt (.tsync 0 0 0 0 (2 ^ 64) 0 0)), .tsyncReq (badExt (.tsync 0 0 0 0 0 (2 ^ 64) 0)),
   .tsyncReq (badExt (.tsync 0 0 0 0 0 0 256)), .hello (badExt (.disc { fullDisc with sub := 256 })),
   .hello (badExt (.disc { fullDisc with agreed := 256 })), .hello (badExt (.disc { fullDisc with portsel := 4 })),
   .hello (badExt (.disc { fullDisc with iport := 65536 })), .hello (badExt (.disc { fullDisc with assign := 65536 })),
   .hello (badExt (.disc { fullDisc with skind := 256 })), .hello (badExt (.disc { fullDisc with cascId := 4 })),
   .hello (badExt (.disc { fullDisc with reason := 256 })), .qdepth (badExt (.qdepth [0, 0, 0])),
   .qdepth (badExt (.qdepth [0, 0, 0, 65536]))]

/-- A word of 68 levels on each of 16 lanes. -/
def laneWords : List (List Pam4) := List.replicate 16 (List.replicate 68 .m3)

def illOperands : List Instr :=
  [.adminAseqTimeout 8, .queueDrained 0, .queueDrained 8192, .jobStart 65536, .shadowOpen 2, .unitRejoin 64, .waitTimeout 65536 0,
   .helloPeriod 516, .e2eRetransmit 65536 0 0, .e2eRetransmit 0 8 0, .cascadeDataFlit 4 laneWords, .cascadeDataFlit 0 [], .cascadeIdleFlit 4 laneWords, .cascadeNakFlit 0 (laneWords.drop 1),
   .alignmentMarker 4 0 (markerWord 0), .alignmentMarker 0 16 (markerWord 0), .alignmentMarker 0 0 [], .ucieModuleDown ⟨128, 0⟩, .ucieModuleDown ⟨0, 2⟩,
   .tsyncRsp ⟨badExt (.ack 0 0 0), 128⟩,
   .fretFault ⟨1024, 0⟩ 0 .lane, .fretFault ⟨0, 0⟩ 17 .lane, .fretFault ⟨0, 4⟩ 0 .residue, .stringFault ⟨⟨1024, 0⟩, true⟩,
   .stringFault ⟨⟨0, 3⟩, false⟩, .dieFault ⟨64, 0⟩ .rail, .dieFault ⟨0, 2⟩ .bond, .criticalShutdown { index := 128, temp := 140 },
   .ucieRetrain 128 none, .tsramError ⟨16, 0⟩ .unclaimed 0, .tsramError ⟨0, 2⟩ .unclaimed 0,
   .hbmError ⟨32, 0⟩ .unclaimed 0, .hbmError ⟨0, 2⟩ .unclaimed 0, .xbarFault ⟨16, 0⟩, .xbarFault ⟨0, 2⟩, .tempSample 128 0, .powerGood { masterSel := false, cascId := 4 },
   .pmcLoRead 1088, .linkRetrain 128 0, .frameLenWrite { addr := 2 ^ 25, value := 0, mask := 0 },
   .loadSchedule (some { zsi with queues := [(0, [])] }), .loadSchedule (some { zsi with ops := [{ zop with opid := 65536 }] }),
   .loadSchedule (some { zsi with ops := [{ zop with opcode := 256 }] }), .loadSchedule (some { zsi with ops := [{ zop with group := 8192 }] }),
   .loadSchedule (some { zsi with ops := [{ zop with chunks := [{ (chunk .waiting).plan with frame := 1 }] }] }),
   .loadSchedule (some { zsi with ops := [{ zop with chunks := [{ (chunk .waiting).plan with neck := 16 }] }] }),
   .loadSchedule (some { zsi with cacheDies := [(5, 64)] })] ++
  ([{ (chunk .waiting).plan with strings := [1024] }, { (chunk .waiting).plan with claims := [{ die := 64 }] },
    { (chunk .waiting).plan with tiles := [(131071, 131073)] }, { (chunk .waiting).plan with tiles := [(5, 5)] },
    { (chunk .waiting).plan with uses := [{ neck := 16, res := 0, bytes := 1 }] }, { (chunk .waiting).plan with necks := [16] },
    { (chunk .waiting).plan with dies := [64] }, { (chunk .waiting).plan with nodes := [{ l := 0, j := 0, neck := 16 }] }].map fun p =>
      .loadSchedule (some { zsi with ops := [{ zop with chunks := [p] }] }))

theorem test_illFormed : (illPackets.all fun i => !i.wellFormed) = true ∧ (illExtensions.all fun i => !i.wellFormed) = true ∧
    (illOperands.all fun i => !i.wellFormed) = true := by decide +kernel

theorem test_wellFormed : ∀ i ∈ [Instr.doorbell bell, .queueDrained 1, .queueDrained 8191, .fretFault ⟨1023, 3⟩ 16 (.ecc 0), .helloPeriod 515, .cascadeDataFlit 3 laneWords,
    .alignmentMarker 3 15 (markerWord 15), .stringFault ⟨⟨1023, 2⟩, true⟩, .dieFault ⟨63, 1⟩ .bond, .criticalShutdown { index := 127, temp := -40 },
    .ucieRetrain 127 (some 2), .xbarFault ⟨15, 1⟩,
    .frameLenWrite (wr (2 ^ 25 - 1) 0), .loadSchedule none, .loadSchedule (some { zsi with ops := [{ zop with chunks := [(chunk .waiting).plan] }] })],
    i.wellFormed = true := by decide +kernel

/-! ## The spec's worked examples -/

def c64 (h l : Nat) : Val := valOfBytes 0 (le 4 h ++ le 4 l) none false

/-- 03_number_formats, 'A C64 sum rounded to BF16': code and NX per rounding mode. -/
theorem test_bf16_roundings : let x := vsum (c64 0x3F808000 0x30800000)
    [RMode.rne, .rtz, .sr 0x9C4107A3, .sr 0x12345678, .sr 0x7FFFFE00, .sr 0x7FFFFDFF].map (fun m => (fpFormat 3).map fun f => writeFinite f false m x false) =
    [0x3F81, 0x3F80, 0x3F81, 0x3F80, 0x3F81, 0x3F80].map fun c => some (c, { nx := true }) := by decide +kernel

/-- 03_number_formats, 'One value beyond several ranges': 70,000.0 in BF16, FP16, E5M2 and E4M3. -/
theorem test_out_of_range : let w := fun c sat m => (fpFormat c).map fun f => writeFinite f sat m 70000 false
    let lost : Flags := { of := true, nx := true }
    w 3 false .rne = some (0x4789, { nx := true }) ∧ w 4 false .rne = some (0x7C00, lost) ∧ w 4 true .rne = some (0x7BFF, lost) ∧
    w 4 false .rtz = some (0x7C00, lost) := by decide +kernel

theorem test_out_of_range_fp8 : (fpFormat 6).map (fun f => writeFinite f false .rne 70000 false) = some (0x7B, { of := true, nx := true }) ∧
    (fpFormat 5).map (fun f => writeFinite f false .rne 70000 false) = some (0x7E, { of := true, nx := true }) := by decide +kernel

/-- 03_number_formats, 'An MXFP4 block'. -/
theorem test_mxfp4_block : let b := writeMxBlock 0x0C (fun _ => .rne) 0 ([5, -7 / 10, 2 / 10].map fun q => { q })
    (b.1, b.2.1, b.2.2.1) = (0x7F, [6, 9, 0], { nx := true, uf := true }) := by decide +kernel

/-- 04_accumulation_and_reduction, 'one pass': 3.0, 2⁻¹⁹, −0.625 and 29 zeros. -/
theorem test_p22_pass : let v := p22Pass { k := 0 } ([3, pow2 (-19), -5 / 8].map (fun q => .fin (wd q)) ++ List.replicate 29 (.fin (wd 0)))
    valBytes 0 v = le 4 0x40180000 ++ le 4 0 ∧ v.nx = true ∧ v.cls = .fin := by decide +kernel

/-- 04_accumulation_and_reduction, 'a combine'. -/
theorem test_c64_combine : let v := combine { k := 0 } (c64 0x3F800000 0x33000000) (c64 0x33800000 0)
    valBytes 0 v = le 8 0xB30000003F800001 ∧ v.nx = false := by decide +kernel

/-- 04_accumulation_and_reduction, 'a replay on S0': the overflow at level 0, and the value and the BF16 code at level 1. -/
theorem test_replay : let a := { (c64 0x7F200000 0) with nx := false }
    (combine { k := 0 } a a).cls = .ovf ∧ (combine { k := 0 } a a).ov = true ∧
    (let v := combine { k := 1 } a a
     valBytes 1 v = le 8 0x47F4000000000000 ++ le 8 0 ∧
     (fpFormat 3).map (fun f => (writeFinite f false .rne (outVal 1 1 false v).q false).1) = some 0x77A0) := by decide +kernel

/-- The same example's small element: 3 × 2⁻¹²⁰ at level 1 rounds to +0 with UF and NX. -/
theorem test_replay_small : (fpFormat 3).map (fun f => writeFinite f false .rne (outVal 1 1 false { hi := wd (3 * pow2 (-120)) }).q false) =
    some (0, { uf := true, nx := true }) := by decide +kernel

/-- 04_accumulation_and_reduction, 'TOPK with ties': (position's index, ordinal) of the four entries. -/
theorem test_topk_ties : let el := fun (x : Nat) => match fpFormat 3 with | some f => fpDecode f x | none => .nan
    let cs := fun (ord : Nat) (xs : List Nat) => xs.mapIdx fun i x => ({ elem := el x, ord, idx := 100 + i } : Cand)
    ([cs 0 [0x40A0, 0x4000], cs 1 [0x40A0, 0x7FC1], cs 2 [0x40E0, 0x40A0]].foldl (topMerge 4) []).map (fun c => (c.idx, c.ord)) =
      [(0x65, 1), (0x64, 2), (0x64, 0), (0x64, 1)] := by decide +kernel

/-- 06_pizzicato_path, 'a norm check': the needs on L1 in neck 0 and in the top neck 8, and on S0 in necks 0 and 1. -/
theorem test_pizz_need : let z : ZsiOp := { opid := 1, opcode := 1, group := 17, count := 8, fmt := 2, ofmt := 2, pizz := true }
    let g : Group := { valid := true, nmem := 2048, d := 11 }
    let leaf : List Entry := ((List.range 256).map fun i => { kind := 1, chip := i, ord := 256 + i, port := i }) ++ [{ kind := 4, chip := 0xFF10, port := 256 }]
    let spine : List Entry := (List.range 8).map fun k => { kind := 2, lvl := 8, chip := 0xFF00 + k, ord := k, port := 32 * k }
    [pizzNeed (g, leaf) z 0, pizzNeed (g, leaf) z 8, pizzNeed (g, spine) z 0, pizzNeed (g, spine) z 1] = [1056, 1056, 1056, 160] ∧
    pizzCells (g, leaf) z 0 = 1 := by decide +kernel

/-- 07_weight_gradient_engine, 'a masked pass', token 2 unmasked: the pass has class NAN. -/
theorem test_unmasked_nan : (p22Pass { k := 0 } [.fin (wd 3), .fin (wd (-5 / 8)), .nan, .fin (wd (pow2 (-19)))]).cls = .nan := by decide +kernel

/-- 08_update_engine, 'one AdamW element on S0'. -/
theorem test_adamw : let u : UpdateDef :=
      { wtensor := 0x112, e0 := 0, count := 4096, opt := 2, ofmt := 3, src := 0, push := true, b1 := 0x3F666666, ob1 := 0x3DCCCCCD, b2 := 0x3F7FBE77,
        ob2 := 0x3A83126F, mu := 0, eps := 0x322BCC77, wd := 0x3DCCCCCD }
    let d := { desc with operand := BitVec.ofNat 128 (unle (le 4 0x3A800000 ++ le 4 0x3A000000 ++ le 4 0x41200000 ++ le 4 0x447A0000)) }
    let r := (optStep u d 128 { w := c64 0x3F000000 0, m := 0, v := 0 })
    valBytes 0 r.1.w = le 4 0x3EFF799A ++ le 4 0xB24A0000 ∧ r.1.m = 0x3BCCCCCD ∧ r.1.v = 0x3683126F ∧ r.2 = { nx := true } ∧
    (fpFormat 3).map (fun f => (writeFinite f false .rne (vsum r.1.w) false).1) = some 0x3EFF := by decide +kernel

/-- 09_determinism, 'one element, four arrangements': the canonical tree, and the local partial of ordinals 0 to 2. -/
theorem test_four_arrangements : let cb := combine { k := 0 }
    let a := c64 0x3F800000 0
    let b := c64 0x30800000 0
    let c := c64 0x21800000 0
    let d := c64 0xBF800000 0
    let tree := cb (cb a b) (cb c d)
    valBytes 0 tree = le 8 0x2180000030800000 ∧ valBytes 0 (cb (cb (cb a b) c) d) = le 8 0x30800000 ∧
    (fpFormat 1).map (fun f => (writeFinite f false .rne (vsum tree) false).1) = some 0x3E10000000400000 := by decide +kernel

/-- 10_queues_and_descriptors, 'one gradient bucket of Voyage-40': the 8 words of the descriptor. -/
theorem test_descriptor : let d := descParse ([0x00000120D8000102, 0x0303001100000005, 0x0000000004000000, 0x0000001000010000, 0x000003003F800000,
      0x29, 0x0000001000000000, 0x0000000000180000].flatMap (le 8))
    [d.ver, d.opcode, d.dseq.toNat, d.opid, d.sched, d.group, d.fmt, d.ofmt] = [2, 1, 288, 5, 0, 17, 3, 3] ∧ d.hbase = -40 ∧
    [dCount d, dChl d, dNsteps d, d.scale.toNat, d.tensorId.toNat, d.step.toNat, d.srcOff, d.dstOff] =
      [67108864, 16, 1, 0x3F800000, 0x300, 41, 0x10000000, 0x18000000] ∧ dseqSlot d.dseq 8 = 32 ∧ dseqPhase d.dseq 8 = 1 := by decide +kernel

/-- The same example's doorbell, and the first words of the member's record. -/
theorem test_doorbell_and_record : let x := doorbellParse (le 8 0x0000012100110102 ++ List.replicate 24 0)
    (x.ver, x.ninl, x.queue, x.tail.toNat) = (2, 1, 17, 289) ∧
    (completionBytes 0 (Flags.byte { nx := true }) 1 true 0 17 17 288 0 0 0).take 16 = le 8 0x00110011C0080002 ++ le 8 0x120 := by decide +kernel

/-- 11_synchronization, 'waiting for a fence': the WAIT's words, and the first word of the release record. -/
theorem test_wait_words : let m := syncParse ([0x0007020100000302, 0x2B, 0x0000004040000000, 0x2A].flatMap (le 8))
    [m.ver, m.sop, m.ctr, m.job, m.tag.toNat, m.tmo, m.retOff, m.value.toNat] = [2, 3, 0x201, 7, 0x2B, 0, 0x4040000000, 42] ∧ m.rsvd = false ∧
    (releaseBytes 0 0 0x201 7 0x2B { value := 42 } 18440).take 24 = le 8 0x0007020100000002 ++ le 8 0x2B ++ le 8 0x2A := by decide +kernel

/-- 12_fabric_interface, 'a leaf partial on its way to S0': the header's first words and the extension. -/
theorem test_partial_header : let h : Hdr := { ver := 2, tc := 2, hlen := 4, src := 0xFF01, dst := 0xFF10 }
    let x : NodeExt := { group := 17, queue := 17, dseq := 288, chunk := 37, eoff := 2560, ecnt := 512 }
    let h : Hdr := { h with repoch := 3, cepoch := 1, psn := 0x12345, job := 7 }
    let p : Packet := { hdr := h, ext := .node .partialNode { x with nodej := 1, nodel := 8, pflags := 4 }, payload := List.replicate 4096 0 }
    (hdrHead (clsByte h) p.payload.length p.ext h).take 16 = le 8 0xFF01100004400502 ++ le 8 0x000123450103FF10 ∧
    extEncode p.ext = le 8 0x0000012000110011 ++ le 8 0x00000A0000000025 ++ le 8 0x0408000100000200 ++ le 8 0 := by decide +kernel

/-- 13_cascade_and_discovery, 'discovery on leaf L1': HELLO on port 102, and the REPLY over a swapped cable. -/
theorem test_hello_words : slice (extEncode (.disc { sub := 1, revs := 3, portsel := 2, iport := 102, assign := 0x166, skind := 2 })) 0 8 = le 8 0x0166006602000301 ∧
    (replyChecks (islPorts {}) 0 9 { disc 2 77 with iport := 41 }).find? (fun c => !c.2) = some (3, false) := by decide +kernel

/-- 15_faults_and_recovery, 'a fret fault': LOC, the first bytes of the record, and ARG of the discard. -/
theorem test_fret_fault_words : unitLoc (.fret 3363) = 0x10000D23 ∧
    (bbBytes { rkind := 1, sev := 2, domain := 0, rseq := 0x4A1C }).take 8 = le 8 0x00004A1C00020102 ∧
    discardArg 1 0xFF01 0x4A1C = 0x00004A1CFF010001 := by decide +kernel

/-- 18_register_map, 'a TC0 meter for member 358 on L1'. -/
theorem test_meter_words : let m : Meter := { w0 := 0x40000002, w1 := 0x02EE001F, w2 := 0x08000400 }
    meterCir m = 8000 ∧ meterPir m = 12000 ∧ meterCbs m = 65536 ∧ meterPbs m = 131072 ∧ meterMode m = 2 := by decide +kernel

/-- 02_frames_and_time, 'starting Voyage-40': the start count is a tick, the count before it is not. -/
theorem test_start_count : isTick isl 5000125458000 = true ∧ isTick isl 5000125456789 = false ∧ 5000125458000 / 2000 = 2500062729 := by decide +kernel

set_option maxRecDepth 10000

/-! ## Tuning with a pegbox that passes every check

The CRC of an image stays a variable, since evaluating it over 16 KiB in the kernel would be long. -/

/-- Bytes listed at consecutive addresses. -/
def listed : Nat → List Byte → List Host.Cell
  | _, [] => []
  | a, b :: bs => (a, b) :: listed (a + 1) bs

theorem range_skip {d : Byte} {p t : List Host.Cell} {a n : Nat} (h : ∀ c ∈ p, c.1 < a) : Table.range d (p ++ t) a n = Table.range d t a n := by
  cases n with
  | zero => simp [Table.range]
  | succ n =>
    have e : (p ++ t).dropWhile (fun c => decide (c.1 < a)) = t.dropWhile (fun c => decide (c.1 < a)) := by
      induction p with
      | nil => rfl
      | cons c p ih =>
        rw [List.cons_append, List.dropWhile_cons_of_pos (by simpa using h c (by simp))]
        exact ih fun x hx => h x (by simp [hx])
    unfold Table.range
    rw [e]

theorem range_listed (d : Byte) (bs : List Byte) (t : List Host.Cell) (a n : Nat) (h : n ≤ bs.length) :
    Table.range d (listed a bs ++ t) a n = bs.take n := by
  induction n generalizing a bs with
  | zero => simp [Table.range]
  | succ n ih =>
    match bs with
    | [] => simp at h
    | b :: bs =>
      have e : (listed a (b :: bs) ++ t).dropWhile (fun c => decide (c.1 < a)) = (a, b) :: (listed (a + 1) bs ++ t) := by
        simp [listed]
      unfold Table.range
      rw [e]
      simp only [if_true, List.take_succ_cons]
      have s := range_skip (d := d) (p := [(a, b)]) (t := listed (a + 1) bs ++ t) (a := a + 1) (n := n) (by simp)
      rw [List.singleton_append] at s
      rw [s, ih bs (a + 1) (by simpa using h)]

theorem listed_below (a m : Nat) (bs : List Byte) (h : a + bs.length ≤ m) : ∀ c ∈ listed a bs, c.1 < m := by
  induction bs generalizing a with
  | nil => simp [listed]
  | cons b bs ih =>
    simp only [List.length_cons] at h
    intro c hc
    rcases List.mem_cons.mp hc with rfl | hc
    · simp; omega
    · exact ih (a + 1) (by omega) c hc

theorem fld_append {p q : List Byte} {hi lo : Nat} (h : hi < p.length) (l : lo ≤ hi) : fld (p ++ q) hi lo = fld p hi lo := by
  unfold fld
  rw [List.drop_append_of_le_length (by omega), List.take_append_of_le_length (by simp; omega)]

theorem zeroBytes_append {p q : List Byte} {hi lo : Nat} (h : hi < p.length) (l : lo ≤ hi) :
    zeroBytes (p ++ q) hi lo = zeroBytes p hi lo := by
  unfold zeroBytes
  rw [List.drop_append_of_le_length (by omega), List.take_append_of_le_length (by simp; omega)]

theorem cut_repeat {w q : List Byte} (n k : Nat) (h : w.length = n) (z : 0 < n) :
    cut n k ((List.replicate k w).flatten ++ q) = List.replicate k w := by
  induction k with
  | zero => rfl
  | succ k ih =>
    match w, h with
    | [], h => simp at h; omega
    | b :: w, h =>
      rw [List.replicate_succ, List.flatten_cons, List.append_assoc]
      have e : ∀ l : List Byte, cut n (k + 1) ((b :: w) ++ l) = ((b :: w) ++ l).take n :: cut n k (((b :: w) ++ l).drop n) := fun _ => rfl
      rw [e, List.take_left' h, List.drop_left' h, ih]

/-- The trim record of island 77: a die's 256 bytes are zero. -/
def trimHead (c : BitVec 32) : List Byte :=
  [2, 0x3C, 0x64, 0x0A, 0, 0, 0xA2, 0, 77, 0, 0, 0, 0, 0, 0, 0, 0, 0x50, 0, 0] ++ le 4 c.toNat ++ List.replicate 40 0

def trimBody : List Byte := (List.replicate 80 (List.replicate 256 0)).flatten

def trimRec : List Byte := trimHead (crc32 trimBody) ++ trimBody

theorem unle_le4 (c : BitVec 32) : unle (le 4 c.toNat) = c.toNat := by
  rw [unle_le]; exact Nat.mod_eq_of_lt (by have := c.isLt; omega)

theorem trimBody_length : trimBody.length = 20480 := by
  unfold trimBody; rw [List.length_flatten, List.map_replicate, List.length_replicate, List.sum_replicate]; rfl

theorem trimRec_ok : trimOk trimRec = true := by
  have l : ∀ c, (trimHead c).length = 64 := fun c => by simp [trimHead]
  have f : ∀ hi lo, hi < 64 → lo ≤ hi → fld trimRec hi lo = fld (trimHead (crc32 trimBody)) hi lo := fun hi lo h k => fld_append (by rw [l]; exact h) k
  have z : ∀ hi lo, hi < 64 → lo ≤ hi → zeroBytes trimRec hi lo = zeroBytes (trimHead (crc32 trimBody)) hi lo :=
    fun hi lo h k => zeroBytes_append (by rw [l]; exact h) k
  have body : trimRec.drop 64 = trimBody := List.drop_left' (l _)
  have crc : fld (trimHead (crc32 trimBody)) 23 20 = (crc32 trimBody).toNat := by
    rw [← unle_le4 (crc32 trimBody)]; rfl
  unfold trimOk
  rw [body, List.take_of_length_le (by rw [trimBody_length]), f 0 0 (by decide) (by decide), f 1 1 (by decide) (by decide), f 3 2 (by decide) (by decide),
    f 7 6 (by decide) (by decide), f 19 16 (by decide) (by decide), f 15 8 (by decide) (by decide), f 23 20 (by decide) (by decide),
    z 5 4 (by decide) (by decide), z 63 24 (by decide) (by decide), crc]
  have cuts : cut 256 80 trimBody = List.replicate 80 (List.replicate 256 0) := by
    have := cut_repeat (w := List.replicate 256 0) (q := []) 256 80 (by simp) (by decide)
    rwa [List.append_nil] at this
  rw [cuts]
  have a1 : fld (trimHead (crc32 trimBody)) 0 0 = 2 := rfl
  have a2 : fld (trimHead (crc32 trimBody)) 1 1 = 0x3C := rfl
  have a3 : fld (trimHead (crc32 trimBody)) 3 2 = 0x0A64 := rfl
  have a4 : fld (trimHead (crc32 trimBody)) 7 6 = 0x00A2 := rfl
  have a5 : fld (trimHead (crc32 trimBody)) 19 16 = 20480 := rfl
  have a6 : fld (trimHead (crc32 trimBody)) 15 8 = 77 := rfl
  have a7 : zeroBytes (trimHead (crc32 trimBody)) 5 4 = true := rfl
  have a8 : zeroBytes (trimHead (crc32 trimBody)) 63 24 = true := rfl
  have a9 : fld (List.replicate 256 (0 : Byte)) 0 0 = 0 := rfl
  rw [a1, a2, a3, a4, a5, a6, a7, a8]
  simp only [List.all_replicate, a9]
  simp

/-- The header of a committed configuration image, SEQ 1, no register list. -/
def confHead (c : BitVec 32) : List Byte :=
  [2, 0xA7, 0, 0, 0x40, 0x41, 0, 0, 1, 0, 0, 0, 0, 0, 0, 0] ++ le 4 c.toNat ++ List.replicate 44 0

/-- Bytes 64 to 319: island 77, chip 0x20, one boot route, its own chip as the one manager, an admin key. -/
def confFront : List Byte := image 256 [(0, 8, 77), (8, 2, 0x20), (20, 4, 1), (64, 2, 0x20), (67, 1, 1), (192, 1, 1)]

/-- A wiring entry that names nothing. -/
def confWire : List Byte := image 16 [(0, 1, 2)]

/-- The route of chip 0x20: VALID and SELF. -/
def confRoute : List Byte := image 32 [(8, 2, 0x20), (11, 1, 0xC0)]

def confBody : List Byte := confFront ++ ((List.replicate 516 confWire).flatten ++ (confRoute ++ List.replicate 8160 0))

def conf : List Byte := confHead (crc32 confBody) ++ confBody

theorem wires_length : (List.replicate 516 confWire).flatten.length = 8256 := by
  rw [List.length_flatten, List.map_replicate, List.sum_replicate]; rfl

theorem confBody_length : confBody.length = 16704 := by
  unfold confBody
  rw [List.length_append, List.length_append, List.length_append, wires_length, List.length_replicate]; rfl

/-- What a check reads below byte 320, it reads in the header and the front. -/
def confTop : List Byte := confHead (crc32 confBody) ++ confFront

theorem confTop_length : confTop.length = 320 := by unfold confTop; rw [List.length_append]; rfl

theorem conf_split : conf = confTop ++ ((List.replicate 516 confWire).flatten ++ (confRoute ++ List.replicate 8160 0)) :=
  (List.append_assoc _ _ _).symm

theorem conf_fld {hi lo : Nat} (h : hi < 320) (l : lo ≤ hi) : fld conf hi lo = fld confTop hi lo := by
  rw [conf_split]; exact fld_append (by rw [confTop_length]; exact h) l

theorem conf_zero {hi lo : Nat} (h : hi < 320) (l : lo ≤ hi) : zeroBytes conf hi lo = zeroBytes confTop hi lo := by
  rw [conf_split]; exact zeroBytes_append (by rw [confTop_length]; exact h) l

theorem conf_managers : imageManagers conf = imageManagers confTop := by
  unfold imageManagers
  refine List.map_congr_left fun x hx => ?_
  have hx := List.mem_range.mp hx
  simp only
  rw [conf_fld (by omega) (by omega), conf_fld (by omega) (by omega), conf_fld (by omega) (by omega), conf_fld (by omega) (by omega)]

theorem conf_route : bootRoute conf 0 = confRoute := by
  unfold bootRoute slice
  have d : conf.drop 8576 = confRoute ++ List.replicate 8160 0 := by
    rw [conf_split, ← List.append_assoc]
    exact List.drop_left' (by rw [List.length_append, confTop_length, wires_length])
  have k : (confRoute ++ List.replicate 8160 (0 : Byte)).take 32 = confRoute := List.take_left' rfl
  rw [show 8576 + 32 * 0 = 8576 from rfl, d, k]
  rfl

theorem conf_clean {i : Nat} (h : i < 256) : routeClean (bootRoute conf i) = true := by
  by_cases k : i = 0
  · rw [k, conf_route]; decide
  · have e : bootRoute conf i = List.replicate 32 0 := by
      unfold bootRoute slice
      have d : conf.drop (8576 + 32 * i) = (List.replicate 8160 0).drop (32 * (i - 1)) := by
        have e : 8576 + 32 * i = 8608 + 32 * (i - 1) := by omega
        rw [e, ← List.drop_drop, conf_split, ← List.append_assoc, ← List.append_assoc]
        rw [List.drop_left' (by rw [List.length_append, List.length_append, confTop_length, wires_length]; rfl)]
      rw [d, List.drop_replicate, List.take_replicate]
      have e : min 32 (8160 - 32 * (i - 1)) = 32 := by omega
      rw [e]
      rfl
    rw [e]; decide

theorem conf_fields : imageFields conf = true := by
  have m : (List.range 8).all (fun x => fld conf (130 + 16 * x) (130 + 16 * x) == 0 && fld conf (131 + 16 * x) (131 + 16 * x) < 2) =
      (List.range 8).all (fun x => fld confTop (130 + 16 * x) (130 + 16 * x) == 0 && fld confTop (131 + 16 * x) (131 + 16 * x) < 2) := by
    rw [Bool.eq_iff_iff, List.all_eq_true, List.all_eq_true]
    refine forall_congr' fun x => forall_congr' fun hx => ?_
    have hx := List.mem_range.mp hx
    rw [conf_fld (by omega) (by omega), conf_fld (by omega) (by omega)]
  have w : cut 16 516 (conf.drop 320) = List.replicate 516 confWire := by
    rw [conf_split, List.drop_left' confTop_length]; exact cut_repeat 16 516 rfl (by decide)
  have r : (List.range 256).all (fun i => routeClean (bootRoute conf i)) = true := List.all_eq_true.mpr fun i h => conf_clean (List.mem_range.mp h)
  unfold imageFields
  rw [m, w, r, conf_managers, conf_zero (by decide) (by decide), conf_zero (by decide) (by decide), conf_zero (by decide) (by decide),
    conf_zero (by decide) (by decide), conf_fld (by decide) (by decide), conf_fld (by decide) (by decide), conf_fld (by decide) (by decide),
    List.all_replicate]
  rfl

theorem conf_routes : imageRoutes conf = true := by
  have n : imageNroutes conf = 1 := by unfold imageNroutes; rw [conf_fld (by decide) (by decide)]; rfl
  have z : zeroBytes conf 16767 (8576 + 32 * 1) = true := by
    unfold zeroBytes
    have d : conf.drop (8576 + 32 * 1) = List.replicate 8160 0 := by
      rw [conf_split, ← List.append_assoc, ← List.append_assoc]
      exact List.drop_left' (by rw [List.length_append, List.length_append, confTop_length, wires_length]; rfl)
    rw [d, List.take_replicate, List.all_replicate]; simp
  have r : (List.range (imageNroutes conf)).map (bootRoute conf) = [confRoute] := by
    rw [n, show List.range 1 = [0] from rfl, List.map_singleton, conf_route]
  unfold imageRoutes
  rw [r, conf_managers, n, z, conf_fld (by decide) (by decide)]
  have e : fld confTop 73 72 = 0x20 := rfl
  have g : (imageManagers confTop).all (fun m => !m.valid || [confRoute].any fun r => fld r 9 8 == m.chip && (routeParse r).valid) = true := by
    have v : imageManagers confTop = [{ valid := true, chip := 0x20 }] ++ List.replicate 7 ({ valid := false } : Manager) := rfl
    rw [v]; decide +kernel
  dsimp only
  rw [e, g]
  decide +kernel

theorem conf_domain : imageDomain conf = true := by
  unfold imageDomain
  rw [conf_fld (by decide) (by decide), conf_fld (by decide) (by decide)]
  rfl

theorem conf_checks : imageFail conf 77 (fun _ => true) = none := by
  have body : conf.drop 64 = confBody := List.drop_left' (by simp [confHead])
  have crc : fld confTop 19 16 = (crc32 confBody).toNat := by
    rw [← unle_le4 (crc32 confBody)]; rfl
  have regs : imageNregs conf = 0 := by unfold imageNregs; rw [conf_fld (by decide) (by decide)]; rfl
  have routes : imageNroutes conf = 1 := by unfold imageNroutes; rw [conf_fld (by decide) (by decide)]; rfl
  have list : imageRegs conf = [] := by unfold imageRegs; rw [regs]; rfl
  unfold imageFail imageChecks
  rw [conf_fields, conf_routes, conf_domain, list, body, regs, routes, conf_fld (by decide) (by decide), conf_fld (by decide) (by decide),
    conf_fld (by decide) (by decide), conf_fld (by decide) (by decide), conf_fld (by decide) (by decide), conf_fld (by decide) (by decide),
    conf_fld (by decide) (by decide), conf_zero (by decide) (by decide), conf_zero (by decide) (by decide), crc]
  have a1 : (fld confTop 0 0 == 2 && fld confTop 1 1 == 0xA7 && zeroBytes confTop 3 2 && zeroBytes confTop 63 24) = true := rfl
  have a2 : (fld confTop 23 20 == 0) = true := rfl
  have a3 : fld confTop 15 8 = 1 := rfl
  have a4 : fld confTop 7 4 = 16704 := rfl
  have a6 : fld confTop 71 64 = 77 := rfl
  rw [a1, a2, a3, a4, a6]
  simp

/-- An island in TUNING whose pegbox holds the trim record and the configuration in copy 0. -/
def islTuning : State :=
  { State.reset with
    ctl := { state := .tuning }
    peg := { flash := listed 0 trimRec ++ listed 0x100000 conf } }

theorem trimRec_length : trimRec.length = 20544 := by
  unfold trimRec; rw [List.length_append, trimBody_length]; simp [trimHead]

theorem conf_length : conf.length = 16768 := by
  unfold conf; rw [List.length_append, confBody_length]; simp [confHead]

theorem trimRead : flashRead islTuning 0 20544 = trimRec := by
  unfold flashRead islTuning
  exact (range_listed 0xFF trimRec (listed 0x100000 conf) 0 20544 (by rw [trimRec_length])).trans
    (List.take_of_length_le (by rw [trimRec_length]))

theorem confRead (n : Nat) (h : n ≤ 16768) : flashRead islTuning 0x100000 n = conf.take n := by
  unfold flashRead islTuning
  have s := range_skip (d := (0xFF : Byte)) (p := listed 0 trimRec) (t := listed 0x100000 conf) (a := 0x100000) (n := n)
    (listed_below 0 0x100000 trimRec (by rw [trimRec_length]; decide))
  have r := range_listed 0xFF conf [] 0x100000 n (by rw [conf_length]; exact h)
  rw [List.append_nil] at r
  exact s.trans r

/-- TUNING_COMPLETE: what tuning finds is what its statement asks for. -/
theorem test_tuningComplete_meets : ∃ trim b diff k, islTuning.ctl.state = .tuning ∧ ({} : TuningResult).flashOk = true ∧
    trimInUse (tuneRing [] islTuning) = some (trim, b, diff) ∧ ringsAgree trim [] = true ∧
    activeCopy { tuneRing [] islTuning with ctl := { (tuneRing [] islTuning).ctl with trimB := b, trimDiff := diff } }
      (BitVec.ofNat 64 (fld trim 15 8)) = some k := by
  have same : ∀ off n, flashRead (tuneRing [] islTuning) off n = flashRead islTuning off n := fun _ _ => rfl
  have t : trimInUse (tuneRing [] islTuning) = some (trimRec, false, trimOk (flashRead islTuning 0x10000 20544) && decide (trimRec ≠ flashRead islTuning 0x10000 20544)) := by
    unfold trimInUse
    simp only [same, trimRead, trimRec_ok, if_true]
  have id : fld trimRec 15 8 = 77 := by
    unfold trimRec; rw [fld_append (by simp [trimHead]) (by decide)]; rfl
  have rings : ringsAgree trimRec [] = true := by simp [ringsAgree]
  have active : ∀ u : State, u.peg = islTuning.peg → ∃ k, activeCopy u 77 = some k := by
    intro u hu
    have same : ∀ off n, flashRead u off n = flashRead islTuning off n := fun off n => by unfold flashRead; rw [hu]
    have head : fld (conf.take 64) 7 4 = 16704 := by
      rw [show conf.take 64 = confHead (crc32 confBody) from List.take_left' (by simp [confHead])]; rfl
    have bytes : copyBytes u 0 = conf := by
      unfold copyBytes
      dsimp only
      rw [show copyBase 0 = 0x100000 from rfl, same, same, confRead 64 (by decide), head, if_pos (by decide), confRead _ (by decide)]
      exact List.take_of_length_le (by rw [conf_length])
    have valid : copyValid u 0 77 = true := by
      unfold copyValid
      rw [bytes, conf_checks]; rfl
    unfold activeCopy
    rw [valid]
    cases copyValid u 1 77 with
    | true => by_cases h : copySeq u 0 < copySeq u 1 <;> simp [h]
    | false => exact ⟨0, rfl⟩
  obtain ⟨k, hk⟩ := active { tuneRing [] islTuning with ctl := { (tuneRing [] islTuning).ctl with
      trimB := false, trimDiff := trimOk (flashRead islTuning 0x10000 20544) && decide (trimRec ≠ flashRead islTuning 0x10000 20544) } } rfl
  refine ⟨trimRec, false, _, k, rfl, rfl, t, rings, ?_⟩
  rw [id]; exact hk

end Sys2Proof.Tests
end

section
/-! SUPPORT. The global counter at its limit (R42) and the change of the frame length (R51). -/

set_option Elab.async false

namespace Sys2Proof.Machine

/-! ## The counter in a nanosecond without a command -/

theorem clockTick_stopped {t : Time} (h : t.running = false) : clockTick t = t := by
  simp [clockTick, h]

theorem clockTick_gcount_top {t : Time} (h : t.gcount = gcountTop) : (clockTick t).gcount = gcountTop := by
  unfold clockTick
  split_ifs with stopped held below
  · exact h
  · exact h
  · exact absurd h below.ne
  · exact h

/-- Of what a nanosecond does, only the tick of the clock moves the counter. -/
theorem nanosecond_gcount (s : State) : (nanosecond s).time.gcount = (clockTick s.time).gcount := by
  unfold nanosecond
  split
  next stopped => rw [clockTick_stopped (by simpa using stopped)]
  next =>
    extract_lets t s'
    have counted : Steady s' (if t.gcount = s.time.gcount then s' else countNanosecond s') := by
      split
      · exact .refl s'
      · exact countNanosecond_steady (.refl s')
    have rest := foldl_steady (f := markerTick) (l := List.range 4) (fun c u => markerTick_steady c (.refl u)) (pmcFoldAll_steady counted)
    exact rest.gcount

theorem critTick_time {s : State} (hp : s.pending = []) (he : stagesEnd s = false) : (critTick s).time = s.time := by
  unfold critTick
  split
  next => rfl
  next n crit =>
    have later : ¬ n ≤ 1 := by simpa [stagesEnd, hp, crit] using he
    rw [if_neg later]

theorem idle_gcount {s : State} (hp : s.pending = []) (he : stagesEnd s = false) :
    (idle s).time.gcount = (clockTick s.time).gcount := by
  have tail : Steady (nanosecond (critTick s)) (idle s) := tellHits_steady (completeJournals_steady (.refl _))
  rw [tail.gcount, nanosecond_gcount, critTick_time hp he]

theorem step_idle {s : State} (hp : s.pending = []) : step s = .next (idle s) := by
  simp only [step, hp]

/-! ## What a fatal class leaves -/

@[simp] theorem setState_state (x : IslState) (s : State) : (setState x s).ctl.state = x := by
  unfold setState
  split
  next same => exact same
  next => rfl

@[simp] theorem anyFatal_setState (x : IslState) (s : State) : anyFatal (setState x s) = anyFatal s := by
  unfold setState
  split
  next => rfl
  next => exact (bbWrite_steady _ (.refl _)).fatal.trans (fatal_of rfl)

theorem anyFatal_setClass_fatal {cls : Nat} (hl : cls < 32) (hc : classFatal cls = true) (s : State) :
    anyFatal (setClass cls s) = true := by
  rw [anyFatal_setClass, decide_eq_true (setClass_fatal ⟨cls, hl⟩ hc), Bool.or_true]

/-- The island is in FAULTED with a fatal class recorded (R392, R394). -/
def isDown (s : State) : Prop := anyFatal s = true ∧ s.ctl.state = .faulted

/-- Being down meets the link of FAULTED and the fatal classes, so whatever keeps that link and the classes keeps the
island down. -/
theorem Steady.isDown {s t : State} (h : Steady s t) (d : isDown s) : isDown t := by
  obtain ⟨recorded, faulted⟩ := d
  have stays : anyFatal t = true := h.fatal.trans recorded
  exact ⟨stays, (h.faults ⟨fun _ => recorded, fun _ => faulted⟩).2 stays⟩

theorem enterFaulted_isDown {cls : Nat} (hl : cls < 32) (hc : classFatal cls = true) (s : State) : isDown (enterFaulted cls s) := by
  unfold enterFaulted
  refine (startFlush_steady (settle_steady (faultedNotice_steady _ (.refl _)))).isDown ⟨?_, setState_state _ _⟩
  rw [anyFatal_setState]
  refine Eq.trans (Steady.fatal ?_) (anyFatal_setClass_fatal hl hc s)
  exact dropImage_steady (dropSleeps_steady _ (endAllJobs_steady (foldl_steady
    (fun o u => hitOp_steady _ _ _ (.refl u)) (bbWrite_steady _ (.refl _)))))

/-- A fatal class puts the island in FAULTED with the class recorded, in FAULTED already or not (R411, R452). -/
theorem fatal_isDown {cls : Nat} (hl : cls < 32) (hc : classFatal cls = true) (s : State) : isDown (fatal cls s) := by
  unfold fatal
  split
  next faulted =>
    have recorded : isDown (setClass cls s) := ⟨anyFatal_setClass_fatal hl hc s, faulted⟩
    have noticed := faultedNotice_steady s.fault.rseq (bbWrite_steady (faultRec cls .none []) (.refl (setClass cls s)))
    dsimp only
    split
    · exact noticed.isDown recorded
    · exact (startFlush_steady noticed).isDown recorded
  next => exact enterFaulted_isDown hl hc s

theorem fatal_gcount {cls : Nat} (hl : cls < 32) (hc : classFatal cls = true) (s : State) :
    (fatal cls s).time.gcount = s.time.gcount :=
  (fatal_calm cls hl hc (.refl s)).gcount

/-- The event of the limit, taken where the counter stands there: class GCOUNT (18) is raised (R42). -/
theorem exec_gcountLimit {s : State} (hu : regsUp s = true) (hg : s.time.gcount = gcountTop) (hn : s.fault.gcLimit = false) :
    exec .gcountLimit s = .next (fatal 18 { s with fault := { s.fault with gcLimit := true } }) := by
  change execGcountLimit s = _
  simp [execGcountLimit, hu, hg, hn]

/-- Settles O34: an idle step moves the counter by the tick of the clock alone, which is still at the limit, and the
event of the limit is a fatal fault, which leaves the count and takes the island down. -/
theorem counterStopsAtItsLimit : Obligations.CounterStopsAtItsLimit := by
  unfold Obligations.CounterStopsAtItsLimit
  intro s hg
  constructor
  · intro t hp he hs
    rw [step_idle hp] at hs
    cases hs
    rw [idle_gcount hp he]
    exact clockTick_gcount_top hg
  · intro hu hn
    obtain ⟨recorded, faulted⟩ :=
      fatal_isDown (cls := 18) (by decide) (by decide) { s with fault := { s.fault with gcLimit := true } }
    exact ⟨_, exec_gcountLimit hu hg hn, (fatal_gcount (by decide) (by decide) _).trans hg, recorded, faulted⟩

/-! ## The count of a change of the frame length -/

theorem lt_lengthChangeAt (g : Nat) {old new : Nat} (ho : 0 < old) (hn : 0 < new) : g < lengthChangeAt g old new := by
  have common : 0 < Nat.lcm (old * 250) (new * 250) := Nat.lcm_pos (by omega) (by omega)
  rw [lengthChangeAt, Nat.mul_comm]
  exact Nat.lt_mul_div_succ g common

theorem dvd_lengthChangeAt_old (g old new : Nat) : old * 250 ∣ lengthChangeAt g old new :=
  (Nat.dvd_lcm_left _ _).trans (Dvd.intro_left _ rfl)

theorem dvd_lengthChangeAt_new (g old new : Nat) : new * 250 ∣ lengthChangeAt g old new :=
  (Nat.dvd_lcm_right _ _).trans (Dvd.intro_left _ rfl)

/-- A common multiple is a multiple of the least one, and one above `g` is at least the first such above `g`. -/
theorem lengthChangeAt_le {g old new u : Nat} (hu : g < u) (ho : old * 250 ∣ u) (hn : new * 250 ∣ u) :
    lengthChangeAt g old new ≤ u := by
  obtain ⟨k, rfl⟩ := Nat.lcm_dvd ho hn
  have below : g / Nat.lcm (old * 250) (new * 250) < k := Nat.div_lt_of_lt_mul hu
  rw [Nat.mul_comm]
  exact Nat.mul_le_mul_right _ below

/-! ## Writes of FRAME_LEN -/

/-- A field that the mask covers takes its bits of the value written (R467). -/
theorem rwField_covered {hi lo : Nat} {w : RegWrite} (o : Word) (h : bits w.mask.toNat hi lo = 2 ^ (hi + 1 - lo) - 1) :
    rwField o w hi lo = bits w.value.toNat hi lo := by
  have covered : ∀ i < hi + 1 - lo, w.mask.getLsbD (lo + i) = true := by
    intro i hi'
    have bit := congrArg (·.testBit i) h
    simpa [bits, Nat.testBit_mod_two_pow, Nat.testBit_shiftRight, hi', Nat.testBit_two_pow_sub_one,
      BitVec.testBit_toNat] using bit
  unfold rwField bits
  refine Nat.eq_of_testBit_eq fun i => ?_
  rw [Nat.testBit_mod_two_pow, Nat.testBit_mod_two_pow]
  by_cases hi' : i < hi + 1 - lo
  · simp only [Nat.testBit_shiftRight, BitVec.testBit_toNat, BitVec.getLsbD_or, BitVec.getLsbD_and, BitVec.getLsbD_not,
      covered i hi', Bool.not_true, Bool.and_false, Bool.and_true, Bool.false_or]
  · simp [hi']

theorem exec_frameLenWrite {w : RegWrite} {s : State} (hu : regsUp s = true) (ha : w.addr = 0x0018) :
    exec (.frameLenWrite w) s = .next (wrFrameLen w s) := by
  change execFrameLenWrite w s = _
  rw [execFrameLenWrite, regRow_on hu (by simp [ha]) (by simp [ha]), regWrite_ctl (by simp [ha]) (by simp [ha])]
  simp [controlWrite, ha]

theorem wrFrameLen_busy {w : RegWrite} {s : State} (hm : bits w.mask.toNat 6 0 ≠ 0)
    (hb : anyRunning s = true ∨ anyArmed s = true) : wrFrameLen w s = reject w.addr s := by
  unfold wrFrameLen
  dsimp only
  rw [if_neg hm, if_pos (by tauto)]

theorem wrFrameLen_accepts {w : RegWrite} {s : State} (hm : bits w.mask.toNat 6 0 = 127)
    (hr : anyRunning s = false) (ha : anyArmed s = false) (hd : inDomain s = true → isMaster s = true)
    (h1 : 1 ≤ bits w.value.toNat 6 0) (h64 : bits w.value.toNat 6 0 ≤ 64) :
    wrFrameLen w s = acceptLen (bits w.value.toNat 6 0) s := by
  unfold wrFrameLen
  dsimp only
  rw [if_neg (by omega), rwField_covered _ (by simpa using hm), if_neg]
  rintro (zero | above | running | armed | ⟨inside, slave⟩)
  · omega
  · omega
  · simp [hr] at running
  · simp [ha] at armed
  · simp [hd inside] at slave

/-! ## Ticks and the turn of the change -/

theorem isTick_iff_dvd (s : State) (g : Nat) : isTick s g = true ↔ s.time.cur * 250 ∣ g := by
  rw [isTick, beq_iff_eq, frameNs, Nat.dvd_iff_mod_eq_zero]

theorem newLength_time (s : State) : (newLength s).time = { s.time with cur := s.time.len, lenAt := none } := rfl

theorem exec_frameLengthChange {s : State} (h : stepTurn 8 s = true) : exec .frameLengthChange s = .next (newLength s) := by
  change execFrameLengthChange s = _
  rw [execFrameLengthChange, if_pos h]

/-- Settles O51: the count of the change is the first multiple above the present count of the least common multiple,
and a write of FRAME_LEN and the change at its turn run by the rules above. -/
theorem frameLengthChangesAtCommonTick : Obligations.FrameLengthChangesAtCommonTick := by
  unfold Obligations.FrameLengthChangesAtCommonTick
  refine ⟨?count, ?write, isTick_iff_dvd, ?change⟩
  case count =>
    intro g old new ho hn
    exact ⟨lt_lengthChangeAt g ho hn, dvd_lengthChangeAt_old g old new, dvd_lengthChangeAt_new g old new,
      fun u => lengthChangeAt_le⟩
  case write =>
    intro w s hu ha hm
    constructor
    · intro busy
      rw [exec_frameLenWrite hu ha, wrFrameLen_busy (by omega) busy, ha]
    · intro hr hna hd h1 h64
      rw [exec_frameLenWrite hu ha, wrFrameLen_accepts hm hr hna hd h1 h64, acceptLen]
  case change =>
    intro s turn
    exact ⟨_, exec_frameLengthChange turn, by rw [newLength_time], by rw [newLength_time]⟩

end Sys2Proof.Machine
end

section
/-! SUPPORT. Absent operands in a combine and in the canonical tree (R107). -/

set_option Elab.async false

namespace Sys2Proof.Machine

variable {α : Type} (f : α → α → α)

/-! ## A combine -/

@[simp] theorem combineOpt_none_right (x : Option α) : combineOpt f x none = x := by
  cases x with
  | none => rfl
  | some a => rfl

@[simp] theorem combineOpt_none_left (y : Option α) : combineOpt f none y = y := rfl

@[simp] theorem combineOpt_eq_none_iff {x y : Option α} : combineOpt f x y = none ↔ x = none ∧ y = none := by
  cases x with
  | none => simp
  | some a =>
    cases y with
    | none => simp
    | some b => simp [combineOpt]

/-! ## A node of the tree -/

theorem treeNode_succ_eq_none_iff {at_ : Nat → Nat → Option α} {l j : Nat} :
    treeNode f at_ (l + 1) j = none ↔
      at_ (l + 1) j = none ∧ treeNode f at_ l (2 * j) = none ∧ treeNode f at_ l (2 * j + 1) = none := by
  rw [treeNode]
  cases at_ (l + 1) j with
  | some v => simp
  | none => simp

/-- Nothing is placed at node (l, j) or at a node below it: (k, i) is such a node exactly if i / 2^(l - k) = j (R106). -/
def AbsentBelow (at_ : Nat → Nat → Option α) (l j : Nat) : Prop :=
  ∀ k ≤ l, ∀ i, i / 2 ^ (l - k) = j → at_ k i = none

theorem absentBelow_zero {at_ : Nat → Nat → Option α} {j : Nat} : AbsentBelow at_ 0 j ↔ at_ 0 j = none := by
  simp [AbsentBelow]

/-- The nodes of level k ≤ l below (l + 1, j) are those below one of its two children. -/
theorem div_two_pow_succ_sub_eq_iff {i j k l : Nat} (h : k ≤ l) :
    i / 2 ^ (l + 1 - k) = j ↔ i / 2 ^ (l - k) = 2 * j ∨ i / 2 ^ (l - k) = 2 * j + 1 := by
  rw [Nat.succ_sub h, Nat.pow_succ, ← Nat.div_div_eq_div_mul]
  omega

theorem absentBelow_succ {at_ : Nat → Nat → Option α} {l j : Nat} :
    AbsentBelow at_ (l + 1) j ↔ at_ (l + 1) j = none ∧ AbsentBelow at_ l (2 * j) ∧ AbsentBelow at_ l (2 * j + 1) := by
  constructor
  · intro absent
    refine ⟨absent (l + 1) le_rfl j (by simp), ?left, ?right⟩
    case left => exact fun k hk i hi => absent k (by omega) i ((div_two_pow_succ_sub_eq_iff hk).mpr (.inl hi))
    case right => exact fun k hk i hi => absent k (by omega) i ((div_two_pow_succ_sub_eq_iff hk).mpr (.inr hi))
  · rintro ⟨here, left, right⟩ k hk i hi
    obtain hk | rfl := Nat.le_succ_iff.mp hk
    · obtain hi | hi := (div_two_pow_succ_sub_eq_iff hk).mp hi
      · exact left k hk i hi
      · exact right k hk i hi
    · obtain rfl : i = j := by simpa using hi
      exact here

theorem treeNode_eq_none_iff (at_ : Nat → Nat → Option α) (l j : Nat) :
    treeNode f at_ l j = none ↔ AbsentBelow at_ l j := by
  induction l generalizing j with
  | zero => rw [treeNode, absentBelow_zero]
  | succ l ih => rw [treeNode_succ_eq_none_iff, absentBelow_succ, ih, ih]

/-- Settles O52: `none` is neutral for a combine, so by induction on the level a node is absent exactly if nothing is placed
at or below it. -/
theorem absentOperandsAreNeutral : Obligations.AbsentOperandsAreNeutral := by
  unfold Obligations.AbsentOperandsAreNeutral
  refine ⟨?one, ?both, ?tree⟩
  case one => exact fun f a => ⟨combineOpt_none_right f (some a), combineOpt_none_left f (some a)⟩
  case both => exact fun f => combineOpt_none_left f none
  case tree => exact fun f at_ l j => treeNode_eq_none_iff f at_ l j

end Sys2Proof.Machine
end

section
/-! SUPPORT. The checks that every admin command meets (R270). -/

set_option Elab.async false

namespace Sys2Proof.Machine

section

variable {b : List Byte} {c : AdminCmd} {s : State}

@[simp] theorem malformed_fst (reason off : Nat) : (malformed reason off).1 = 5 := rfl

/-! ## The first check that fails -/

theorem adminFailure_of_ver_ne (ver : fld b 0 0 ≠ 2) : adminFailure b = some (9, BitVec.ofNat 32 (fld b 0 0)) := by
  rw [adminFailure, if_pos ver]

theorem adminFailure_of_reserved {i : Nat} (ver : fld b 0 0 = 2) (rsvd : adminReserved b = some i) :
    adminFailure b = some (malformed 0x01 i) := by
  rw [adminFailure, if_neg (not_not.mpr ver), rsvd]

theorem adminFailure_of_acode_undefined (ver : fld b 0 0 = 2) (rsvd : adminReserved b = none)
    (acode : adminArgs (fld b 1 1) = none) : adminFailure b = some (malformed 0x02 1) := by
  rw [adminFailure, if_neg (not_not.mpr ver), rsvd, acode]
  rfl

theorem adminFailure_eq_none (ver : fld b 0 0 = 2) (rsvd : adminReserved b = none)
    (acode : adminArgs (fld b 1 1) ≠ none) : adminFailure b = none := by
  rw [adminFailure, if_neg (not_not.mpr ver), rsvd]
  exact if_neg (by simpa using acode)

/-! ## What follows the checks -/

theorem adminReady_of_failure {f : Nat × Word} (fails : adminFailure c.bytes = some f) :
    adminReady c s = adminDone c f.1 f.2 0 s := by
  rw [adminReady, fails]

theorem adminReady_of_passes (passes : adminFailure c.bytes = none) :
    adminReady c s = { s with admin := { s.admin with ready := s.admin.ready ++ [c] } } := by
  rw [adminReady, passes]

end

/-- Settles O54: the case in which each check is the first to fail names the status and DETAIL of the completion, and a
command that fails none joins the executable ones. -/
theorem adminChecksRunInOrder : Obligations.AdminChecksRunInOrder := by
  unfold Obligations.AdminChecksRunInOrder
  intro c s
  refine ⟨?version, ?reserved, ?acode, ?passes⟩
  case version =>
    intro ver
    rw [adminReady_of_failure (adminFailure_of_ver_ne ver)]
  case reserved =>
    intro i ver rsvd
    rw [adminReady_of_failure (adminFailure_of_reserved ver rsvd), malformed_fst]
  case acode =>
    intro ver rsvd acode
    rw [adminReady_of_failure (adminFailure_of_acode_undefined ver rsvd acode), malformed_fst]
  case passes => exact fun ver rsvd acode => adminReady_of_passes (adminFailure_eq_none ver rsvd acode)

end Sys2Proof.Machine
end

section
/-! SUPPORT. A SET below the value of its counter (R285). -/

set_option Elab.async false

namespace Sys2Proof.Machine

/-! ## Counting and notices leave the counters and the waiters -/

theorem Sends.ctrs {s t : State} (h : Sends s t) : t.ctrs = s.ctrs := by
  obtain ⟨_, _, _, _, _, _, rfl⟩ := h
  rfl

theorem Sends.waiters {s t : State} (h : Sends s t) : t.waiters = s.waiters := by
  obtain ⟨_, _, _, _, _, _, rfl⟩ := h
  rfl

theorem notice_count_sends (n : Notice) (ev neck k : Nat) (x : Ctx) (s : State) :
    Sends s (notice n (count ev neck k x s)) :=
  (count_emits ev neck k x s).sends.trans (notice_sends n _)

/-! ## The underflow -/

/-- Of the three outcomes of a SET, an operand below the value of a counter with neither ERR nor SAT takes the underflow. -/
theorem syncSetApply_underflow {c : Nat} {v : BitVec 64} {s : State} (job chip : Nat) (err : (ctrGet s c).err = false)
    (sat : (ctrGet s c).sat = false) (below : v.toNat < (ctrGet s c).value.toNat) :
    syncSetApply c job chip v s =
      notice (syncNotice 0x21 2 c job chip (le 8 v.toNat)) (count 0x46 (c % 16) 1 { job := some job } s) := by
  have kept : ¬ ((ctrGet s c).err ∨ (ctrGet s c).sat) := by simp [err, sat]
  rw [syncSetApply, if_neg kept, if_pos below]

/-- Settles O47: an underflow is one occurrence counted and one notice, and neither touches a counter or a waiter. -/
theorem setUnderflowIsIgnored : Obligations.SetUnderflowIsIgnored := by
  unfold Obligations.SetUnderflowIsIgnored
  intro c job chip v s err sat below
  rw [syncSetApply_underflow job chip err sat below]
  have sends := notice_count_sends (syncNotice 0x21 2 c job chip (le 8 v.toNat)) 0x46 (c % 16) 1 { job := some job } s
  exact ⟨rfl, sends.ctrs, sends.waiters⟩

end Sys2Proof.Machine
end

section
/-! SUPPORT. What a row's answer keeps: the rows of the admin queue, of the queues and of their packets leave FAULTED, HBM,
flash, the count and the test port as they were. -/

set_option Elab.async false

namespace Sys2Proof.Machine

/-! ## Answers of rows -/

/-- Where an answer goes on, it goes to a state that `R` relates to `s`. -/
def Leads (R : State → State → Prop) (s : State) (o : Host.Outcome State Fault Refusal) : Prop := ∀ t, o = .next t → R s t

theorem Leads.next {R : State → State → Prop} {s t : State} (h : R s t) : Leads R s (.next t) := by
  rintro _ ⟨⟩
  exact h

theorem Leads.mono {R S : State → State → Prop} {s : State} {o : Host.Outcome State Fault Refusal} (h : Leads R s o)
    (k : ∀ t, R s t → S s t) : Leads S s o := fun t e => k t (h t e)

theorem ite_rel {R : State → State → Prop} {c : Prop} [Decidable c] {s t u : State} (h : R s t) (k : R s u) :
    R s (if c then t else u) := by
  split
  · exact h
  · exact k

/-! ## Writes of one part of the state that leave what Steady speaks of -/

section

variable {s t : State} (h : Steady s t)

include h

theorem withAdmin_steady (x : Admin) : Steady s { t with admin := x } := steady_mk rfl rfl rfl rfl rfl rfl rfl h

theorem withChord_steady (x : Epochs ChordCopy) : Steady s { t with chord := x } := steady_mk rfl rfl rfl rfl rfl rfl rfl h

theorem withRouting_steady (x : Epochs (Table Route)) : Steady s { t with routing := x } :=
  steady_mk rfl rfl rfl rfl rfl rfl rfl h

theorem withNet_steady (x : Net) : Steady s { t with net := x } := steady_mk rfl rfl rfl rfl rfl rfl rfl h

theorem withObs_steady (x : Obs) : Steady s { t with obs := x } := steady_mk rfl rfl rfl rfl rfl rfl rfl h

theorem withCtl_steady (x : Ctl) (e : x.state = t.ctl.state) : Steady s { t with ctl := x } :=
  steady_mk rfl rfl rfl rfl rfl e rfl h

theorem withTime_steady (x : Time) (e : x.gcount = t.time.gcount) : Steady s { t with time := x } :=
  steady_mk rfl rfl rfl e rfl rfl rfl h

theorem withFault_steady (x : FaultSt) (e : x.classes = t.fault.classes) : Steady s { t with fault := x } :=
  steady_mk rfl rfl rfl rfl rfl rfl e h

theorem withPower_steady (x : Power) : Steady s { t with power := x } := steady_mk rfl rfl rfl rfl rfl rfl rfl h

theorem regRead_steady (a : Nat) : Steady s (regRead a t).2 := by
  unfold regRead
  dsimp only
  split
  · exact gcountLatch_steady h
  · split
    · exact pmcLatch_steady _ h
    · exact h

theorem regReads_steady (n a : Nat) : Steady s (regReads n a t).2 := by
  induction n generalizing a t with
  | zero => exact h
  | succ n ih => exact ih (regRead_steady h a) (a + 4)

end

section

variable (s : State) (a : Arrival)

/-! ## Admin commands -/

theorem execAdminDoorbell_steady : Leads Steady s (execAdminDoorbell a s) :=
  .next <| ite_rel (.refl s) <| onReceive_steady a _ (h := .refl s) fun u =>
    ite_rel (protErr_steady a (.refl u)) <| ite_rel (commit_steady a (count_steady _ _ _ _ (.refl u))) <|
      foldl_steady (fun b v => adminArrive_steady _ b (.refl v)) (commit_steady a (.refl u))

theorem execAdminAseqTimeout_steady (slot : Nat) : Leads Steady s (execAdminAseqTimeout slot s) :=
  .next <| ite_rel (takeStaged_steady _ _ (advanceAseq_steady _ (adminComplete_steady _ _ _ _ _ (.refl s)))) (.refl s)

theorem execIdentify_steady : Leads Steady s (execIdentify s) :=
  .next <| adminRow_steady _ _ (h := .refl s) fun _ u => sendWrite_steady _ _ _ _ _ _ (.refl u)

theorem execCreateQueue_steady : Leads Steady s (execCreateQueue s) :=
  .next <| adminRow_steady _ _ (h := .refl s) fun c u => by
    dsimp only
    split
    · exact adminDone_steady _ _ _ _ (.refl u)
    · refine ite_rel (adminDone_steady _ _ _ _ (.refl u)) (adminDone_steady _ _ _ _ (queuePut_steady _ _ ?_))
      split
      · exact setRegions_steady _ _ (.refl u)
      · exact .refl u

theorem execDestroyQueue_steady : Leads Steady s (execDestroyQueue s) :=
  .next <| adminRow_steady _ _ (h := .refl s) fun _ u =>
    ite_rel (adminDone_steady _ _ _ _ (.refl u)) (settle_steady (drainQueue_steady _ _ _ _ _ (.refl u)))

theorem execResetQueue_steady : Leads Steady s (execResetQueue s) :=
  .next <| adminRow_steady _ _ (h := .refl s) fun _ u =>
    ite_rel (adminDone_steady _ _ _ _ (.refl u)) (settle_steady (drainQueue_steady _ _ _ _ _ (.refl u)))

theorem execQueueDrained_steady (q : Nat) : Leads Steady s (execQueueDrained q s) := by
  unfold execQueueDrained
  refine .next <| ite_rel (.refl s) ?_
  extract_lets x reset y s1 s2
  have h1 : Steady s s1 := ite_rel (relayState_steady _ (queuePut_steady _ _ (.refl s)))
    (queuePut_steady _ _ (relayState_steady _ (queuePut_steady _ _ (.refl s))))
  have h2 : Steady s s2 := by
    unfold s2
    split
    · exact adminComplete_steady _ _ _ _ _ h1
    · exact h1
  exact stopsDone_steady h2

theorem execLoadChord_steady : Leads Steady s (execLoadChord s) :=
  .next <| adminRow_steady _ _ (h := .refl s) fun c u =>
    ite_rel (adminAgain_steady c (.refl u)) <| withLoad_steady _ c _ (h := .refl u) fun bs v =>
      ite_rel (adminBad_steady c _ _ (.refl v)) <| ite_rel (adminDone_steady c _ _ _ (.refl v)) <|
        ite_rel (loadDomain_steady c bs (.refl v)) (loadRecords_steady c bs (.refl v))

theorem execLoadSchedule_steady (body : Option ZsiBody) : Leads Steady s (execLoadSchedule body s) :=
  .next <| adminRow_steady _ _ (h := .refl s) fun c u => withLoad_steady _ c _ (h := .refl u) fun bs v => by
    refine ite_rel (adminBad_steady c _ _ (.refl v)) ?_
    split
    · exact adminDone_steady c _ _ _ (.refl v)
    · split
      · exact adminDone_steady c _ _ _ (loadZsi_steady _ _ _ _ (setRegions_steady _ _ (.refl v)))
      · exact .refl v

theorem execStartJob_steady : Leads Steady s (execStartJob s) :=
  .next <| adminRow_steady _ _ (h := .refl s) fun c u =>
    ite_rel (adminBad_steady c _ _ (.refl u)) <| ite_rel (adminDone_steady c _ _ _ (.refl u)) <|
      ite_rel (adminDone_steady c _ _ _ (.refl u)) (adminDone_steady c _ _ _ (jobPut_steady _ _ (.refl u)))

theorem execStopJob_steady : Leads Steady s (execStopJob s) :=
  .next <| adminRow_steady _ _ (h := .refl s) fun _ u =>
    stopsDone_steady (withAdmin_steady (settle_steady (stopJob_steady _ (.refl u))) _)

theorem execSetEpochChord_steady : Leads Steady s (execSetEpochChord s) := by
  unfold execSetEpochChord
  refine .next ?_
  split
  · refine ite_rel (.refl s) <| adminRow_steady _ _ (h := .refl s) fun c u =>
      ite_rel (adminBad_steady c _ _ (.refl u)) <| ite_rel (adminAgain_steady c (.refl u)) <|
        ite_rel (adminBad_steady c _ _ (.refl u)) <| ite_rel (adminDone_steady c _ _ _ (.refl u)) <|
          adminDone_steady c _ _ _ (ite_rel ?told ?set)
    case set => exact withChord_steady (.refl u) _
    case told => exact foldl_steady (fun p v => sendDomain_steady p _ _ _ (.refl v)) (withChord_steady (.refl u) _)
  · exact .refl s

theorem execSetEpochRouting_steady : Leads Steady s (execSetEpochRouting s) := by
  unfold execSetEpochRouting
  refine .next ?_
  split
  · exact ite_rel (.refl s) <| adminRow_steady _ _ (h := .refl s) fun c u =>
      ite_rel (adminDone_steady c _ _ _ (.refl u)) (adminDone_steady c _ _ _ (withRouting_steady (.refl u) _))
  · exact .refl s

theorem execReadReg_steady : Leads Steady s (execReadReg s) :=
  .next <| adminRow_steady _ _ (h := .refl s) fun c u =>
    ite_rel (adminBad_steady c _ _ (.refl u)) <| ite_rel (adminBad_steady c _ _ (.refl u)) <|
      ite_rel (adminBad_steady c _ _ (.refl u)) <|
        adminSettle_steady (adminAwait_steady c _ _ (sendWrites_steady _ _ _ _ _ _ (regReads_steady (.refl u) _ _)))

theorem execWriteReg_steady : Leads Steady s (execWriteReg s) :=
  .next <| adminRow_steady _ _ (h := .refl s) fun c u =>
    ite_rel (adminBad_steady c _ _ (.refl u)) <| ite_rel (adminBad_steady c _ _ (.refl u)) <|
      adminDone_steady c _ _ _ (regWrite_steady _ (.refl u))

theorem execSnapshot_steady : Leads Steady s (execSnapshot s) :=
  .next <| adminRow_steady _ _ (h := .refl s) fun c u => by
    dsimp only
    split
    · exact ite_rel (adminDone_steady c _ _ _ (.refl u)) (writeSection_steady c _ _ (.refl u))
    · have k := completeJournals_steady (.refl u)
      split
      · exact adminBad_steady c _ _ k
      · split
        · exact notice_steady _ (adminDone_steady c _ _ _ k)
        · exact withAdmin_steady k _
    · exact adminBad_steady c _ _ (.refl u)

theorem execSnapshotSectionStart_steady : Leads Steady s (execSnapshotSectionStart s) := by
  unfold execSnapshotSectionStart
  refine .next <| ite_rel (.refl s) ?_
  split
  · exact .refl s
  next c _ =>
    have k := completeJournals_steady (withAdmin_steady (.refl s) { s.admin with snaps := s.admin.snaps.filter (· ≠ c) })
    dsimp only
    split
    · exact adminDone_steady c _ _ _ k
    · split
      · exact notice_steady _ (adminDone_steady c _ _ _ k)
      · exact writeSection_steady c _ _ k

theorem execRestore_steady : Leads Steady s (execRestore s) :=
  .next <| adminRow_steady _ _ (h := .refl s) fun c u => by
    refine ite_rel (adminBad_steady c _ _ (.refl u)) <| ite_rel (adminBad_steady c _ _ (.refl u)) <|
      ite_rel (adminAgain_steady c (.refl u)) ?_
    split
    · exact adminAgain_steady c (sendReads_steady _ _ _ _ _ _ (withNet_steady (.refl u) _))
    · exact ite_rel (adminBad_steady c _ _ (dropImage_steady (.refl u))) <| ite_rel (adminAgain_steady c (.refl u))
        (restoreWith_steady c _ (.refl u))

theorem execSleepTick_steady : Leads Steady s (execSleepTick s) :=
  .next <| foldl_steady (fun x u => sleepFinish_steady x (.refl u)) (withAdmin_steady (.refl s) _)

theorem execWakeIsland_steady : Leads Steady s (execWakeIsland s) :=
  .next <| wakeRow_steady _ _ (h := .refl s) fun _ u => by
    split
    next dormant => exact wakeNow_steady (by simp [dormant]) (.refl u)
    next => exact .refl u

theorem execWakeDie_steady : Leads Steady s (execWakeDie s) :=
  .next <| wakeRow_steady _ _ (h := .refl s) fun d u =>
    ite_rel (loseDieClaims_steady _ _ (dieModify_steady d _ (.refl u))) (.refl u)

theorem execWakePort_steady : Leads Steady s (execWakePort s) :=
  .next <| wakeRow_steady _ _ (h := .refl s) fun _ u => ite_rel (sleepBits_steady _ _ _ (.refl u)) (.refl u)

/-! ## Queues and control packets -/

theorem execDescriptorStart_steady (q : Nat) : Leads Steady s (execDescriptorStart q s) := by
  unfold execDescriptorStart
  refine .next <| ite_rel (.refl s) ?_
  extract_lets s1
  have h1 : Steady s s1 := by
    unfold s1
    split
    · exact .refl s
    · exact ite_rel (fetchEntry_steady _ _ (.refl s)) (.refl s)
  split
  · exact settle_steady (startFetched_steady _ _ h1)
  · exact h1

theorem execDescriptorReread_steady (q : Nat) : Leads Steady s (execDescriptorReread q s) := by
  unfold execDescriptorReread
  refine .next ?_
  dsimp only
  split
  · have k := fetchEntry_steady q (queueGet s q).startNext (.refl s)
    exact ite_rel (.refl s) <| ite_rel (settle_steady (failDesc_steady _ _ _ _ _ (queuePut_steady _ _ k))) k
  · exact .refl s

theorem execDescriptorRelay_steady : Leads Steady s (execDescriptorRelay a s) :=
  .next <| ctrlRow_steady _ a _ (h := .refl s) fun g q d _ u => by
    refine ite_rel (dropWith_steady _ _ a (.refl u)) ?_
    split
    · exact sendUp_steady _ _ _ _ _ (ite_rel (.refl u) (queuePut_steady _ _ (.refl u)))
    · exact ite_rel (sendUp_steady _ _ _ _ _ (.refl u)) <| ite_rel (.refl u) (settle_steady (startRelay_steady _ _ _ _ (.refl u)))

theorem execRelayRefused_steady : Leads Steady s (execRelayRefused a s) :=
  .next <| ctrlRow_steady _ a _ (h := .refl s) fun g q d _ u => by
    have k := opModify_steady q d (downsGone (· == a.pkt.hdr.src)) (.refl u)
    refine ite_rel (sendUp_steady _ _ _ _ _ k) ?_
    split
    · exact k
    · exact ite_rel k (settle_steady (failStarted_steady _ _ _ k))

theorem execDiscard_steady : Leads Steady s (execDiscard a s) :=
  .next <| ctrlRow_steady _ a _ (h := .refl s) fun g q d arg u => by
    have k := takeDiscard_steady a g q d (arg.toNat % 256) (BitVec.ofNat 32 (arg.toNat / 2 ^ 32)) _
      (fun o v => tellDiscard_steady arg (some a.pkt.hdr.src) o (.refl v)) (.refl u)
    refine settle_steady ?_
    split
    · exact queueOut_steady _ _ _ k
    · exact k

theorem execOperationDone_steady : Leads Steady s (execOperationDone a s) :=
  .next <| ctrlRow_steady _ a _ (h := .refl s) fun _ q d _ u => settle_steady (opModify_steady q d _ (.refl u))

theorem execPosterCompletion_steady (q : Nat) (d : BitVec 32) : Leads Steady s (execPosterCompletion q d s) := by
  unfold execPosterCompletion
  refine .next ?_
  split
  · exact ite_rel (settle_steady (writePoster_steady _ (.refl s))) (.refl s)
  · exact .refl s

theorem execQueueState_steady : Leads Steady s (execQueueState a s) :=
  .next <| ctrlRow_steady _ a _ (h := .refl s) fun _ q _ _ u =>
    ite_rel (.refl u) <| sendCtrls_steady _ _ _ _ _ _ _ _ _ <|
      ite_rel (drainQueue_steady _ _ _ _ _ (.refl u)) (drawn_steady (queuePut_steady q _ (.refl u)))

theorem execChordSectionData_steady : Leads Steady s (execChordSectionData a s) :=
  .next <| ctrlRow_steady _ a _ (h := .refl s) fun _ _ _ _ u =>
    ite_rel (.refl u) <| ite_rel (withAdmin_steady (.refl u) _) (takeSection_steady _ _ (withAdmin_steady (.refl u) _))

theorem execChordEpochRelay_steady : Leads Steady s (execChordEpochRelay a s) :=
  .next <| ctrlRow_steady _ a _ (h := .refl s) fun _ _ _ _ u => ite_rel (withChord_steady (.refl u) _) (.refl u)

theorem execSectionChecked_steady : Leads Steady s (execSectionChecked a s) :=
  .next <| ctrlRow_steady _ a _ (h := .refl s) fun _ _ _ _ u => by
    split
    · exact ite_rel (finishDomain_steady _ (.refl u)) (withAdmin_steady (.refl u) _)
    · exact .refl u

end

end Sys2Proof.Machine
end

section
/-! SUPPORT. What a row's answer keeps: the rows of the packets of operations, of frames, of units and of links. -/

set_option Elab.async false

namespace Sys2Proof.Machine

section

variable (s : State) (a : Arrival) (q : Nat) (d : BitVec 32)

/-! ## Packets of operations -/

theorem execPartialPkt_steady : Leads Steady s (execPartialPkt a s) := by
  unfold execPartialPkt
  refine .next ?_
  split
  · exact ite_rel (.refl s) <| onReceive_steady a _ (h := .refl s) fun u => onOp_steady a _ _ _ (h := .refl u) fun o v =>
      ite_rel (detDrop_steady a o (.refl v)) <| ite_rel (commit_steady a (.refl v))
        (stagePieces_steady _ _ _ (commit_steady a (.refl v)))
  · exact .refl s

theorem execRaw_steady : Leads Steady s (execRaw a s) := by
  unfold execRaw
  refine .next ?_
  split
  · exact onReceive_steady a _ (h := .refl s) fun u => onOp_steady a _ _ _ (h := .refl u) fun _ v =>
      ite_rel (dropWith_steady _ _ a (.refl v)) <| ite_rel (commit_steady a (.refl v))
        (stagePieces_steady _ _ _ (commit_steady a (.refl v)))
  · exact .refl s

theorem execResult_steady : Leads Steady s (execResult a s) := by
  unfold execResult
  refine .next ?_
  split
  · refine onReceive_steady a _ (h := .refl s) fun u => onOp_steady a _ _ _ (h := .refl u) fun o v => ?_
    have k := commit_steady a (.refl v)
    refine ite_rel (dropWith_steady _ _ a (.refl v)) ?_
    split
    · exact ite_rel k (takeResult_steady o _ _ _ k)
    · exact k
  · exact .refl s

theorem execResultMeta_steady : Leads Steady s (execResultMeta a s) := by
  unfold execResultMeta
  refine .next ?_
  split
  · exact onReceive_steady a _ (h := .refl s) fun u => onOp_steady a _ _ _ (h := .refl u) fun o v =>
      ite_rel (commit_steady a (.refl v)) <| settle_steady <| pizzCheck_steady _ _ <| endCheck_steady _ _ <|
        foldl_steady (fun e w => sendOp_steady o e _ _ _ _ (.refl w)) (opModify_steady _ _ _ (commit_steady a (.refl v)))
  · exact .refl s

theorem execStream_steady : Leads Steady s (execStream a s) := by
  unfold execStream
  refine .next ?_
  split
  · refine onReceive_steady a _ (h := .refl s) fun u => ite_rel (lateDrop_steady a (.refl u)) <|
      ite_rel (protErr_steady a (.refl u)) ?_
    have out := fun neck n c => notice_steady n (commit_steady a (count_steady 0x3A neck 1 c (.refl u)))
    dsimp only
    split
    · exact ite_rel (out _ _ _) <| ite_rel (streamForeign_steady a _ _ _ (.refl u)) (streamPut_steady a _ _ _ _ _ _ _ (.refl u))
    · exact out _ _ _
  · exact .refl s

theorem execLevel_steady : Leads Steady s (execLevel a s) :=
  .next <| ctrlRow_steady _ a _ (h := .refl s) fun _ q d _ u => withOp_steady q d _ (h := .refl u) fun o v => by
    split
    · exact ite_rel (.refl v) (raiseLater_steady _ _ _ _ (sendLevels_steady o _ _ _ (.refl v)))
    · exact .refl v

theorem execWgradChunkTile_steady : Leads Steady s (execWgradChunkTile a s) := by
  unfold execWgradChunkTile
  refine .next ?_
  split
  · refine ite_rel (.refl s) <| onReceive_steady a _ (h := .refl s) fun u => ?_
    split
    next o _ => exact ite_rel (passTile_steady a o (commit_steady a (.refl u))) (foreignPacket_steady a o (.refl u))
    next => exact onOp_steady a _ _ _ (h := .refl u) fun o v => takeTile_steady a _ o (.refl v)
  · exact .refl s

theorem execMasksSatisfied_steady : Leads Steady s (execMasksSatisfied a s) :=
  .next <| ctrlRow_steady _ a _ (h := .refl s) fun _ q d _ u =>
    settle_steady (stashCheck_steady q d (opModify_steady q d _ (.refl u)))

theorem execPhaseFenceComplete_steady (fence : FenceEnd) : Leads Steady s (execPhaseFenceComplete q fence s) :=
  .next <| withOp_steady q _ _ (h := .refl s) fun o u => by
    split
    · exact ite_rel (.refl u) <| ite_rel (.refl u) <|
        ite_rel (settle_steady (opFinish_steady _ _ _ _ (foldl_steady (fun c v => releaseCovered_steady o c (.refl v)) (.refl u))))
          (settle_steady (opFinish_steady _ _ _ _ (.refl u)))
    · exact .refl u

/-! ## Pizzicato -/

/-- The rows of the three kinds of pizzicato input: they differ in the packets that fit, and in the ordinals and pieces these carry. -/
theorem pizzInputRow_steady (sub : Nat) (fits uses : PizzExt → State → Op → Bool) (ords : PizzExt → State → Op → List Nat)
    (ps : PizzExt → State → Op → List Piece) :
    Steady s (pizzRow sub a s fun x s => onPizz a x (fits x) (uses x) (pizzLate a x.group) s fun o s =>
      pizzInput a o (ords x s o) x.ecnt (ps x s o) s) :=
  pizzRow_steady _ a _ (h := .refl s) fun x u => onPizz_steady a x _ _ _ _ (h := .refl u)
    (h1 := fun v => pizzLate_steady a _ (.refl v)) (h2 := fun o v => pizzInput_steady a o _ _ _ (.refl v))

theorem execPizzContribution_steady : Leads Steady s (execPizzContribution a s) :=
  .next (pizzInputRow_steady s a 1 _ _ (fun _ u o => (pizzMember u o a.pkt.hdr.src).toList) _)

theorem execPizzNode_steady : Leads Steady s (execPizzNode a s) :=
  .next (pizzInputRow_steady s a 2 _ _ (fun x u o => pizzNodeOrds u o x) _)

theorem execPizzRawRun_steady : Leads Steady s (execPizzRawRun a s) :=
  .next (pizzInputRow_steady s a 3 _ _ (fun x _ _ => pizzRunOrds x) _)

theorem execPizzResult_steady : Leads Steady s (execPizzResult a s) :=
  .next <| pizzRow_steady _ a _ (h := .refl s) fun x u => onPizz_steady a x _ _ _ _ (h := .refl u)
    (h1 := fun v => lateDrop_steady a (.refl v))
    (h2 := fun _ v => ite_rel (commit_steady a (.refl v))
      (settle_steady (pizzCheck_steady _ _ (stagePieces_steady _ _ _ (commit_steady a (.refl v))))))

theorem execPizzDiscard_steady : Leads Steady s (execPizzDiscard a s) :=
  .next <| pizzRow_steady _ a _ (h := .refl s) fun _ u => ite_rel (lateDrop_steady a (.refl u)) <| settle_steady <|
    queueOut_steady _ _ _ <| takeDiscard_steady a _ _ _ _ _ _ (h := commit_steady a (.refl u)) fun o v =>
      tellTimeout_steady _ o (.refl v)

theorem execPizzTimeout_steady : Leads Steady s (execPizzTimeout q d s) := by
  unfold execPizzTimeout
  refine .next ?_
  split
  · exact ite_rel (.refl s) <| settle_steady <| notice_steady _ <| queueOut_steady _ _ _ <|
      discardTold_steady _ _ _ _ (h := .refl s) fun o v => tellTimeout_steady _ o (.refl v)
  · exact .refl s

/-! ## Epoch copies and frames -/

theorem execChordCopyRetire_steady : Leads Steady s (execChordCopyRetire s) := by
  unfold execChordCopyRetire
  refine .next ?_
  split
  · exact .refl s
  · refine ite_rel (.refl s) <| settle_steady <| withChord_steady (foldl_steady (fun p u => ?_) (discardIf_steady _ _ (.refl s))) _
    split
    · exact discardOp_steady _ _ (.refl u)
    · exact pizzEnd_steady _ _ (.refl u)

theorem execRoutingCopyRetire_steady : Leads Steady s (execRoutingCopyRetire s) := by
  unfold execRoutingCopyRetire
  refine .next ?_
  split
  · exact .refl s
  · exact ite_rel (.refl s) <| settle_steady <| withRouting_steady (foldl_steady (fun k u =>
      withOp_steady _ _ _ (h := .refl u) fun o v => ite_rel (notice_steady _ (discardOp_steady _ o (.refl v))) (.refl v)) (.refl s)) _

theorem execShadowOpen_steady (table : Nat) : Leads Steady s (execShadowOpen table s) :=
  .next <| ite_rel (withChord_steady (.refl s) _) <| ite_rel (withRouting_steady (.refl s) _) (.refl s)

theorem execChunkCommitPoint_steady (plan : Nat) : Leads Steady s (execChunkCommitPoint q d plan s) := by
  unfold execChunkCommitPoint
  refine .next ?_
  split
  next o _ =>
    split
    · have k := commitChunk_steady o plan (.refl s)
      exact ite_rel (.refl s) <| ite_rel (ite_rel (settle_steady (openApply_steady o k)) k) (slipChunk_steady o plan _ (.refl s))
    · exact .refl s
  next =>
    split
    next o _ =>
      split
      · exact earlySlip_steady o plan _ (.refl s)
      · exact .refl s
    next => exact .refl s

theorem execChunkComplete_steady (plan : Nat) : Leads Steady s (execChunkComplete q d plan s) :=
  .next <| withOp_steady q d _ (h := .refl s) fun o u => by
    split
    · exact ite_rel (chunkEffect_steady o plan _ (.refl u)) (.refl u)
    · exact .refl u

theorem execReplay_steady (plan : Nat) : Leads Steady s (execReplay q d plan s) :=
  .next <| withOp_steady q d _ (h := .refl s) fun o u => by
    split
    next c _ =>
      have slipped := slipChunk_steady o plan c (.refl u)
      exact ite_rel (.refl u) <| ite_rel (ite_rel (commitChunk_steady o plan (markReplay_steady o plan c (.refl u))) slipped) <|
        ite_rel (settle_steady (capoRunning_steady o _ (.refl u))) slipped
    next => exact .refl u

theorem execSpareSubstitution_steady (string : Nat) : Leads Steady s (execSpareSubstitution string s) :=
  .next <| ite_rel (repairEnd_steady string (.refl s)) (.refl s)

theorem execUnitRejoin_steady (die : Nat) : Leads Steady s (execUnitRejoin die s) :=
  .next <| ite_rel (dieModify_steady die _ (.refl s)) (.refl s)

theorem execJobStart_steady (job : Nat) : Leads Steady s (execJobStart job s) :=
  .next <| ite_rel (jobsRun_steady (jobPut_steady job _ (.refl s))) (.refl s)

/-! ## Faults of units -/

theorem execFretFault_steady (string : FaultAt) (phys : Nat) (cause : FretCause) : Leads Steady s (execFretFault string phys cause s) := by
  unfold execFretFault
  refine .next <| ite_rel (.refl s) ?_
  split
  · exact settle_steady (scrubbed_steady _ _ _ (by decide) rfl (.refl s))
  · exact settle_steady <| strPut_steady _ _ <| islandLevel_steady _ _ <| raiseLosing_steady _ _ _ _ _ (by decide) rfl (.refl s)

theorem execFretRetestDone_steady (string phys : Nat) (pass : Bool) : Leads Steady s (execFretRetestDone string phys pass s) :=
  .next <| ite_rel (.refl s) <|
    ite_rel (settle_steady (fretRetire_steady _ _ (strPut_steady _ _ (.refl s)))) (strPut_steady _ _ (.refl s))

theorem execStringFault_steady (string : StringHit) : Leads Steady s (execStringFault string s) :=
  .next <| ite_rel (.refl s) <| settle_steady <| islandLevel_steady _ _ <|
    raiseFault_steady _ _ _ _ (by decide) rfl (.refl s)

theorem execDieFault_steady (die : FaultAt) (cause : DieCause) : Leads Steady s (execDieFault die cause s) := by
  unfold execDieFault
  refine .next <| ite_rel (.refl s) ?_
  split
  · exact settle_steady (scrubbed_steady _ _ _ (by decide) rfl (.refl s))
  · exact settle_steady (dieOut_steady _ _ _ _ (.refl s))

theorem execDieReturnTest_steady (die : Nat) (pass : Bool) : Leads Steady s (execDieReturnTest die pass s) :=
  .next <| ite_rel (.refl s) <| ite_rel (dieReturned_steady die (.refl s)) <|
    settle_steady (foldl_steady (fun k u => stringOut_steady k _ (.refl u)) (dieOut_steady _ _ _ _ (.refl s)))

theorem execTsramError_steady (neck : FaultAt) (region : TsramRegion) (addr : BitVec 64) :
    Leads Steady s (execTsramError neck region addr s) :=
  .next <| ite_rel (.refl s) <| settle_steady <| islandLevel_steady _ _ <| tsramEffect_steady _ _ <|
    raiseFault_steady _ _ _ _ (by decide) rfl (.refl s)

theorem execXbarFault_steady (neck : FaultAt) : Leads Steady s (execXbarFault neck s) :=
  .next <| ite_rel (.refl s) <| settle_steady <| islandLevel_steady _ _ <|
    raiseFault_steady _ _ _ _ (by decide) rfl (.refl s)

theorem execCorrected_steady (u : FUnit) (errors : Nat) : Leads Steady s (execCorrected u errors s) := by
  unfold execCorrected
  refine .next ?_
  split
  next => exact .refl s
  next neck _ =>
    have k := count_steady 0x1B neck errors {} (.refl s)
    exact ite_rel (.refl s) (ite_rel k (raiseCorrected_steady u errors k))

theorem execCriticalShutdown_steady (die : CriticalDie) : Leads Steady s (execCriticalShutdown die s) :=
  .next <| ite_rel (.refl s) (withPower_steady (.refl s) _)

/-! ## Transport -/

theorem execReadRefused_steady : Leads Steady s (execReadRefused a s) := by
  unfold execReadRefused
  refine .next ?_
  split
  · exact onReceive_steady a _ (h := .refl s) fun u => send_steady _ (count_steady _ _ _ _ (commit_steady a (.refl u)))
  · exact .refl s

theorem execReadRsp_steady : Leads Steady s (execReadRsp a s) := by
  unfold execReadRsp
  refine .next ?_
  split
  · refine onReceive_steady a _ (h := .refl s) fun u => ?_
    dsimp only
    split
    · exact lateDrop_steady a (.refl u)
    · have k := fun n => withNet_steady (.refl u) n
      exact settle_steady (drain_steady _ _ (ite_rel (lateDrop_steady a (k _)) (readTaken_steady _ _ _ (commit_steady a (k _)))))
  · exact .refl s

theorem execAck_steady : Leads Steady s (execAck a s) := by
  unfold execAck
  refine .next ?_
  split
  · refine onReceive_steady a _ (h := .refl s) fun u => ?_
    dsimp only
    split
    · exact .refl u
    · exact afterAck_steady _ _ (txPut_steady _ (.refl u))
  · exact .refl s

theorem execE2eRetransmit_steady (dst tc : Nat) (psn : BitVec 32) : Leads Steady s (execE2eRetransmit dst tc psn s) := by
  unfold execE2eRetransmit
  refine .next ?_
  split
  · exact .refl s
  · split
    · exact .refl s
    · exact ite_rel (.refl s) <| ite_rel (resend_steady _ _ (.refl s)) (flowFail_steady _ _ (.refl s))

theorem execQdepth_steady : Leads Steady s (execQdepth a s) := by
  unfold execQdepth
  refine .next ?_
  split
  · exact onReceive_steady a _ (h := .refl s) fun u =>
      drainAll_steady (withNet_steady (foldl_steady (fun p v => bwModify_steady _ _ (.refl v)) (.refl u)) _)
  · exact .refl s

theorem execQdepthStale_steady (port : Nat) : Leads Steady s (execQdepthStale port s) :=
  .next <| ite_rel (.refl s) (drainAll_steady (withNet_steady (count_steady _ _ _ _ (.refl s)) _))

/-! ## Discovery -/

theorem execHello_steady : Leads Steady s (execHello a s) :=
  .next <| onDisc_steady _ a _ (h := .refl s) fun p _ u => sendDisc_steady p _ _ _ _ _ (.refl u)

theorem execHelloPeriod_steady (port : Nat) : Leads Steady s (execHelloPeriod port s) :=
  .next <| ite_rel (.refl s) (sendDisc_steady port _ _ _ _ _ (portPut_steady port _ (.refl s)))

theorem execReply_steady : Leads Steady s (execReply a s) :=
  .next <| onDisc_steady _ a _ (h := .refl s) fun p x u => by
    dsimp only
    split
    · exact quarantine_steady p _ _ _ _ (.refl u)
    · exact sendDisc_steady p _ _ _ _ _ (ite_rel (.refl u) (portPut_steady p _ (.refl u)))

theorem execConfirm_steady : Leads Steady s (execConfirm a s) :=
  .next <| onDisc_steady _ a _ (h := .refl s) fun p _ u => ite_rel (.refl u) (portPut_steady p _ (.refl u))

theorem execPortUp_steady (port : Nat) : Leads Steady s (execPortUp port s) :=
  .next <| ite_rel (.refl s) (drainAll_steady (notice_steady _ (portPut_steady port _ (.refl s))))

theorem execQuar_steady : Leads Steady s (execQuar a s) :=
  .next <| onDisc_steady _ a _ (h := .refl s) fun p _ u => ite_rel (.refl u) (portPut_steady p _ (.refl u))

theorem execEcho_steady : Leads Steady s (execEcho a s) :=
  .next <| onDisc_steady _ a _ (h := .refl s) fun p _ u => sendDisc_steady p _ _ _ _ _ (.refl u)

theorem execEchoRsp_steady : Leads Steady s (execEchoRsp a s) :=
  .next <| onDisc_steady _ a _ (h := .refl s) fun p _ u =>
    ite_rel (.refl u) <| ite_rel (echoLost_steady p (.refl u)) (portPut_steady p _ (.refl u))

theorem execEchoPeriod_steady (port : Nat) : Leads Steady s (execEchoPeriod port s) :=
  .next <| ite_rel (.refl s) <| ite_rel (echoLost_steady port (.refl s))
    (sendDisc_steady port _ _ _ _ _ (portPut_steady port _ (.refl s)))

/-! ## Time exchange -/

theorem execTsyncReq_steady : Leads Steady s (execTsyncReq a s) := by
  unfold execTsyncReq
  refine .next ?_
  split
  · exact ite_rel (.refl s) <| onReceive_steady a _ (h := .refl s) fun u => sendTsync_steady _ _ _ (.refl u)
  · exact .refl s

theorem execTsyncExchange_steady : Leads Steady s (execTsyncExchange s) := by
  have k := timeModify_steady (fun t => { t with nextExch := t.gcount + 31250 * t.per }) rfl (.refl s)
  exact .next <| ite_rel (.refl s) <| ite_rel (timeModify_steady asRoot rfl k) <|
    askParent_steady (reselect_steady (missExchange_steady (timeModify_steady _ rfl k)))

/-! ## Cascade links and modules -/

section

variable (port lane : Nat) (words : List (List Pam4))

theorem execCascadeDataFlit_steady : Leads Steady s (execCascadeDataFlit port words s) :=
  .next <| onFlit_steady port _ words _ (h := .refl s) fun f u => ite_rel (takeData_steady port f (.refl u)) <|
    ite_rel (cascPump_steady port (cascModify_steady port _ (.refl u))) (sendNak_steady port (.refl u))

theorem execCascadeIdleFlit_steady : Leads Steady s (execCascadeIdleFlit port words s) :=
  .next <| onFlit_steady port _ words _ (h := .refl s) fun f u => takeFiller_steady port f (.refl u)

theorem execCascadeNakFlit_steady : Leads Steady s (execCascadeNakFlit port words s) :=
  .next <| onFlit_steady port _ words _ (h := .refl s) fun f u => cascReplay_steady port (takeFiller_steady port f (.refl u))

theorem execCascadeReplayTimeout_steady : Leads Steady s (execCascadeReplayTimeout port s) :=
  .next <| ite_rel (.refl s) (cascReplay_steady port (.refl s))

theorem execAlignmentMarker_steady (word : List Pam4) : Leads Steady s (execAlignmentMarker port lane word s) := by
  unfold execAlignmentMarker
  refine .next <| ite_rel (.refl s) ?_
  split
  · exact lanesChange_steady port _ (.refl s)
  · exact laneModify_steady port lane _ (.refl s)

theorem execLaneClockRecovered_steady : Leads Steady s (execLaneClockRecovered port lane s) :=
  .next <| ite_rel (.refl s) (laneModify_steady port lane _ (.refl s))

theorem execLaneLockLoss_steady : Leads Steady s (execLaneLockLoss port lane s) :=
  .next <| ite_rel (.refl s) (linkLost_steady port _ (lanesChange_steady port _ (.refl s)))

end

theorem execUcieModuleDown_steady (m : FaultAt) : Leads Steady s (execUcieModuleDown m s) :=
  .next <| ite_rel (.refl s) (settle_steady (moduleOut_steady _ _ (.refl s)))

theorem execUcieRetrain_steady (m : Nat) (trained : Option Nat) : Leads Steady s (execUcieRetrain m trained s) := by
  unfold execUcieRetrain
  refine .next <| ite_rel (.refl s) ?_
  split
  · exact modPut_steady m _ (.refl s)
  · exact report_steady _ _ (modPut_steady m _ (.refl s))

theorem execLinkRetrain_steady (m lanes : Nat) : Leads Steady s (execLinkRetrain m lanes s) :=
  .next <| ite_rel (.refl s) (modPut_steady m _ (.refl s))

/-! ## Registers and performance counters -/

theorem whenUp_pegCmd_steady (c : Nat) : Steady s (whenUp (wrPegCmd (pegWrite c)) s) :=
  whenUp_steady _ (fun u => wrPegCmd_steady _ (.refl u)) (.refl s)

theorem execGcountLoRead_steady : Leads Steady s (execGcountLoRead s) :=
  .next <| whenUp_steady _ (fun u => regRead_steady (.refl u) _) (.refl s)

theorem execPmcLoRead_steady (i : Nat) : Leads Steady s (execPmcLoRead i s) :=
  .next <| whenUp_steady _ (fun u => ite_rel (regRead_steady (.refl u) _) (.refl u)) (.refl s)

theorem execPmcArmFire_steady : Leads Steady s (execPmcArmFire s) :=
  .next <| ite_rel (noteSet_steady _ (setFreeze_steady _ (setArm_steady _ (.refl s)))) (.refl s)

theorem execFlush_steady : Leads Steady s (execFlush s) :=
  .next <| whenUp_steady _ (fun u => regWrite_steady _ (.refl u)) (.refl s)

theorem execBwWindowClose_steady : Leads Steady s (execBwWindowClose s) :=
  .next <| ite_rel (.refl s) <|
    withObs_steady (clearSums_steady (ite_rel (bwRewrite_steady _ (.refl s)) (.refl s))) _

end

end Sys2Proof.Machine
end

section
/-! SUPPORT. What every step keeps: by `exec_steady` for the rows that only touch the rest of the state, and by a lemma of its own
for each row that writes HBM or flash, moves the count, drives the test port, or raises or clears a fatal class. -/

set_option Elab.async false

namespace Sys2Proof.Machine

/-! ## Rows that only touch the rest of the state -/

/-- The command is none of those the statements over all rows name. -/
def plain (i : Instr) : Bool :=
  !(mayFault i || mayLeaveFaulted i || writesHbm i || writesFlash i || drivesTap i || restartsCount i)

/-- A plain command leaves the queue, HBM, flash, the count and the test port, and neither records nor clears a fatal class. -/
theorem exec_steady {i : Instr} (h : plain i = true) (s : State) : Leads Steady s (exec i s) := by
  cases i with
  | adminDoorbell a => exact execAdminDoorbell_steady s a
  | adminAseqTimeout slot => exact execAdminAseqTimeout_steady s slot
  | identify => exact execIdentify_steady s
  | createQueue => exact execCreateQueue_steady s
  | destroyQueue => exact execDestroyQueue_steady s
  | resetQueue => exact execResetQueue_steady s
  | queueDrained q => exact execQueueDrained_steady s q
  | loadChord => exact execLoadChord_steady s
  | loadSchedule body => exact execLoadSchedule_steady s body
  | startJob => exact execStartJob_steady s
  | jobStart job => exact execJobStart_steady s job
  | stopJob => exact execStopJob_steady s
  | setEpochChord => exact execSetEpochChord_steady s
  | setEpochRouting => exact execSetEpochRouting_steady s
  | chordEpochSwap => exact .next (ite_rel (chordSwap_steady (.refl s)) (.refl s))
  | routingEpochSwap => exact .next (ite_rel (routingSwap_steady (.refl s)) (.refl s))
  | chordCopyRetire => exact execChordCopyRetire_steady s
  | routingCopyRetire => exact execRoutingCopyRetire_steady s
  | shadowOpen table => exact execShadowOpen_steady s table
  | readReg => exact execReadReg_steady s
  | writeReg => exact execWriteReg_steady s
  | snapshot => exact execSnapshot_steady s
  | snapshotSectionStart => exact execSnapshotSectionStart_steady s
  | restore => exact execRestore_steady s
  | sleepIsland => exact .next (sleepRow_steady 0 (.refl s))
  | sleepDie => exact .next (sleepRow_steady 1 (.refl s))
  | sleepPort => exact .next (sleepRow_steady 2 (.refl s))
  | sleepTick => exact execSleepTick_steady s
  | wakeIsland => exact execWakeIsland_steady s
  | wakeDie => exact execWakeDie_steady s
  | wakePort => exact execWakePort_steady s
  | unitRejoin die => exact execUnitRejoin_steady s die
  | descriptorStart q => exact execDescriptorStart_steady s q
  | descriptorReread q => exact execDescriptorReread_steady s q
  | syncAdd a => exact .next (syncRow_steady 1 a (.refl s))
  | syncSet a => exact .next (syncRow_steady 2 a (.refl s))
  | clrfail a => exact .next (syncRow_steady 4 a (.refl s))
  | syncWait a => exact .next (syncRow_steady 3 a (.refl s))
  | waitTimeout ctr tag => exact .next (releaseIf_steady _ _ _ (.refl s))
  | readRefused a => exact execReadRefused_steady s a
  | readRsp a => exact execReadRsp_steady s a
  | ack a => exact execAck_steady s a
  | partialPkt a => exact execPartialPkt_steady s a
  | wgradChunkTile a => exact execWgradChunkTile_steady s a
  | raw a => exact execRaw_steady s a
  | result a => exact execResult_steady s a
  | resultMeta a => exact execResultMeta_steady s a
  | stream a => exact execStream_steady s a
  | pizzContribution a => exact execPizzContribution_steady s a
  | pizzNode a => exact execPizzNode_steady s a
  | pizzRawRun a => exact execPizzRawRun_steady s a
  | pizzResult a => exact execPizzResult_steady s a
  | pizzDiscard a => exact execPizzDiscard_steady s a
  | pizzTimeout q d => exact execPizzTimeout_steady s q d
  | descriptorRelay a => exact execDescriptorRelay_steady s a
  | relayRefused a => exact execRelayRefused_steady s a
  | level a => exact execLevel_steady s a
  | discard a => exact execDiscard_steady s a
  | masksSatisfied a => exact execMasksSatisfied_steady s a
  | operationDone a => exact execOperationDone_steady s a
  | posterCompletion q d => exact execPosterCompletion_steady s q d
  | phaseFenceComplete q fence => exact execPhaseFenceComplete_steady s q fence
  | queueState a => exact execQueueState_steady s a
  | chordSectionData a => exact execChordSectionData_steady s a
  | chordEpochRelay a => exact execChordEpochRelay_steady s a
  | sectionChecked a => exact execSectionChecked_steady s a
  | tsyncReq a => exact execTsyncReq_steady s a
  | tsyncExchange => exact execTsyncExchange_steady s
  | hello a => exact execHello_steady s a
  | helloPeriod port => exact execHelloPeriod_steady s port
  | reply a => exact execReply_steady s a
  | confirm a => exact execConfirm_steady s a
  | portUp port => exact execPortUp_steady s port
  | quar a => exact execQuar_steady s a
  | echo a => exact execEcho_steady s a
  | echoRsp a => exact execEchoRsp_steady s a
  | echoPeriod port => exact execEchoPeriod_steady s port
  | qdepth a => exact execQdepth_steady s a
  | qdepthStale port => exact execQdepthStale_steady s port
  | e2eRetransmit dst tc psn => exact execE2eRetransmit_steady s dst tc psn
  | cascadeDataFlit port words => exact execCascadeDataFlit_steady s port words
  | cascadeIdleFlit port words => exact execCascadeIdleFlit_steady s port words
  | cascadeNakFlit port words => exact execCascadeNakFlit_steady s port words
  | cascadeReplayTimeout port => exact execCascadeReplayTimeout_steady s port
  | alignmentMarker port lane word => exact execAlignmentMarker_steady s port lane word
  | laneClockRecovered port lane => exact execLaneClockRecovered_steady s port lane
  | laneLockLoss port lane => exact execLaneLockLoss_steady s port lane
  | ucieModuleDown m => exact execUcieModuleDown_steady s m
  | ucieRetrain m trained => exact execUcieRetrain_steady s m trained
  | discardRelease => exact .next (ite_rel (releaseAll_steady (.refl s)) (.refl s))
  | frameLengthChange => exact .next (ite_rel (newLength_steady (.refl s)) (.refl s))
  | chunkCommitPoint q d plan => exact execChunkCommitPoint_steady s q d plan
  | chunkComplete q d plan => exact execChunkComplete_steady s q d plan
  | replay q d plan => exact execReplay_steady s q d plan
  | fretFault string phys cause => exact execFretFault_steady s string phys cause
  | fretRetestDone string phys pass => exact execFretRetestDone_steady s string phys pass
  | spareSubstitution string => exact execSpareSubstitution_steady s string
  | stringFault string => exact execStringFault_steady s string
  | dieFault die cause => exact execDieFault_steady s die cause
  | dieReturnTest die pass => exact execDieReturnTest_steady s die pass
  | tsramError neck region addr => exact execTsramError_steady s neck region addr
  | xbarFault neck => exact execXbarFault_steady s neck
  | corrected u errors => exact execCorrected_steady s u errors
  | flush => exact execFlush_steady s
  | criticalShutdown die => exact execCriticalShutdown_steady s die
  | swresetWrite w => exact .next (regRow_steady _ w (.refl s))
  | frameLenWrite w => exact .next (regRow_steady _ w (.refl s))
  | tsyncCtlWrite w => exact .next (regRow_steady _ w (.refl s))
  | gcountLoRead => exact execGcountLoRead_steady s
  | pmcLoRead i => exact execPmcLoRead_steady s i
  | pmcSelWrite w => exact .next (regRow_steady _ w (.refl s))
  | pmcValueWrite w => exact .next (regRow_steady _ w (.refl s))
  | pmcClear w => exact .next (ite_rel (regRow_steady _ w (.refl s)) (.refl s))
  | pmcArm w => exact .next (ite_rel (regRow_steady _ w (.refl s)) (.refl s))
  | pmcArmFire => exact execPmcArmFire_steady s
  | pmcFreeze w => exact .next (ite_rel (regRow_steady _ w (.refl s)) (.refl s))
  | bwWindowClose => exact execBwWindowClose_steady s
  | bwCtlWrite w => exact .next (regRow_steady _ w (.refl s))
  | smpCtlWrite w => exact .next (regRow_steady _ w (.refl s))
  | pegErase => exact .next (whenUp_pegCmd_steady s 1)
  | pegProgram => exact .next (whenUp_pegCmd_steady s 2)
  | pegVerify => exact .next (whenUp_pegCmd_steady s 3)
  | pegCommit => exact .next (whenUp_pegCmd_steady s 4)
  | slipWrite w => exact .next (regRow_steady _ w (.refl s))
  | cascCtlWrite w => exact .next (regRow_steady _ w (.refl s))
  | meterWord0Write w => exact .next (regRow_steady _ w (.refl s))
  | meterStagedWrite w => exact .next (regRow_steady _ w (.refl s))
  | routingShadowWrite w => exact .next (regRow_steady _ w (.refl s))
  | linkRetrain m lanes => exact execLinkRetrain_steady s m lanes
  | _ => exact absurd h (by simp [plain, mayFault, mayLeaveFaulted, writesHbm, writesFlash, drivesTap, restartsCount])

/-! ## Rows that write HBM -/

theorem onReceive_kept (a : Arrival) {f : State → State} (hf : ∀ u, Kept u (f u)) (s : State) : Kept s (onReceive a s f) := by
  have k := (receive_steady a (.refl s)).kept
  unfold onReceive
  split
  next u e => rw [e] at k; exact k
  next u e => rw [e] at k; exact Kept.trans k (hf u)

section

variable (s : State) (a : Arrival)

theorem execDescriptorRingWrite_kept : Leads Kept s (execDescriptorRingWrite a s) := by
  unfold execDescriptorRingWrite
  refine .next ?_
  split
  · exact .refl s
  · refine onReceive_kept a (fun u => ?_) s
    have refused := (protErr_steady a (.refl u)).kept
    dsimp only
    split
    · refine ite_rel (Kept.trans ?_ (commit_steady a (.refl _)).kept) refused
      exact (countWrite_steady _ _ _ (.refl u)).kept.trans (hbmWrite_kept _ a.pkt.payload _)
    · exact refused

theorem execDoorbell_kept : Leads Kept s (execDoorbell a s) :=
  .next <| ite_rel (.refl s) <| onReceive_kept a (s := s) fun u =>
    ite_rel (protErr_steady a (.refl u)).kept <| ite_rel (commit_steady a (count_steady _ _ _ _ (.refl u))).kept <|
      (commit_steady a (.refl u)).kept.trans ((doorbellTake_kept _ _ _).trans (settle_steady (.refl _)).kept)

theorem execRunningTileCombine_kept (q : Nat) (d : BitVec 32) (chunk : Nat) : Leads Kept s (execRunningTileCombine q d chunk s) :=
  .next <| withOp_kept q d (s := s) fun o u => by
    split
    · exact .refl u
    next g _ =>
      refine ite_rel (.refl u) ?_
      split
      · exact .refl u
      · exact ite_rel (recompute_steady o g _ _ _ (.refl u)).kept
          ((combineTiles_kept o g _ _ _ _ u).trans (settle_steady (.refl _)).kept)

theorem execHbmError_kept (stack : FaultAt) (region : HbmRegion) (addr : BitVec 64) :
    Leads Kept s (execHbmError stack region addr s) := by
  refine .next <| ite_rel (.refl s) ?_
  have raised := (raiseFault_steady 4 (.stack stack.unit) { addr } (lifted s 2 stack.up (stack.unit / 2) (hbmHits s region))
    (by decide) rfl (.refl s)).kept
  exact (raised.trans (hbmEffect_kept region _ s _)).trans (settle_steady (islandLevel_steady _ _ (.refl _))).kept

theorem execFrameTick_kept : Leads Kept s (execFrameTick s) := by
  unfold execFrameTick
  refine .next <| ite_rel (.refl s) ?_
  extract_lets s1
  have passed : Kept s s1 := foldl_kept (fun k u => ite_rel (stepDo_kept k u) (.refl u)) (.refl s)
  exact passed.trans (openFrame_steady (withTime_steady (.refl s1) _ (by rfl))).kept

theorem execHbmZeroizeDone_kept : Leads Kept s (execHbmZeroizeDone s) :=
  .next <| ite_rel (.refl s) (zeroizeFreed_kept s)

/-! ## Rows that write flash -/

theorem execPegCommandEnd_kept (ok : Bool) : Leads Kept s (execPegCommandEnd ok s) := by
  unfold execPegCommandEnd
  refine .next ?_
  split
  · exact pegEndErase_kept ok s
  · exact pegEndProgram_kept ok s
  · exact (pegEndVerify_steady ok (.refl s)).kept
  · exact pegEndCommit_kept ok s
  · exact .refl s

theorem execFlushDone_kept (ok : Bool) : Leads Kept s (execFlushDone ok s) := by
  unfold execFlushDone
  refine .next ?_
  split
  · exact .refl s
  next f _ =>
    have written : Kept s (if ok then flushWrite s f else flushBroken s f) := ite_rel (flushWrite_kept s f) (flushBroken_kept s f)
    refine written.trans (beginErase_steady (notice_steady _ (ite_rel ?done ?failed))).kept
    case done => exact withFault_steady (.refl _) _ rfl
    case failed => exact raiseFault_steady _ _ _ _ (by decide) rfl (withFault_steady (.refl _) _ rfl)

theorem execBackgroundEraseDone_kept : Leads Kept s (execBackgroundEraseDone s) :=
  .next <| ite_rel ((flashErase_kept _ _ s).trans (withFault_steady (.refl _) _ (by rfl)).kept) (.refl s)

end

/-! ## Rows that raise a fatal class -/

section

variable (s : State)

theorem execFatalFault_calm (cls : FatalClass) : Leads Calm s (execFatalFault cls s) := by
  have raised : Calm s (fatal (fatalClassNo cls) s) := fatal_calm _ (by cases cls <;> decide) (by cases cls <;> rfl) (.refl s)
  exact .next <| ite_rel (.refl s) <| ite_rel (thermalTrip_calm (.refl s)) raised

theorem execTempSample_calm (index : Nat) (temp : BitVec 16) : Leads Calm s (execTempSample index temp s) := by
  unfold execTempSample
  refine .next <| ite_rel (.refl s) ?_
  have taken := tempPut_steady index (tempTake (warnOf s index) (tripOf index) temp (tempGet s index)) (.refl s)
  extract_lets x s1 s2
  have warned : Steady s s2 := ite_rel (raiseHot_steady index taken) taken
  exact ite_rel (thermalTrip_calm warned.toCalm) warned.toCalm

/-- Class GCOUNT (18), which a lost clock, an expired holdover, the limit of the counter and a bad time exchange raise (R42, R47, R49). -/
theorem fatalGcount_calm {s t : State} (h : Calm s t) : Calm s (fatal 18 t) := fatal_calm 18 (by decide) rfl h

theorem execRefclkLoss_calm (stoppedNs : Nat) : Leads Calm s (execRefclkLoss stoppedNs s) :=
  .next <| ite_rel (fatalGcount_calm (.refl s)) (.refl s)

theorem execHoldoverExpiry_calm : Leads Calm s (execHoldoverExpiry s) := by
  unfold execHoldoverExpiry
  refine .next ?_
  split
  · exact ite_rel (fatalGcount_calm (.refl s)) (.refl s)
  · exact .refl s

theorem execGcountLimit_calm : Leads Calm s (execGcountLimit s) :=
  .next <| ite_rel (fatalGcount_calm (withFault_steady (.refl s) _ (by rfl)).toCalm) (.refl s)

theorem timeModify_kept (f : Time → Time) : Kept s (timeModify f s) := ⟨rfl, memOk_of rfl rfl, faultOk_of rfl rfl⟩

theorem correctTime_kept (ofs : Int) : Kept s (correctTime ofs s) :=
  ite_rel (ite_rel (fatalGcount_calm (.refl s)).kept (.refl s)) <| ite_rel (timeModify_kept s _) (timeModify_kept s _)

theorem execTsyncRsp_kept (a : TsyncAnswer) : Leads Kept s (execTsyncRsp a s) := by
  unfold execTsyncRsp
  refine .next ?_
  split
  · refine ite_rel (.refl s) <| onReceive_kept a.arrival (fun u => ?_) s
    split
    · refine ite_rel (.refl u) <| Kept.trans ?_ (correctTime_kept _ _)
      exact (copyLength_steady _ (correctRate_steady (exchangeGood_steady _ _ (drawn_steady (.refl u))))).kept
    · exact .refl u
  · exact .refl s

theorem execTuningComplete_kept (r : TuningResult) : Leads Kept s (execTuningComplete r s) := by
  unfold execTuningComplete
  refine .next ?_
  split
  next => exact .refl s
  next tuning =>
    have ring := tuneRing_steady r.bbSurvives (.refl s)
    have lost {u : State} (k : Steady s u) (cls : Nat) (hl : cls < 32) (hc : classFatal cls = true) : Kept s (fatal cls u) :=
      (fatal_calm cls hl hc k.toCalm).kept
    refine ite_rel (lost ring 24 (by decide) rfl) ?_
    split
    · exact lost ring 25 (by decide) rfl
    next trim b diff _ =>
      have trimmed := withCtl_steady ring { (tuneRing r.bbSurvives s).ctl with trimB := b, trimDiff := diff } rfl
      refine ite_rel (lost trimmed 25 (by decide) rfl) ?_
      split
      · exact lost trimmed 24 (by decide) rfl
      · exact trimmed.kept.trans (tuneWith_kept r _ _ _ (not_not.mp tuning))

/-! ## Rows that begin or end FAULTED, RESET and TUNING -/

theorem faultOk_iff_of_not_faulted {s : State} (h : s.ctl.state ≠ .faulted) : s.faultOk ↔ anyFatal s = false := by
  simp [State.faultOk, h]

theorem setState_faultOk {x : IslState} (hx : x ≠ .faulted) {s : State} (clear : anyFatal s = false) : (setState x s).faultOk :=
  (faultOk_iff_of_not_faulted (by simpa using hx)).mpr (by simpa using clear)

theorem setState_calm {x : IslState} (hx : x ≠ .faulted) {s : State} (clear : anyFatal s = false) : Calm s (setState x s) := by
  have tied : s.faultOk → (setState x s).faultOk := fun _ => setState_faultOk hx clear
  unfold setState at tied ⊢
  split at tied
  next same => rw [if_pos same]; exact .refl s
  next change => rw [if_neg change]; exact ⟨rfl, rfl, rfl, rfl, rfl, tied⟩

theorem report_ctl (n : Notice) (r : BBRec) (s : State) : (report n r s).ctl = s.ctl := by
  obtain ⟨_, _, _, _, _, _, told⟩ := notice_sends n s
  have ctl : (notice n s).ctl = s.ctl := by rw [told]
  exact ctl

/-- Taking classes out of FAULT_CLASS leaves no fatal class that was not there. -/
theorem anyFatal_of_anyFatal_cleared {s : State} {keep : Word}
    (h : anyFatal { s with fault := { s.fault with classes := s.fault.classes &&& keep } } = true) : anyFatal s = true := by
  simp only [anyFatal, ne_eq, decide_eq_true_eq] at h ⊢
  intro clear
  exact h (by rw [BitVec.and_assoc, BitVec.and_comm keep, ← BitVec.and_assoc, clear]; exact BitVec.zero_and)

theorem adminRow_calm (acode : Nat) {f : AdminCmd → State → State} (hf : ∀ c u, Calm u (f c u)) (s : State) :
    Calm s (adminRow acode s f) := by
  unfold adminRow
  split
  next c rest _ =>
    have taken := withAdmin_steady (.refl s) { s.admin with ready := rest }
    exact ite_rel (.refl s) (ite_rel (taken.toCalm.trans (hf c _)) (adminDone_steady c _ _ _ taken).toCalm)
  next => exact .refl s

/-- CLEAR_FAULT breaks the link where it clears the last fatal class, and makes it good by ending FAULTED there (R395). -/
theorem execClearFault_calm : Leads Calm s (execClearFault s) :=
  .next <| adminRow_calm _ (s := s) fun c u => by
    extract_lets gone left src s1 s2 s3
    have told : Steady s1 s2 := report_steady _ _ (.refl s1)
    have state : s2.ctl.state = u.ctl.state := congrArg Ctl.state (report_ctl _ _ s1)
    have done : Steady s3 (adminDone c 0 0 left.toNat s3) := adminDone_steady c _ _ _ (.refl s3)
    have ended : Calm s1 s3 ∧ (u.faultOk → s3.faultOk) := by
      unfold s3
      split
      next ends =>
        obtain ⟨-, clear⟩ : s2.ctl.state = .faulted ∧ anyFatal s2 = false := by simpa using ends
        have rest := beginErase_steady (settleState_steady (.refl (setState .ready s2)))
        exact ⟨told.toCalm.trans ((setState_calm (by decide) clear).trans rest.toCalm),
          fun _ => rest.faults (setState_faultOk (by decide) clear)⟩
      next stays =>
        have recorded : s2.ctl.state = .faulted → anyFatal s2 = true := by simpa using stays
        refine ⟨told.toCalm, fun tied => ⟨recorded, fun fatal => ?_⟩⟩
        rw [state]
        exact tied.mpr (anyFatal_of_anyFatal_cleared (told.fatal.symm.trans fatal))
    exact { ended.1.trans done.toCalm with faults := fun tied => done.faults (ended.2 tied) }

theorem execResetIsland_kept (cause : ResetCause) : Leads Kept s (execResetIsland cause s) := by
  unfold execResetIsland
  refine .next ?_
  have drew := (drawn_steady (.refl s)).kept
  split
  · exact ite_rel (drew.trans (enterReset_kept true true _)) drew
  · exact enterReset_kept _ _ s
  · split
    · exact ite_rel (enterReset_kept _ _ s) (.refl s)
    · exact .refl s

theorem state_ne_faulted_of_down {s : State} (down : regsUp s = false) : s.ctl.state ≠ .faulted := by
  intro faulted
  simp [regsUp, faulted] at down

theorem vinAtRest_kept (v outsideNs : Nat) (down : regsUp s = false) : Kept s (vinAtRest v outsideNs s) := by
  have rests : (vinAtRest v outsideNs s).ctl.state ≠ .faulted := by
    unfold vinAtRest
    dsimp only
    split
    · decide
    · decide
  refine ⟨rfl, memOk_of rfl rfl, fun tied => (faultOk_iff_of_not_faulted rests).mpr ?_⟩
  exact (faultOk_iff_of_not_faulted (state_ne_faulted_of_down down)).mp tied

theorem execVinMonitor_kept (tenthVolts outsideNs : Nat) : Leads Kept s (execVinMonitor tenthVolts outsideNs s) := by
  unfold execVinMonitor
  refine .next ?_
  split
  next down => exact vinAtRest_kept s _ _ (by simpa using down)
  next =>
    have taken := vinTake_steady tenthVolts outsideNs (.refl s)
    exact ite_rel ((withPower_steady taken _).kept.trans (enterReset_kept _ _ _)) taken.kept

/-- What power-good names as the contents of the flash is listed in canonical form. -/
theorem wf_foldr_put (cs : List (Nat × Byte)) : Table.wf 0xFF (cs.foldr (fun c t => Table.put 0xFF t c.1 c.2) []) = true := by
  induction cs with
  | nil => rfl
  | cons c cs ih => exact Table.wf_put c.1 c.2 ih

theorem execPowerGood_kept (p : PowerGood) : Leads Kept s (execPowerGood p s) := by
  unfold execPowerGood
  refine .next ?_
  split
  next => exact .refl s
  next starts =>
    extract_lets flash nonce peg s1 ctl time s2
    have down : s.ctl.state ≠ .faulted := by
      intro faulted
      simp [faulted] at starts
    have canonical : Table.wf 0xFF s.peg.flash = true → Table.wf 0xFF flash = true := by
      intro h
      unfold flash
      split
      · exact wf_foldr_put _
      · exact h
    have named : Kept s s2 := ⟨rfl, fun h => ⟨h.1, canonical h.2⟩, faultOk_of rfl rfl⟩
    exact named.trans (setState_steady (t := s2) .tuning (by decide) down (.refl s2)).kept

/-! ## Rows of the test access port -/

theorem execTckEdge_kept (e : TckEdge) : Leads Kept s (execTckEdge e s) :=
  .next <| ite_rel ⟨rfl, id, id⟩ ⟨rfl, id, id⟩

theorem execTrstLow_kept : Leads Kept s (execTrstLow s) := .next ⟨rfl, id, id⟩

end

/-! ## Every step -/

/-- Every command leaves the queue, and keeps the canonical form of memory and the link of FAULTED and the fatal classes. -/
theorem exec_kept (i : Instr) (s : State) : Leads Kept s (exec i s) := by
  by_cases h : plain i = true
  · exact (exec_steady h s).mono fun _ k => k.kept
  · cases i with
    | hbmZeroizeDone => exact execHbmZeroizeDone_kept s
    | clearFault => exact (execClearFault_calm s).mono fun _ k => k.kept
    | descriptorRingWrite a => exact execDescriptorRingWrite_kept s a
    | doorbell a => exact execDoorbell_kept s a
    | runningTileCombine q d chunk => exact execRunningTileCombine_kept s q d chunk
    | tsyncRsp a => exact execTsyncRsp_kept s a
    | holdoverExpiry => exact (execHoldoverExpiry_calm s).mono fun _ k => k.kept
    | gcountLimit => exact (execGcountLimit_calm s).mono fun _ k => k.kept
    | frameTick => exact execFrameTick_kept s
    | hbmError stack region addr => exact execHbmError_kept s stack region addr
    | fatalFault cls => exact (execFatalFault_calm s cls).mono fun _ k => k.kept
    | flushDone ok => exact execFlushDone_kept s ok
    | tempSample index temp => exact (execTempSample_calm s index temp).mono fun _ k => k.kept
    | vinMonitor tenthVolts outsideNs => exact execVinMonitor_kept s tenthVolts outsideNs
    | refclkLoss stoppedNs => exact (execRefclkLoss_calm s stoppedNs).mono fun _ k => k.kept
    | resetIsland cause => exact execResetIsland_kept s cause
    | powerGood p => exact execPowerGood_kept s p
    | tuningComplete r => exact execTuningComplete_kept s r
    | pegCommandEnd ok => exact execPegCommandEnd_kept s ok
    | backgroundEraseDone => exact execBackgroundEraseDone_kept s
    | tckEdge e => exact execTckEdge_kept s e
    | trstLow => exact execTrstLow_kept s
    | _ => exact absurd rfl h

theorem step_faultOk {s t : State} (h : s.faultOk) (e : step s = .next t) : t.faultOk := by
  unfold step at e
  split at e
  next c rest _ => exact (exec_kept c { s with pending := rest } t e).faults h
  next =>
    cases e
    exact (idle_kept s).faults h

/-! ## The pins -/

/-- Outside boundary scan the island drives its outputs itself (R464). -/
theorem output_own {s : State} (h : tapInstr s ≤ 2) (pin : Nat) (own : Option Bool) : output s pin own = own := by
  have undriven : ¬ scanDrives s = true := by
    simp only [scanDrives, Bool.or_eq_true, beq_iff_eq]
    omega
  rw [output, if_neg undriven, if_neg (by omega)]

theorem islFaultN_low_iff {s : State} (h : tapInstr s ≤ 2) : islFaultN s = some false ↔ s.ctl.state = .faulted := by
  rw [islFaultN, output_own h]
  cases s.ctl.state <;> simp

theorem islAlertN_low_iff {s : State} (h : tapInstr s ≤ 2) (up : regsUp s = true) :
    islAlertN s = some false ↔ s.fault.classes &&& s.fault.alertEn ≠ 0 := by
  rw [islAlertN, output_own h, if_pos up]
  simp

theorem faultOk_iff {s : State} : s.faultOk ↔ (s.ctl.state = .faulted ↔ s.fault.classes &&& fatalMask ≠ 0) := by
  simp [State.faultOk, anyFatal]

/-- Settles O39: every row and the idle step keep the link of FAULTED and the fatal classes, and outside boundary scan the pins read
as the state of the island and the enabled classes say. -/
theorem stepKeepsFaultedTied : Obligations.StepKeepsFaultedTied := by
  unfold Obligations.StepKeepsFaultedTied
  intro s t h e
  have kept := step_faultOk h e
  exact ⟨kept, faultOk_iff.mp kept, fun own => ⟨islFaultN_low_iff own, islAlertN_low_iff own⟩⟩

end Sys2Proof.Machine
end

section
/-! SUPPORT. What the rows that write HBM or flash leave as they were: the other memory, the test port and the fatal classes. -/

set_option Elab.async false

namespace Sys2Proof.Machine

/-- What an operation may change of what the statements over all rows speak of: HBM, flash, the test port, and whether a fatal
class is recorded. -/
structure May where
  hbm : Bool := false
  flash : Bool := false
  tap : Bool := false
  fatal : Bool := false

/-- The operation changes no more than `m` lets it. -/
structure Within (m : May) (s t : State) : Prop where
  hbm : m.hbm = false → t.hbm = s.hbm
  flash : m.flash = false → t.peg.flash = s.peg.flash
  tap : m.tap = false → t.tap = s.tap
  fatal : m.fatal = false → anyFatal t = anyFatal s

section

variable {m : May} {s t u : State}

theorem Within.refl (s : State) : Within m s s := ⟨fun _ => rfl, fun _ => rfl, fun _ => rfl, fun _ => rfl⟩

theorem Within.trans (a : Within m s t) (b : Within m t u) : Within m s u :=
  ⟨fun e => (b.hbm e).trans (a.hbm e), fun e => (b.flash e).trans (a.flash e), 
    fun e => (b.tap e).trans (a.tap e), fun e => (b.fatal e).trans (a.fatal e)⟩

theorem Steady.within (a : Steady s t) : Within m s t :=
  ⟨fun _ => a.hbm, fun _ => a.flash, fun _ => a.tap, fun _ => a.fatal⟩

/-- What lets an operation change more lets it change as much. -/
theorem Within.mono {n : May} (a : Within m s t) (hbm : n.hbm = false → m.hbm = false)
    (flash : n.flash = false → m.flash = false) (tap : n.tap = false → m.tap = false)
    (fatal : n.fatal = false → m.fatal = false) : Within n s t :=
  ⟨a.hbm ∘ hbm, a.flash ∘ flash, a.tap ∘ tap, a.fatal ∘ fatal⟩

/-- A calm operation records or clears fatal classes at most. -/
theorem Calm.within (a : Calm s t) (f : m.fatal = true) : Within m s t :=
  ⟨fun _ => a.hbm, fun _ => a.flash, fun _ => a.tap, fun e => absurd (f.symm.trans e) (by decide)⟩

theorem foldl_within {α : Type} {g : State → α → State} {l : List α} (hg : ∀ a u, Within m u (g u a)) (k : Within m s t) :
    Within m s (l.foldl g t) := by
  induction l generalizing t with
  | nil => exact k
  | cons a l ih => exact ih (k.trans (hg a t))

theorem withOp_within (q : Nat) (d : BitVec 32) {g : Op → State → State} (hg : ∀ o u, Within m u (g o u)) (s : State) :
    Within m s (withOp q d g s) := by
  unfold withOp
  split
  · exact hg _ s
  · exact .refl s

theorem onReceive_within (a : Arrival) {g : State → State} (hg : ∀ u, Within m u (g u)) (s : State) :
    Within m s (onReceive a s g) := by
  have received := (receive_steady a (.refl s)).within (m := m)
  unfold onReceive
  split
  next u e => rw [e] at received; exact received
  next u e => rw [e] at received; exact received.trans (hg u)

end

/-! ## Writes of HBM -/

/-- HBM alone. -/
def mayHbm : May := { hbm := true }

section

variable (s : State)

theorem hbmWrite_within (off : Nat) (bs : List Byte) : Within mayHbm s (hbmWrite off bs s) :=
  ⟨nofun, fun _ => rfl, fun _ => rfl, fun _ => rfl⟩

theorem takeInline_within (q : Nat) (bs : List Byte) : Within mayHbm s (takeInline q bs s) := by
  unfold takeInline
  dsimp only
  split
  · exact .refl s
  · exact ((countWrite_steady _ _ _ (.refl s)).within.trans (hbmWrite_within _ _ bs)).trans (queuePut_steady _ _ (.refl _)).within

theorem doorbellInline_within (q : Nat) (d : Doorbell) : Within mayHbm s (doorbellInline q d s) := by
  unfold doorbellInline
  refine ite_rel (foldl_within (fun b u => takeInline_within u q b) (.refl s)) (foldl_within (fun b u => ?_) (.refl s))
  have failed := fun p => (failDesc_steady q (descParse b).dseq p 5 (malformed 0x05 0).2 (.refl u)).within (m := mayHbm)
  refine ite_rel (.refl u) ?_
  split
  · split
    · exact ite_rel (.refl u) (failStarted_steady _ _ _ (.refl u)).within
    · exact failed _
  · exact failed _

theorem doorbellTake_within (q : Nat) (d : Doorbell) : Within mayHbm s (doorbellTake q d s) := by
  unfold doorbellTake
  dsimp only
  split
  · exact (notice_steady _ (queueError_steady _ _ _ (count_steady _ _ _ _ (.refl s)))).within
  · next n _ =>
    have taken := (queuePut_steady q { queueGet s q with tail := n } (.refl s)).within.trans (doorbellInline_within _ q d)
    exact ite_rel (taken.trans (relayState_steady _ (queuePut_steady _ _ (.refl _))).within) taken

theorem drainTiles_within (q : Nat) (d : BitVec 32) : Within mayHbm s (drainTiles q d s) := by
  refine withOp_within q d (fun o u => ?_) s
  dsimp only
  split
  · exact ite_rel (.refl u)
      ((hbmWrite_within u _ _).trans (opModify_steady _ _ _ (countWrite_steady _ _ _ (.refl _))).within)
  · exact .refl u

theorem wgradFinish_within (o : Op) (g : WgradDef) : Within mayHbm s (wgradFinish o g s) :=
  (opModify_steady _ _ _ (.refl s)).within.trans ((drainTiles_within _ o.queue o.dseq).trans (opEnd_steady _ _ (.refl _)).within)

theorem combineTiles_within (o : Op) (g : WgradDef) (chunk k : Nat) (vs : List Val) (of : Bool) :
    Within mayHbm s (combineTiles o g chunk k vs of s) := by
  unfold combineTiles
  extract_lets run new s0 set put s1 s2
  have counted : Steady s s0 := count_steady _ _ _ _ (.refl s)
  have combined : Steady s s2 := by
    unfold s2
    have put := opModify_steady o.queue o.dseq put counted
    exact ite_rel (raiseLater_steady _ _ _ _ (sendLevels_steady _ _ _ _ put)) put
  exact ite_rel (recompute_steady _ _ _ _ _ counted).within <|
    ite_rel (combined.within.trans (withOp_within _ _ (fun o u => wgradFinish_within u o g) _)) combined.within

theorem spoilRegion_within (o : Op) : Within mayHbm s (spoilRegion o s) := by
  unfold spoilRegion
  split
  · exact (hbmWrite_within s _ _).trans ⟨fun _ => rfl, fun _ => rfl, fun _ => rfl, fun _ => rfl⟩
  · exact .refl s

theorem overrunOp_within (o : Op) : Within mayHbm s (overrunOp o s) := by
  unfold overrunOp
  split
  · exact .refl s
  have spoiled := (leaveStep_steady o (.refl s)).within.trans (spoilRegion_within _ o)
  refine spoiled.trans (notice_steady _ (ite_rel ?_ ?_)).within
  · exact queueError_steady _ _ _ (discardWith_steady _ _ _ _ _ (.refl _))
  · exact queueToError_steady _ _ _ (discardWith_steady _ _ _ _ _ (.refl _))

theorem closeFrame_within : Within mayHbm s (closeFrame s) := by
  unfold closeFrame
  refine Within.trans (foldl_within (fun k u => withOp_within _ _ (fun o v => ?_) u) (.refl s)) (settle_steady (.refl _)).within
  refine ite_rel (overrunOp_within v o) (foldl_steady (fun i w => withOp_steady _ _ _ (fun o x => ?_) (.refl w)) (.refl v)).within
  split
  · exact ite_rel (slipFrom_steady _ _ _ _ (.refl x)) (.refl x)
  · exact .refl x

theorem stepDo_within (k : Nat) : Within mayHbm s (stepDo k s) := by
  unfold stepDo
  split
  · exact closeFrame_within s
  · exact (releaseAll_steady (.refl s)).within
  · exact (routingSwap_steady (.refl s)).within
  · exact (chordSwap_steady (.refl s)).within
  · exact (spareAll_steady (.refl s)).within
  · exact (rejoinAll_steady (.refl s)).within
  · exact (startJobs_steady (.refl s)).within
  · exact (newLength_steady (.refl s)).within
  · exact .refl s

theorem slotGone_within (addr : Nat) : Within mayHbm s (slotGone addr s) := by
  unfold slotGone
  dsimp only
  split
  · exact .refl s
  · exact hbmWrite_within s _ _

theorem hbmEffect_within (region : HbmRegion) (rseq : BitVec 32) (before : State) :
    Within mayHbm s (hbmEffect region rseq before s) := by
  unfold hbmEffect
  split
  · exact slotGone_within s _
  · exact (unitGone_steady _ _ _ _ _ _ (.refl s)).within
  · exact ite_rel (updateLost_steady _ _ _ _ _ (blockLost_steady _ _ _ _ _ (.refl s))).within (shardModify_steady _ _ _ _ (.refl s)).within
  · extract_lets lost s1
    have dropped : Steady s s1 := shardModify_steady _ _ _ _ (.refl s)
    exact ite_rel (updateLost_steady _ _ _ _ _ (blockLost_steady _ _ _ _ _ dropped)).within dropped.within
  · exact (loseResults_steady _ _ (.refl s)).within
  · exact ⟨fun _ => rfl, fun _ => rfl, fun _ => rfl, fun _ => rfl⟩
  · exact ⟨fun _ => rfl, fun _ => rfl, fun _ => rfl, fun _ => rfl⟩
  · exact .refl s

/-! ## Rows that write HBM -/

theorem execDescriptorRingWrite_within (a : Arrival) : Leads (Within mayHbm) s (execDescriptorRingWrite a s) := by
  unfold execDescriptorRingWrite
  refine .next ?_
  split
  · exact .refl s
  · refine onReceive_within a (fun u => ?_) s
    have refused := (protErr_steady a (.refl u)).within (m := mayHbm)
    dsimp only
    split
    · refine ite_rel (Within.trans ?_ (commit_steady a (.refl _)).within) refused
      exact (countWrite_steady _ _ _ (.refl u)).within.trans (hbmWrite_within _ _ a.pkt.payload)
    · exact refused

theorem execDoorbell_within (a : Arrival) : Leads (Within mayHbm) s (execDoorbell a s) :=
  .next <| ite_rel (.refl s) <| onReceive_within a (s := s) fun u =>
    ite_rel (protErr_steady a (.refl u)).within <| ite_rel (commit_steady a (count_steady _ _ _ _ (.refl u))).within <|
      (commit_steady a (.refl u)).within.trans ((doorbellTake_within _ _ _).trans (settle_steady (.refl _)).within)

theorem execRunningTileCombine_within (q : Nat) (d : BitVec 32) (chunk : Nat) :
    Leads (Within mayHbm) s (execRunningTileCombine q d chunk s) :=
  .next <| withOp_within q d (s := s) fun o u => by
    split
    · exact .refl u
    next g _ =>
      refine ite_rel (.refl u) ?_
      split
      · exact .refl u
      · exact ite_rel (recompute_steady o g _ _ _ (.refl u)).within
          ((combineTiles_within u o g _ _ _ _).trans (settle_steady (.refl _)).within)

theorem execHbmError_within (stack : FaultAt) (region : HbmRegion) (addr : BitVec 64) :
    Leads (Within mayHbm) s (execHbmError stack region addr s) := by
  refine .next <| ite_rel (.refl s) ?_
  have raised := (raiseFault_steady 4 (.stack stack.unit) { addr } (lifted s 2 stack.up (stack.unit / 2) (hbmHits s region))
    (by decide) rfl (.refl s)).within (m := mayHbm)
  exact (raised.trans (hbmEffect_within _ region _ s)).trans (settle_steady (islandLevel_steady _ _ (.refl _))).within

theorem execFrameTick_within : Leads (Within mayHbm) s (execFrameTick s) := by
  unfold execFrameTick
  refine .next <| ite_rel (.refl s) ?_
  extract_lets s1
  have passed : Within mayHbm s s1 := foldl_within (fun k u => ite_rel (stepDo_within u k) (.refl u)) (.refl s)
  exact passed.trans (openFrame_steady (withTime_steady (.refl s1) _ (by rfl))).within

theorem execHbmZeroizeDone_within : Leads (Within mayHbm) s (execHbmZeroizeDone s) :=
  .next <| ite_rel (.refl s) ⟨nofun, fun _ => rfl, fun _ => rfl, fun _ => rfl⟩

/-! ## Writes of flash -/

/-- Flash alone. -/
def mayFlash : May := { flash := true }

theorem withFlash_within (f : List (Nat × Byte)) : Within mayFlash s { s with peg := { s.peg with flash := f } } :=
  ⟨fun _ => rfl, nofun, fun _ => rfl, fun _ => rfl⟩

theorem flashProgram_within (off : Nat) (bs : List Byte) : Within mayFlash s (flashProgram off bs s) := withFlash_within s _

theorem flashErase_within (off len : Nat) : Within mayFlash s (flashErase off len s) := withFlash_within s _

theorem flashUnknown_within (off len : Nat) : Within mayFlash s (flashUnknown off len s) :=
  ⟨fun _ => rfl, nofun, fun _ => rfl, fun _ => rfl⟩

theorem setPeg_within (p : Peg) : Within mayFlash s (setPeg p s) := ⟨fun _ => rfl, nofun, fun _ => rfl, fun _ => rfl⟩

theorem flushWrite_within (f : Flush) : Within mayFlash s (flushWrite s f) :=
  ((flashErase_within s _ _).trans (flashProgram_within _ _ _)).trans ((flashProgram_within _ _ _).trans (flashProgram_within _ _ _))

theorem flushBroken_within (f : Flush) : Within mayFlash s (flushBroken s f) :=
  (flashErase_within s _ _).trans ((flashUnknown_within _ _ _).trans (flashUnknown_within _ _ _))

theorem pegEndErase_within (ok : Bool) : Within mayFlash s (pegEndErase ok s) :=
  Within.trans (ite_rel (flashErase_within s _ _) (flashUnknown_within s _ _)) (setPeg_within _ _)

theorem pegEndProgram_within (ok : Bool) : Within mayFlash s (pegEndProgram ok s) := by
  unfold pegEndProgram
  refine ite_rel (setPeg_within s _) ?_
  split
  · exact .refl s
  · exact Within.trans (ite_rel (flashProgram_within s _ _) (flashUnknown_within s _ _)) (setPeg_within _ _)

theorem pegEndCommit_within (ok : Bool) : Within mayFlash s (pegEndCommit ok s) :=
  Within.trans (ite_rel (flashProgram_within s _ _) (flashUnknown_within s _ _)) (setPeg_within _ _)

theorem flashHalfErased_within (off len : Nat) : Within mayFlash s (flashHalfErased off len s) :=
  foldl_within (fun _ u => flashUnknown_within u _ _) (.refl s)

theorem flashBroken_within : Within mayFlash s (flashBroken s) := by
  unfold flashBroken
  extract_lets s1 s2
  have flushed : Within mayFlash s s1 := by
    unfold s1
    split
    · exact flushBroken_within s _
    · exact .refl s
  have erased : Within mayFlash s s2 := ite_rel (flushed.trans (flashHalfErased_within _ _ _)) flushed
  split
  · exact erased.trans (pegEndErase_within _ _)
  · exact erased.trans (flashUnknown_within _ _ _)
  · exact erased.trans (pegEndCommit_within _ _)
  · exact erased

/-! ## Rows that write flash -/

theorem execPegCommandEnd_within (ok : Bool) : Leads (Within mayFlash) s (execPegCommandEnd ok s) := by
  unfold execPegCommandEnd
  refine .next ?_
  split
  · exact pegEndErase_within s ok
  · exact pegEndProgram_within s ok
  · exact (pegEndVerify_steady ok (.refl s)).within
  · exact pegEndCommit_within s ok
  · exact .refl s

theorem execFlushDone_within (ok : Bool) : Leads (Within mayFlash) s (execFlushDone ok s) := by
  unfold execFlushDone
  refine .next ?_
  split
  · exact .refl s
  next f _ =>
    have written : Within mayFlash s (if ok then flushWrite s f else flushBroken s f) :=
      ite_rel (flushWrite_within s f) (flushBroken_within s f)
    refine written.trans (beginErase_steady (notice_steady _ (ite_rel ?done ?failed))).within
    case done => exact withFault_steady (.refl _) _ rfl
    case failed => exact raiseFault_steady _ _ _ _ (by decide) rfl (withFault_steady (.refl _) _ rfl)

theorem execBackgroundEraseDone_within : Leads (Within mayFlash) s (execBackgroundEraseDone s) :=
  .next <| ite_rel ((flashErase_within s _ _).trans (withFault_steady (.refl _) _ (by rfl)).within) (.refl s)

/-! ## Rows that begin or end FAULTED, RESET and TUNING -/

theorem setState_within {m : May} (x : IslState) : Within m s (setState x s) := by
  refine ⟨fun _ => ?_, fun _ => ?_, fun _ => ?_, fun _ => anyFatal_setState x s⟩ <;> (unfold setState; split <;> rfl)

theorem timeModify_within {m : May} (f : Time → Time) : Within m s (timeModify f s) :=
  ⟨fun _ => rfl, fun _ => rfl, fun _ => rfl, fun _ => rfl⟩

/-- All but the test port. -/
def mayReset : May := { hbm := true, flash := true, fatal := true }

/-- Nothing of the island but its flash and its test port outlasts a RESET (R378). -/
theorem wiped_within (held low : Bool) : Within mayReset s (wiped held low (flashBroken s)) := by
  have broken : Within mayReset s (flashBroken s) := (flashBroken_within s).mono nofun nofun id nofun
  exact broken.trans ⟨nofun, nofun, fun _ => rfl, nofun⟩

end

section

variable (s : State)

theorem correctTime_within (ofs : Int) : Within { fatal := true } s (correctTime ofs s) :=
  ite_rel (ite_rel ((fatalGcount_calm (.refl s)).within rfl) (.refl s)) <|
    ite_rel (timeModify_within s _) (timeModify_within s _)

/-- The exchange before its correction: the run of good exchanges, the rate, and the copied length (R43, R48, R52). -/
theorem exchangeTaken_steady (ofs : Int) (hops len : Nat) : Steady s (copyLength len (correctRate (exchangeGood ofs hops (drawn s)))) :=
  copyLength_steady _ (correctRate_steady (exchangeGood_steady _ _ (drawn_steady (.refl s))))

theorem execTsyncRsp_within (a : TsyncAnswer) : Leads (Within { fatal := true }) s (execTsyncRsp a s) := by
  unfold execTsyncRsp
  refine .next ?_
  split
  · refine ite_rel (.refl s) <| onReceive_within a.arrival (fun u => ?_) s
    split
    · exact ite_rel (.refl u) ((exchangeTaken_steady u _ _ _).within.trans (correctTime_within _ _))
    · exact .refl u
  · exact .refl s

theorem enterReset_within (held low : Bool) :
    Within mayReset s (enterReset held low s) := by
  unfold enterReset
  split
  · exact ⟨fun _ => rfl, fun _ => rfl, fun _ => rfl, nofun⟩
  · exact (setState_within s .reset).trans (wiped_within _ held low)

theorem execResetIsland_within (cause : ResetCause) :
    Leads (Within mayReset) s (execResetIsland cause s) := by
  unfold execResetIsland
  refine .next ?_
  split
  · exact ite_rel ((drawn_steady (.refl s)).within.trans (enterReset_within _ _ _)) (drawn_steady (.refl s)).within
  · exact enterReset_within s _ _
  · split
    · exact ite_rel (enterReset_within s _ _) (.refl s)
    · exact .refl s

theorem execVinMonitor_within (tenthVolts outsideNs : Nat) :
    Leads (Within mayReset) s (execVinMonitor tenthVolts outsideNs s) := by
  unfold execVinMonitor
  have taken := (vinTake_steady tenthVolts outsideNs (.refl s))
  exact .next <| ite_rel ⟨fun _ => rfl, fun _ => rfl, fun _ => rfl, nofun⟩ <|
    ite_rel ((withPower_steady taken _).within.trans (enterReset_within _ _ _)) taken.within

theorem execPowerGood_within (p : PowerGood) : Leads (Within { flash := true }) s (execPowerGood p s) := by
  unfold execPowerGood
  refine .next <| ite_rel (.refl s) ?_
  extract_lets flash nonce peg s1 ctl time s2
  have named : Within { flash := true } s s2 := ⟨fun _ => rfl, nofun, fun _ => rfl, fun _ => rfl⟩
  exact named.trans (setState_within s2 .tuning)

theorem tuneReady_within {m : May} : Within m s (tuneReady s) := by
  have ready := (timeModify_steady (fun t => { t with nextExch := t.gcount }) rfl (.refl s)).within.trans
    (setState_within (m := m) (timeModify (fun t => { t with nextExch := t.gcount }) s) .ready)
  exact ready.trans (beginErase_steady (settleState_steady (.refl _))).within

theorem tuneWith_within (r : TuningResult) (trim img : List Byte) (copy : Nat) :
    Within { hbm := true, fatal := true } s (tuneWith r trim img copy s) := by
  unfold tuneWith
  extract_lets id ctl time s1 s2 s3
  have cleared : Within { hbm := true, fatal := true } s s1 := ⟨nofun, fun _ => rfl, fun _ => rfl, nofun⟩
  clear_value s1
  have units : Steady s1 s2 :=
    tuneStraps_steady (tuneCascade_steady r (tuneModules_steady _ (tuneStrings_steady _ _ (tuneRoutes_steady _ (.refl s1)))))
  have regs : Steady s1 s3 := tuneRegs_steady img units
  exact ite_rel (cleared.trans ((fatal_calm 26 (by decide) rfl units.toCalm).within rfl)) <|
    ite_rel (cleared.trans ((fatal_calm 24 (by decide) rfl regs.toCalm).within rfl))
      (cleared.trans (regs.within.trans (tuneReady_within s3)))

theorem execTuningComplete_within (r : TuningResult) : Leads (Within { hbm := true, fatal := true }) s (execTuningComplete r s) := by
  unfold execTuningComplete
  refine .next <| ite_rel (.refl s) ?_
  have ring := tuneRing_steady r.bbSurvives (.refl s)
  have lost {u : State} (k : Steady s u) (cls : Nat) (hl : cls < 32) (hc : classFatal cls = true) :
      Within { hbm := true, fatal := true } s (fatal cls u) := (fatal_calm cls hl hc k.toCalm).within rfl
  refine ite_rel (lost ring 24 (by decide) rfl) ?_
  split
  · exact lost ring 25 (by decide) rfl
  next trim b diff _ =>
    have trimmed := withCtl_steady ring { (tuneRing r.bbSurvives s).ctl with trimB := b, trimDiff := diff } rfl
    refine ite_rel (lost trimmed 25 (by decide) rfl) ?_
    split
    · exact lost trimmed 24 (by decide) rfl
    · exact trimmed.within.trans (tuneWith_within _ r _ _ _)

theorem execTckEdge_within (e : TckEdge) : Leads (Within { tap := true }) s (execTckEdge e s) :=
  .next <| ite_rel (R := Within { tap := true }) ⟨fun _ => rfl, fun _ => rfl, nofun, fun _ => rfl⟩
    ⟨fun _ => rfl, fun _ => rfl, nofun, fun _ => rfl⟩

/-! ## Every row -/

/-- What the statements over all rows let a command change. -/
def mayChange (i : Instr) : May :=
  { hbm := writesHbm i, flash := writesFlash i, tap := drivesTap i,
    fatal := mayFault i || mayLeaveFaulted i }

/-- Every command changes no more than the statements over all rows let it. -/
theorem exec_within (i : Instr) (s : State) : Leads (Within (mayChange i)) s (exec i s) := by
  by_cases h : plain i = true
  · exact (exec_steady h s).mono fun _ k => k.within
  · have calm {m : May} {o : Host.Outcome State Fault Refusal} (k : Leads Calm s o) (f : m.fatal = true) : Leads (Within m) s o :=
      k.mono fun _ k => k.within f
    cases i with
    | hbmZeroizeDone => exact execHbmZeroizeDone_within s
    | clearFault => exact calm (execClearFault_calm s) rfl
    | descriptorRingWrite a => exact execDescriptorRingWrite_within s a
    | doorbell a => exact execDoorbell_within s a
    | runningTileCombine q d chunk => exact execRunningTileCombine_within s q d chunk
    | tsyncRsp a => exact execTsyncRsp_within s a
    | holdoverExpiry => exact calm (execHoldoverExpiry_calm s) rfl
    | gcountLimit => exact calm (execGcountLimit_calm s) rfl
    | frameTick => exact execFrameTick_within s
    | hbmError stack region addr => exact execHbmError_within s stack region addr
    | fatalFault cls => exact calm (execFatalFault_calm s cls) rfl
    | flushDone ok => exact execFlushDone_within s ok
    | tempSample index temp => exact calm (execTempSample_calm s index temp) rfl
    | vinMonitor tenthVolts outsideNs => exact execVinMonitor_within s tenthVolts outsideNs
    | refclkLoss stoppedNs => exact calm (execRefclkLoss_calm s stoppedNs) rfl
    | resetIsland cause => exact execResetIsland_within s cause
    | powerGood p => exact execPowerGood_within s p
    | tuningComplete r => exact execTuningComplete_within s r
    | pegCommandEnd ok => exact execPegCommandEnd_within s ok
    | backgroundEraseDone => exact execBackgroundEraseDone_within s
    | tckEdge e => exact execTckEdge_within s e
    | trstLow => exact .next ⟨fun _ => rfl, fun _ => rfl, nofun, fun _ => rfl⟩
    | _ => exact absurd rfl h

end

end Sys2Proof.Machine
end

section
/-! SUPPORT. What a step leaves as it was: the queue but for its front, the form of memory, the storage and the test port that its command
does not name, and FAULTED unless its command may enter or leave it. -/

set_option Elab.async false

namespace Sys2Proof.Machine

/-! ## The idle step -/

section

variable {s : State}

theorem stagesStop_within : Within mayReset s (stagesStop s) := by
  unfold stagesStop
  extract_lets power s1
  have off : Within mayReset s s1 := ⟨fun _ => rfl, fun _ => rfl, fun _ => rfl, fun _ => rfl⟩
  exact ite_rel (off.trans (wiped_within s1 _ _)) (off.trans ⟨fun _ => rfl, fun _ => rfl, fun _ => rfl, nofun⟩)

theorem nanosecond_within {m : May} (s : State) : Within m s (nanosecond s) := by
  unfold nanosecond
  refine ite_rel (.refl s) ?_
  extract_lets t s'
  have ticked : Within m s s' := ⟨fun _ => rfl, fun _ => rfl, fun _ => rfl, fun _ => rfl⟩
  have counted : Steady s' (if t.gcount = s.time.gcount then s' else countNanosecond s') :=
    ite_rel (.refl s') (countNanosecond_steady (.refl s'))
  exact ticked.trans (foldl_steady (fun c u => markerTick_steady c (.refl u)) (pmcFoldAll_steady counted)).within

/-- Of an idle step only the count of a critical shutdown touches what `May` speaks of. -/
theorem critTick_idle_within {m : May} : Within m (critTick s) (idle s) :=
  (nanosecond_within _).trans (tellHits_steady (completeJournals_steady (.refl _))).within

/-- An idle step leaves the test port, even where the stages stop in it. -/
theorem idle_within : Within mayReset s (idle s) := by
  refine Within.trans ?_ critTick_idle_within
  unfold critTick
  split
  · exact .refl s
  · exact ite_rel stagesStop_within ⟨fun _ => rfl, fun _ => rfl, fun _ => rfl, fun _ => rfl⟩

/-- An idle step in which the stages do not stop leaves HBM, flash and the fatal classes too. -/
theorem idle_within_of_not_stagesEnd {m : May} (hp : s.pending = []) (he : stagesEnd s = false) : Within m s (idle s) := by
  refine Within.trans ?_ critTick_idle_within
  unfold critTick
  split
  next => exact .refl s
  next n crit =>
    have later : ¬ n ≤ 1 := by simpa [stagesEnd, hp, crit] using he
    rw [if_neg later]
    exact ⟨fun _ => rfl, fun _ => rfl, fun _ => rfl, fun _ => rfl⟩

end

/-! ## A step -/

/-- A step takes the front command, or is idle. -/
theorem step_cases {s t : State} (e : step s = .next t) :
    (∃ c rest, s.pending = c :: rest ∧ exec c { s with pending := rest } = .next t) ∨ (s.pending = [] ∧ t = idle s) := by
  unfold step at e
  split at e
  next c rest front => exact .inl ⟨c, rest, front, e⟩
  next empty =>
    cases e
    exact .inr ⟨empty, rfl⟩

theorem step_pending {s t : State} (e : step s = .next t) : t.pending = s.pending.tail := by
  obtain ⟨c, rest, front, run⟩ | ⟨empty, rfl⟩ := step_cases e
  · rw [front, (exec_kept c _ t run).pending]
    rfl
  · rw [(idle_kept s).pending, empty]
    rfl

theorem step_memOk {s t : State} (h : s.memOk) (e : step s = .next t) : t.memOk := by
  obtain ⟨c, rest, -, run⟩ | ⟨-, rfl⟩ := step_cases e
  · exact (exec_kept c { s with pending := rest } t run).memory h
  · exact (idle_kept s).memory h

/-- Settles O37: every row keeps the queue it finds, which is the queue of the step without its front. -/
theorem stepConsumesOneCommand : Obligations.StepConsumesOneCommand := by
  unfold Obligations.StepConsumesOneCommand
  exact fun _ _ => step_pending

/-- Settles O38: every write of HBM and of the flash, in every row and in an idle step, keeps the canonical form. -/
theorem stepKeepsMemoryForm : Obligations.StepKeepsMemoryForm := by
  unfold Obligations.StepKeepsMemoryForm
  exact fun _ _ => step_memOk

/-- Settles O42: every row changes no more than `mayChange` lets it, and an idle step changes neither memory unless the stages stop in it. -/
theorem onlyNamedCommandsWriteStorage : Obligations.OnlyNamedCommandsWriteStorage := by
  unfold Obligations.OnlyNamedCommandsWriteStorage
  intro s t e
  obtain ⟨c, rest, front, run⟩ | ⟨empty, rfl⟩ := step_cases e
  · have changed := exec_within c { s with pending := rest } t run
    have named {p : Instr → Bool} (h : ∀ i ∈ s.pending.head?, p i = false) : p c = false := h c (by rw [front]; rfl)
    exact ⟨fun _ h => changed.hbm (named h), fun _ h => changed.flash (named h), fun h => changed.tap (named h)⟩
  · have quiet (h : stagesEnd s = false) : Within {} s (idle s) := idle_within_of_not_stagesEnd empty h
    exact ⟨fun h _ => (quiet h).hbm rfl, fun h _ => (quiet h).flash rfl, fun _ => idle_within.tap rfl⟩

/-! ## Entering and leaving FAULTED -/

section

variable {s t u : State}

/-- An operation that leaves an island in FAULTED there. -/
def StaysDown (s t : State) : Prop := isDown s → isDown t

/-- An operation that records no fatal class. -/
def GainsNone (s t : State) : Prop := anyFatal t = true → anyFatal s = true

theorem GainsNone.of_eq (h : anyFatal t = anyFatal s) : GainsNone s t := h.symm.trans

theorem GainsNone.refl (s : State) : GainsNone s s := id

theorem GainsNone.trans (h : GainsNone s t) (k : GainsNone t u) : GainsNone s u := h ∘ k

theorem Steady.gainsNone (h : Steady s t) : GainsNone s t := .of_eq h.fatal

theorem Steady.staysDown (h : Steady s t) : StaysDown s t := h.isDown

theorem StaysDown.refl (s : State) : StaysDown s s := id

theorem StaysDown.trans (h : StaysDown s t) (k : StaysDown t u) : StaysDown s u := k ∘ h

/-- A fatal class leaves every island in FAULTED, so also one that was there. -/
theorem fatal_staysDown {cls : Nat} (hl : cls < 32) (hc : classFatal cls = true) : StaysDown s (fatal cls t) :=
  fun _ => fatal_isDown hl hc t

theorem onReceive_staysDown (a : Arrival) {f : State → State} (hf : ∀ u, StaysDown u (f u)) (s : State) : StaysDown s (onReceive a s f) := by
  have received := (receive_steady a (.refl s)).staysDown
  unfold onReceive
  split
  next u e => rw [e] at received; exact received
  next u e => rw [e] at received; exact received.trans (hf u)

theorem thermalTrip_staysDown (s : State) : StaysDown s (thermalTrip s) := by
  unfold thermalTrip
  exact ite_rel (.refl s) ((fatal_staysDown (by decide) rfl).trans (gateDies_steady (.refl _)).staysDown)

theorem timeModify_staysDown (f : Time → Time) (s : State) : StaysDown s (timeModify f s) := id

theorem correctTime_staysDown (ofs : Int) (s : State) : StaysDown s (correctTime ofs s) := by
  unfold correctTime
  exact ite_rel (ite_rel (fatal_staysDown (by decide) rfl) (.refl s)) (ite_rel (timeModify_staysDown _ s) (timeModify_staysDown _ s))

/-- The commands at which a fatal class can be found leave an island in FAULTED there. -/
theorem exec_staysDown {i : Instr} (h : mayFault i = true) (s : State) : Leads StaysDown s (exec i s) := by
  cases i with
  | fatalFault cls =>
    exact .next <| ite_rel (R := StaysDown) id <|
      ite_rel (thermalTrip_staysDown s) (fatal_staysDown (by cases cls <;> decide) (by cases cls <;> rfl))
  | tempSample index temp =>
    change Leads StaysDown s (execTempSample index temp s)
    unfold execTempSample
    refine .next <| ite_rel (.refl s) ?_
    extract_lets x s1 s2
    have taken : Steady s s1 := tempPut_steady index x (.refl s)
    have warned : StaysDown s s2 := Steady.staysDown (ite_rel (raiseHot_steady index taken) taken)
    exact ite_rel (warned.trans (thermalTrip_staysDown _)) warned
  | refclkLoss stoppedNs => exact .next <| ite_rel (fatal_staysDown (by decide) rfl) (.refl s)
  | tsyncRsp a =>
    change Leads StaysDown s (execTsyncRsp a s)
    unfold execTsyncRsp
    refine .next ?_
    split
    · refine ite_rel (.refl s) <| onReceive_staysDown a.arrival (fun u => ?_) s
      split
      · exact ite_rel (.refl u) ((exchangeTaken_steady u _ _ _).staysDown.trans (correctTime_staysDown _ _))
      · exact .refl u
    · exact .refl s
  | holdoverExpiry =>
    change Leads StaysDown s (execHoldoverExpiry s)
    unfold execHoldoverExpiry
    refine .next ?_
    split
    · exact ite_rel (fatal_staysDown (by decide) rfl) (.refl s)
    · exact .refl s
  | gcountLimit => exact .next <| ite_rel (fatal_staysDown (by decide) rfl) (.refl s)
  | tuningComplete r =>
    have elsewhere (down : isDown s) : s.ctl.state ≠ .tuning := by simp [down.2]
    rintro t ⟨⟩ down
    rw [if_pos (elsewhere down)]
    exact down
  | _ => exact absurd h (by simp [mayFault])

theorem wiped_gainsNone (held low : Bool) (s t : State) : GainsNone s (wiped held low t) := by
  intro h
  have kept := wiped_faultOk held low t
  exact absurd (kept.mpr h) (by simp [wiped])

theorem enterReset_gainsNone (held low : Bool) (s : State) : GainsNone s (enterReset held low s) := by
  unfold enterReset
  split
  · cases held
    · exact fun h => absurd h (by simp [anyFatal])
    · exact id
  · exact wiped_gainsNone held low s _

theorem adminRow_gainsNone (acode : Nat) {f : AdminCmd → State → State} (hf : ∀ c u, GainsNone u (f c u)) (s : State) :
    GainsNone s (adminRow acode s f) := by
  unfold adminRow
  split
  next c rest _ =>
    have taken := withAdmin_steady (.refl s) { s.admin with ready := rest }
    exact ite_rel (.refl s) (ite_rel (taken.gainsNone.trans (hf c _)) (adminDone_steady c _ _ _ taken).gainsNone)
  next => exact .refl s

/-- CLEAR_FAULT leaves no fatal class that was not there (R395). -/
theorem execClearFault_gainsNone (s : State) : Leads GainsNone s (execClearFault s) :=
  .next <| adminRow_gainsNone _ (s := s) fun c u => by
    extract_lets gone left src s1 s2 s3
    have told : Within {} s1 s2 := (report_steady _ _ (.refl s1)).within
    have ended : Within {} s2 s3 := ite_rel
      ((setState_within s2 .ready).trans (beginErase_steady (settleState_steady (.refl _))).within) (.refl s2)
    have done : Within {} s1 (adminDone c 0 0 left.toNat s3) := (told.trans ended).trans (adminDone_steady c _ _ _ (.refl s3)).within
    exact fun h => anyFatal_of_anyFatal_cleared (s := u) ((done.fatal rfl).symm.trans h)

/-- The commands that end FAULTED record no fatal class. -/
theorem exec_gainsNone {i : Instr} (h : mayLeaveFaulted i = true) (s : State) : Leads GainsNone s (exec i s) := by
  cases i with
  | clearFault => exact execClearFault_gainsNone s
  | resetIsland cause =>
    change Leads GainsNone s (execResetIsland cause s)
    unfold execResetIsland
    refine .next ?_
    split
    · have drew := (drawn_steady (.refl s)).gainsNone
      exact ite_rel (drew.trans (enterReset_gainsNone _ _ _)) drew
    · exact enterReset_gainsNone _ _ s
    · split
      · exact ite_rel (enterReset_gainsNone _ _ s) (.refl s)
      · exact .refl s
  | vinMonitor tenthVolts outsideNs =>
    change Leads GainsNone s (execVinMonitor tenthVolts outsideNs s)
    unfold execVinMonitor
    have taken := vinTake_steady tenthVolts outsideNs (.refl s)
    exact .next <| ite_rel (GainsNone.of_eq (fatal_of rfl)) <|
      ite_rel ((withPower_steady taken _).gainsNone.trans (enterReset_gainsNone _ _ _)) taken.gainsNone
  | _ => exact absurd h (by simp [mayLeaveFaulted])

theorem stagesStop_gainsNone (s : State) : GainsNone s (stagesStop s) := by
  unfold stagesStop
  dsimp only
  split
  · exact wiped_gainsNone false _ s _
  · exact fun h => absurd h (by simp [anyFatal])

theorem idle_gainsNone (s : State) : GainsNone s (idle s) := by
  have rest : Within {} (critTick s) (idle s) := critTick_idle_within
  have ended : GainsNone s (critTick s) := by
    unfold critTick
    split
    · exact .refl s
    · exact ite_rel (stagesStop_gainsNone s) (.of_eq (fatal_of rfl))
  exact fun h => ended ((rest.fatal rfl).symm.trans h)

end

/-- Settles O40: FAULTED holds exactly while a fatal class is recorded. A command that may neither fault nor recover leaves the fatal
classes, one that may recover records none, one that may fault leaves FAULTED there, and an idle step records none and clears them
only as the stages stop. -/
theorem onlyNamedCommandsFaultOrRecover : Obligations.OnlyNamedCommandsFaultOrRecover := by
  unfold Obligations.OnlyNamedCommandsFaultOrRecover
  intro s t tied e
  have tied' := step_faultOk tied e
  obtain ⟨c, rest, front, run⟩ | ⟨empty, rfl⟩ := step_cases e
  · have head : c ∈ s.pending.head? := by rw [front]; rfl
    have changed := exec_within c { s with pending := rest } t run
    constructor
    · intro up down
      refine ⟨c, head, by_contra fun quiet => up (tied.mpr ?_)⟩
      cases leaves : mayLeaveFaulted c with
      | true => exact exec_gainsNone leaves { s with pending := rest } t run (tied'.mp down)
      | false => exact (changed.fatal (by simp [mayChange, quiet, leaves])).symm.trans (tied'.mp down)
    · intro down up
      refine .inr ⟨c, head, by_contra fun stays => up ?_⟩
      cases faults : mayFault c with
      | true => exact (exec_staysDown faults { s with pending := rest } t run ⟨tied.mp down, down⟩).2
      | false => exact tied'.mpr ((changed.fatal (by simp [mayChange, stays, faults])).trans (tied.mp down))
  · constructor
    · exact fun up down => absurd (tied.mpr (idle_gainsNone s (tied'.mp down))) up
    · intro down up
      refine .inl (by_contra fun goesOn => up (tied'.mpr ?_))
      have quiet : Within {} s (idle s) := idle_within_of_not_stagesEnd empty (by simpa using goesOn)
      exact (quiet.fatal rfl).trans (tied.mp down)

end Sys2Proof.Machine
end

section
/-! SUPPORT. A time exchange above the limit of the counter (R42, R47). -/

set_option Elab.async false

namespace Sys2Proof.Machine

/-- Where no job is RUNNING and the offset is ahead, the correction is a step forward, cut at the limit of the counter (R42, R47). -/
theorem correctTime_gcount_ahead {ofs : Int} {s : State} (idle : anyRunning s = false) (ahead : 0 < ofs) :
    (correctTime ofs s).time.gcount = min gcountTop (s.time.gcount + ofs.toNat) := by
  rw [correctTime, if_neg (by simp [idle]), if_pos ahead]
  rfl

/-- An answer of TSYNC to the open exchange corrects the counter by the offset of its four counts (R45). -/
theorem exec_tsyncRsp_answers {a : Arrival} {s : State} {sq : BitVec 32} {resid resreq t2 t3 hops t1 : Nat} (len : Nat)
    (ext : a.pkt.ext = .tsync 2 sq resid resreq t2 t3 hops) (ok : accepts a s) (asked : (accepted a s).time.asked = some t1)
    (answers : answersExchange (accepted a s) a sq hops = true) :
    exec (.tsyncRsp ⟨a, len⟩) s = .next (correctTime
      (tsyncOffset t1 t2 t3 (accepted a s).time.gcount resid resreq (Config.offsetUp (accepted a s).freeCtr))
      (copyLength len (correctRate (exchangeGood
        (tsyncOffset t1 t2 t3 (accepted a s).time.gcount resid resreq (Config.offsetUp (accepted a s).freeCtr)) hops
        (drawn (accepted a s)))))) := by
  change execTsyncRsp ⟨a, len⟩ s = _
  simp [execTsyncRsp, ext, onReceive_ok ok, asked, answers]

/-- The island of the tests, which asked its parent at count 999,000, with its counter at 2⁶⁴: above the limit, where no island comes
from reset. -/
def islAbove : State := { Tests.islAsked with time := { Tests.islAsked.time with gcount := 2 ^ 64 } }

/-- An answer of the parent that is ahead. -/
def rspAhead : Arrival := Tests.arrive 9 1 (.tsync 2 5 0 0 (2 ^ 64 - 2) (2 ^ 64 - 2) 3) []

theorem rspAhead_answers : accepts rspAhead islAbove ∧ (accepted rspAhead islAbove).time.asked = some 999000 ∧
    (accepted rspAhead islAbove).time.gcount = 2 ^ 64 ∧ answersExchange (accepted rspAhead islAbove) rspAhead 5 3 = true := by
  unfold accepts
  decide +kernel

theorem rspAhead_offset (up : Bool) : tsyncOffset 999000 (2 ^ 64 - 2) (2 ^ 64 - 2) (2 ^ 64) 0 0 up = 2 ^ 63 - 499502 := by
  simp [tsyncOffset]

/-- The answer takes the counter from 2⁶⁴ back to its limit. -/
theorem exec_rspAhead : ∃ t, exec (.tsyncRsp ⟨rspAhead, 8⟩) islAbove = .next t ∧ t.time.gcount = gcountTop := by
  obtain ⟨ok, asked, above, answers⟩ := rspAhead_answers
  refine ⟨_, exec_tsyncRsp_answers 8 rfl ok asked answers, ?_⟩
  rw [above, rspAhead_offset]
  have taken := exchangeTaken_steady (accepted rspAhead islAbove) (2 ^ 63 - 499502) 3 8
  rw [correctTime_gcount_ahead (by decide +kernel) (by decide), taken.gcount, above]
  decide

/-- Refutes O41: the statement speaks of every state, also of one whose counter stands above its limit 2⁶⁴ - 1. There the answer of a
time exchange that is ahead takes the counter back to the limit. -/
theorem not_counterNeverDecreases : ¬ Obligations.CounterNeverDecreases := by
  unfold Obligations.CounterNeverDecreases
  intro never
  obtain ⟨t, run, limit⟩ := exec_rspAhead
  obtain ⟨least, -⟩ := never { islAbove with pending := [.tsyncRsp ⟨rspAhead, 8⟩] } t run (by decide) (by simp [restartsCount])
  rw [limit] at least
  exact absurd least (by decide)

end Sys2Proof.Machine
end

section
/-! SUPPORT. Fields of byte strings: what a field of a string reads that is put together from numbers (R6). -/

set_option Elab.async false

namespace Sys2Proof.Machine

/-! ## Fields of byte strings -/

/-- A field that lies in the first of two parts. -/
theorem fld_append_left {a : List Byte} (b : List Byte) {hi lo : Nat} (h : hi < a.length) : fld (a ++ b) hi lo = fld a hi lo := by
  by_cases order : lo ≤ hi
  · rw [fld, List.drop_append_of_le_length (by omega), List.take_append_of_le_length (by rw [List.length_drop]; omega), fld]
  · simp [fld, show hi + 1 - lo = 0 by omega]

/-- A field that lies past the first of two parts. -/
theorem fld_append_right {a : List Byte} (b : List Byte) {hi lo : Nat} (h : a.length ≤ lo) (order : lo ≤ hi) :
    fld (a ++ b) hi lo = fld b (hi - a.length) (lo - a.length) := by
  rw [fld, List.drop_append, List.drop_eq_nil_of_le h, List.nil_append, fld]
  congr 2
  omega

/-- A field past the number at the front. -/
theorem fld_le_append_skip {n x : Nat} {b : List Byte} {hi lo : Nat} (h : n ≤ lo) (order : lo ≤ hi) :
    fld (le n x ++ b) hi lo = fld b (hi - n) (lo - n) := by
  rw [fld_append_right b (by rwa [le_length]) order, le_length]

/-- The field that is the whole of a number. -/
theorem fld_le {n x hi : Nat} (h : n = hi + 1) : fld (le n x) hi 0 = x % 256 ^ n := by
  rw [fld, List.drop_zero, Nat.sub_zero, ← h, List.take_of_length_le (by rw [le_length]), unle_le]

/-- The field that is the whole of the number at the front. -/
theorem fld_le_append {n x hi : Nat} {b : List Byte} (h : n = hi + 1) : fld (le n x ++ b) hi 0 = x % 256 ^ n := by
  rw [fld_append_left b (by rw [le_length]; omega), fld_le h]

/-- Three flags read back from the byte that holds them above five reserved bits. -/
theorem bit_three_flags (a b c : Bool) : bit ((flag a 7 + flag b 6 + flag c 5) % 256) 7 = a ∧ bit ((flag a 7 + flag b 6 + flag c 5) % 256) 6 = b ∧
    bit ((flag a 7 + flag b 6 + flag c 5) % 256) 5 = c ∧ (flag a 7 + flag b 6 + flag c 5) % 256 % 32 = 0 := by
  revert a b c
  decide

/-- Settles O49: a release record is its fields one after another, each as wide as its place. -/
theorem releaseRecordFields : Obligations.ReleaseRecordFields := by
  unfold Obligations.ReleaseRecordFields
  intro status reason ctr job g tag x hstatus hreason hctr hjob hg
  have htag := tag.isLt
  have hvalue := x.value.isLt
  obtain ⟨sat, err, fail, rsvd⟩ := bit_three_flags x.sat x.err x.fail
  refine ⟨?_, ?_, ?_, ?_, ?_, ?_, ?_, ?_, ?_, ?_, ?_, ?_, ?_, ?_, fun chip retOff s at_ => by rw [sendRelease, at_]⟩
  all_goals simp only [releaseBytes, List.append_assoc, List.length_append, le_length, fld_le_append, fld_le_append_skip, fld_le,
    Nat.reduceAdd, Nat.reduceSub, Nat.reduceLeDiff, Nat.reducePow, Nat.reduceMod, ctrFlags, sat, err, fail, rsvd, Nat.pow_one, Nat.zero_mod]
  all_goals omega

end Sys2Proof.Machine
end

section
/-! SUPPORT. A flit read back from its bytes (R345 to R347). -/

set_option Elab.async false

namespace Sys2Proof.Machine

section

variable {f : Flit} (sop : f.sop < 2 ^ 8) (cred : f.cred < 2 ^ 16) (ccls : f.ccls ≤ 5) (ftype : f.ftype ≤ 2)

/-! ## The header (R347) -/

include sop cred ccls ftype in
/-- A header whose fields fit is less than 2⁶⁴, and each field reads back from its place. -/
theorem flitHdr_fields : flitHdr f < 256 ^ 8 ∧ flitHdr f % 16 = 2 ∧ bits (flitHdr f) 7 4 = f.ftype ∧ bits (flitHdr f) 12 8 = 0 ∧
    bits (flitHdr f) 15 13 = f.ccls ∧ bits (flitHdr f) 31 16 = f.cred ∧ bits (flitHdr f) 39 32 = f.sop ∧
    flitHdr f / 2 ^ 40 % 2 ^ 12 = f.fseq.toNat ∧ flitHdr f / 2 ^ 52 % 2 ^ 12 = f.ackseq.toNat := by
  have ack := f.ackseq.isLt
  have seq := f.fseq.isLt
  simp only [bits, flitHdr, Nat.shiftRight_eq_div_pow, Nat.reduceAdd, Nat.reduceSub, Nat.reducePow] at *
  omega

end

/-! ## The bytes (R345) -/

section

variable {f : Flit} (whole : f.payload.length = 240)

theorem slice_whole {b : List Byte} {n : Nat} (h : b.length = n) : slice b 0 n = b := by
  simp [slice, ← h]

theorem slice_append_right {a b : List Byte} {off n : Nat} (h : a.length = off) : slice (a ++ b) off n = slice b 0 n := by
  simp [slice, ← h]

theorem slice_append_left {a : List Byte} (b : List Byte) {n : Nat} (h : a.length = n) : slice (a ++ b) 0 n = a := by
  simp [slice, ← h]

include whole in
/-- A flit's bytes: header, payload, FCRC, reserved bytes and parity, one after another. -/
theorem flitBytes_eq : ∃ parity, flitBytes f =
    le 8 (flitHdr f) ++ (f.payload ++ (le 4 (crc32 (le 8 (flitHdr f) ++ f.payload)).toNat ++ (le 4 0 ++ parity))) := by
  refine ⟨rsParity (le 8 (flitHdr f) ++ f.payload ++ le 4 (crc32 (le 8 (flitHdr f) ++ f.payload)).toNat ++ le 4 0), ?_⟩
  simp only [flitBytes, slice_whole whole, List.append_assoc]

include whole in
/-- FCRC of a flit as it was formed is right (R346). -/
theorem flitBytes_fcrc : fld (flitBytes f) 251 248 = (crc32 ((flitBytes f).take 248)).toNat := by
  obtain ⟨parity, bytes⟩ := flitBytes_eq whole
  have body : (flitBytes f).take 248 = le 8 (flitHdr f) ++ f.payload := by
    rw [bytes, ← List.append_assoc, List.take_left' (by simp [whole])]
  rw [body, bytes, fld_le_append_skip (by omega) (by omega), fld_append_right _ (by omega) (by omega), whole, fld_le_append rfl]
  exact Nat.mod_eq_of_lt (crc32 _).isLt

include whole in
theorem flitBytes_reserved : zeroBytes (flitBytes f) 255 252 = true := by
  obtain ⟨parity, bytes⟩ := flitBytes_eq whole
  have front : (le 8 (flitHdr f) ++ (f.payload ++ le 4 (crc32 (le 8 (flitHdr f) ++ f.payload)).toNat)).length = 252 := by simp [whole]
  have split : flitBytes f =
      (le 8 (flitHdr f) ++ (f.payload ++ le 4 (crc32 (le 8 (flitHdr f) ++ f.payload)).toNat)) ++ (le 4 0 ++ parity) := by
    simp only [bytes, List.append_assoc]
  rw [zeroBytes, split, List.drop_left' front, List.take_left' (by simp)]
  decide

/-- The receiver reads the fields of a flit back from its bytes (R347). -/
theorem flitFields_flitBytes (fits : flitFits f = true) : flitFields (flitBytes f) = some f := by
  simp only [flitFits, Sys2Proof.fits, Bool.and_eq_true, decide_eq_true_eq, beq_iff_eq] at fits
  obtain ⟨⟨⟨⟨sop, cred⟩, ccls⟩, ftype⟩, whole⟩ := fits
  obtain ⟨small, ver, hftype, hrsvd, hccls, hcred, hsop, hfseq, hack⟩ := flitHdr_fields sop cred ccls ftype
  obtain ⟨parity, bytes⟩ := flitBytes_eq whole
  have header : fld (flitBytes f) 7 0 = flitHdr f := by
    rw [bytes, fld_le_append rfl, Nat.mod_eq_of_lt small]
  have payload : slice (flitBytes f) 8 240 = f.payload := by
    rw [bytes, slice_append_right (by simp), slice_append_left _ whole]
  have ackseq : BitVec.ofNat 12 (flitHdr f / 2 ^ 52) = f.ackseq := BitVec.eq_of_toNat_eq (by rw [BitVec.toNat_ofNat, hack])
  have fseq : BitVec.ofNat 12 (flitHdr f / 2 ^ 40) = f.fseq := BitVec.eq_of_toNat_eq (by rw [BitVec.toNat_ofNat, hfseq])
  unfold flitFields
  simp only [header, ver, hftype, hrsvd, hccls, hcred, hsop, payload, ackseq, fseq, flitBytes_reserved whole, ccls, ftype, and_self, if_true]

end

/-- Settles O44: the parity of a flit as it was formed leaves its word as it is, FCRC is right there, and each field stands in its place. -/
theorem flitRoundTrip : Obligations.FlitRoundTrip := by
  unfold Obligations.FlitRoundTrip
  intro f fits
  have whole : f.payload.length = 240 := by
    simp only [flitFits, Bool.and_eq_true, beq_iff_eq] at fits
    exact fits.2
  refine ⟨?_, flitBytes_length whole⟩
  simp [flitRead, rsCorrect_flit whole, flitBytes_fcrc whole, flitFields_flitBytes fits]

end Sys2Proof.Machine
end

section
/-! SUPPORT. A flit over the lanes of a link: the words that leave the sender, and the flit that the receiver gathers from them (R339, R343,
R345, R346). -/

set_option Elab.async false

namespace Sys2Proof.Machine

/-! ## Cutting into equal parts -/

theorem cut_flatten {α : Type} {n fuel : Nat} {l : List α} (h : l.length = n * fuel) : (cut n fuel l).flatten = l := by
  induction fuel generalizing l with
  | zero => rw [List.length_eq_zero_iff.mp h]; rfl
  | succ fuel ih =>
    cases l with
    | nil => rfl
    | cons a l =>
      rw [cut, List.flatten_cons, ih (by rw [List.length_drop, h, Nat.mul_succ]; omega), List.take_append_drop]
      all_goals simp

theorem cut_parts {α : Type} {n fuel : Nat} {l : List α} (pos : 0 < n) (h : l.length = n * fuel) :
    (cut n fuel l).length = fuel ∧ ∀ p ∈ cut n fuel l, p.length = n := by
  induction fuel generalizing l with
  | zero => simp [cut]
  | succ fuel ih =>
    cases l with
    | nil => simp at h; omega
    | cons a l =>
      obtain ⟨count, parts⟩ := ih (l := (a :: l).drop n) (by rw [List.length_drop, h, Nat.mul_succ]; omega)
      rw [cut]
      · constructor
        · simp [count]
        · intro p hp
          obtain rfl | hp := List.mem_cons.mp hp
          · rw [List.length_take, h, Nat.mul_succ]; omega
          · exact parts p hp
      all_goals simp

/-- A list whose length is known is its elements in order. -/
theorem map_range_getD {α : Type} {n : Nat} {l : List α} (d : α) (h : l.length = n) : (List.range n).map (l.getD · d) = l := by
  apply List.ext_getElem
  · simp [h]
  · intro i hi hi'
    simp [List.getD_eq_getElem?_getD, List.getElem?_eq_getElem hi']

/-! ## The bytes of a lane (R345) -/

section

variable {b : List Byte} (whole : b.length = 272)

include whole in
theorem laneBytes_length (n : Nat) : (laneBytes b n).length = 17 := by
  rw [laneBytes, List.length_map, (cut_parts (by decide) whole).1]

include whole in
/-- The bytes of the 16 lanes, place by place, are the bytes of the flit. -/
theorem gather_laneBytes : (List.range 17).flatMap (fun j => ((List.range 16).map (laneBytes b)).map fun w => w.getD j 0) = b := by
  obtain ⟨count, parts⟩ := cut_parts (n := 16) (fuel := 17) (by decide) whole
  have row : ∀ j ∈ List.range 17, (((List.range 16).map (laneBytes b)).map fun w => w.getD j 0) = (cut 16 17 b).getD j [] := by
    intro j hj
    have inside : j < (cut 16 17 b).length := by rw [count]; exact List.mem_range.mp hj
    have part : (cut 16 17 b).getD j [] = (cut 16 17 b)[j] := by simp [List.getD_eq_getElem?_getD, inside]
    rw [part, ← map_range_getD 0 (parts _ (List.getElem_mem inside)), List.map_map]
    refine List.map_congr_left fun n _ => ?_
    simp [laneBytes, List.getD_eq_getElem?_getD, inside]
  calc (List.range 17).flatMap (fun j => ((List.range 16).map (laneBytes b)).map fun w => w.getD j 0)
      = (List.range 17).flatMap ((cut 16 17 b).getD · []) := List.flatMap_congr row
    _ = (cut 16 17 b).flatten := by rw [List.flatMap_def, map_range_getD [] count]
    _ = b := cut_flatten whole

end

/-! ## The words of the sender, and what the receiver makes of them -/

/-- What lane n of a link sends of a flit: the bits under its scrambler, and the scrambler after them. -/
def laneSent (j : Casc) (b : List Byte) (n : Nat) : List Bool × BitVec 31 :=
  scramble (laneBits (laneBytes b n)) (j.lanes.getD n {}).txScram

theorem zipIdx_map_eq {α β : Type} {n : Nat} {l : List α} (d : α) (h : l.length = n) (f : α × Nat → β) :
    l.zipIdx.map f = (List.range n).map fun i => f (l.getD i d, i) := by
  apply List.ext_getElem
  · simp [h]
  · intro i hi hi'
    have inside : i < l.length := by simpa using hi
    simp [List.getD_eq_getElem?_getD, inside]

theorem zipWith_right {α β γ : Type} {f : β → γ} {l : List α} {m : List β} (h : l.length = m.length) :
    l.zipWith (fun _ b => f b) m = m.map f := by
  apply List.ext_getElem
  · simp [h]
  · simp

section

variable {j k : Casc} {b : List Byte} {ids : List Nat} (lanes : j.lanes.length = 16)

include lanes in
theorem wireFlit_words : (wireFlit j b).1 = (List.range 16).map fun n => pam4Levels (laneSent j b n).1 := by
  simp only [wireFlit, zipIdx_map_eq {} lanes, List.map_map]
  rfl

include lanes in
theorem wireFlit_txScram {n : Nat} (h : n < 16) : ((wireFlit j b).2.lanes.getD n {}).txScram = (laneSent j b n).2 := by
  simp only [wireFlit, zipIdx_map_eq {} lanes]
  simp [List.getD_eq_getElem?_getD, lanes, h, laneSent]

variable (whole : b.length = 272)

include whole in
theorem laneSent_length (n : Nat) : (laneSent j b n).1.length = 136 := by
  rw [laneSent, scramble_length, laneBits_length, laneBytes_length whole]

include lanes whole in
theorem wordsWhole_wireFlit : wordsWhole (wireFlit j b).1 = true := by
  rw [wordsWhole, wireFlit_words lanes]
  simp [pam4Levels_length, laneSent_length whole]

variable (perm : ids.Perm (List.range 16)) (laneIds : k.lanes.map (·.laneId) = ids)
  (scrams : k.lanes.map (·.scram) = ids.map fun n => (j.lanes.getD n {}).txScram)

include whole in
/-- A word under the scrambler of its sender, taken off by a scrambler that stands alike, gives the bits of the lane, and both
scramblers stand alike again (R346). -/
theorem descramble_laneSent (n : Nat) :
    scramble ((pam4Levels (laneSent j b n).1).flatMap pam4Bits) (j.lanes.getD n {}).txScram =
      (laneBits (laneBytes b n), (laneSent j b n).2) := by
  rw [pam4Levels_bits _ (by rw [laneSent_length whole]), laneSent, scramble_twice]

/-- What each lane of the receiver has: the lane number it read, and its word descrambled. -/
def laneGot (k : Casc) (ws : List (List Pam4)) : List (Nat × List Bool × BitVec 31) :=
  k.lanes.zipWith (fun l w => (l.laneId, scramble (w.flatMap pam4Bits) l.scram)) ws

include lanes whole perm laneIds scrams in
theorem laneGot_words :
    laneGot k (ids.map fun n => (wireFlit j b).1.getD n []) = ids.map fun n => (n, laneBits (laneBytes b n), (laneSent j b n).2) := by
  have ends : k.lanes.map (fun l => (l.laneId, l.scram)) = ids.map fun n => (n, (j.lanes.getD n {}).txScram) := by
    rw [← List.zip_map', laneIds, scrams, ← List.zip_map']
    simp
  have paired : laneGot k (ids.map fun n => (wireFlit j b).1.getD n []) =
      (k.lanes.map fun l => (l.laneId, l.scram)).zipWith (fun e w => (e.1, scramble (w.flatMap pam4Bits) e.2))
        (ids.map fun n => (wireFlit j b).1.getD n []) := by
    rw [List.zipWith_map_left, laneGot]
  rw [paired, ends, List.zipWith_map, List.zipWith_self]
  refine List.map_congr_left fun n hn => ?_
  have inside : n < 16 := List.mem_range.mp (perm.mem_iff.mp hn)
  have word : (wireFlit j b).1.getD n [] = pam4Levels (laneSent j b n).1 := by
    simp [wireFlit_words lanes, List.getD_eq_getElem?_getD, inside]
  rw [word, descramble_laneSent whole]

include whole perm in
/-- Whatever the permutation, the lane that read the number n gives the bytes of lane n. -/
theorem laneGot_bytes {n : Nat} (h : n < 16) :
    (((ids.map fun n => (n, laneBits (laneBytes b n), (laneSent j b n).2)).find? fun d => d.1 == n).map fun d => bitsBytes 17 d.2.1).getD [] =
      laneBytes b n := by
  have member : n ∈ ids := perm.mem_iff.mpr (List.mem_range.mpr h)
  have found : ids.find? (· == n) = some n := by
    cases e : ids.find? (· == n) with
    | none => exact absurd (List.find?_eq_none.mp e n member) (by simp)
    | some m => simpa using List.find?_some e
  have bytes := bitsBytes_laneBits (laneBytes b n)
  rw [laneBytes_length whole] at bytes
  rw [List.find?_map]
  simp [found, bytes]

end

/-- Settles O45: each lane's word comes off its scrambler as it went on, the lane numbers put the words in order, and the bytes place by
place are those of the flit. -/
theorem laneWordsGiveTheFlit : Obligations.LaneWordsGiveTheFlit := by
  unfold Obligations.LaneWordsGiveTheFlit
  intro j k ids b whole lanes perm laneIds scrams w r
  have got := laneGot_words lanes whole perm laneIds scrams
  refine ⟨wordsWhole_wireFlit lanes whole, ?flit, ?scramblers⟩
  case flit =>
    have gathered : r.1 = (List.range 17).flatMap fun i => ((List.range 16).map fun n =>
        (((laneGot k (ids.map fun n => (wireFlit j b).1.getD n [])).find? fun d => d.1 == n).map fun d =>
          bitsBytes 17 d.2.1).getD []).map fun w => w.getD i 0 := rfl
    have columns := List.map_congr_left fun n hn => laneGot_bytes (j := j) whole perm (List.mem_range.mp hn)
    rw [gathered, got, columns, gather_laneBytes whole]
  case scramblers =>
    have stand : r.2.lanes.map (·.scram) = (laneGot k (ids.map fun n => (wireFlit j b).1.getD n [])).map (·.2.2) := by
      have same : k.lanes.length = (laneGot k (ids.map fun n => (wireFlit j b).1.getD n [])).length := by
        rw [got, List.length_map, ← laneIds, List.length_map]
      change (k.lanes.zipWith (fun l d => { l with scram := d.2.2 }) (laneGot k _)).map (·.scram) = _
      rw [List.map_zipWith]
      exact zipWith_right (f := fun d => d.2.2) same
    rw [stand, got, List.map_map]
    exact List.map_congr_left fun n hn => (wireFlit_txScram lanes (List.mem_range.mp (perm.mem_iff.mp hn))).symm

end Sys2Proof.Machine
end

section
/-! SUPPORT. A packet read back from its bytes (R308 to R313). -/

set_option Elab.async false

namespace Sys2Proof.Machine

/-! ## The extension (R311, R353) -/

theorem fits_iff {n x : Nat} : fits n x = true ↔ x < 2 ^ n := by simp [fits]

theorem extEncode_length {x : Ext} (h : x.wellFormed = true) : (extEncode x).length = extBytes x := by
  cases x with
  | qdepth ds =>
    simp only [Ext.wellFormed, Bool.and_eq_true, beq_iff_eq] at h
    simp [extEncode, extBytes, List.length_flatMap, h.1]
  | _ => simp [extEncode, extBytes]

/-- A word of a field as wide as the word is the word. -/
theorem ofNat_toNat_mod {w n : Nat} (v : BitVec w) (h : n = 2 ^ w) : BitVec.ofNat w (v.toNat % n) = v := by
  rw [h, Nat.mod_eq_of_lt v.isLt, BitVec.ofNat_toNat, BitVec.setWidth_eq]

/-- MASTER and CASC_ID read back from the byte that holds them, its other bits 0 (R353). -/
theorem disc_master_byte (m : Bool) {c : Nat} (h : c < 4) : bit ((flag m 7 + c) % 256) 7 = m ∧ (flag m 7 + c) % 256 % 4 = c ∧
    (flag m 7 + c) % 256 % 128 / 4 = 0 := by
  revert m c
  decide

/-- The extension of a reserved type decodes to nothing but its type (R310). -/
theorem extDecode_reserved {t : Nat} (h : t = 0 ∨ t = 0x0E ∨ 0x0F < t) (b : List Byte) : extDecode t b = some (.reserved t, 0) := by
  unfold extDecode
  split
  case h_15 => rfl
  all_goals omega

/-- An extension whose fields fit reads back from its bytes, its reserved bits 0. -/
theorem extDecode_extEncode {x : Ext} (h : x.wellFormed = true) : extDecode (extType x) (extEncode x) = some (x, 0) := by
  cases x with
  | node kind x =>
    simp only [Ext.wellFormed, NodeExt.wellFormed, Bool.and_eq_true, fits_iff, Nat.reducePow] at h
    cases kind <;>
      simp only [extDecode, extType, extEncode, List.append_assoc, fld_le_append, fld_le_append_skip, fld_le, Nat.reduceAdd, Nat.reduceSub,
        Nat.reduceLeDiff, Nat.zero_mod, Nat.reducePow, Nat.mod_eq_of_lt, ofNat_toNat_mod, h]
  | pizz x =>
    simp only [Ext.wellFormed, PizzExt.wellFormed, Bool.and_eq_true, fits_iff, Nat.reducePow] at h
    simp only [extDecode, extType, extEncode, List.append_assoc, fld_le_append, fld_le_append_skip, fld_le, Nat.reduceAdd, Nat.reduceSub,
        Nat.reduceLeDiff, Nat.zero_mod, Nat.reducePow, Nat.mod_eq_of_lt, ofNat_toNat_mod, h]
  | disc x =>
    simp only [Ext.wellFormed, DiscExt.wellFormed, Bool.and_eq_true, fits_iff, Nat.reducePow] at h
    obtain ⟨⟨⟨⟨⟨⟨⟨sub, agreed⟩, portsel⟩, iport⟩, assign⟩, skind⟩, cascId⟩, reason⟩ := h
    obtain ⟨hmaster, hcasc, hrsvd⟩ := disc_master_byte x.master cascId
    have hport : x.portsel % 256 = x.portsel := Nat.mod_eq_of_lt (by omega)
    simp only [extDecode, extType, extEncode, List.append_assoc, fld_le_append, fld_le_append_skip, fld_le, Nat.reduceAdd, Nat.reduceSub,
      Nat.reduceLeDiff, Nat.zero_mod, Nat.reducePow, Nat.mod_eq_of_lt, ofNat_toNat_mod, Nat.div_eq_of_lt, hport, hmaster, hcasc, hrsvd, sub, agreed,
      portsel, iport, assign, skind, reason]
  | qdepth ds =>
    simp only [Ext.wellFormed, Bool.and_eq_true, beq_iff_eq, List.all_eq_true, fits_iff] at h
    obtain ⟨four, h⟩ := h
    match ds with
    | [a, b, c, d] =>
      simp only [List.mem_cons, List.not_mem_nil, forall_eq_or_imp, Nat.reducePow] at h
      simp only [extDecode, extType, extEncode, List.flatMap_cons, List.flatMap_nil, List.append_nil, List.append_assoc, fld_le_append,
        fld_le_append_skip, fld_le, Nat.reduceAdd, Nat.reduceSub,
        Nat.reduceLeDiff, Nat.zero_mod, Nat.reducePow, Nat.mod_eq_of_lt, h]
  | reserved t =>
    simp only [Ext.wellFormed, Bool.and_eq_true, decide_eq_true_eq] at h
    exact extDecode_reserved h.2 _
  | _ =>
    simp only [Ext.wellFormed, Bool.and_eq_true, fits_iff, Nat.reducePow] at h
    simp only [extDecode, extType, extEncode, List.append_assoc, fld_le_append, fld_le_append_skip, fld_le, Nat.reduceAdd, Nat.reduceSub,
      Nat.reduceLeDiff, Nat.zero_mod, Nat.reducePow, Nat.mod_eq_of_lt, ofNat_toNat_mod, h]

/-- The extension as HCRC takes it: RESID of TSYNC and byte 35 of DISC as 0 (R309, R352). -/
def crcTail : Ext → List Byte → List Byte
  | .tsync .., tail => le 4 0 ++ tail.drop 4
  | .disc _, tail => tail.modify 3 (fun _ => 0#8)
  | _, tail => tail

theorem extEncode_crcExt (x : Ext) : extEncode (crcExt x) = crcTail x (extEncode x) := by
  cases x <;> simp [crcExt, extEncode, crcTail, le]

/-! ## The header (R308) -/

/-- The bytes of a packet before the extension. -/
def hdrBytes (p : Packet) : List Byte :=
  hdrHead (clsByte p.hdr) p.payload.length p.ext p.hdr ++ le 4 (pcrc p) ++ le 4 0 ++ le 4 (hcrc p)

theorem hdrBytes_length (p : Packet) : (hdrBytes p).length = 32 := by simp [hdrBytes, hdrHead]

theorem pktEncode_eq (p : Packet) : pktEncode p = hdrBytes p ++ (extEncode p.ext ++ p.payload) := by
  simp [pktEncode, hdrBytes]

theorem pcrc_lt (p : Packet) : pcrc p < 2 ^ 32 := by
  unfold pcrc
  split
  · decide
  · exact (crc32 _).isLt

theorem hcrc_lt (p : Packet) : hcrc p < 2 ^ 32 := (crc32 _).isLt

/-- TC, COLOR and RETX read back from CLS, and the mask of R309 clears COLOR alone (R308). -/
theorem clsByte_fields {h : Hdr} (tc : h.tc < 8) (color : h.color < 4) : clsByte h % 256 / 32 = h.tc ∧ clsByte h % 256 / 8 % 4 = h.color ∧
    bit (clsByte h % 256) 2 = h.retx ∧ clsByte h % 256 % 4 = 0 ∧
    BitVec.ofNat 8 (clsByte h) &&& 0xE7#8 = BitVec.ofNat 8 (clsByte { h with color := 0 }) := by
  have all : ∀ tc < 8, ∀ color < 4, ∀ r : Bool, (tc * 32 + color * 8 + flag r 2) % 256 / 32 = tc ∧
      (tc * 32 + color * 8 + flag r 2) % 256 / 8 % 4 = color ∧ bit ((tc * 32 + color * 8 + flag r 2) % 256) 2 = r ∧
      (tc * 32 + color * 8 + flag r 2) % 256 % 4 = 0 ∧
      BitVec.ofNat 8 (tc * 32 + color * 8 + flag r 2) &&& 0xE7#8 = BitVec.ofNat 8 (tc * 32 + 0 * 8 + flag r 2) := by decide
  exact all h.tc tc h.color color h.retx

/-- HCRC takes the header with COLOR 0 (R309): its bits are cleared in byte 2. -/
theorem pktEncode_colorless {p : Packet} (tc : p.hdr.tc < 8) (color : p.hdr.color < 4) :
    ((pktEncode p).take 28).modify 2 (fun b => b &&& 0xE7#8) =
      hdrHead (clsByte { p.hdr with color := 0 }) p.payload.length p.ext p.hdr ++ le 4 (pcrc p) ++ le 4 0 := by
  obtain ⟨-, -, -, -, mask⟩ := clsByte_fields tc color
  have front : (pktEncode p).take 28 = hdrHead (clsByte p.hdr) p.payload.length p.ext p.hdr ++ le 4 (pcrc p) ++ le 4 0 := by
    rw [pktEncode_eq, hdrBytes, List.append_assoc]
    exact List.take_left' (by simp [hdrHead])
  rw [front]
  simp [hdrHead, le, mask]

/-- HLEN counts the header with the extension in units of 16 bytes (R308). -/
theorem extHlen_bytes (x : Ext) : 16 * extHlen x = 32 + extBytes x ∧ extHlen x < 256 ∧ 2 ≤ extHlen x := by
  cases x <;> simp [extHlen, extBytes]

theorem pktEncode_ext {p : Packet} (h : p.ext.wellFormed = true) : ((pktEncode p).take (16 * extHlen p.ext)).drop 32 = extEncode p.ext := by
  have len : (hdrBytes p ++ extEncode p.ext).length = 16 * extHlen p.ext := by
    rw [List.length_append, hdrBytes_length, extEncode_length h, (extHlen_bytes _).1]
  rw [pktEncode_eq, ← List.append_assoc, List.take_left' len, List.drop_left' (hdrBytes_length p)]

theorem pktEncode_payload {p : Packet} (h : p.ext.wellFormed = true) :
    ((pktEncode p).drop (16 * extHlen p.ext)).take p.payload.length = p.payload := by
  have len : (hdrBytes p ++ extEncode p.ext).length = 16 * extHlen p.ext := by
    rw [List.length_append, hdrBytes_length, extEncode_length h, (extHlen_bytes _).1]
  rw [pktEncode_eq, ← List.append_assoc, List.drop_left' len, List.take_length]

theorem extType_lt {x : Ext} (h : x.wellFormed = true) : extType x < 256 := by
  cases x with
  | node kind _ => cases kind <;> simp [extType]
  | reserved t =>
    simp only [Ext.wellFormed, Bool.and_eq_true, fits_iff] at h
    exact h.1
  | _ => simp [extType]

/-- Each field of the header stands in its place (R308). -/
theorem pktEncode_fields (p : Packet) :
    fld (pktEncode p) 0 0 = p.hdr.ver % 256 ∧ fld (pktEncode p) 1 1 = extType p.ext % 256 ∧ fld (pktEncode p) 2 2 = clsByte p.hdr % 256 ∧
    fld (pktEncode p) 3 3 = p.hdr.hlen % 256 ∧ fld (pktEncode p) 5 4 = p.payload.length % 65536 ∧ fld (pktEncode p) 7 6 = p.hdr.src % 65536 ∧
    fld (pktEncode p) 9 8 = p.hdr.dst % 65536 ∧ fld (pktEncode p) 10 10 = p.hdr.repoch.toNat % 256 ∧
    fld (pktEncode p) 11 11 = p.hdr.cepoch.toNat % 256 ∧ fld (pktEncode p) 15 12 = p.hdr.psn.toNat % 4294967296 ∧
    fld (pktEncode p) 17 16 = p.hdr.job % 65536 ∧ fld (pktEncode p) 19 18 = p.hdr.incarn.toNat % 65536 ∧
    fld (pktEncode p) 23 20 = pcrc p % 4294967296 ∧ fld (pktEncode p) 27 24 = 0 ∧ fld (pktEncode p) 31 28 = hcrc p % 4294967296 := by
  simp only [pktEncode, hdrHead, List.append_assoc, fld_le_append, fld_le_append_skip, Nat.reduceAdd, Nat.reduceSub,
    Nat.reduceLeDiff, Nat.zero_mod, Nat.reducePow, and_self]

/-- The header of a packet's bytes (R308). -/
def hdrOf (bs : List Byte) : Hdr :=
  { ver := fld bs 0 0, tc := fld bs 2 2 / 32, color := fld bs 2 2 / 8 % 4, retx := bit (fld bs 2 2) 2, hlen := fld bs 3 3,
    src := fld bs 7 6, dst := fld bs 9 8, repoch := BitVec.ofNat 8 (fld bs 10 10), cepoch := BitVec.ofNat 8 (fld bs 11 11),
    psn := BitVec.ofNat 32 (fld bs 15 12), job := fld bs 17 16, incarn := BitVec.ofNat 16 (fld bs 19 18),
    rsvd := fld bs 2 2 % 4 + fld bs 5 4 / 8192 + fld bs 27 24 }

/-- A whole packet decodes to its header, its extension and its payload, with the two checks (R308, R309). -/
theorem pktDecode_of_ext {bs : List Byte} {p : Packet} (whole : ¬ fld bs 3 3 < 2) (hdr : p.hdr = hdrOf bs)
    (payload : p.payload = (bs.drop (16 * fld bs 3 3)).take (fld bs 5 4 % 8192))
    (ext : extDecode (fld bs 1 1) ((bs.take (16 * fld bs 3 3)).drop 32) = some (p.ext, p.extRsvd)) :
    pktDecode bs = some (p,
      fld bs 31 28 == (crc32 ((bs.take 28).modify 2 (fun b => b &&& 0xE7#8) ++ crcTail p.ext ((bs.take (16 * fld bs 3 3)).drop 32))).toNat,
      fld bs 23 20 == pcrc p) := by
  obtain ⟨hdr, x, rs, payload⟩ := p
  subst hdr payload
  simp only [pktDecode, if_neg whole, ext]
  cases x <;> rfl

/-- Settles O43: the header is its fields one after another, and HCRC takes the same bytes at both ends. -/
theorem packetRoundTrip : Obligations.PacketRoundTrip := by
  unfold Obligations.PacketRoundTrip
  intro p h
  simp only [packetFits, Hdr.wellFormed, Bool.and_eq_true, fits_iff, beq_iff_eq, Nat.reducePow] at h
  obtain ⟨⟨⟨⟨⟨⟨⟨⟨⟨⟨⟨ver, tc⟩, color⟩, -⟩, src⟩, dst⟩, job⟩, hext⟩, hlen⟩, rsvd⟩, extRsvd⟩, plen⟩ := h
  obtain ⟨-, hlen_lt, two⟩ := extHlen_bytes p.ext
  obtain ⟨htc, hcolor, hretx, clean, -⟩ := clsByte_fields tc color
  obtain ⟨f0, f1, f2, f3, f4, f6, f8, f10, f11, f12, f16, f18, f20, f24, f28⟩ := pktEncode_fields p
  have covered : crc32 (((pktEncode p).take 28).modify 2 (fun b => b &&& 0xE7#8) ++ crcTail p.ext (extEncode p.ext)) = BitVec.ofNat 32 (hcrc p) := by
    rw [pktEncode_colorless tc color, ← extEncode_crcExt, hcrc, BitVec.ofNat_toNat, BitVec.setWidth_eq]
  have plen_mod : p.payload.length % 65536 % 8192 = p.payload.length ∧ p.payload.length % 65536 / 8192 = 0 := by omega
  have checks : pcrc p < 4294967296 ∧ hcrc p < 4294967296 := ⟨pcrc_lt p, hcrc_lt p⟩
  have hlen8 : p.hdr.hlen % 256 = extHlen p.ext := by rw [hlen]; exact Nat.mod_eq_of_lt hlen_lt
  have ext : extDecode (fld (pktEncode p) 1 1) (((pktEncode p).take (16 * fld (pktEncode p) 3 3)).drop 32) = some (p.ext, p.extRsvd) := by
    rw [f1, f3, hlen8, extRsvd, Nat.mod_eq_of_lt (extType_lt hext), pktEncode_ext hext,
      extDecode_extEncode hext]
  have hdr : p.hdr = hdrOf (pktEncode p) := by
    simp only [hdrOf, f0, f2, f3, f4, f6, f8, f10, f11, f12, f16, f18, f24, hlen8, ← hlen, plen_mod, htc, hcolor, hretx, clean,
      Nat.mod_eq_of_lt, ver, src, dst, job, ofNat_toNat_mod, Nat.reducePow, Nat.add_zero]
    rw [← rsvd]
  have payload : p.payload = ((pktEncode p).drop (16 * fld (pktEncode p) 3 3)).take (fld (pktEncode p) 5 4 % 8192) := by
    rw [f3, f4, hlen8, plen_mod.1, pktEncode_payload hext]
  rw [pktDecode_of_ext (by omega) hdr payload ext, f3, hlen8, pktEncode_ext hext, covered, BitVec.toNat_ofNat, f28, f20,
    Nat.mod_eq_of_lt checks.1, beq_self_eq_true, beq_self_eq_true]

end Sys2Proof.Machine
end

section
/-! SUPPORT. Sync counters and performance counters: saturation, wrap and the waiters of a counter (R279, R284 to R287, R424). -/

set_option Elab.async false

namespace Sys2Proof.Machine

/-! ## Saturating addition (R279, R284, R286) -/

theorem addValue_sat {x : Ctr} (d : BitVec 64) (h : x.sat = true) : addValue x d = x := by rw [addValue, if_pos h]

theorem setValue_sat {x : Ctr} (v : BitVec 64) (h : x.sat = true) : setValue x v = x := by rw [setValue, if_pos h]

/-- A word is the largest counter value exactly if its number is. -/
theorem eq_ctrMax_iff {v : BitVec 64} : v = ctrMax ↔ v.toNat = 2 ^ 64 - 1 := by
  rw [← BitVec.toNat_inj]
  rfl

/-- An ADD as one formula: the exact sum cut at the largest value, SAT set on reaching it. -/
theorem addValue_open {x : Ctr} (d : BitVec 64) (h : x.sat = false) : addValue x d = { x with
    value := BitVec.ofNat 64 (min (2 ^ 64 - 1) (x.value.toNat + d.toNat)), sat := decide (2 ^ 64 - 1 ≤ x.value.toNat + d.toNat) } := by
  have top : ctrMax.toNat = 2 ^ 64 - 1 := rfl
  rw [addValue, h, if_neg Bool.false_ne_true, top]
  split
  case isTrue high =>
    rw [Nat.min_eq_left (Nat.le_of_lt high), decide_eq_true (Nat.le_of_lt high)]
    rfl
  case isFalse low =>
    have sum : (x.value + d).toNat = x.value.toNat + d.toNat := by rw [BitVec.toNat_add]; omega
    have full : x.value + d = ctrMax ↔ 2 ^ 64 - 1 ≤ x.value.toNat + d.toNat := by rw [eq_ctrMax_iff, sum]; omega
    simp only [Nat.min_eq_right (Nat.not_lt.mp low), full]
    rw [← sum, BitVec.ofNat_toNat, BitVec.setWidth_eq]

theorem addValue_value {x : Ctr} (d : BitVec 64) (h : x.sat = false) :
    (addValue x d).value.toNat = min (2 ^ 64 - 1) (x.value.toNat + d.toNat) := by
  rw [addValue_open d h, BitVec.toNat_ofNat]
  omega

theorem addValue_sat_iff {x : Ctr} (d : BitVec 64) (h : x.sat = false) :
    (addValue x d).sat = true ↔ 2 ^ 64 - 1 ≤ x.value.toNat + d.toNat := by
  rw [addValue_open d h, decide_eq_true_eq]

/-- Two ADDs are one of the sum, which saturates where their sum does. -/
theorem addValue_addValue {x : Ctr} (d e : BitVec 64) (h : x.sat = false) : addValue (addValue x d) e = { x with
    value := BitVec.ofNat 64 (min (2 ^ 64 - 1) (x.value.toNat + (d.toNat + e.toNat))),
    sat := decide (2 ^ 64 - 1 ≤ x.value.toNat + (d.toNat + e.toNat)) } := by
  cases full : (addValue x d).sat with
  | true =>
    have reached := (addValue_sat_iff d h).mp full
    rw [addValue_sat e full, addValue_open d h, Nat.min_eq_left reached, decide_eq_true reached, Nat.min_eq_left (by omega),
      decide_eq_true (by omega)]
  | false =>
    have below : ¬ 2 ^ 64 - 1 ≤ x.value.toNat + d.toNat := fun reached => by simp [(addValue_sat_iff d h).mpr reached] at full
    have sum : (addValue x d).value.toNat = x.value.toNat + d.toNat := by rw [addValue_value d h]; omega
    rw [addValue_open e full, sum, Nat.add_assoc, addValue_open d h]

theorem addValue_right_comm (x : Ctr) (d e : BitVec 64) : addValue (addValue x d) e = addValue (addValue x e) d := by
  cases h : x.sat with
  | true => simp only [addValue_sat, h]
  | false => rw [addValue_addValue d e h, addValue_addValue e d h, Nat.add_comm d.toNat]

theorem setValue_value {x : Ctr} (v : BitVec 64) (h : x.sat = false) : (setValue x v).value.toNat = max x.value.toNat v.toNat ∧
    ((setValue x v).sat = true ↔ x.value.toNat < v.toNat ∧ v.toNat = 2 ^ 64 - 1) := by
  rw [setValue, h, if_neg Bool.false_ne_true]
  split
  case isTrue rises => exact ⟨(Nat.max_eq_right (Nat.le_of_lt rises)).symm, by simp [rises, eq_ctrMax_iff]⟩
  case isFalse stays => exact ⟨(Nat.max_eq_left (Nat.not_lt.mp stays)).symm, by simp [stays, h]⟩

/-- Settles O46: an ADD cuts the exact sum, and two of them are one of their sum, so any order gives the same. -/
theorem counterUpdatesCommute : Obligations.CounterUpdatesCommute := by
  unfold Obligations.CounterUpdatesCommute
  refine ⟨fun x d h => ⟨addValue_value d h, addValue_sat_iff d h⟩, fun x v h => setValue_value v h,
    fun x d h => ⟨addValue_sat d h, setValue_sat d h⟩, fun x l l' perm => ?_⟩
  exact perm.foldl_eq' (fun d _ e _ y => addValue_right_comm y d e) x

/-! ## Wrapping (R424) -/

/-- Settles O50: the sum is kept modulo 2⁴⁸, and its carry is what OVF and the notice look at. -/
theorem counterWrapSetsOverflow : Obligations.CounterWrapSetsOverflow := by
  unfold Obligations.CounterWrapSetsOverflow
  intro p
  refine ⟨?_, ?_, ?_⟩
  · simp [pmcFold]
  · simp [pmcFold]
  · simp [pmcReports, and_assoc]

/-! ## Waiters (R287) -/

/-- The release of waiters sends their records and takes them out. -/
theorem releaseIf_sends (p : Waiter → Bool) (status reason : Nat) (s : State) :
    Sends { s with waiters := s.waiters.filter fun w => !p w } (releaseIf p status reason s) := by
  unfold releaseIf
  exact foldl_sends (fun _ _ => sendRelease_sends ..) _ _

@[simp] theorem releaseIf_ctrs (p : Waiter → Bool) (status reason : Nat) (s : State) : (releaseIf p status reason s).ctrs = s.ctrs :=
  (releaseIf_sends p status reason s).ctrs

@[simp] theorem releaseIf_waiters (p : Waiter → Bool) (status reason : Nat) (s : State) :
    (releaseIf p status reason s).waiters = s.waiters.filter fun w => !p w :=
  (releaseIf_sends p status reason s).waiters

/-- Settles O48: the release takes out the satisfied waiters of the counter and touches no counter. -/
theorem noSatisfiedWaiterStays : Obligations.NoSatisfiedWaiterStays := by
  unfold Obligations.NoSatisfiedWaiterStays
  intro c x s wf
  have stored : ctrGet (ctrPut c x s) c = x := Table.get_put_same c x wf
  refine ⟨?_, fun w => ?_⟩
  · simpa only [ctrGet, ctrChange, releaseSatisfied, releaseIf_ctrs] using stored
  · simp only [ctrChange, releaseSatisfied, stored, releaseIf_waiters, List.mem_filter]
    simp [ctrPut, imp_iff_not_or]

end Sys2Proof.Machine
end

section
/-! SUPPORT. Selection, classes and tree nodes (R99 to R101, R106, R124, R125, R142). -/

set_option Elab.async false

namespace Sys2Proof.Machine

/-! ## The better of two candidates (R124, R125) -/

/-- The place of an element in the ranking of MAX, or of MIN where NaN still leads and the rest is turned round (R124). -/
def rankScore (min : Bool) (e : Elem) : Int ×ₗ Rat :=
  if min = true ∧ e ≠ .nan then toLex (-(rankKey e).1, -(rankKey e).2) else toLex (rankKey e)

theorem rankKey_bounds {e : Elem} (h : e ≠ .nan) : -4 < (rankKey e).1 ∧ (rankKey e).1 < 4 := by
  unfold rankKey
  repeat' split
  all_goals simp_all

theorem rankScore_nan (min : Bool) : rankScore min .nan = toLex (4, 0) := by simp [rankScore, rankKey]

theorem rankScore_max (e : Elem) : rankScore false e = toLex (rankKey e) := by simp [rankScore]

theorem rankScore_min {e : Elem} (h : e ≠ .nan) : rankScore true e = toLex (-(rankKey e).1, -(rankKey e).2) := by simp [rankScore, h]

/-- No other element stands as high as NaN (R124). -/
theorem rankScore_lt_nan {e : Elem} (h : e ≠ .nan) : rankScore true e < rankScore true .nan := by
  rw [rankScore_nan, rankScore_min h, Prod.Lex.toLex_lt_toLex]
  exact Or.inl (by have := rankKey_bounds h; dsimp only; omega)

/-- The ranking is by score. -/
theorem ranksAbove_iff (min : Bool) (a b : Elem) : ranksAbove min a b = true ↔ rankScore min b < rankScore min a := by
  cases min with
  | false =>
    simp only [ranksAbove, rankScore_max, Prod.Lex.toLex_lt_toLex, Bool.false_eq_true, if_false, Bool.or_eq_true, Bool.and_eq_true,
      decide_eq_true_eq, @eq_comm _ (rankKey a).1]
  | true =>
    by_cases ha : a = .nan <;> by_cases hb : b = .nan
    · simp [ranksAbove, ha, hb]
    · simp [ranksAbove, ha, hb, rankScore_lt_nan hb]
    · simp [ranksAbove, ha, hb, (rankScore_lt_nan ha).le]
    · simp [ranksAbove, ha, hb, rankScore_min, Prod.Lex.toLex_lt_toLex, @eq_comm _ (rankKey a).1]

/-- Where a candidate stands: its rank, then the lower ordinal (R125). -/
def candKey (min : Bool) (c : Cand) : (Int ×ₗ Rat) ×ₗ Natᵒᵈ := toLex (rankScore min c.elem, OrderDual.toDual c.ord)

/-- The second of two candidates is the better one only where it stands strictly higher. -/
theorem better_eq (min : Bool) (a b : Cand) : better min a b = if candKey min a < candKey min b then b else a := by
  simp only [better, ranksAbove_iff, candKey, Prod.Lex.toLex_lt_toLex, OrderDual.toDual_lt_toDual]
  rcases lt_trichotomy (rankScore min a.elem) (rankScore min b.elem) with lt | eq | gt
  · simp [lt, lt.not_gt]
  · simp only [eq, lt_irrefl, if_false, true_and, false_or]
    by_cases order : a.ord ≤ b.ord
    · rw [if_pos order, if_neg (Nat.not_lt.mpr order)]
    · rw [if_neg order, if_pos (Nat.lt_of_not_le order)]
  · simp [gt, gt.not_gt, gt.ne']

/-- The better of two candidates by place, in either grouping. -/
theorem better_assoc (min : Bool) (a b c : Cand) : better min (better min a b) c = better min a (better min b c) := by
  simp only [better_eq]
  by_cases hab : candKey min a < candKey min b <;> by_cases hbc : candKey min b < candKey min c
  · simp [hab, hbc, hab.trans hbc]
  · simp [hab, hbc]
  · simp [hab, hbc]
  · simp [hab, hbc, ((not_lt.mp hbc).trans (not_lt.mp hab)).not_gt]

theorem better_comm (min : Bool) {a b : Cand} (differ : a.ord ≠ b.ord) : better min a b = better min b a := by
  have apart : candKey min a ≠ candKey min b := fun h => differ (by simpa [candKey] using congrArg (fun k => (ofLex k).2) h)
  rw [better_eq, better_eq]
  rcases lt_or_gt_of_ne apart with lt | gt
  · rw [if_pos lt, if_neg lt.not_gt]
  · rw [if_pos gt, if_neg gt.not_gt]

/-- Settles O57: the better of two is the one that stands higher in one linear order. -/
theorem selectionIgnoresOrder : Obligations.SelectionIgnoresOrder := by
  unfold Obligations.SelectionIgnoresOrder
  exact ⟨fun min a b differ => better_comm min differ, better_assoc⟩

/-! ## Classes (R99, R101) -/

theorem classCombine_comm (a b : Cls) : classCombine a b = classCombine b a := by cases a <;> cases b <;> simp [classCombine]

theorem classCombine_nan (a b : Cls) : classCombine a b = .nan ↔
    a = .nan ∨ b = .nan ∨ (a = .pinf ∧ b = .ninf) ∨ (a = .ninf ∧ b = .pinf) := by cases a <;> cases b <;> simp [classCombine]

/-- A combine of which one operand is not finite follows the class rule alone. -/
theorem combine_of_class {lv : Lv} {a b : Val} (h : a.cls ≠ .fin ∨ b.cls ≠ .fin) : combine lv a b =
    { cls := classCombine a.cls b.cls, ov := a.ov || b.ov || decide (classCombine a.cls b.cls = .ovf), nx := a.nx || b.nx, uf := a.uf || b.uf } := by
  unfold combine
  split
  case h_1 fa fb => simp [fa, fb] at h
  case h_2 => rfl

theorem overflowVal_ne_nan (lv : Lv) (neg : Bool) : (overflowVal lv neg).cls ≠ .nan := by
  unfold overflowVal
  split
  · cases neg <;> simp
  · simp

/-- The combine of two finite values is never a NaN. -/
theorem combine_of_fin (lv : Lv) {a b : Val} (ha : a.cls = .fin) (hb : b.cls = .fin) : (combine lv a b).cls ≠ .nan ∧
    (combine lv a b).cls = (combine lv b a).cls ∧ (combine lv a b).ov = (combine lv b a).ov := by
  unfold combine
  rw [ha, hb, add_comm (vsum b)]
  dsimp only
  split
  · exact ⟨overflowVal_ne_nan _ _, rfl, rfl⟩
  · exact ⟨nofun, rfl, Bool.or_comm _ _⟩

/-- Settles O58: the class rule is symmetric, and so is the sum that a combine of finite values tests. -/
theorem combineClassIgnoresOrder : Obligations.CombineClassIgnoresOrder := by
  unfold Obligations.CombineClassIgnoresOrder
  intro lv a b
  by_cases h : a.cls ≠ .fin ∨ b.cls ≠ .fin
  · have whole : combine lv a b = combine lv b a := by
      rw [combine_of_class h, combine_of_class h.symm, classCombine_comm, Bool.or_comm a.ov, Bool.or_comm a.nx, Bool.or_comm a.uf]
    refine ⟨by rw [whole], by rw [whole], fun _ => whole, ?_⟩
    rw [combine_of_class h]
    exact classCombine_nan _ _
  · have ⟨ha, hb⟩ : a.cls = .fin ∧ b.cls = .fin := by simpa using h
    obtain ⟨number, cls, ov⟩ := combine_of_fin lv ha hb
    exact ⟨cls, ov, fun h' => absurd h' h, by simp [number, ha, hb]⟩

/-! ## The node of an aligned island (R106, R142) -/

/-- An ordinal of a node names the node. -/
theorem eq_div_of_mem_nodeOrds {n l j o : Nat} (h : o ∈ nodeOrds n l j) : j = o / 2 ^ l := by
  simp only [nodeOrds, List.mem_filter, List.mem_map, List.mem_range] at h
  obtain ⟨⟨r, small, rfl⟩, -⟩ := h
  rw [Nat.add_mul_div_right _ _ (Nat.two_pow_pos l), Nat.div_eq_of_lt small, Nat.zero_add]

/-- The first of the levels below a bound that passes a test, with what it gives: those before it fail. -/
theorem filterMap_range_head {α : Type} {f : Nat → Option α} {m : Nat} {a : α} (h : ((List.range m).filterMap f).head? = some a) :
    ∃ l < m, f l = some a ∧ ∀ k < l, f k = none := by
  rw [List.head?_filterMap] at h
  induction m with
  | zero => simp at h
  | succ m ih =>
    rw [List.range_succ, List.findSome?_append, Option.or_eq_some_iff] at h
    rcases h with earlier | ⟨missed, last⟩
    · obtain ⟨l, lt, found⟩ := ih earlier
      exact ⟨l, Nat.lt_succ_of_lt lt, found⟩
    · exact ⟨m, Nat.lt_succ_self m, by simpa using last, fun k lt => List.findSome?_eq_none_iff.mp missed k (List.mem_range.mpr lt)⟩

/-- Settles O59: the node is the first in the order of levels, and any node of its ordinals is named by the first of them. -/
theorem alignedNodeCoversItsOrdinals : Obligations.AlignedNodeCoversItsOrdinals := by
  unfold Obligations.AlignedNodeCoversItsOrdinals
  intro n ords l j aligned
  match ords with
  | o :: rest =>
    obtain ⟨l', bound, found, lower⟩ := filterMap_range_head aligned
    simp only [Option.ite_none_right_eq_some, Option.some.injEq, Prod.mk.injEq] at found
    obtain ⟨covers, rfl, rfl⟩ := found
    refine ⟨covers, by omega, fun k hk i other => ?_⟩
    have node := eq_div_of_mem_nodeOrds (other ▸ List.mem_cons_self : o ∈ nodeOrds n k i)
    have missed := lower k hk
    rw [← node, if_pos other] at missed
    exact nomatch missed

end Sys2Proof.Machine
end

section
/-! SUPPORT. A delivered PSN, RESET, and a command that is not authenticated (R266, R317, R378). -/

set_option Elab.async false

namespace Sys2Proof.Machine

/-! ## Delivered PSNs (R317) -/

/-- A flow moves up by no more than the steps it may take. -/
theorem rxAdvance_le (k : Nat) (n : BitVec 32) (l : List (BitVec 32)) : ∃ m ≤ k, (rxAdvance k n l).1 = n + BitVec.ofNat 32 m := by
  induction k generalizing n l with
  | zero => exact ⟨0, le_rfl, by simp [rxAdvance]⟩
  | succ k ih =>
    rw [rxAdvance]
    split
    · obtain ⟨m, bound, moved⟩ := ih (n + 1) (l.filter (· ≠ n))
      exact ⟨m + 1, by omega, by rw [moved, BitVec.add_assoc, BitVec.ofNat_add, BitVec.add_comm 1]; rfl⟩
    · exact ⟨0, Nat.zero_le _, by simp⟩

/-- A PSN that came ahead is, when the flow has moved up, still ahead or behind it by no more than the steps taken. -/
theorem rxAdvance_delivers {k : Nat} {n p : BitVec 32} {l : List (BitVec 32)} (short : k < 2 ^ 32) (held : p ∈ l) :
    p ∈ (rxAdvance k n l).2 ∨ (p ≠ (rxAdvance k n l).1 ∧ ((rxAdvance k n l).1 - p).toNat ≤ k) := by
  induction k generalizing n l with
  | zero => exact Or.inl held
  | succ k ih =>
    rw [rxAdvance]
    split
    case isTrue =>
      by_cases taken : p = n
      · subst taken
        obtain ⟨m, bound, moved⟩ := rxAdvance_le k (p + 1) (l.filter (· ≠ p))
        have gap : (p + 1 + BitVec.ofNat 32 m - p).toNat = m + 1 := by bv_omega
        rw [moved]
        exact Or.inr ⟨fun same => by rw [← same, BitVec.sub_self] at gap; exact absurd gap (by simp), by omega⟩
      · have kept := ih (n := n + 1) (l := l.filter (· ≠ n)) (by omega) (by simp [held, taken])
        exact kept.imp id fun ⟨past, near⟩ => ⟨past, Nat.le_succ_of_le near⟩
    case isFalse => exact Or.inl held

/-- The flow of an arrival is of its source and class, in its incarnation (R317). -/
theorem rxBase_flow (s : State) (a : Arrival) : (rxBase s a).src = a.pkt.hdr.src ∧ (rxBase s a).tc = a.pkt.hdr.tc ∧
    (rxBase s a).incarn = some a.pkt.hdr.incarn := by
  unfold rxBase
  dsimp only
  split
  · exact ⟨rfl, rfl, rfl⟩
  · rename_i f found
    have key := List.find?_some found
    simp only [Bool.and_eq_true, beq_iff_eq] at key
    split
    · exact ⟨key.1, key.2, ‹_›⟩
    · exact ⟨rfl, rfl, rfl⟩

theorem Emits.net {s t : State} (h : Emits s t) : t.net = s.net := by
  obtain ⟨_, _, _, _, rfl⟩ := h
  rfl

/-- The flow that a commit leaves is the one it delivers the packet to. -/
theorem rxFind_commit {a : Arrival} (s : State) (sequenced : sequenced a.pkt.ext = true) :
    rxFind (commit a s) a = some (rxDeliver (rxBase s a) a.pkt.hdr.psn) := by
  obtain ⟨src, tc, -⟩ := rxBase_flow s a
  have kept : (commit a s).net.rx = rxDeliver (rxBase s a) a.pkt.hdr.psn ::
      s.net.rx.filter fun x => !(x.src == (rxBase s a).src && x.tc == (rxBase s a).tc) := by
    simp only [commit, sequenced, Bool.not_true, Bool.false_eq_true, if_false, (sendAck_emits _ _ _ _).net]
    rfl
  rw [rxFind, kept, List.find?_cons_of_pos]
  simp [rxDeliver, src, tc]

/-- Settles O55: the flow that a commit leaves holds the PSN ahead, or has moved past it by less than half the circle. -/
theorem committedPacketIsADuplicate : Obligations.CommittedPacketIsADuplicate := by
  unfold Obligations.CommittedPacketIsADuplicate
  intro a s sequenced short
  obtain ⟨-, -, incarn⟩ := rxBase_flow s a
  have known : (rxDeliver (rxBase s a) a.pkt.hdr.psn).incarn = some a.pkt.hdr.incarn := incarn
  have seen : delivered (rxDeliver (rxBase s a) a.pkt.hdr.psn) a.pkt.hdr.psn = true := by
    simp only [delivered, rxDeliver, Bool.or_eq_true, Bool.and_eq_true, List.contains_iff_mem]
    exact (rxAdvance_delivers (by omega) List.mem_cons_self).imp id fun ⟨past, near⟩ => ⟨decide_eq_true past, decide_eq_true (by omega)⟩
  simp only [flowCheck, rxFind_commit s sequenced, known, seen, if_true]

/-! ## RESET (R378) -/

/-- Settles O56: RESET puts the reset state in place of all but the pegbox, the test port, the ring while held and the log. -/
theorem resetDiscardsWork : Obligations.ResetDiscardsWork := by
  unfold Obligations.ResetDiscardsWork
  intro held low s t reset off
  have wipes : t = wiped held low (flashBroken (setState .reset s)) := if_neg (by simp [reset, off])
  have ring : held = false → t.fault.ring = [] := fun h => by rw [wipes, h]; rfl
  have released : scanDrives t = false → islReady t = none ∧ islFaultN t = none ∧ islAlertN t = none ∧ thermTripN t = none := by
    intro released
    have state : t.ctl.state = .reset := by rw [wipes]; rfl
    simp [islReady, islFaultN, islAlertN, thermTripN, output, regsUp, released, state]
  rw [wipes] at *
  exact ⟨rfl, rfl, rfl, rfl, rfl, rfl, rfl, rfl, rfl, rfl, rfl, rfl, rfl, rfl, rfl, fun slot => rfl, ring, released⟩

/-! ## Authentication (R266) -/

theorem authFail_sends (slot chip : Nat) (s : State) : Sends s (authFail slot chip s) := notice_count_sends ..

/-- Settles O60: such a command does nothing but be counted and noticed. -/
theorem authenticationGuardsTheAdminQueue : Obligations.AuthenticationGuardsTheAdminQueue := by
  unfold Obligations.AuthenticationGuardsTheAdminQueue
  intro chip b s bad
  have fails : adminArrive chip b s = authFail (fld b 2 2) chip s := by
    unfold adminArrive
    rcases bad with stranger | ⟨code, mac⟩
    · simp [stranger]
    · simp [code, mac]
  obtain ⟨_, _, _, _, _, _, sent⟩ := authFail_sends (fld b 2 2) chip s
  refine ⟨_, rfl, ?_⟩
  rw [fails, sent]
  exact ⟨rfl, rfl, rfl, rfl, rfl, rfl, rfl⟩

end Sys2Proof.Machine
end

section
/-! SUPPORT. Rows of the admin queue, each with the checks that its command passes (R242, R243, R249, R262 to R273, R331, R337, R465). -/

set_option Elab.async false

namespace Sys2Proof.Machine

section

variable {c : AdminCmd} {s : State}

/-! ## Arrival and IDENTIFY (R249, R266 to R268) -/

theorem exec_adminDoorbell {a : Arrival} (doorbell : isDoorbell a = true) (queue : (doorbellParse a.pkt.payload).queue = 0)
    (tc : a.pkt.hdr.tc = 1) (good : adminDoorbellBad (doorbellParse a.pkt.payload) a.pkt.payload.length = false) (ok : accepts a s) :
    exec (.adminDoorbell a) s =
      .next ((doorbellParse a.pkt.payload).inl.foldl (fun s b => adminArrive a.pkt.hdr.src b s) (commit a (accepted a s))) := by
  change execAdminDoorbell a s = _
  simp [execAdminDoorbell, doorbell, queue, onReceive_ok ok, tc, good]

theorem exec_adminAseqTimeout {slot : Nat} (waited : ∃ c ∈ s.admin.staged, c.slot = slot ∧ c.since + 1000000 ≤ s.time.gcount) :
    exec (.adminAseqTimeout slot) s =
      .next (takeStaged slot 64 (advanceAseq slot (adminComplete slot (nextAseq s slot) 5 (malformed 0x05 0).2 0 s))) := by
  change execAdminAseqTimeout slot s = _
  rw [execAdminAseqTimeout, if_pos (by simpa using waited)]

theorem exec_identify (takes : adminTakes 0x01 c s) :
    exec .identify s = .next (sendWrite 1 c.src (c.arg 13 8) 0 (identityBlock (adminLeft s) c.slot) .other (adminLeft s)) := by
  change execIdentify s = _
  rw [execIdentify, adminRow_takes takes]

/-! ## Queues (R242, R243, R262, R263) -/

/-- The queue that CREATE_QUEUE's fields describe, with its ring at an address. -/
def queueMade (c : AdminCmd) (ring : Nat) : QueueCtx :=
  { state := .idle, job := c.arg 13 12, group := c.arg 11 10, poster := c.arg 19 18, home := bit (c.arg 15 15) 0,
    pext := bit (c.arg 15 15) 1, mext := bit (c.arg 15 15) 2, log2sz := c.arg 14 14, prefetch := c.arg 17 16, ring,
    pcqOff := c.arg 29 24, mcqOff := c.arg 41 36, pxOff := c.arg 35 30, mxOff := c.arg 47 42, head := BitVec.ofNat 32 (c.arg 23 20),
    tail := BitVec.ofNat 32 (c.arg 23 20), startNext := BitVec.ofNat 32 (c.arg 23 20), inlineTop := BitVec.ofNat 32 (c.arg 23 20) }

theorem exec_createQueue_away (takes : adminTakes 0x02 c s) (passes : createFailure (adminLeft s) c = none)
    (room : cacheFull (adminLeft s) (c.arg 9 8) (c.arg 17 16) = false) (home : bit (c.arg 15 15) 0 = false) :
    exec .createQueue s = .next (adminDone c 0 0 0 (queuePut (c.arg 9 8) (queueMade c 0) (adminLeft s))) := by
  change execCreateQueue s = _
  rw [execCreateQueue, adminRow_takes takes]
  simp [passes, room, home, queueMade]

theorem exec_createQueue_home (takes : adminTakes 0x02 c s) (passes : createFailure (adminLeft s) c = none)
    (room : cacheFull (adminLeft s) (c.arg 9 8) (c.arg 17 16) = false) (home : bit (c.arg 15 15) 0 = true) {r : Region}
    (place : placeNeed s.freeCtr (liveRegions (adminLeft s))
      { neck := c.arg 9 8 % 16, size := 64 * 2 ^ c.arg 14 14, use := .ring (c.arg 9 8) } = some r) :
    exec .createQueue s = .next (adminDone c 0 0 r.base (queuePut (c.arg 9 8) (queueMade c r.base) (setRegions 1 (liveRegions (adminLeft s) ++ [r]) (adminLeft s)))) := by
  change execCreateQueue s = _
  have place' : placeNeed (adminLeft s).freeCtr (liveRegions (adminLeft s))
      { neck := c.arg 9 8 % 16, size := 64 * 2 ^ c.arg 14 14, use := .ring (c.arg 9 8) } = some r := place
  rw [execCreateQueue, adminRow_takes takes]
  simp [passes, room, home, place', queueMade]

theorem exec_destroyQueue (takes : adminTakes 0x03 c s) (may : drainRefused s (c.arg 9 8) = false) :
    exec .destroyQueue s = .next (settle (drainQueue (c.arg 9 8) 6 .absent (some (c.slot, c.aseq)) 0 (adminLeft s))) := by
  change execDestroyQueue s = _
  have may' : drainRefused (adminLeft s) (c.arg 9 8) = false := may
  rw [execDestroyQueue, adminRow_takes takes]
  simp [may']

theorem exec_resetQueue (takes : adminTakes 0x04 c s) (may : drainRefused s (c.arg 9 8) = false) :
    exec .resetQueue s =
      .next (settle (drainQueue (c.arg 9 8) 1 .idle (some (c.slot, c.aseq)) (BitVec.ofNat 32 (c.arg 13 10)) (adminLeft s))) := by
  change execResetQueue s = _
  have may' : drainRefused (adminLeft s) (c.arg 9 8) = false := may
  rw [execResetQueue, adminRow_takes takes]
  simp [may']

end

/-- Settles O1: the doorbell is taken once its checks pass, a wait of 1 ms gives the missing ASEQ its reason, and IDENTIFY writes its block. -/
theorem adminArrivalCompletes : Obligations.AdminArrivalCompletes := by
  unfold Obligations.AdminArrivalCompletes
  exact ⟨fun a s => exec_adminDoorbell, fun slot s => exec_adminAseqTimeout, fun c s => exec_identify⟩

/-- Settles O2: each command runs its own rule once the checks of its fields pass. -/
theorem queueAdminCompletes : Obligations.QueueAdminCompletes := by
  unfold Obligations.QueueAdminCompletes
  refine ⟨?create, fun c s => exec_destroyQueue, fun c s => exec_resetQueue, ?toIdle, ?toAbsent⟩
  case create =>
    intro c s takes passes room
    exact ⟨exec_createQueue_away takes passes room, fun r here place => exec_createQueue_home takes passes room here place⟩
  case toIdle =>
    intro q s empty idle
    change execQueueDrained q s = _
    simp only [execQueueDrained, empty, idle]
    rfl
  case toAbsent =>
    intro q s empty idle
    change execQueueDrained q s = _
    simp only [execQueueDrained, empty, idle]
    rfl

/-! ## Loads (R138, R271, R272, R487) -/

section

variable {c : AdminCmd} {s : State}

/-- A command whose image has come whole and whose CRC is right goes on with the image's bytes (R272). -/
theorem withLoad_whole {hold : List Byte → State → Bool} {f : List Byte → State → State} {bs : List Byte} (whole : imageWhole bs s)
    (crc : (crc32 bs).toNat = c.arg 31 28) (free : hold bs (adminLeft s) = false) :
    withLoad hold c (adminLeft s) f = f bs (dropImage (adminLeft s)) := by
  obtain ⟨i, image, failed, damaged, rfl, want⟩ := whole
  have image' : (adminLeft s).net.image = some i := image
  simp [withLoad, withImage, image', failed, damaged, free, crc, Nat.not_lt.mpr want]

theorem exec_loadChord {bs : List Byte} {rs : List GroupRecord} {l : List (Nat × Option (Group × List Entry))} {sh : ChordCopy}
    (takes : adminTakes 0x05 c s) (alone : inDomain s = false) (idle : s.admin.domain = none) (whole : imageWhole bs s)
    (crc : (crc32 bs).toNat = c.arg 31 28) (fresh : loadStale s (c.arg 8 8) = false) (records : chordRecords bs = some rs)
    (checked : recordsCheck s.ctl.cascId 0 rs = .ok l) (room : shadowAfter (dropImage (adminLeft s)) l = .ok sh) :
    exec .loadChord s = .next (adminDone c 0 0 rs.length (setShadow sh (dropImage (adminLeft s)))) := by
  change execLoadChord s = _
  have alone' : inDomain (dropImage (adminLeft s)) = false := alone
  have idle' : (adminLeft s).admin.domain = none := idle
  have fresh' : loadStale (dropImage (adminLeft s)) (c.arg 8 8) = false := fresh
  have checked' : recordsCheck (dropImage (adminLeft s)).ctl.cascId 0 rs = .ok l := checked
  rw [execLoadChord, adminRow_takes takes]
  simp [idle', withLoad_whole whole crc, alone', isMaster, fresh', loadRecords, records, checked', room]

theorem exec_loadSchedule {bs : List Byte} {b : ZsiBody} {all : List Region} (takes : adminTakes 0x06 c s) (whole : imageWhole bs s)
    (space : needsSpace (some (normalBody b)) = true → s.zeroize = 0) (crc : (crc32 bs).toNat = c.arg 31 28) (header : 64 ≤ bs.length)
    (admitted : admitFault (dropImage (adminLeft s)) (c.arg 11 10) (c.arg 8 8) bs.length (slice bs 0 64) (some (normalBody b)) = .ok all) :
    exec (.loadSchedule (some b)) s = .next (adminDone c 0 0 (normalBody b).ops.length
      (loadZsi (c.arg 11 10) (c.arg 8 8) (slice bs 0 64) (normalBody b)
        (setRegions (all.length - (liveRegions (dropImage (adminLeft s))).length) all (dropImage (adminLeft s))))) := by
  change execLoadSchedule (some b) s = _
  have free : (needsSpace (some (normalBody b)) && decide (0 < (adminLeft s).zeroize)) = false := by
    cases needs : needsSpace (some (normalBody b)) with
    | false => rfl
    | true => simp [show (adminLeft s).zeroize = 0 from space needs]
  rw [execLoadSchedule, adminRow_takes takes]
  simp [withLoad_whole whole crc, free, Nat.not_lt.mpr header, admitted]

/-! ## Epochs (R140, R331, R337) -/

/-- An accepted epoch is set to swap at its tick, and a master passes it on (R140, R337). -/
theorem exec_setEpochChord (takes : adminTakes 0x09 c s) (table : c.arg 8 8 = 0) (idle : s.admin.domain = none)
    (lead : inDomain s = true → isMaster s = true) (fits : epochAccepted s s.chord (c.arg 9 9) (c.arg 23 16) = true) :
    exec .setEpochChord s = .next (adminDone c 0 0 0 (if isMaster s then
      (domainPeers s).foldl (fun s p => sendDomain p 0x09 (BitVec.ofNat 64 (c.arg 23 16 / frameNs s)) [] s)
        { adminLeft s with chord := { s.chord with swapAt := some (c.arg 23 16) } }
      else { adminLeft s with chord := { s.chord with swapAt := some (c.arg 23 16) } })) := by
  change execSetEpochChord s = _
  obtain ⟨l, ready⟩ := adminTakes_ready takes
  have table' : fld c.bytes 8 8 ≠ 1 := by rw [AdminCmd.arg] at table; omega
  have idle' : ¬ (adminLeft s).admin.domain.isSome := by rw [show (adminLeft s).admin.domain = none from idle]; decide
  have lead' : inDomain (adminLeft s) = true → isMaster (adminLeft s) = true := lead
  have fits' : epochAccepted (adminLeft s) (adminLeft s).chord (c.arg 9 9) (c.arg 23 16) = true := fits
  simp only [execSetEpochChord, ready]
  rw [if_neg table', adminRow_takes takes, if_neg (not_not.mpr table), if_neg idle', if_neg (by simpa using lead'),
    if_neg (by simp [fits'])]
  rfl

theorem exec_setEpochRouting (takes : adminTakes 0x09 c s) (table : c.arg 8 8 = 1)
    (fits : epochAccepted s s.routing (c.arg 9 9) (c.arg 23 16) = true) :
    exec .setEpochRouting s = .next (adminDone c 0 0 0 { adminLeft s with routing := { s.routing with swapAt := some (c.arg 23 16) } }) := by
  change execSetEpochRouting s = _
  obtain ⟨l, ready⟩ := adminTakes_ready takes
  have table' : fld c.bytes 8 8 = 1 := table
  have fits' : epochAccepted (adminLeft s) (adminLeft s).routing (c.arg 9 9) (c.arg 23 16) = true := fits
  simp [execSetEpochRouting, ready, table', adminRow_takes takes, fits']
  rfl

/-! ## Jobs and registers (R62 to R64, R271, R296, R465) -/

theorem adminLeft_frameNs (s : State) : frameNs (adminLeft s) = frameNs s := rfl

theorem exec_startJob (takes : adminTakes 0x07 c s) (tick : isTick s (c.arg 23 16) = true) (awake : sleepsBefore s (c.arg 23 16) = false)
    (fits : startFits s (c.arg 9 8) (c.arg 23 16) (c.arg 11 10) = true) :
    exec .startJob s = .next (adminDone c 0 0 (c.arg 23 16 / frameNs s) (jobPut (c.arg 9 8)
      { seed := BitVec.ofNat 64 (c.arg 31 24), armed := some (c.arg 23 16), mask := c.arg 11 10 } (adminLeft s))) := by
  change execStartJob s = _
  have tick' : isTick (adminLeft s) (c.arg 23 16) = true := tick
  have awake' : sleepsBefore (adminLeft s) (c.arg 23 16) = false := awake
  have fits' : startFits (adminLeft s) (c.arg 9 8) (c.arg 23 16) (c.arg 11 10) = true := fits
  rw [execStartJob, adminRow_takes takes]
  simp [tick', awake', fits', adminLeft_frameNs]

theorem exec_startJob_offTick (takes : adminTakes 0x07 c s) (off : c.arg 23 16 % frameNs s ≠ 0) :
    exec .startJob s = .next (adminDone c 5 (malformed 0x04 16).2 0 (adminLeft s)) := by
  change execStartJob s = _
  have off' : isTick (adminLeft s) (c.arg 23 16) = false := by simpa [isTick, adminLeft_frameNs] using off
  rw [execStartJob, adminRow_takes takes]
  simp [off', adminBad]

theorem exec_stopJob (takes : adminTakes 0x08 c s) {t : State} (stopped : t = settle (stopJob (c.arg 9 8) (adminLeft s))) :
    exec .stopJob s =
      .next (stopsDone { t with admin := { t.admin with stops := t.admin.stops ++ [(c, c.arg 9 8, t.time.gcount)] } }) := by
  change execStopJob s = _
  rw [execStopJob, adminRow_takes takes, stopped]

theorem exec_readReg (takes : adminTakes 0x0A c s) (aligned : c.arg 11 8 % 4 = 0) (some_ : 1 ≤ c.arg 13 12) (few : c.arg 13 12 ≤ 1024)
    (blocks : ∀ i < c.arg 13 12, inBlock (c.arg 11 8 + 4 * i) = true) {r : List Word × State}
    (read : r = regReads (c.arg 13 12) (c.arg 11 8) (adminLeft s)) :
    exec .readReg s = .next (adminSettle (adminAwait c 0 (r.1.headD 0).toNat
      (sendWrites 1 c.src (c.arg 23 18) 0 (r.1.flatMap fun v => le 4 v.toNat) (adminData c) r.2))) := by
  change execReadReg s = _
  have blocks' : ((List.range (c.arg 13 12)).all fun i => inBlock (c.arg 11 8 + 4 * i)) = true := by simpa using blocks
  rw [execReadReg, adminRow_takes takes, if_neg (not_not.mpr aligned), if_neg (by simp [some_, few]), blocks', read]
  rfl

theorem exec_writeReg (takes : adminTakes 0x0B c s) (aligned : c.arg 11 8 % 4 = 0) (block : inBlock (c.arg 11 8) = true) {t : State}
    (written : t = regWrite { addr := c.arg 11 8, value := BitVec.ofNat 32 (c.arg 15 12), mask := BitVec.ofNat 32 (c.arg 19 16) } (adminLeft s)) :
    exec .writeReg s = .next (adminDone c 0 0 (regValue t (c.arg 11 8)).toNat t) := by
  change execWriteReg s = _
  rw [execWriteReg, adminRow_takes takes, if_neg (not_not.mpr aligned), block, written]
  rfl

end

/-- Settles O3: the image is whole and passes, so the load writes it, and an accepted epoch sets the swap of its table. -/
theorem loadsAndEpochsComplete : Obligations.LoadsAndEpochsComplete := by
  unfold Obligations.LoadsAndEpochsComplete
  refine ⟨fun c s bs rs l sh => exec_loadChord, fun c s bs b all takes whole space crc header admitted =>
    exec_loadSchedule takes whole space crc header admitted, ?alone, ?master, fun c s => exec_setEpochRouting⟩
  case alone =>
    intro c s takes table idle alone fits
    rw [exec_setEpochChord takes table idle (by simp [alone]) fits, if_neg (by simp [isMaster, alone])]
  case master =>
    intro c s takes table idle _ master fits
    rw [exec_setEpochChord takes table idle (fun _ => master) fits, if_pos master]

/-- Settles O6: the words are aligned and inside a block, so the read sends their values and the write is made before its word is read. -/
theorem registerCommandsComplete : Obligations.RegisterCommandsComplete := by
  unfold Obligations.RegisterCommandsComplete
  exact ⟨fun c s takes aligned some_ few blocks => exec_readReg takes aligned some_ few blocks rfl,
    fun c s takes aligned block => exec_writeReg takes aligned block rfl⟩

/-- Settles O53: the count fails the check of a tick, which comes before every other. -/
theorem startOffTickIsMalformed : Obligations.StartOffTickIsMalformed := by
  unfold Obligations.StartOffTickIsMalformed
  exact fun c s => exec_startJob_offTick

end Sys2Proof.Machine
end

section
/-! SUPPORT. Table epochs, the start of a job and the end of zeroizing (R60, R65, R140, R225, R331, R334). -/

set_option Elab.async false

namespace Sys2Proof.Machine

/-! ## Settling epochs changes operations alone (R109, R140) -/

/-- Two states that differ in the operations alone. -/
def OpsOnly (s t : State) : Prop := t = { s with ops := t.ops }

theorem OpsOnly.trans {s t u : State} (h : OpsOnly s t) (k : OpsOnly t u) : OpsOnly s u := by
  rw [OpsOnly, k, h]

theorem fixEpoch_opsOnly (q : Nat) (d : BitVec 32) (e : BitVec 8) (s : State) : OpsOnly s (fixEpoch q d e s) := rfl

theorem fixOpened_opsOnly (back : Nat) (s : State) : OpsOnly s (fixOpened back s) := by
  unfold fixOpened
  generalize s.ops.map (fun o => (o.queue, o.dseq)) = keys
  induction keys generalizing s with
  | nil => exact rfl
  | cons k ks ih =>
    refine OpsOnly.trans ?_ (ih _)
    dsimp only [withOp]
    split
    · split
      · split
        · exact fixEpoch_opsOnly ..
        · exact rfl
      · exact rfl
    · exact rfl

/-- A chord swap changes the table, the dies on their way back and the operations. -/
theorem chordSwap_frame (s : State) : chordSwap s =
    { s with chord := swapTable s.time.gcount s.chord, dies := (chordSwap s).dies, ops := (chordSwap s).ops } := by
  have settled := fixOpened_opsOnly 1 s
  simp only [chordSwap, renewEntries, retakeEpoch]
  rw [settled]

theorem exec_chordEpochSwap {s : State} (turn : stepTurn 4 s = true) : exec .chordEpochSwap s = .next (chordSwap s) := by
  change execChordEpochSwap s = _
  rw [execChordEpochSwap, if_pos turn]

theorem exec_routingEpochSwap {s : State} (turn : stepTurn 3 s = true) : exec .routingEpochSwap s = .next (routingSwap s) := by
  change execRoutingEpochSwap s = _
  rw [execRoutingEpochSwap, if_pos turn]

/-! ## Retirement and the shadow (R140, R334) -/

theorem exec_chordCopyRetire {s : State} {c : ChordCopy} {e : BitVec 8} {since : Nat} (retiring : s.chord.retiring = some (c, e, since))
    (ops : ∀ o ∈ s.ops, usesChord e o = false) (pizz : ∀ p ∈ s.pizzOps, pizzIn e p = false) :
    exec .chordCopyRetire s = .next (settle { s with chord := { s.chord with retiring := none } }) := by
  change execChordCopyRetire s = _
  have noOps : s.ops.filter (usesChord e) = [] := by simpa using ops
  have noPizz : s.pizzOps.filter (pizzIn e) = [] := by simpa using pizz
  have unused : (s.ops.any (usesChord e) || s.pizzOps.any (pizzIn e)) = false := by simpa using ⟨ops, pizz⟩
  simp [execChordCopyRetire, retiring, unused, discardIf, noOps, noPizz]

theorem exec_routingCopyRetire {s : State} {c : Table Route} {e : BitVec 8} {since : Nat} (retiring : s.routing.retiring = some (c, e, since))
    (none_ : inFlight s e = []) :
    exec .routingCopyRetire s = .next (settle { s with routing := { s.routing with retiring := none } }) := by
  change execRoutingCopyRetire s = _
  simp [execRoutingCopyRetire, retiring, none_]

theorem reopen_closed {α : Type} {x : Epochs α} (closed : x.open_ = false) (alone : x.retiring = none) :
    reopen x = { x with shadow := x.cur, open_ := true } := by
  simp [reopen, closed, alone]

/-- Settles O4: each turn of a tick runs its swap, and a swap of the routing table sends and drains besides. -/
theorem tableEpochsComplete : Obligations.TableEpochsComplete := by
  unfold Obligations.TableEpochsComplete
  refine ⟨fun s turn => ⟨_, exec_chordEpochSwap turn, chordSwap_frame s⟩, fun s turn => ⟨_, exec_routingEpochSwap turn, ?_⟩,
    fun s c e since => exec_chordCopyRetire, fun s c e since => exec_routingCopyRetire, fun s closed alone => ?_, fun s closed alone => ?_⟩
  · obtain ⟨net, obs, casc, out, freeCtr, ops, failed, swapped, kept⟩ :=
      drainAll_drains (retakeEpoch { s with routing := swapTable s.time.gcount s.routing })
    rw [routingSwap, swapped]
    exact ⟨rfl, kept⟩
  · rw [← reopen_closed closed alone]
    rfl
  · rw [← reopen_closed closed alone]
    rfl

/-! ## Jobs (R65, R225) -/

theorem exec_jobStart {job t : Nat} {s : State} (turn : stepTurn 7 s = true) (armed : (jobGet s job).armed = some t) (due : t ≤ s.time.gcount) :
    exec (.jobStart job) s = .next (jobsRun (jobPut job { jobGet s job with armed := none, f0 := some (t / frameNs s) } s)) := by
  change execJobStart job s = _
  simp [execJobStart, turn, startDue, jobBegin, armed, due]

/-- What a table without the keys of a test reads: the default there, and what it held elsewhere. -/
theorem tableGet_filter_keys {α : Type} {d : α} (l : Table α) (p : Nat → Bool) (a : Nat) :
    Table.get d (l.filter fun c => !p c.1) a = if p a then d else Table.get d l a := by
  induction l with
  | nil => simp [Table.get]
  | cons c l ih =>
    obtain ⟨k, v⟩ := c
    by_cases gone : p k = true
    · rw [List.filter_cons_of_neg (by simp [gone]), ih, Table.get]
      by_cases here : k = a
      · rw [if_pos (here ▸ gone), if_pos (here ▸ gone)]
      · rw [if_neg here]
    · rw [List.filter_cons_of_pos (by simpa using gone), Table.get, Table.get, ih]
      by_cases here : k = a
      · rw [if_pos here, if_pos here, if_neg (here ▸ gone)]
      · rw [if_neg here, if_neg here]

/-- Settles O5: START_JOB passes its checks in order, and the end of zeroizing writes zeros over what was freed and over nothing else. -/
theorem jobCommandsComplete : Obligations.JobCommandsComplete := by
  unfold Obligations.JobCommandsComplete
  refine ⟨fun c s => exec_startJob, fun job s t => exec_jobStart, fun c s takes => exec_stopJob takes rfl, fun s some_ awake => ?_⟩
  refine ⟨?_, rfl, ?_, fun a => tableGet_filter_keys s.hbm (fun a => (freedRegions s).any fun r => decide (r.base ≤ a) && decide (a < r.base + r.size)) a⟩
  · change execHbmZeroizeDone s = _
    rw [execHbmZeroizeDone, if_neg (by simp [some_, awake])]
  · simp [freedRegions, zeroizeFreed, List.filter_filter]

end Sys2Proof.Machine
end

section
/-! SUPPORT. The state after reset (R40, R267, R279, R378, R394, R420, R474 to R479). -/

set_option Elab.async false

namespace Sys2Proof.Machine

/-- Settles O35: memories and queue are empty, and no class is recorded in a state that is not FAULTED. -/
theorem resetMeetsTheInvariants : Obligations.ResetMeetsTheInvariants := by
  unfold Obligations.ResetMeetsTheInvariants
  refine ⟨⟨rfl, rfl⟩, ?_, rfl, rfl⟩
  unfold State.faultOk
  decide

/-- After reset no register is cut off: no class is recorded. -/
theorem cutOff_reset (a : Nat) : cutOff State.reset a = false := by
  have reached : ∀ n, unreachable State.reset n = false := fun n => by simp [unreachable, State.reset]
  rw [cutOff, reached, Bool.and_false]

theorem pmcWord_empty {k : Nat} : pmcWord {} k = 0 := by
  unfold pmcWord
  split <;> rfl

/-- Every word of the performance counters reads 0 after reset (R420). -/
theorem regValue_pmc_reset {i k : Nat} (counter : i < 1088) (word : k < 3) : regValue State.reset (0x20000 + 16 * i + 4 * k) = 0 := by
  rw [regValue, cutOff_reset, if_neg Bool.false_ne_true, if_neg (by omega), if_neg (by omega), if_pos (by omega), if_pos (by omega)]
  exact pmcWord_empty

/-- Settles O36: each value is read off the reset state. -/
theorem resetLeavesTheStatedValues : Obligations.ResetLeavesTheStatedValues := by
  unfold Obligations.ResetLeavesTheStatedValues
  refine ⟨fun c => rfl, fun slot => rfl, rfl, rfl, rfl, fun i k => regValue_pmc_reset, ?_⟩
  decide

end Sys2Proof.Machine
end

section
/-! SUPPORT. Sections, and sleep and wake of units (R221 to R224, R385 to R390). -/

set_option Elab.async false

namespace Sys2Proof.Machine

variable {c : AdminCmd} {s : State}

/-! ## SNAPSHOT and RESTORE (R222 to R224) -/

theorem exec_snapshot_job (takes : adminTakes 0x0C c s) (job : c.arg 8 8 = 1) (sound : ∀ e ∈ jobCounters s (c.arg 11 10), e.2.err = false) :
    exec .snapshot s = .next (writeSection c
      (sectionHead 1 0 0 0 0 0 0 (jobGet s (c.arg 11 10)).seed.toNat (jobBody s (c.arg 11 10))) (jobBody s (c.arg 11 10)) (adminLeft s)) := by
  change execSnapshot s = _
  have sound' : ¬ ((jobCounters (adminLeft s) (c.arg 11 10)).any fun e => e.2.err) = true := by
    rw [show jobCounters (adminLeft s) (c.arg 11 10) = jobCounters s (c.arg 11 10) from rfl]
    simpa using sound
  rw [execSnapshot, adminRow_takes takes]
  simp only [job]
  rw [if_neg sound']
  rfl

theorem exec_snapshot_shard {h : Shard} (takes : adminTakes 0x0C c s) (shard : c.arg 8 8 = 2) (named : cmdShard (completeJournals s) c = some h)
    (whole : firstLost h = none) {t : State} (journals : t = completeJournals (adminLeft s)) :
    exec .snapshot s = .next { t with admin := { t.admin with snaps := t.admin.snaps ++ [c] } } := by
  change execSnapshot s = _
  have named' : cmdShard (completeJournals (adminLeft s)) c = some h := named
  rw [execSnapshot, adminRow_takes takes]
  simp only [shard, named', whole, journals]

theorem exec_snapshotSectionStart {h : Shard} (tick : isTick s s.time.gcount = true) (ready : s.admin.snaps.find? (snapReady s) = some c)
    (named : cmdShard (completeJournals s) c = some h) (whole : firstLost h = none) :
    exec .snapshotSectionStart s = .next (writeSection c
      (sectionHead 2 h.sdef.opt h.sdef.ofmt h.sdef.wtensor h.epoch.toNat h.sdef.e0 h.sdef.nb 0 (shardBody h)) (shardBody h)
      (completeJournals { s with admin := { s.admin with snaps := s.admin.snaps.filter (· ≠ c) } })) := by
  change execSnapshotSectionStart s = _
  have named' : cmdShard (completeJournals { s with admin := { s.admin with snaps := s.admin.snaps.filter (· ≠ c) } }) c = some h := named
  rw [execSnapshotSectionStart, tick, ready]
  simp only [Bool.not_true, Bool.false_eq_true, if_false, named', whole]

/-- The section of a RESTORE goes to its shard or to its job (R224). -/
def restoreSection (c : AdminCmd) (h body : List Byte) (s : State) : State :=
  match c.arg 8 8, cmdShard s c with
  | 2, some x => restoreShard c x h body s
  | _, _ => restoreJob c h body s

/-- A RESTORE whose section has come whole, with a header and a body that pass their checks, goes on by its target (R224). -/
theorem exec_restore {bs : List Byte} (takes : adminTakes 0x0D c s) (target : c.arg 8 8 = 1 ∨ c.arg 8 8 = 2)
    (shard : c.arg 8 8 = 2 → (cmdShard s c).isSome = true) (image : imageWhole bs s) (free : restoreHeld (adminLeft s) c = false)
    (header : restoreFault (adminLeft s) c (bs.take 64) = none) (whole : 64 + fld (bs.take 64) 55 48 ≤ bs.length)
    (crc : (crc32 (bs.drop 64)).toNat = fld (bs.take 64) 47 44) {t : State} (journals : t = completeJournals (dropImage (adminLeft s))) :
    exec .restore s = .next (restoreSection c (bs.take 64) (bs.drop 64) t) := by
  change execRestore s = _
  obtain ⟨i, image, failed, damaged, rfl, want⟩ := image
  have image' : (adminLeft s).net.image = some i := image
  have named : ¬ (c.arg 8 8 = 2 ∧ (cmdShard (adminLeft s) c).isNone = true) := fun ⟨two, gone⟩ => by
    rw [show cmdShard (adminLeft s) c = cmdShard s c from rfl, Option.isNone_iff_eq_none] at gone
    simp [gone] at shard
    exact shard two
  rw [execRestore, adminRow_takes takes, if_neg (not_not.mpr target), if_neg named, free, image']
  simp only [failed, Bool.false_eq_true, if_false, if_neg (Nat.not_lt.mpr want), restoreWith, header, if_neg (Nat.not_lt.mpr whole), crc, ne_eq,
    not_true, journals]
  rfl

/-- Settles O7: a section with nothing lost is written at once or at its tick, and an image that passes its checks puts its values back. -/
theorem snapshotAndRestoreComplete : Obligations.SnapshotAndRestoreComplete := by
  unfold Obligations.SnapshotAndRestoreComplete
  refine ⟨fun c s => exec_snapshot_job, fun c s h takes shard named whole => exec_snapshot_shard takes shard named whole rfl,
    fun c s h => exec_snapshotSectionStart, ?job, ?shard⟩
  case job =>
    intro c s bs takes target image free header whole crc
    rw [exec_restore takes (.inl target) (by omega) image free header whole crc rfl]
    simp only [restoreSection, target]
  case shard =>
    intro c s bs h x takes target image free header whole crc named found
    have found' : cmdShard (completeJournals (dropImage (adminLeft s))) c = some x := found
    rw [exec_restore takes (.inr target) (by simp [named]) image free header whole crc rfl]
    simp only [restoreSection, target, found']

/-! ## SLEEP and WAKE (R385 to R390) -/

/-- A SLEEP or WAKE of a target and a unit that exist is taken by the row of its target (R385, R388). -/
theorem targetRow_takes {acode target : Nat} {f : AdminCmd → Nat → State → State} (takes : adminTakes acode c s) (here : c.arg 8 8 = target)
    (known : target ≤ 2) (unit : unitOk target (c.arg 11 10) = true) : targetRow acode target s f = f c (c.arg 11 10) (adminLeft s) := by
  obtain ⟨l, ready⟩ := adminTakes_ready takes
  subst here
  unfold targetRow
  simp only [ready]
  rw [if_neg (by rw [if_neg (by omega)]; simp), adminRow_takes takes, if_neg (by omega), unit]
  rfl

/-- A SLEEP that its target permits, at a tick at least 10 µs away, waits for its tick (R385). -/
theorem sleepRow_takes {target : Nat} (takes : adminTakes 0x0E c s) (here : c.arg 8 8 = target) (known : target ≤ 2)
    (unit : unitOk target (c.arg 11 10) = true) (tick : isTick s (c.arg 23 16) = true) (ahead : s.time.gcount + 10000 ≤ c.arg 23 16)
    (allowed : sleepAllowed s target (c.arg 11 10) (c.arg 23 16) = true) :
    sleepRow target s = { adminLeft s with
      admin := { (adminLeft s).admin with sleeps := s.admin.sleeps ++ [(c, target, c.arg 11 10, c.arg 23 16)] } } := by
  have tick' : isTick (adminLeft s) (c.arg 23 16) = true := tick
  have ahead' : ¬ c.arg 23 16 < (adminLeft s).time.gcount + 10000 := Nat.not_lt.mpr ahead
  have allowed' : sleepAllowed (adminLeft s) target (c.arg 11 10) (c.arg 23 16) = true := allowed
  rw [sleepRow, targetRow_takes takes here known unit]
  simp only [tick', ahead', allowed', Bool.not_true, Bool.false_eq_true, or_self, if_false]
  rfl

theorem exec_sleepTick {target unit tick : Nat} (one : s.admin.sleeps = [(c, target, unit, tick)])
    (due : sleepDue s (c, target, unit, tick) = true) (allowed : sleepAllowed s target unit tick = true) :
    exec .sleepTick s = .next (adminDone c 0 0 0 (sleepNow target unit { s with admin := { s.admin with sleeps := [] } })) := by
  change execSleepTick s = _
  have allowed' : sleepAllowed { s with admin := { s.admin with sleeps := [] } } target unit tick = true := allowed
  simp [execSleepTick, one, due, sleepFinish, allowed']

theorem exec_unitRejoin {d : Nat} (turn : stepTurn 6 s = true) (due : rejoinDue s (Table.get {} s.dies d) = true) :
    exec (.unitRejoin d) s = .next (dieModify d (fun x => { x with rejoin := none }) s) := by
  change execUnitRejoin d s = _
  rw [execUnitRejoin, turn, due]
  rfl

/-- Settles O8: each command passes the checks of its unit, and the tick of a sleep or of a rejoin runs its rule. -/
theorem sleepAndWakeCommandsComplete : Obligations.SleepAndWakeCommandsComplete := by
  unfold Obligations.SleepAndWakeCommandsComplete
  refine ⟨?sleepIsland, ?sleepDie, ?sleepPort, fun s c target unit tick => exec_sleepTick, ?wakeIsland, ?wakeDie, ?wakePort,
    fun d s => exec_unitRejoin⟩
  case sleepIsland =>
    intro c s takes here unit tick ahead allowed
    change Host.Outcome.next (sleepRow 0 s) = _
    rw [sleepRow_takes takes here (by omega) (by simp [unitOk, unit]) tick ahead (unit.symm ▸ allowed), unit]
  case sleepDie =>
    intro c s takes here unit tick ahead allowed
    change Host.Outcome.next (sleepRow 1 s) = _
    rw [sleepRow_takes takes here (by omega) (by simpa [unitOk] using unit) tick ahead allowed]
  case sleepPort =>
    intro c s takes here unit tick ahead allowed
    change Host.Outcome.next (sleepRow 2 s) = _
    rw [sleepRow_takes takes here (by omega) (by simpa [unitOk] using unit) tick ahead allowed]
  case wakeIsland =>
    intro c s takes here unit t dormant
    change execWakeIsland s = _
    have dormant' : (dropSleeps (fun x => x.2.1 == 0 && x.2.2.1 == 0) (adminLeft s)).ctl.state = .dormant := dormant
    rw [execWakeIsland, wakeRow, targetRow_takes takes here (by omega) (by simp [unitOk, unit]), unit]
    simp only [dormant', if_true, t]
  case wakeDie =>
    intro c s takes here unit t asleep
    change execWakeDie s = _
    rw [execWakeDie, wakeRow, targetRow_takes takes here (by omega) (by simpa [unitOk] using unit)]
    exact congrArg (fun u => Host.Outcome.next (adminDone c 0 0 0 u)) (if_pos asleep)
  case wakePort =>
    intro c s takes here unit t asleep
    change execWakePort s = _
    rw [execWakePort, wakeRow, targetRow_takes takes here (by omega) (by simpa [unitOk] using unit)]
    exact congrArg (fun u => Host.Outcome.next (adminDone c 0 0 0 u)) (if_pos asleep)

end Sys2Proof.Machine
end

section
/-! SUPPORT. Descriptors, sync messages, transport and bulk packets on arrival (R246 to R253, R281 to R290, R318 to R321, R143 to R148). -/

set_option Elab.async false

namespace Sys2Proof.Machine

variable {a : Arrival} {s : State}

/-! ## Ring writes, doorbells and descriptors (R246, R249, R252, R253) -/

theorem exec_descriptorRingWrite {off q : Nat} {x : QueueCtx} (ring : ringWrite? a = some off) (ok : accepts a s)
    (here : ringQueue (accepted a s) off a.pkt.payload.length = some (q, x)) (tc : a.pkt.hdr.tc = 1) (poster : a.pkt.hdr.src = x.poster) :
    exec (.descriptorRingWrite a) s = .next (commit a (hbmWrite off a.pkt.payload
      (countWrite (q % 16) a.pkt.payload.length a.pkt.hdr.job (accepted a s)))) := by
  change execDescriptorRingWrite a s = _
  simp [execDescriptorRingWrite, ring, onReceive_ok ok, here, tc, poster]

theorem exec_doorbell {d : Doorbell} (doorbell : isDoorbell a = true) (ok : accepts a s) (tc : a.pkt.hdr.tc = 1)
    (parsed : d = doorbellParse a.pkt.payload) (queue : d.queue ≠ 0)
    (taken : doorbellDropped (queueGet (accepted a s) d.queue) a.pkt.hdr.src a.pkt.payload.length d = false) :
    exec (.doorbell a) s = .next (settle (doorbellTake d.queue d (commit a (accepted a s)))) := by
  change execDoorbell a s = _
  subst parsed
  simp [execDoorbell, doorbell, onReceive_ok ok, tc, queue, taken]

theorem exec_descriptorStart_cached {q : Nat} {f : Fetched} (starts : queueStarts (queueGet s q) = true) (works : s.ctl.state ≠ .faulted)
    (cached : nextFetched (queueGet s q) = some f) : exec (.descriptorStart q) s = .next (settle (startFetched q f s)) := by
  change execDescriptorStart q s = _
  simp [execDescriptorStart, starts, works, cached]

theorem exec_descriptorStart_fetched {q : Nat} {f : Fetched} (starts : queueStarts (queueGet s q) = true) (works : s.ctl.state ≠ .faulted)
    (absent : nextFetched (queueGet s q) = none) (may : mayFetch (queueGet s q) = true) {t : State}
    (fetch : t = fetchEntry q (queueGet s q).startNext s) (fetched : nextFetched (queueGet t q) = some f) :
    exec (.descriptorStart q) s = .next (settle (startFetched q f t)) := by
  change execDescriptorStart q s = _
  subst fetch
  simp [execDescriptorStart, starts, works, absent, may, fetched]

theorem fetchEntry_time (q : Nat) (d : BitVec 32) (s : State) : (fetchEntry q d s).time = s.time := by
  obtain ⟨obs, casc, out, freeCtr, counted⟩ := count_emits 0x18 (q % 16) 64 { job := jobCtx (queueGet s q).job } s
  unfold fetchEntry countRead
  dsimp only
  rw [counted]
  split <;> rfl

theorem exec_descriptorReread {q at_ since : Nat} (due : (queueGet s q).rereadAt = some at_) (first : (queueGet s q).rereadSince = some since)
    (starts : queueStarts (queueGet s q) = true) (now : at_ ≤ s.time.gcount) {t : State} (fetch : t = fetchEntry q (queueGet s q).startNext s)
    (open_ : (queueGet t q).rereadAt = none ∨ s.time.gcount < since + 64000) : exec (.descriptorReread q) s = .next t := by
  change execDescriptorReread q s = _
  have stays : ¬ ((queueGet t q).rereadAt.isSome = true ∧ since + 64000 ≤ t.time.gcount) := by
    rw [fetch, fetchEntry_time, ← fetch]
    rintro ⟨again, late⟩
    rcases open_ with arrived | early
    · simp [arrived] at again
    · omega
  subst fetch
  simp only [execDescriptorReread, due, first, starts, Bool.not_true, Bool.false_or, decide_eq_true_eq, if_neg (Nat.not_lt.mpr now), if_neg stays]

/-- Settles O9: a ring write is stored and counted, and a descriptor comes from the inline ones or by a READ of its slot. -/
theorem descriptorArrivalCompletes : Obligations.DescriptorArrivalCompletes := by
  unfold Obligations.DescriptorArrivalCompletes
  exact ⟨fun a s off q x => exec_descriptorRingWrite, fun a s doorbell ok tc => exec_doorbell doorbell ok tc rfl,
    fun q s f => exec_descriptorStart_cached, fun q s f starts works absent may => exec_descriptorStart_fetched starts works absent may rfl,
    fun q s at_ since due first starts now => exec_descriptorReread due first starts now rfl⟩

/-! ## Sync messages (R283 to R290) -/

theorem syncAddApply_open {c job chip : Nat} {d : BitVec 64} (err : (ctrGet s c).err = false) (sat : (ctrGet s c).sat = false)
    (fits : (ctrGet s c).value.toNat + d.toNat ≤ ctrMax.toNat) :
    syncAddApply c job chip d s = ctrChange c (addValue (ctrGet s c) d) s := by
  simp [syncAddApply, err, sat, Nat.not_lt.mpr fits]

theorem syncSetApply_open {c job chip : Nat} {v : BitVec 64} (err : (ctrGet s c).err = false) (sat : (ctrGet s c).sat = false)
    (rises : (ctrGet s c).value.toNat ≤ v.toNat) : syncSetApply c job chip v s = ctrChange c (setValue (ctrGet s c) v) s := by
  simp [syncSetApply, err, sat, Nat.not_lt.mpr rises]

theorem syncClrfailApply_open {c job : Nat} (err : (ctrGet s c).err = false) :
    syncClrfailApply c job s = ctrPut c { ctrGet s c with fail := false } s := by
  simp [syncClrfailApply, err]

theorem syncWaitApply_satisfied {c job chip retOff tmo : Nat} {tag : BitVec 32} {e : BitVec 64} (err : (ctrGet s c).err = false)
    (met : satisfied e (ctrGet s c) = true) :
    syncWaitApply c job chip retOff tmo tag e s = sendRelease 0 0 c job tag (ctrGet s c) chip retOff s := by
  simp [syncWaitApply, err, met]

theorem syncWaitApply_held {c job chip retOff tmo : Nat} {tag : BitVec 32} {e : BitVec 64} (err : (ctrGet s c).err = false)
    (unmet : satisfied e (ctrGet s c) = false) (room : neckWaiters s (c % 16) < 1024) :
    syncWaitApply c job chip retOff tmo tag e s = { s with waiters := s.waiters ++
      [{ ctr := c, job, exp := e, tag, chip, retOff, expiry := if tmo = 0 then none else some (s.time.gcount + 1000 * tmo) }] } := by
  simp [syncWaitApply, err, unmet, Nat.not_le.mpr room]

theorem syncEffect_add {m : SyncMsg} {chip : Nat} (sop : m.sop = 1) : syncEffect m chip s = syncAddApply m.ctr m.job chip m.value s := by
  simp [syncEffect, sop]

theorem syncEffect_set {m : SyncMsg} {chip : Nat} (sop : m.sop = 2) : syncEffect m chip s = syncSetApply m.ctr m.job chip m.value s := by
  simp [syncEffect, sop]

theorem syncEffect_wait {m : SyncMsg} {chip : Nat} (sop : m.sop = 3) :
    syncEffect m chip s = syncWaitApply m.ctr m.job chip m.retOff m.tmo m.tag m.value s := by
  simp [syncEffect, sop]

theorem syncEffect_clrfail {m : SyncMsg} {chip : Nat} (sop : m.sop = 4) : syncEffect m chip s = syncClrfailApply m.ctr m.job s := by
  simp [syncEffect, sop]

/-- The one waiter that is due gets its release record (R289, R290). -/
theorem exec_waitTimeout {ctr : Nat} {tag : BitVec 32} {w : Waiter} (one : s.waiters.filter (waitDue s ctr tag) = [w]) :
    exec (.waitTimeout ctr tag) s = .next (sendRelease 1 0x10 ctr w.job tag (ctrGet s ctr) w.chip w.retOff
      { s with waiters := s.waiters.filter fun w => !waitDue s ctr tag w }) := by
  change execWaitTimeout ctr tag s = _
  have due : waitDue s ctr tag w = true := List.of_mem_filter (one ▸ List.mem_singleton_self w)
  simp only [waitDue, Bool.and_eq_true, beq_iff_eq] at due
  obtain ⟨⟨rfl, rfl⟩, -⟩ := due
  simp only [execWaitTimeout, releaseIf, one]
  rfl

/-- Settles O10: a message that fails no check has the effect of its kind, and an expired waiter is released as discarded. -/
theorem syncMessagesComplete : Obligations.SyncMessagesComplete := by
  unfold Obligations.SyncMessagesComplete
  refine ⟨?messages, fun ctr tag s w => exec_waitTimeout⟩
  intro a s sync length tc ok m t x running sender passes
  have row : ∀ n, m.sop = n → 1 ≤ n → n ≤ 4 → syncRow n a s = syncEffect m a.pkt.hdr.src t := fun n sop =>
    syncRow_ok a s n sync length tc ok running sender passes sop
  refine ⟨fun sop err sat fits => ?add, fun sop err sat rises => ?set, fun sop err => ?clrfail, fun sop err met => ?satisfied,
    fun sop err unmet room => ?held⟩
  case add =>
    change Host.Outcome.next (syncRow 1 a s) = _
    rw [row 1 sop (by omega) (by omega), syncEffect_add sop, syncAddApply_open err sat fits]
  case set =>
    change Host.Outcome.next (syncRow 2 a s) = _
    rw [row 2 sop (by omega) (by omega), syncEffect_set sop, syncSetApply_open err sat rises]
  case clrfail =>
    change Host.Outcome.next (syncRow 4 a s) = _
    rw [row 4 sop (by omega) (by omega), syncEffect_clrfail sop, syncClrfailApply_open err]
  case satisfied =>
    change Host.Outcome.next (syncRow 3 a s) = _
    rw [row 3 sop (by omega) (by omega), syncEffect_wait sop, syncWaitApply_satisfied err met]
  case held =>
    change Host.Outcome.next (syncRow 3 a s) = _
    rw [row 3 sop (by omega) (by omega), syncEffect_wait sop, syncWaitApply_held err unmet room]

end Sys2Proof.Machine
end

section
/-! SUPPORT. Transport rows and bulk packets (R143 to R148, R318 to R321). -/

set_option Elab.async false

namespace Sys2Proof.Machine

variable {a : Arrival} {s : State}

/-! ## Transport (R318, R319, R321) -/

theorem exec_readRefused {off len : Nat} {tag : BitVec 32} (read : a.pkt.ext = .read off len tag) (ok : accepts a s) {t : State}
    (counted : t = count 0x2C (linkNeck a.link) 1 (arrivalPC (accepted a s) a) (commit a (accepted a s))) :
    exec (.readRefused a) s = .next (send
      { pkt := { hdr := ownHdr t a.pkt.hdr.tc a.pkt.hdr.src (.readRsp tag 1) a.pkt.hdr.job a.pkt.hdr.cepoch, ext := .readRsp tag 1 },
        why := .other } t) := by
  change execReadRefused a s = _
  simp only [execReadRefused, read, onReceive_ok ok, counted]

theorem exec_readRsp {tag : BitVec 32} {r : ReadReq} (rsp : a.pkt.ext = .readRsp tag 0) (ok : accepts a s)
    (asked : readOf (accepted a s) a tag = some r) (timely : readLate (accepted a s) r = false) (whole : a.pkt.payload.length = r.len)
    {u : State} (taken : u = { accepted a s with net :=
      { (accepted a s).net with reads := (accepted a s).net.reads.filter fun x => decide (x.rtag ≠ tag) } }) :
    exec (.readRsp a) s = .next (settle (drain a.pkt.hdr.src a.pkt.hdr.tc (readTaken true r a.pkt.payload (commit a u)))) := by
  change execReadRsp a s = _
  simp [execReadRsp, rsp, onReceive_ok ok, asked, timely, whole, taken]

theorem exec_ack {cum sack : BitVec 32} {credit : Nat} {f : TxFlow} (ack : a.pkt.ext = .ack cum sack credit) (ok : accepts a s)
    (flow : (accepted a s).net.tx.find? (fun f => f.dst == a.pkt.hdr.src && f.tc == a.pkt.hdr.tc) = some f) :
    exec (.ack a) s = .next (afterAck a.pkt.hdr.src a.pkt.hdr.tc (txPut (ackFlow cum sack credit f) (accepted a s))) := by
  change execAck a s = _
  simp [execAck, ack, onReceive_ok ok, flow]

theorem exec_e2eRetransmit {dst tc : Nat} {psn : BitVec 32} {f : TxFlow} {u : Unacked}
    (flow : s.net.tx.find? (fun f => f.dst == dst && f.tc == tc) = some f) (packet : f.unacked.find? (fun u => decide (u.psn = psn)) = some u)
    (due : retryDue s f u = true) (up : regsUp s = true) :
    exec (.e2eRetransmit dst tc psn) s = .next (if u.sends < u.tries then resend f u s else flowFail f [] s) := by
  change execE2eRetransmit dst tc psn s = _
  simp only [execE2eRetransmit, flow, packet, due, up, Bool.not_true, Bool.or_self, Bool.false_eq_true, if_false]

/-- Settles O11: each row takes the packet or the flow that its number names. -/
theorem transportRowsComplete : Obligations.TransportRowsComplete := by
  unfold Obligations.TransportRowsComplete
  exact ⟨fun a s off len tag read ok => exec_readRefused read ok rfl, fun a s tag r rsp ok asked timely whole =>
    exec_readRsp rsp ok asked timely whole rfl, fun a s cum sack credit f => exec_ack, fun s dst tc psn f u => exec_e2eRetransmit⟩

/-! ## Bulk packets (R111, R143 to R148) -/

variable {o : Op} {t : State}

theorem exec_partialPkt {x : NodeExt} (node : a.pkt.ext = .node .partialNode x) (slice_ : x.pflags.getLsbD 5 = false)
    (takes : opTakes a x.queue x.dseq s o t) (det : x.pflags.getLsbD 7 = true → jobIsDet t o.job = false)
    (fits : inputFits (opGroup t o).nmem o x = true) :
    exec (.partialPkt a) s = .next (stagePieces o.queue o.dseq [partialPiece x a.pkt.payload] (commit a t)) := by
  change execPartialPkt a s = _
  have det' : ¬ ((x.pflags.getLsbD 7 && jobIsDet t o.job) = true) := by simpa using det
  simp only [execPartialPkt, node, slice_, onOp_takes takes, if_neg det', fits, Bool.not_true, Bool.false_eq_true, if_false]

theorem exec_raw {x : NodeExt} (node : a.pkt.ext = .node .raw x) (takes : opTakes a x.queue x.dseq s o t)
    (form : elemsForm o.zop.fmt x x.rcnt a.pkt.payload.length = true) (fits : inputFits (opGroup t o).nmem o x = true) :
    exec (.raw a) s = .next (stagePieces o.queue o.dseq ((List.range x.rcnt).map fun r =>
      { step := x.stepno, chunk := x.chunk, place := .leaf (x.nodej + r), off := x.eoff, len := x.ecnt,
        data := .elems ((a.pkt.payload.drop (r * fmtBytes o.zop.fmt x.ecnt)).take (fmtBytes o.zop.fmt x.ecnt)) })
      (commit a t)) := by
  change execRaw a s = _
  simp only [execRaw, node, onOp_takes takes, form, fits, Bool.not_true, Bool.false_eq_true, if_false]

theorem exec_result {x : NodeExt} {p : Part} (node : a.pkt.ext = .node .result x) (takes : opTakes a x.queue x.dseq s o t)
    (away : o.home = false) (grain : (!isMx (outFmt o) || isEntry o.zop || (x.ecnt % 1024 == 0 && x.eoff % 1024 == 0)) = true)
    (size : a.pkt.payload.length = unitBytes o x.eoff x.ecnt) (part : partAt (opGroup t o).nmem o x.chunk x.nodej x.eoff x.ecnt = some p) :
    exec (.result a) s = .next (takeResult o x p a.pkt.payload (commit a t)) := by
  change execResult a s = _
  simp only [execResult, node, onOp_takes takes, grain, size, part, away, Bool.not_true, Bool.false_or, ne_eq, not_true, decide_false,
    Bool.false_eq_true, if_false]

theorem exec_resultMeta {g q r : Nat} {d : BitVec 32} {f : BitVec 8} (ext : a.pkt.ext = .resultMeta g q d f r) (takes : opTakes a q d s o t)
    (away : o.home = false) {u : State} (taken : u = opModify q d (takeMeta f r a.pkt.payload) (commit a t)) :
    exec (.resultMeta a) s = .next (settle (pizzCheck q d (endCheck q d
      (((downOnce (opEntries u o)).filter fun e => portRev u e.port == 2).foldl
        (fun s e => sendOp o e a.pkt.hdr.tc a.pkt.ext a.pkt.payload (.forward q d) s) u)))) := by
  change execResultMeta a s = _
  simp only [execResultMeta, ext, onOp_takes takes, away, Bool.false_eq_true, if_false, taken]

/-- Settles O12: the packet names a live operation and fits it, so the rule of its type takes it. -/
theorem bulkPacketsComplete : Obligations.BulkPacketsComplete := by
  unfold Obligations.BulkPacketsComplete
  refine ⟨fun a s x o t node slice_ takes det fits => exec_partialPkt node slice_ takes det fits, ?_, ?_, ?_⟩
  · intro a s x o t node takes form fits
    exact exec_raw node takes form fits
  · intro a s x o t p node takes away grain size part
    exact exec_result node takes away grain size part
  · intro a s g q d f r o t ext takes away
    exact exec_resultMeta ext takes away rfl

end Sys2Proof.Machine
end

section
/-! SUPPORT. Rows of the weight-gradient engine and of the pizzicato path (R159 to R166, R179 to R196). -/

set_option Elab.async false

namespace Sys2Proof.Machine

variable {a : Arrival} {s : State} {o : Op} {t u : State}

/-! ## Slice partials and running tiles (R190, R191, R195) -/

/-- A slice partial of an operation in flight is taken by the rules of its tile (R190). -/
theorem exec_wgradChunkTile {x : NodeExt} (node : a.pkt.ext = .node .partialNode x) (slice_ : x.pflags.getLsbD 5 = true)
    (takes : opTakes a x.queue x.dseq s o t) : exec (.wgradChunkTile a) s = .next (takeTile a x o t) := by
  change execWgradChunkTile a s = _
  simp only [execWgradChunkTile, node, slice_, onReceive_ok takes.1, takes_notKept takes, onOp_accepted takes, Bool.not_true,
    Bool.false_eq_true, if_false]

theorem takeTile_root {x : NodeExt} {g : WgradDef} (wgrad : wgradOf o.zop = some g) (chunk : x.chunk < chunkCount (opGroup t o).nmem o.zop)
    (fits : x.eoff + x.ecnt ≤ 4096 * blockTiles g) (root : o.home = true) (ahead : o.combined ≤ x.chunk)
    (level : max (runningLevel o) (inputLevel o x.chunk) ≤ x.pflags.toNat % 4) :
    takeTile a x o t = opModify o.queue o.dseq (fun o => { o with pieces :=
      (o.pieces.filter fun p => p.chunk ≠ x.chunk || decide (x.pflags.toNat % 4 ≤ p.level)) ++
        [{ partialPiece x a.pkt.payload with step := 0, place := .node 0 0 }] }) (commit a t) := by
  have here : ¬ (chunkCount (opGroup t o).nmem o.zop ≤ x.chunk ∨ 4096 * blockTiles g < x.eoff + x.ecnt) := by omega
  have wanted : ¬ (x.chunk < o.combined ∨ x.pflags.toNat % 4 < max (runningLevel o) (inputLevel o x.chunk)) := by omega
  simp only [takeTile, wgrad, if_neg here, root, Bool.not_true, Bool.false_eq_true, if_false, if_neg wanted]

theorem takeTile_away {x : NodeExt} {g : WgradDef} (wgrad : wgradOf o.zop = some g) (chunk : x.chunk < chunkCount (opGroup t o).nmem o.zop)
    (fits : x.eoff + x.ecnt ≤ 4096 * blockTiles g) (away : o.home = false) : takeTile a x o t = passTile a o (commit a t) := by
  have here : ¬ (chunkCount (opGroup t o).nmem o.zop ≤ x.chunk ∨ 4096 * blockTiles g < x.eoff + x.ecnt) := by omega
  simp only [takeTile, wgrad, if_neg here, away, Bool.not_false, if_true]

theorem withOp_found {q : Nat} {d : BitVec 32} {f : Op → State → State} (found : opFind s q d = some o) : withOp q d f s = f o s := by
  rw [withOp, found]

theorem exec_runningTileCombine {q chunk k : Nat} {d : BitVec 32} {g : WgradDef} {vs : List Val} {f : Bool} (found : opFind s q d = some o)
    (wgrad : wgradOf o.zop = some g) (root : o.home = true) (opened : o.opened = true) (live : o.status = none) (tiles : ownsTiles s o = true)
    (hold : runningHold s o.zop g = true) (next : chunk = o.combined) (here : chunkTiles o g chunk = some (k, vs, f)) (level : runningLevel o ≤ k) :
    exec (.runningTileCombine q d chunk) s = .next (settle (combineTiles o g chunk k vs f s)) := by
  change execRunningTileCombine q d chunk s = _
  subst next
  simp [execRunningTileCombine, withOp_found found, wgrad, root, opened, live, tiles, hold, here, Nat.not_lt.mpr level]

/-! ## LEVEL, MASKS_SATISFIED, fences and streams (R179, R182, R191, R196) -/

theorem ctrlRow_ok {ctype g q : Nat} {d : BitVec 32} {arg : BitVec 64} {f : Nat → Nat → BitVec 32 → BitVec 64 → State → State}
    (ctrl : ctrlOf ctype a = some (g, q, d, arg)) (ok : accepts a s) : ctrlRow ctype a s f = f g q d arg (commit a (accepted a s)) := by
  simp only [ctrlRow, ctrl, onReceive_ok ok]

theorem exec_level {grp q : Nat} {d : BitVec 32} {arg : BitVec 64} {g : WgradDef} (ctrl : ctrlOf 0x03 a = some (grp, q, d, arg))
    (ok : accepts a s) (found : opFind (commit a (accepted a s)) q d = some o) (wgrad : wgradOf o.zop = some g) (away : o.home = false)
    (opened : o.opened = true) (live : o.status = none ∨ keepsForLevel o = true) :
    exec (.level a) s = .next (raiseLater q d (arg.toNat % 4) (arg.toNat / 2 ^ 32)
      (sendLevels o g (arg.toNat % 4) (arg.toNat / 2 ^ 32) (commit a (accepted a s)))) := by
  change execLevel a s = _
  have kept : (o.status.isSome && !keepsForLevel o) = false := by
    rcases live with live | kept
    · simp [live]
    · simp [kept]
  simp only [execLevel, ctrlRow_ok ctrl ok, withOp_found found, wgrad, away, opened, kept, Bool.not_true, Bool.or_self, Bool.false_eq_true,
    if_false]

theorem exec_masksSatisfied {grp q : Nat} {d : BitVec 32} {arg : BitVec 64} (ctrl : ctrlOf 0x05 a = some (grp, q, d, arg)) (ok : accepts a s) :
    exec (.masksSatisfied a) s = .next (settle (stashCheck q d
      (opModify q d (fun o => { o with masksIn := o.masksIn ++ [a.pkt.hdr.src] }) (commit a (accepted a s))))) := by
  change execMasksSatisfied a s = _
  rw [execMasksSatisfied, ctrlRow_ok ctrl ok]

theorem exec_phaseFenceComplete_ok {q : Nat} {d : BitVec 32} {covers : List Nat} {rootOk : Bool} (found : opFind s q d = some o)
    (fence : o.zop.extra = .fence covers) (opened : o.opened = true) (live : o.status = none) (ends : ∀ c ∈ covers, coveredEnd s o c = some 0)
    (root : o.home = true ∨ rootOk = true) : exec (.phaseFenceComplete q ⟨d, rootOk⟩) s =
      .next (settle (opFinish q d 0 0 (covers.foldl (fun s c => releaseCovered o c s) s))) := by
  change execPhaseFenceComplete q ⟨d, rootOk⟩ s = _
  have none_open : (covers.map (coveredEnd s o)).any (·.isNone) = false := by
    simp only [List.any_map, List.any_eq_false]
    exact fun c covered => by simp [ends c covered]
  have all_ok : (covers.map (coveredEnd s o)).all (· == some 0) = true := by
    simp only [List.all_map, List.all_eq_true]
    exact fun c covered => by simp [ends c covered]
  have rooted : (o.home || rootOk) = true := by simpa using root
  simp only [execPhaseFenceComplete, withOp_found found, fence, opened, live, none_open, all_ok, rooted, Bool.not_true, Option.isSome_none,
    Bool.or_self, Bool.false_and, Bool.and_self, Bool.false_eq_true, if_false, if_true]

theorem exec_phaseFenceComplete_discarded {q : Nat} {d : BitVec 32} {covers : List Nat} {rootOk : Bool} (found : opFind s q d = some o)
    (fence : o.zop.extra = .fence covers) (opened : o.opened = true) (live : o.status = none) (ends : ∀ c ∈ covers, coveredEnd s o c ≠ none)
    (other : (∃ c ∈ covers, coveredEnd s o c ≠ some 0) ∨ (o.home = false ∧ rootOk = false)) :
    exec (.phaseFenceComplete q ⟨d, rootOk⟩) s = .next (settle (opFinish q d 1 0 s)) := by
  change execPhaseFenceComplete q ⟨d, rootOk⟩ s = _
  have none_open : (covers.map (coveredEnd s o)).any (·.isNone) = false := by
    simp only [List.any_map, List.any_eq_false]
    exact fun c covered => by simpa using ends c covered
  have not_ok : ((covers.map (coveredEnd s o)).all (· == some 0) && (o.home || rootOk)) = false := by
    rcases other with ⟨c, covered, bad⟩ | ⟨away, failed⟩
    · have some_bad : (covers.map (coveredEnd s o)).all (· == some 0) = false := by
        simp only [List.all_map, List.all_eq_false]
        exact ⟨c, covered, by simpa using bad⟩
      rw [some_bad, Bool.false_and]
    · simp [away, failed]
  simp only [execPhaseFenceComplete, withOp_found found, fence, opened, live, none_open, not_ok, Bool.not_true, Option.isSome_none, Bool.or_self,
    Bool.false_and, Bool.false_eq_true, if_false]

theorem exec_stream {g w kind off : Nat} {step : BitVec 32} {oid : ZsiOp} {d : WgradDef} {r : StreamSet} (stream : a.pkt.ext = .stream g w kind step off)
    (ok : accepts a s) (running : jobStopped (accepted a s) a.pkt.hdr.job = false) (sender : streamSender (accepted a s) g a.pkt.hdr.src = true)
    (tensor : tensorDef (accepted a s) a.pkt.hdr.job w = some (oid, d)) (set : streamSet (accepted a s) a.pkt.hdr.job w = some r)
    (room : off + a.pkt.payload.length ≤ regionSize d kind) (epoch : streamEpochBad (accepted a s) a.pkt.hdr.job w step a.pkt.hdr.cepoch = false) :
    exec (.stream a) s = .next (streamPut a g w kind step off d.neck r (accepted a s)) := by
  change execStream a s = _
  simp only [execStream, stream, onReceive_ok ok, running, sender, tensor, set, Nat.not_lt.mpr room, epoch, Bool.not_true, Bool.false_eq_true,
    if_false]

/-- Settles O13: each row finds its operation or tile in the state that it asks for. -/
theorem weightGradientRowsComplete : Obligations.WeightGradientRowsComplete := by
  unfold Obligations.WeightGradientRowsComplete
  refine ⟨?root, ?away, ?combine, ?level, ?masks, ?fence, ?stream⟩
  case root =>
    intro a s x o t g node slice_ takes wgrad chunk fits root ahead level
    rw [exec_wgradChunkTile node slice_ takes, takeTile_root wgrad chunk fits root ahead level]
  case away =>
    intro a s x o t g node slice_ takes wgrad chunk fits away
    rw [exec_wgradChunkTile node slice_ takes, takeTile_away wgrad chunk fits away]
  case combine =>
    intro s q d chunk o g k vs f found wgrad root opened live tiles hold next here level
    exact exec_runningTileCombine found wgrad root opened live tiles hold next here level
  case level =>
    intro a s grp q d arg o g ctrl ok found wgrad away opened live
    exact exec_level ctrl ok found wgrad away opened live
  case masks =>
    intro a s grp q d arg ctrl ok
    exact exec_masksSatisfied ctrl ok
  case fence =>
    intro s q d o covers rootOk found fence opened live
    exact ⟨exec_phaseFenceComplete_ok found fence opened live, exec_phaseFenceComplete_discarded found fence opened live⟩
  case stream =>
    intro a s g w kind step off oid d r stream ok t running sender tensor set room epoch
    exact exec_stream stream ok running sender tensor set room epoch

end Sys2Proof.Machine
end

section
/-! SUPPORT. Rows of the pizzicato path and the CTRL messages (R159 to R166, R242, R260, R262, R337, R396). -/

set_option Elab.async false

namespace Sys2Proof.Machine

variable {a : Arrival} {s : State} {o : Op} {t u : State}

/-! ## Pizzicato inputs (R159, R160, R165, R166) -/

/-- A PIZZ packet of a SUB is received by the row of its SUB. -/
theorem pizzRow_ok {sub : Nat} {x : PizzExt} {f : PizzExt → State → State} (pizz : a.pkt.ext = .pizz x) (here : x.sub = sub) (ok : accepts a s) :
    pizzRow sub a s f = f x (accepted a s) := by
  simp only [pizzRow, pizz, here, if_true, decide_true, Bool.true_or, onReceive_ok ok]

theorem exec_pizzContribution {x : PizzExt}
    (takes : pizzTakes 1 a s x (fun _ y => pizzTermBytes y x) (fun t y => pizzUses (pizzMember t y a.pkt.hdr.src).toList x.ecnt t y) o u)
    {ords : List Nat} (member : ords = (pizzMember u o a.pkt.hdr.src).toList) (waits : pizzWaits u o ords x.ecnt) :
    exec (.pizzContribution a) s =
      .next (pizzEnter o ords (ords.map fun ord => pizzTerm x ord a.pkt.payload) (commit a u)) := by
  change execPizzContribution a s = _
  obtain ⟨pizz, here, ok, -⟩ := id takes
  rw [execPizzContribution, pizzRow_ok pizz here ok, onPizz_takes takes (fun y size => beq_iff_eq.mpr size), ← member, pizzInput_waits waits]

theorem exec_pizzNode {x : PizzExt}
    (takes : pizzTakes 2 a s x (fun _ _ => 16 * x.ecnt) (fun t y => pizzUses (pizzNodeOrds t y x) x.ecnt t y) o u) (level : x.nodel ≤ 13)
    {ords : List Nat} (node : ords = nodeOrds (opGroup u o).nmem x.nodel x.nodej) (waits : pizzWaits u o ords x.ecnt) :
    exec (.pizzNode a) s = .next (pizzEnter o ords
      [{ step := 0, chunk := 0, place := .node x.nodel x.nodej, off := 0, len := x.ecnt, level := x.pflags.toNat % 4,
         nv := x.pflags.getLsbD 4, of := x.pflags.getLsbD 3, nx := x.pflags.getLsbD 2,
         data := .vals ((cut 16 x.ecnt a.pkt.payload).map (pizzVal (x.pflags.getLsbD 2))) }] (commit a u)) := by
  change execPizzNode a s = _
  obtain ⟨pizz, here, ok, -⟩ := id takes
  have named : pizzNodeOrds u o x = ords := by rw [pizzNodeOrds, if_pos level, node]
  rw [execPizzNode, pizzRow_ok pizz here ok, onPizz_takes takes (fun y size => beq_iff_eq.mpr size)]
  simp only [named, pizzInput_waits waits]

theorem exec_pizzRawRun {x : PizzExt}
    (takes : pizzTakes 3 a s x (fun _ y => x.rcnt * pizzTermBytes y x) (pizzUses (pizzRunOrds x) x.ecnt) o u)
    (waits : pizzWaits u o (pizzRunOrds x) x.ecnt) :
    exec (.pizzRawRun a) s = .next (pizzEnter o (pizzRunOrds x) ((pizzRunOrds x).mapIdx fun i ord =>
      pizzTerm x ord ((a.pkt.payload.drop (i * pizzTermBytes o x)).take (pizzTermBytes o x))) (commit a u)) := by
  change execPizzRawRun a s = _
  obtain ⟨pizz, here, ok, -⟩ := id takes
  rw [execPizzRawRun, pizzRow_ok pizz here ok, onPizz_takes takes (fun y size => beq_iff_eq.mpr size), pizzInput_waits waits]

/-! ## Pizzicato results, discards and the deadline (R164, R166) -/

theorem exec_pizzResult {x : PizzExt} (takes : pizzTakes 4 a s x (pizzResultLen a) (fun _ _ => true) o u) (away : o.home = false)
    (fresh : pizzResult o = none) (waiting : (pizzFind u o.queue o.dseq).any (·.passed) = false) :
    exec (.pizzResult a) s = .next (settle (pizzCheck o.queue o.dseq (stagePieces o.queue o.dseq
      [{ step := 0, chunk := 0, place := .result 0, off := 0, len := x.ecnt, level := x.pflags.toNat % 4,
         nv := x.pflags.getLsbD 4, of := x.pflags.getLsbD 3, nx := x.pflags.getLsbD 2, data := .elems a.pkt.payload }]
      (commit a u)))) := by
  change execPizzResult a s = _
  obtain ⟨pizz, here, ok, -⟩ := id takes
  rw [execPizzResult, pizzRow_ok pizz here ok, onPizz_takes takes (fun y size => beq_iff_eq.mpr size)]
  dsimp only
  rw [if_neg ?_]
  cases found : pizzFind u o.queue o.dseq with
  | none => simp [away, fresh]
  | some p =>
    rw [found] at waiting
    simpa [away, fresh] using waiting

theorem exec_pizzDiscard {x : PizzExt} (pizz : a.pkt.ext = .pizz x) (here : x.sub = 5) (ok : accepts a s)
    (live : unended (accepted a s) x.queue x.dseq = true) :
    exec (.pizzDiscard a) s = .next (settle (queueOut x.queue 5 x.dseq
      (takeDiscard a x.group x.queue x.dseq 1 0 (tellTimeout (some a.pkt.hdr.src)) (commit a (accepted a s))))) := by
  change execPizzDiscard a s = _
  rw [execPizzDiscard, pizzRow_ok pizz here ok, live]
  rfl

theorem exec_pizzTimeout {q : Nat} {d : BitVec 32} {p : PizzOp} (found : opFind s q d = some o) (part : pizzFind s q d = some p)
    (live : o.status = none) (late : pizzOverdue s p = true ∨ pizzUnanswered s q d = true) :
    exec (.pizzTimeout q d) s = .next (settle (notice
      { kind := 4, sev := 2, queue := q, group := o.group, dseq := d, detail := le 4 d.toNat } (queueOut q 5 d
        (discardTold (tellTimeout none) 1 0 o s)))) := by
  change execPizzTimeout q d s = _
  have late' : (pizzOverdue s p || pizzUnanswered s q d) = true := by simpa using late
  simp only [execPizzTimeout, found, part, live, late', Option.isSome_none, Bool.not_true, Bool.or_self, Bool.false_eq_true, if_false]

/-- Settles O14: an input in time that the island waits for enters the tree, and a deadline that has passed discards. -/
theorem pizzicatoRowsComplete : Obligations.PizzicatoRowsComplete := by
  unfold Obligations.PizzicatoRowsComplete
  refine ⟨?term, ?node, ?run, ?result, ?discard, ?timeout⟩
  case term =>
    intro a s x o u takes ords waits
    exact exec_pizzContribution takes rfl waits
  case node =>
    intro a s x o u takes level ords waits
    exact exec_pizzNode takes level rfl waits
  case run =>
    intro a s x o u takes size ords waits
    exact exec_pizzRawRun takes waits
  case result =>
    intro a s x o u takes away fresh waiting
    exact exec_pizzResult takes away fresh waiting
  case discard =>
    intro a s x pizz here ok live
    exact exec_pizzDiscard pizz here ok live
  case timeout =>
    intro s q d o p found part live late
    exact exec_pizzTimeout found part live late

end Sys2Proof.Machine
end

section
/-! SUPPORT. The CTRL messages (R242, R260, R262, R337, R396). -/

set_option Elab.async false

namespace Sys2Proof.Machine

variable {a : Arrival} {s : State} {g q : Nat} {d : BitVec 32} {arg : BitVec 64} {t : State}

/-! ## Operations (R242, R260, R396) -/

theorem exec_descriptorRelay {x : Desc} {z : ZsiOp} (ctrl : ctrlOf 0x01 a = some (g, q, d, arg)) (ok : accepts a s)
    (taken : t = commit a (accepted a s)) (parsed : x = descParse a.pkt.payload) (running : (jobGet t a.pkt.hdr.job).stopped = none)
    (listed : zsiOp t x.sched x.opid = some z) (present : (queueGet t q).state ≠ .absent) (away : (queueGet t q).home = false)
    (fresh : (opFind t q d).any (·.opened) = false) :
    exec (.descriptorRelay a) s = .next (settle (startRelay g q x z t)) := by
  change execDescriptorRelay a s = _
  subst parsed
  simp only [execDescriptorRelay, ctrlRow_ok ctrl ok, ← taken, running, listed, present, away, fresh, Option.isSome_none, Bool.or_self,
    Bool.false_eq_true, if_false]

theorem exec_relayRefused {o : Op} (ctrl : ctrlOf 0x02 a = some (g, q, d, arg)) (ok : accepts a s)
    (taken : t = opModify q d (downsGone (· == a.pkt.hdr.src)) (commit a (accepted a s))) (home : (queueGet t q).home = true)
    (found : opFind t q d = some o) (live : o.status = none) :
    exec (.relayRefused a) s = .next (settle (failStarted 1 (malformed 0x09 0).2 o t)) := by
  change execRelayRefused a s = _
  simp only [execRelayRefused, ctrlRow_ok ctrl ok, ← taken, home, found, live, Option.isSome_none, Bool.not_true, Bool.false_eq_true, if_false]

theorem exec_operationDone (ctrl : ctrlOf 0x06 a = some (g, q, d, arg)) (ok : accepts a s) :
    exec (.operationDone a) s = .next (settle (opModify q d
      (fun o => { o with downs := o.downs.map fun p => if p.1 = a.pkt.hdr.src then (p.1, true) else p })
      (commit a (accepted a s)))) := by
  change execOperationDone a s = _
  rw [execOperationDone, ctrlRow_ok ctrl ok]

theorem exec_posterCompletion {o : Op} (found : opFind s q d = some o) (due : posterDue o = true) :
    exec (.posterCompletion q d) s = .next (settle (writePoster o s)) := by
  change execPosterCompletion q d s = _
  simp only [execPosterCompletion, found, due, if_true]

/-! ## Queue states (R262) -/

theorem exec_queueState (ctrl : ctrlOf 0x07 a = some (g, q, d, arg)) (ok : accepts a s) (taken : t = commit a (accepted a s)) {y : QState}
    (code : y = queueStateOf (arg.toNat % 256)) {u : State}
    (done : u = if y = .absent ∧ (t.ops.any fun o => o.queue == q) = true then drainQueue q 6 .absent none 0 t
      else drawn (queuePut q (takeState t.freeCtr (queueGet t q) y d) t))
    (away : (queueGet t q).home = false) (present : (queueGet t q).state ≠ .absent) (idle : draining t q = false) :
    exec (.queueState a) s =
      .next (sendCtrls (downOnce (entriesIn u.chord.cur g)) (queueGet t q).job g q d u.chord.epoch 0x07 arg [] u) := by
  change execQueueState a s = _
  simp only [execQueueState, ctrlRow_ok ctrl ok, ← taken, ← code, away, present, idle, decide_false, Bool.or_self, Bool.false_eq_true, if_false, ← done]

/-! ## The cascade domain (R337) -/

theorem exec_chordEpochRelay (ctrl : ctrlOf 0x09 a = some (g, q, d, arg)) (ok : accepts a s) (taken : t = commit a (accepted a s))
    (master : fromMaster t a = true) :
    exec (.chordEpochRelay a) s = .next { t with chord := { t.chord with swapAt := some (arg.toNat * frameNs t) } } := by
  change execChordEpochRelay a s = _
  rw [execChordEpochRelay, ctrlRow_ok ctrl ok, ← taken, if_pos master]

/-- The report of a section ends the load when it is the last that was waited for (R337). -/
theorem exec_sectionChecked {k : Nat} {x y : DomainLoad} (ctrl : ctrlOf 0x0A a = some (g, q, d, arg)) (ok : accepts a s)
    (taken : t = commit a (accepted a s)) (reported : y = { x with
      waitFor := x.waitFor.filter (· ≠ k),
      failed := if arg.toNat % 256 = 0 then x.failed else x.failed ++ [(k, arg.toNat % 256, arg.toNat / 256 % 256)] })
    (port : a.link = .cascade k) (load : t.admin.domain = some x) :
    exec (.sectionChecked a) s = .next (if y.waitFor = [] then finishDomain y t else { t with admin := { t.admin with domain := some y } }) := by
  change execSectionChecked a s = _
  rw [execSectionChecked, ctrlRow_ok ctrl ok, ← taken]
  subst reported
  simp only [load, port, List.isEmpty_iff]

/-- Settles O15: each message is taken once its sender and its fields pass. -/
theorem controlAndDomainMessagesComplete : Obligations.ControlAndDomainMessagesComplete := by
  unfold Obligations.ControlAndDomainMessagesComplete
  refine ⟨?relay, ?refused, ?discard, ?done, ?poster, ?queue, ?part, ?epoch, ?checked⟩
  case relay =>
    intro a s g q d arg z ctrl ok t x running listed present away fresh
    exact exec_descriptorRelay ctrl ok rfl rfl running listed present away fresh
  case refused =>
    intro a s g q d arg o ctrl ok t home found live
    exact exec_relayRefused ctrl ok rfl home found live
  case discard =>
    intro a s g q d arg ctrl ok
    change execDiscard a s = _
    exact congrArg Host.Outcome.next (ctrlRow_ok ctrl ok)
  case done =>
    intro a s g q d arg ctrl ok
    exact exec_operationDone ctrl ok
  case poster =>
    intro s q d o found due
    exact exec_posterCompletion found due
  case queue =>
    intro a s g q d arg ctrl ok t x y u away present idle
    exact exec_queueState ctrl ok rfl rfl rfl away present idle
  case part =>
    intro a s g q d arg ctrl ok t e old x bs master
    change execChordSectionData a s = _
    have passes : ¬ (!fromMaster (commit a (accepted a s)) a) = true := by simpa [t] using master
    exact congrArg Host.Outcome.next ((ctrlRow_ok ctrl ok).trans (if_neg passes))
  case epoch =>
    intro a s g q d arg ctrl ok t master
    exact exec_chordEpochRelay ctrl ok rfl master
  case checked =>
    intro a s g q d arg k x ctrl ok t y port load
    exact exec_sectionChecked ctrl ok rfl rfl port load

end Sys2Proof.Machine
end

section
/-! SUPPORT. Time exchanges and discovery (R42 to R49, R325, R353 to R357). -/

set_option Elab.async false

namespace Sys2Proof.Machine

variable {a : Arrival} {s t : State} {p : Nat} {x : DiscExt}

/-! ## Time exchanges (R42 to R49) -/

theorem exec_tsyncExchange (discovering : discovers s = true) (due : s.time.nextExch ≤ s.time.gcount) :
    exec .tsyncExchange s = .next (if s.time.rootReg
      then timeModify asRoot (timeModify (fun t => { t with nextExch := t.gcount + 31250 * t.per }) s)
      else askParent (reselect (missExchange (timeModify (fun t => { t with root := false })
        (timeModify (fun t => { t with nextExch := t.gcount + 31250 * t.per }) s))))) := by
  change execTsyncExchange s = _
  rw [execTsyncExchange, if_neg (by simp [discovering, due])]
  rfl

theorem exec_holdoverExpiry {h : Holdover} (held : s.time.holdover = some h) (discovering : discovers s = true)
    (over_ : h.since + 10000000 ≤ s.time.gcount) (fresh : s.fault.classes.getLsbD 18 = false) : exec .holdoverExpiry s = .next (fatal 18 s) := by
  change execHoldoverExpiry s = _
  have due : (discovers s && decide (h.since + 10000000 ≤ s.time.gcount) && !s.fault.classes.getLsbD 18) = true := by
    rw [discovering, decide_eq_true over_, fresh]
    rfl
  simp only [execHoldoverExpiry, held, due, if_true]

/-- Settles O16: the four counts give the offset, and a timer that is due runs its rule. -/
theorem timeExchangeCompletes : Obligations.TimeExchangeCompletes := by
  unfold Obligations.TimeExchangeCompletes
  refine ⟨?request, ?answer, ?root, ?parent, ?holdover, fun s => exec_gcountLimit⟩
  case request =>
    intro a s sq resid x1 x2 x3 x4 ext ok
    change execTsyncReq a s = _
    cases link : a.link with
    | cascade c | module m =>
      simp only [execTsyncReq, ext, link, onReceive_ok ok, ne_eq, not_true, decide_false, Bool.false_and, Bool.false_eq_true, if_false]
  case answer =>
    intro a s sq resid resreq t2 t3 hops t1 len ext ok t asked answers
    exact exec_tsyncRsp_answers len ext ok asked answers
  case root =>
    intro s discovering due root
    rw [exec_tsyncExchange discovering due, if_pos root]
  case parent =>
    intro s discovering due root
    rw [exec_tsyncExchange discovering due, if_neg (by simp [root])]
  case holdover =>
    intro s h held discovering over_ fresh
    exact exec_holdoverExpiry held discovering over_ fresh

/-! ## Discovery messages (R353 to R357) -/

theorem exec_hello (takes : discTakes 1 a s p x t) :
    exec (.hello a) s = .next (sendDisc p (answerChip t p a.pkt.hdr.src) 2 (agreedRev x.revs) x.assign 0 t) := by
  change execHello a s = _
  rw [execHello, onDisc_takes takes]

theorem exec_reply_passes (takes : discTakes 2 a s p x t) (passes : ∀ c ∈ replyChecks t p a.pkt.hdr.src x, c.2 = true)
    (down : (portGet t p).state ≠ 2) :
    exec (.reply a) s = .next (sendDisc p (answerChip t p a.pkt.hdr.src) 3 (agreedRev x.revs) 0 0
      (portPut p { portGet t p with passed := some t.time.gcount, agreed := agreedRev x.revs } t)) := by
  change execReply a s = _
  have none_fails : (replyChecks t p a.pkt.hdr.src x).find? (fun c => !c.2) = none := by
    rw [List.find?_eq_none]
    exact fun c check => by simp [passes c check]
  rw [execReply, onDisc_takes takes]
  simp only [none_fails, if_neg down]
  rfl

theorem exec_reply_fails {reason : Nat} (takes : discTakes 2 a s p x t)
    (fails : (replyChecks t p a.pkt.hdr.src x).find? (fun c => !c.2) = some (reason, false)) :
    exec (.reply a) s = .next (quarantine p reason (answerChip t p a.pkt.hdr.src) a.pkt.hdr.src x.islandId t) := by
  change execReply a s = _
  rw [execReply, onDisc_takes takes]
  simp only [fails]

theorem exec_confirm (takes : discTakes 3 a s p x t) (down : (portGet t p).state ≠ 2) :
    exec (.confirm a) s = .next (portPut p { portGet t p with confirmed := some t.time.gcount } t) := by
  change execConfirm a s = _
  rw [execConfirm, onDisc_takes takes]
  exact congrArg Host.Outcome.next (if_neg down)

theorem exec_quar (takes : discTakes 6 a s p x t) (down : (portGet t p).state ≠ 2) :
    exec (.quar a) s = .next (portPut p { portGet t p with confirmed := none } t) := by
  change execQuar a s = _
  rw [execQuar, onDisc_takes takes]
  exact congrArg Host.Outcome.next (if_neg down)

theorem exec_echo (takes : discTakes 4 a s p x t) :
    exec (.echo a) s = .next (sendDisc p (answerChip t p a.pkt.hdr.src) 5 0 0 0 t) := by
  change execEcho a s = _
  rw [execEcho, onDisc_takes takes]

/-- An answer to an ECHO on an UP port: the source has lost its number, or the misses are forgotten (R357). -/
theorem exec_echoRsp (takes : discTakes 5 a s p x t) (up : (portGet t p).state = 2) :
    exec (.echoRsp a) s = .next (if a.pkt.hdr.src = 0xFFFF then echoLost p t
      else portPut p { portGet t p with echoOut := false, echoMiss := 0 } t) := by
  change execEchoRsp a s = _
  rw [execEchoRsp, onDisc_takes takes]
  exact congrArg Host.Outcome.next (if_neg (not_not.mpr up))

/-- Settles O17: each message meets the port in discovery, and a REPLY is judged by the order of its checks. -/
theorem discoveryMessagesComplete : Obligations.DiscoveryMessagesComplete := by
  unfold Obligations.DiscoveryMessagesComplete
  refine ⟨fun a s p x t => exec_hello, fun a s p x t => exec_reply_passes, fun a s p x t reason => exec_reply_fails,
    fun a s p x t => exec_confirm, fun a s p x t => exec_quar, fun a s p x t => exec_echo, ?here, ?lost⟩
  case here =>
    intro a s p x t takes up known
    rw [exec_echoRsp takes up, if_neg known]
  case lost =>
    intro a s p x t takes up unknown
    rw [exec_echoRsp takes up, if_pos unknown]

/-! ## Timers and depths (R325, R354, R357) -/

theorem exec_helloPeriod (discovering : discovers s = true) (wired : portWired s p = true) (active : linkActive s p = true)
    (down : (portGet s p).state ≠ 2) (due : (portGet s p).nextDisc ≤ s.time.gcount) :
    exec (.helloPeriod p) s = .next (sendDisc p (wiringGet s p).chip 1 0 (if (wiringGet s p).kind = 1 then (wiringGet s p).chip else 0) 0
      (portPut p { portGet s p with state := if (portGet s p).state = 0 then 1 else (portGet s p).state,
                                    nextDisc := s.time.gcount + helloGap (portGet s p) } s)) := by
  change execHelloPeriod p s = _
  rw [execHelloPeriod, if_neg (by simp [discovering, wired, active, down, due])]

theorem exec_portUp (discovering : discovers s = true) (wired : portWired s p = true) (active : linkActive s p = true)
    (due : upDue s (portGet s p) = true) :
    exec (.portUp p) s = .next (drainAll (notice { kind := 0x30, sev := 1, detail := le 2 p ++ le 1 (portGet s p).agreed }
      (portPut p { portGet s p with
        state := 2, rev := (portGet s p).agreed, passed := none, confirmed := none, echoOut := false, echoMiss := 0,
        nextDisc := s.time.gcount + 1000000 } s))) := by
  change execPortUp p s = _
  rw [execPortUp, if_neg (by simp [discovering, wired, active, due])]

/-- At its period an UP port judges the last ECHO, and goes down at the fourth miss or sends another (R357). -/
theorem exec_echoPeriod {miss : Nat} (discovering : discovers s = true) (up : (portGet s p).state = 2)
    (due : (portGet s p).nextDisc ≤ s.time.gcount) (judged : miss = if (portGet s p).echoOut then (portGet s p).echoMiss + 1 else 0) :
    exec (.echoPeriod p) s = .next (if 4 ≤ miss then echoLost p s else sendDisc p (wiringGet s p).chip 4 0 0 0
      (portPut p { portGet s p with echoOut := true, echoMiss := miss, nextDisc := s.time.gcount + 1000000 } s)) := by
  change execEchoPeriod p s = _
  rw [execEchoPeriod, if_neg (by simp [discovering, up, due]), judged]
  rfl

theorem exec_qdepth {ds : List Nat} {m : Nat} (ext : a.pkt.ext = .qdepth ds) (link : a.link = .module m) (ok : accepts a s)
    (taken : t = ds.zipIdx.foldl (fun s p => bwModify (4 * m + p.2) (fun b => { b with maxq := max b.maxq p.1 }) s) (accepted a s)) :
    exec (.qdepth a) s = .next (drainAll { t with net := { t.net with depths := ds.zipIdx.foldl (fun d p =>
      Table.put (0, 0) d (4 * m + p.2) (p.1, (accepted a s).time.gcount + 1)) t.net.depths } }) := by
  change execQdepth a s = _
  simp only [execQdepth, ext, link, onReceive_ok ok, ← taken]

theorem exec_qdepthStale {d at1 : Nat} (held : Table.get (0, 0) s.net.depths p = (d, at1)) (some_ : at1 ≠ 0)
    (old : at1 + 1000 < s.time.gcount + 1) (counted : t = count 0x35 (portNeck p) 1 { port := some p } s) :
    exec (.qdepthStale p) s = .next (drainAll { t with net := { t.net with depths := Table.put (0, 0) t.net.depths p (0, 0) } }) := by
  change execQdepthStale p s = _
  simp only [execQdepthStale, held, if_neg (show ¬ (at1 = 0 ∨ s.time.gcount + 1 ≤ at1 + 1000) by omega), counted]

/-- Settles O18: a timer that is due sends its message, and its miss is counted before. -/
theorem discoveryTimersAndDepthsComplete : Obligations.DiscoveryTimersAndDepthsComplete := by
  unfold Obligations.DiscoveryTimersAndDepthsComplete
  refine ⟨?hello, ?up, ?echo, ?lost, ?depths, ?stale⟩
  case hello =>
    intro s p discovering wired active down due
    exact exec_helloPeriod discovering wired active down due
  case up =>
    intro s p discovering wired active due
    exact exec_portUp discovering wired active due
  case echo =>
    intro s p discovering up due x miss few
    rw [exec_echoPeriod discovering up due rfl, if_neg (Nat.not_le.mpr few)]
  case lost =>
    intro s p discovering up due asked many
    rw [exec_echoPeriod discovering up due rfl, if_pos (by rw [if_pos asked]; omega)]
  case depths =>
    intro a s ds m ext link ok
    exact exec_qdepth ext link ok rfl
  case stale =>
    intro s p d at1 held some_ old
    exact exec_qdepthStale held some_ old rfl

end Sys2Proof.Machine
end

section
/-! SUPPORT. Cascade flits, lanes and modules (R303, R304, R339 to R349, R359, R410). -/

set_option Elab.async false

namespace Sys2Proof.Machine

variable {c : Nat} {ws : List (List Pam4)} {s t : State} {f : Flit}

/-! ## Flits (R345 to R349) -/

/-- A good DATA flit is taken in its turn, acknowledged again where it was taken before, and else draws a NAK (R346). -/
theorem exec_cascadeDataFlit (takes : flitTakes 1 c ws s f t) : exec (.cascadeDataFlit c ws) s = .next (
    if f.fseq = (cascGet t c).rxSeq then takeData c f t
    else if seqBehind (cascGet t c) f.fseq then cascPump c (cascModify c (fun k => { k with ackDue := true }) t)
    else sendNak c t) := by
  change execCascadeDataFlit c ws s = _
  rw [execCascadeDataFlit, onFlit_takes takes]

theorem exec_cascadeIdleFlit (takes : flitTakes 0 c ws s f t) : exec (.cascadeIdleFlit c ws) s = .next (takeFiller c f t) := by
  change execCascadeIdleFlit c ws s = _
  rw [execCascadeIdleFlit, onFlit_takes takes]

theorem exec_cascadeNakFlit (takes : flitTakes 2 c ws s f t) : exec (.cascadeNakFlit c ws) s = .next (cascReplay c (takeFiller c f t)) := by
  change execCascadeNakFlit c ws s = _
  rw [execCascadeNakFlit, onFlit_takes takes]

theorem exec_cascadeReplayTimeout (up : regsUp s = true) (port : c < 4) (link : (cascUp (cascGet s c)).1 = true)
    (late : (cascGet s c).ackAt + 1000 ≤ s.time.gcount) : exec (.cascadeReplayTimeout c) s = .next (cascReplay c s) := by
  change execCascadeReplayTimeout c s = _
  rw [execCascadeReplayTimeout, if_neg (by simp [up, port, link, late])]

/-- Settles O19: the flit is judged as good or not, then by its place in the sequence. -/
theorem cascadeFlitsComplete : Obligations.CascadeFlitsComplete := by
  unfold Obligations.CascadeFlitsComplete
  refine ⟨?next, ?again, ?gap, fun c ws s f t => exec_cascadeIdleFlit, fun c ws s f t => exec_cascadeNakFlit, ?bad,
    fun c s => exec_cascadeReplayTimeout⟩
  case next =>
    intro c ws s f t takes turn
    rw [exec_cascadeDataFlit takes, if_pos turn]
  case again =>
    intro c ws s f t takes other behind
    rw [exec_cascadeDataFlit takes, if_neg other, if_pos behind]
  case gap =>
    intro c ws s f t takes other ahead
    rw [exec_cascadeDataFlit takes, if_neg other, if_neg (by simp [ahead])]
  case bad =>
    intro c ws s up port whole active lost
    exact ⟨congrArg Host.Outcome.next (onFlit_bad up port whole active lost), congrArg Host.Outcome.next (onFlit_bad up port whole active lost),
      congrArg Host.Outcome.next (onFlit_bad up port whole active lost)⟩

/-! ## Lanes (R340, R344, R346, R359) -/

variable {i : Nat} {l : Lane}

theorem exec_alignmentMarker_marker {word : List Pam4} {n : Nat} (up : regsUp s = true) (port : c < 4) (lane : i < 16)
    (here : l = (cascGet s c).lanes.getD i {}) (locks : l.rx = .align ∨ l.rx = .active) (marker : markerRead word = some n) :
    exec (.alignmentMarker c i word) s = .next (lanesChange c (fun k =>
      rxDeskew { k with lanes := k.lanes.modify i (laneMarker c i n s.time.gcount) }) s) := by
  change execAlignmentMarker c i word s = _
  have locks' : (l.rx == .align || l.rx == .active) = true := by simpa using locks
  rw [execAlignmentMarker, ← here, if_neg (by rw [up, locks']; simp [port, lane])]
  simp only [marker]

theorem exec_alignmentMarker_none {word : List Pam4} (up : regsUp s = true) (port : c < 4) (lane : i < 16)
    (here : l = (cascGet s c).lanes.getD i {}) (locks : l.rx = .align ∨ l.rx = .active) (marker : markerRead word = none) :
    exec (.alignmentMarker c i word) s = .next (laneModify c i (fun l => { l with markers := 0 }) s) := by
  change execAlignmentMarker c i word s = _
  have locks' : (l.rx == .align || l.rx == .active) = true := by simpa using locks
  rw [execAlignmentMarker, ← here, if_neg (by rw [up, locks']; simp [port, lane])]
  simp only [marker]

theorem exec_laneClockRecovered (up : regsUp s = true) (port : c < 4) (lane : i < 16) (here : l = (cascGet s c).lanes.getD i {})
    (eq_ : l.rx = .eq) :
    exec (.laneClockRecovered c i) s = .next (laneModify c i (fun l => { l with rx := .align, markers := 0 }) s) := by
  change execLaneClockRecovered c i s = _
  rw [execLaneClockRecovered, ← here, if_neg (by simp [up, port, lane, eq_])]

theorem exec_laneLockLoss (up : regsUp s = true) (port : c < 4) (lane : i < 16) (here : l = (cascGet s c).lanes.getD i {})
    (locked : l.amlock = true ∨ l.rx = .active) (late : l.markerAt + 5240 ≤ s.time.gcount) :
    exec (.laneLockLoss c i) s = .next (linkLost c 1 (lanesChange c (fun k =>
      { k with lanes := k.lanes.modify i fun l => { l with amlock := false, markers := 0, rx := .eq } }) s)) := by
  change execLaneLockLoss c i s = _
  have locked' : (l.amlock || l.rx == .active) = true := by simpa using locked
  rw [execLaneLockLoss, ← here, if_neg (by rw [up, locked']; simp [port, lane, late])]

/-! ## Modules (R303, R304, R410) -/

variable {m : Nat} {x : Module}

theorem exec_ucieModuleDown {levels : Nat} (up : regsUp s = true) (module_ : m < 128) (here : x = modGet s m)
    (works : x.state = 1 ∨ x.state = 3) : exec (.ucieModuleDown ⟨m, levels⟩) s = .next (settle (moduleOut m levels s)) := by
  change execUcieModuleDown ⟨m, levels⟩ s = _
  have works' : (x.state == 1 || x.state == 3) = true := by simpa using works
  rw [execUcieModuleDown, ← here, if_neg (by rw [up, works']; simp [module_])]

theorem exec_ucieRetrain_trained {lanes : Nat} (up : regsUp s = true) (module_ : m < 128) (here : x = modGet s m) (out : x.state = 2)
    (due : x.retryAt ≤ s.time.gcount) : exec (.ucieRetrain m (some lanes)) s = .next
      (report { kind := 0x13, sev := 1, detail := le 4 (unitLoc (.module m)).toNat ++ le 2 0 } (unitRec 2 1 (.module m) 0 0 0)
        (modPut m { x with state := if s.ctl.state = .dormant then 3 else 1, retrains := x.retrains + 1,
                           repaired := x.repaired + lanes } s)) := by
  change execUcieRetrain m (some lanes) s = _
  rw [execUcieRetrain, ← here, if_neg (by simp [up, module_, out, due])]

theorem exec_ucieRetrain_waits (up : regsUp s = true) (module_ : m < 128) (here : x = modGet s m) (out : x.state = 2)
    (due : x.retryAt ≤ s.time.gcount) :
    exec (.ucieRetrain m none) s = .next (modPut m { x with retryAt := s.time.gcount + 100000000 } s) := by
  change execUcieRetrain m none s = _
  rw [execUcieRetrain, ← here, if_neg (by simp [up, module_, out, due])]

theorem exec_linkRetrain {lanes : Nat} (up : regsUp s = true) (module_ : m < 128) (here : x = modGet s m) (works : x.state = 1) :
    exec (.linkRetrain m lanes) s = .next (modPut m { x with retrains := x.retrains + 1, repaired := x.repaired + lanes } s) := by
  change execLinkRetrain m lanes s = _
  rw [execLinkRetrain, ← here, if_neg (by simp [up, module_, works])]

/-- Settles O20: each event finds its lane or module in the state that it asks for. -/
theorem laneAndModuleRowsComplete : Obligations.LaneAndModuleRowsComplete := by
  unfold Obligations.LaneAndModuleRowsComplete
  refine ⟨?lane, ?module⟩
  case lane =>
    intro c i s up port lane l
    exact ⟨fun word n locks marker => exec_alignmentMarker_marker up port lane rfl locks marker,
      fun word locks marker => exec_alignmentMarker_none up port lane rfl locks marker,
      fun eq_ => exec_laneClockRecovered up port lane rfl eq_, fun locked late => exec_laneLockLoss up port lane rfl locked late⟩
  case module =>
    intro m s up module_ x
    exact ⟨fun levels works => exec_ucieModuleDown up module_ rfl works, fun out due lanes => exec_ucieRetrain_trained up module_ rfl out due,
      fun out due => exec_ucieRetrain_waits up module_ rfl out due, fun lanes works => exec_linkRetrain up module_ rfl works⟩

end Sys2Proof.Machine
end

section
/-! SUPPORT. Rows of the frame (R51, R54 to R61, R116, R118, R396). -/

set_option Elab.async false

namespace Sys2Proof.Machine

variable {q : Nat} {d : BitVec 32} {plan : Nat} {s : State} {o : Op} {c : ChunkSt}

/-! ## The tick (R60, R396) -/

theorem exec_frameTick (open_ : tickOpen s = true) {t : State}
    (steps : t = (List.range 9).foldl (fun s k => if stepDue k s then stepDo k s else s) s) :
    exec .frameTick s = .next (openFrame { t with time := { t.time with lastTick := some t.time.gcount } }) := by
  change execFrameTick s = _
  rw [execFrameTick, open_, steps]
  rfl

/-- Where no step is due the steps of a tick leave the state. -/
theorem steps_of_none_due {n : Nat} (idle : ∀ k < n, stepDue k s = false) :
    (List.range n).foldl (fun s k => if stepDue k s then stepDo k s else s) s = s := by
  induction n with
  | zero => rfl
  | succ n ih =>
    rw [List.range_succ, List.foldl_append, ih fun k below => idle k (Nat.lt_succ_of_lt below)]
    simp [idle n (Nat.lt_succ_self n)]

theorem exec_discardRelease (turn : stepTurn 2 s = true) : exec .discardRelease s = .next (settle { s with ops := s.ops.map releaseOp }) := by
  change execDiscardRelease s = _
  rw [execDiscardRelease, if_pos turn, releaseAll]

/-! ## Commit points (R54, R55, R57, R257) -/

theorem withOp_opened (found : opFind s q d = some o) (opened : o.opened = true) : (opFind s q d).filter (·.opened) = some o := by
  simp [found, opened]

/-- At its commit point a chunk that has work left commits where its inputs are there and slips where they are not (R54, R55). -/
theorem exec_chunkCommitPoint (found : opFind s q d = some o) (opened : o.opened = true) (chunk : o.chunks[plan]? = some c)
    (works : opWorks o = true) (state : c.state = .waiting ∨ c.state = .slipped) (kept : (o.skipped && decide (3 ≤ c.plan.kind)) = false)
    (now : atCommit s o c = true) : exec (.chunkCommitPoint q d plan) s = .next (
      if chunkReady s o plan c then (if c.plan.kind = 3 then settle (openApply o (commitChunk o plan s)) else commitChunk o plan s)
      else slipChunk o plan c s) := by
  change execChunkCommitPoint q d plan s = _
  have waits : chunkWaits o c = true := by rcases state with state | state <;> simp [chunkWaits, state, kept]
  have fresh : (c.state == .replayPending) = false := by rcases state with state | state <;> simp [state]
  simp only [execChunkCommitPoint, withOp_opened found opened, chunk, works, waits, fresh, now, Bool.not_true, Bool.or_self, Bool.false_eq_true,
    if_false]

theorem exec_chunkCommitPoint_early {p : ChunkPlan} (unheld : (opFind s q d).filter (·.opened) = none) (shell : unopened s q d = some o)
    (chunk : o.zop.chunks[plan]? = some p) : exec (.chunkCommitPoint q d plan) s = .next (earlySlip o plan p s) := by
  change execChunkCommitPoint q d plan s = _
  simp only [execChunkCommitPoint, unheld, shell, chunk]

theorem exec_chunkComplete (found : opFind s q d = some o) (chunk : o.chunks[plan]? = some c) (works : opWorks o = true)
    (committed : c.state = .committed) (frame : c.committedIn = frameNo s) :
    exec (.chunkComplete q d plan) s = .next (chunkEffect o plan c s) := by
  change execChunkComplete q d plan s = _
  rw [execChunkComplete, withOp_found found]
  simp [chunk, works, committed, frame]

/-! ## Replays (R116, R118) -/

theorem exec_replay (found : opFind s q d = some o) (chunk : o.chunks[plan]? = some c) (works : opWorks o = true)
    (pending : c.state = .replayPending) (now : atCommit s o c = true)
    (room : holdsReserve o c = true ∨
      replayNeed o c + ((reserveOps s o).map reserveUsed).sum + ((reserveOps s o).map reserveHeld).sum ≤
        (if c.plan.kind = 1 then (opGroup s o).rresTiles else (opGroup s o).rresRb))
    (ready : chunkReady s o plan c = true) : exec (.replay q d plan) s = .next (commitChunk o plan (markReplay o plan c s)) := by
  change execReplay q d plan s = _
  have works' : (!opWorks o || decide (c.state ≠ .replayPending) || !atCommit s o c) = false := by simp [works, pending, now]
  have room' : (holdsReserve o c || decide (replayNeed o c + ((reserveOps s o).map reserveUsed).sum + ((reserveOps s o).map reserveHeld).sum ≤
      (if c.plan.kind = 1 then (opGroup s o).rresTiles else (opGroup s o).rresRb))) = true := by
    rw [Bool.or_eq_true, decide_eq_true_eq]
    exact room
  simp only [execReplay, withOp_found found, chunk, works', room', ready, Bool.false_eq_true, if_false, if_true]

/-- Settles O21: the steps of a tick run in order, and a chunk commits or slips as its inputs are there or not. -/
theorem frameRowsComplete : Obligations.FrameRowsComplete := by
  unfold Obligations.FrameRowsComplete
  refine ⟨?quiet, fun s open_ => exec_frameTick open_ rfl, fun s => exec_discardRelease, ?length, ?commits, ?slips, ?early, ?complete, ?replay⟩
  case quiet =>
    intro s open_ idle
    rw [exec_frameTick open_ rfl, steps_of_none_due idle]
  case length =>
    intro s turn
    rw [exec_frameLengthChange turn, newLength]
  case commits =>
    intro q d plan s o c found opened chunk works state kept now ready
    rw [exec_chunkCommitPoint found opened chunk works state kept now, if_pos ready]
  case slips =>
    intro q d plan s o c found opened chunk works state kept now missing
    rw [exec_chunkCommitPoint found opened chunk works state kept now, if_neg (by simp [missing])]
  case early =>
    intro q d plan s o p unheld shell chunk
    exact exec_chunkCommitPoint_early unheld shell chunk
  case complete =>
    intro q d plan s o c found chunk works committed frame
    exact exec_chunkComplete found chunk works committed frame
  case replay =>
    intro q d plan s o c found chunk works pending now room ready
    exact exec_replay found chunk works pending now room ready

end Sys2Proof.Machine
end

section
/-! SUPPORT. Rows of faults of units and of storage (R31, R401, R402, R404 to R410). -/

set_option Elab.async false

namespace Sys2Proof.Machine

variable {k phys d up : Nat} {s : State}

/-! ## Frets and strings (R401, R402) -/

theorem exec_fretFault {cause : FretCause} (on : regsUp s = true) (real : k < 1024)
    (reports : fretReports (strGet s k) phys = true) (serves : dieServes s (k / 16) = true) (found : ∀ a, cause ≠ .scrub a) :
    exec (.fretFault ⟨k, up⟩ phys cause) s = .next (settle (strPut k { strGet s k with
        times := reportsAfter s.time.gcount phys (strGet s k).times,
        testing := (strGet s k).testing.filter (· ≠ phys) ++ [phys] }
      (islandLevel 0 up (raiseLosing 0 (fretUnit (strGet s k) k phys) (fretFound cause)
        (lifted s 0 up (k / 64) fun o => usesString k o || holdsTilesIn k o) (holdsTilesIn k) s)))) := by
  have same := (islandLevel_steady 0 up (raiseLosing_steady 0 (fretUnit (strGet s k) k phys) (fretFound cause)
    (lifted s 0 up (k / 64) fun o => usesString k o || holdsTilesIn k o) (holdsTilesIn k) (by decide) (by decide) (.refl s))).gcount
  change execFretFault _ _ _ s = _
  rw [execFretFault, if_neg (by simp [on, real, reports, serves])]
  cases cause with
  | scrub a => exact absurd rfl (found a)
  | ecc | residue | lane => simp only [same]

theorem exec_fretFault_scrub {addr : BitVec 64} (on : regsUp s = true) (real : k < 1024)
    (reports : fretReports (strGet s k) phys = true) (serves : dieServes s (k / 16) = true) :
    exec (.fretFault ⟨k, up⟩ phys (.scrub addr)) s = .next (settle (scrubbed 0 (fretUnit (strGet s k) k phys) { addr } s)) := by
  change execFretFault ⟨k, up⟩ phys (.scrub addr) s = _
  rw [execFretFault, if_neg (by simp [on, real, reports, serves])]

/-- What a retest that is over leaves of its string, before a fret that failed is retired. -/
theorem exec_fretRetestDone {pass : Bool} (on : regsUp s = true) (repair : (strGet s k).repair = true)
    (testing : phys ∈ (strGet s k).testing) {t : State}
    (tested : t = strPut k { strGet s k with
      testing := (strGet s k).testing.filter (· ≠ phys), passAt := some s.time.gcount } s) :
    exec (.fretRetestDone k phys pass) s =
      .next (if !pass || thirdReport (strGet s k) phys then settle (fretRetire k phys t) else t) := by
  change execFretRetestDone _ _ _ s = _
  rw [execFretRetestDone, if_neg (by simp [on, repair, testing]), ← tested]

theorem exec_spareSubstitution (turn : stepTurn 5 s = true) (due : k ∈ repairsDue s) :
    exec (.spareSubstitution k) s = .next (repairEnd k s) := by
  change execSpareSubstitution k s = _
  rw [execSpareSubstitution, if_pos (by simp [turn, due])]

theorem exec_stringFault {timeout : Bool} (on : regsUp s = true) (real : k < 1024) (in_ : (strGet s k).out = false)
    (serves : dieServes s (k / 16) = true) :
    exec (.stringFault { unit := k, up, timeout }) s = .next (settle (islandLevel 1 up
      (raiseFault 1 (.string k) { coded := !timeout } (lifted s 1 up (k / 64) (usesString k)) s))) := by
  change execStringFault _ s = _
  rw [execStringFault, if_neg (by simp [on, real, in_, serves])]

/-! ## Compute dies (R409) -/

theorem exec_dieFault {cause : DieCause} (on : regsUp s = true) (real : d < 64) (serves : dieServes s d = true)
    (found : ∀ a, cause ≠ .scrub a) :
    exec (.dieFault ⟨d, up⟩ cause) s = .next (settle (dieOut d up (dieFound cause) (fun x =>
      { x with state := 2, rejoin := none, bondAt := if cause = .bond then some s.time.gcount else none }) s)) := by
  change execDieFault _ _ s = _
  cases cause with
  | scrub a => exact absurd rfl (found a)
  | rail | bond | sram =>
    unfold execDieFault
    rw [if_neg (by simp [on, real, serves])]

theorem exec_dieFault_scrub {addr : BitVec 64} (on : regsUp s = true) (real : d < 64) (serves : dieServes s d = true) :
    exec (.dieFault ⟨d, up⟩ (.scrub addr)) s = .next (settle (scrubbed 2 (.die d) { addr } s)) := by
  change execDieFault ⟨d, up⟩ (.scrub addr) s = _
  rw [execDieFault, if_neg (by simp [on, real, serves])]

theorem exec_dieReturnTest {pass : Bool} (on : regsUp s = true) (powered : s.power.gated = false) (real : d < 64)
    (due : returnDue s (Table.get {} s.dies d) = true) {failed : State}
    (out : failed = dieOut d 0 { coded := false } (fun x =>
      { x with fails := x.fails + 1, state := if 2 ≤ x.fails then 3 else 2, bondAt := none }) s) :
    exec (.dieReturnTest d pass) s = .next (if pass then dieReturned d s else
      settle ((if 2 ≤ (Table.get {} s.dies d : Die).fails
        then ((List.range 16).map (16 * d + ·)).filter fun k => !(strGet failed k).out else []).foldl
          (fun s k => stringOut k none s) failed)) := by
  change execDieReturnTest _ _ s = _
  rw [execDieReturnTest, if_neg (by simpa [on, powered, real] using due), out]

/-! ## Storage and corrected errors (R406 to R408, R410) -/

variable {neck stack errors : Nat} {addr : BitVec 64} {u : FUnit}

theorem exec_tsramError {region : TsramRegion} (on : regsUp s = true) (real : neck < 16) (holds : tsramHolds s neck region = true) :
    exec (.tsramError ⟨neck, up⟩ region addr) s =
      .next (settle (islandLevel 2 up (tsramEffect region s.fault.rseq
        (raiseFault 3 (.neck neck) { addr } (lifted s 2 up neck (tsramHits s neck region)) s)))) := by
  change execTsramError _ _ _ s = _
  rw [execTsramError, if_neg (by simp [on, real, holds])]

theorem exec_hbmError {region : HbmRegion} (on : regsUp s = true) (real : stack < 32) (low : addr.toNat < hbmTop)
    (place : addrStack addr.toNat = stack) (holds : hbmHolds s region addr.toNat = true) :
    exec (.hbmError ⟨stack, up⟩ region addr) s =
      .next (settle (islandLevel 2 up (hbmEffect region s.fault.rseq s
        (raiseFault 4 (.stack stack) { addr } (lifted s 2 up (stack / 2) (hbmHits s region)) s)))) := by
  change execHbmError _ _ _ s = _
  rw [execHbmError, if_neg (by simp [on, real, low, place, holds])]

theorem exec_xbarFault (on : regsUp s = true) (real : neck < 16) :
    exec (.xbarFault ⟨neck, up⟩) s =
      .next (settle (islandLevel 2 up (raiseFault 6 (.neck neck) {} (lifted s 2 up neck (neckHit s neck)) s))) := by
  change execXbarFault _ s = _
  rw [execXbarFault, if_neg (by simp [on, real])]

theorem exec_corrected (unit : ceNeck u = some neck) (on : regsUp s = true) {t : State} (counted : t = count 0x1B neck errors {} s) :
    exec (.corrected u errors) s = .next (if errors ≤ t.ctl.ceThr || ceRaised t u then t else raiseCorrected u errors t) := by
  change execCorrected u errors s = _
  rw [execCorrected, unit, counted]
  simp [on]

theorem count_ctl (e neck n : Nat) (c : Ctx) (s : State) : (count e neck n c s).ctl = s.ctl := by
  unfold count
  split
  · rfl
  · rfl

/-- Settles O22: each report names a unit in service, and a scrub only records what it finds. -/
theorem unitFaultRowsComplete : Obligations.UnitFaultRowsComplete := by
  unfold Obligations.UnitFaultRowsComplete
  refine ⟨?fret, ?fretScrub, ?passed, ?retired, ?spare, ?string, ?die, ?dieScrub, ?returned, ?failed⟩
  case fret =>
    intro k phys cause up s on real reports serves found
    exact exec_fretFault on real reports serves found
  case fretScrub =>
    intro k phys addr up s on real reports serves
    exact exec_fretFault_scrub on real reports serves
  case passed =>
    intro k phys s on repair testing few
    rw [exec_fretRetestDone on repair testing rfl, few]
    rfl
  case retired =>
    intro k phys s on repair testing
    exact exec_fretRetestDone on repair testing rfl
  case spare =>
    intro k s turn due
    exact exec_spareSubstitution turn due
  case string =>
    intro k up timeout s on real in_ serves
    exact exec_stringFault on real in_ serves
  case die =>
    intro d cause up s on real serves found
    exact exec_dieFault on real serves found
  case dieScrub =>
    intro d addr up s on real serves
    exact exec_dieFault_scrub on real serves
  case returned =>
    intro d s on powered real due
    exact exec_dieReturnTest on powered real due rfl
  case failed =>
    intro d s on powered real due failed strings
    exact exec_dieReturnTest on powered real due rfl

/-- Settles O23: each error names storage that the unit holds, and the count of corrected errors leaves the threshold. -/
theorem storageErrorRowsComplete : Obligations.StorageErrorRowsComplete := by
  unfold Obligations.StorageErrorRowsComplete
  refine ⟨?tsram, ?hbm, ?xbar, ?few, ?many⟩
  case tsram =>
    intro neck region addr up s on real holds
    exact exec_tsramError on real holds
  case hbm =>
    intro stack region addr up s on real low place holds
    exact exec_hbmError on real low place holds
  case xbar =>
    intro neck up s on real
    exact exec_xbarFault on real
  case few =>
    intro u errors neck s unit on low
    rw [exec_corrected unit on rfl, if_pos (by simp [count_ctl, low])]
  case many =>
    intro u errors neck s unit on t high fresh
    rw [exec_corrected unit on rfl, if_neg (by simpa [t, fresh] using high)]

end Sys2Proof.Machine
end

section
/-! SUPPORT. Rows of fatal faults, CLEAR_FAULT and the flush (R395, R411, R418, R449, R452). -/

set_option Elab.async false

namespace Sys2Proof.Machine

variable {s : State}

/-! ## Fatal faults (R411, R452) -/

theorem fatal_enters {cls : Nat} (outside : s.ctl.state ≠ .faulted) : fatal cls s = enterFaulted cls s := by
  unfold fatal
  rw [if_neg outside]

theorem fatal_again {cls : Nat} (inside : s.ctl.state = .faulted) {t : State}
    (added : t = faultedNotice s.fault.rseq (bbWrite (faultRec cls .none []) (setClass cls s))) :
    fatal cls s = if s.fault.flush.isSome then t else startFlush t := by
  unfold fatal
  rw [if_pos inside, added]

theorem regsUp_of_faulted (inside : s.ctl.state = .faulted) : regsUp s = true := by
  simp [regsUp, inside]

theorem exec_fatalFault {cls : FatalClass} (on : regsUp s = true) (other : cls ≠ .thermal)
    (tuning : cls ∈ [.pegbox, .trim, .tuning] → s.ctl.state = .tuning) :
    exec (.fatalFault cls) s = .next (fatal (fatalClassNo cls) s) := by
  change execFatalFault cls s = _
  unfold execFatalFault
  cases cls with
  | thermal => exact absurd rfl other
  | pegbox | trim | tuning => simp [on, tuning (by decide)]
  | _ => simp [on]

theorem exec_fatalFault_thermal (on : regsUp s = true) (live : ¬ (s.power.gated = true ∧ s.ctl.state = .faulted)) :
    exec (.fatalFault .thermal) s =
      .next (gateDies (fatal 20 { s with power := { s.power with tripLow := true } })) := by
  change execFatalFault .thermal s = _
  have trips : ¬ (s.power.gated && s.ctl.state == .faulted) = true := by simpa using live
  simp only [execFatalFault, on, thermalTrip, if_neg trips]
  rfl

/-! ## CLEAR_FAULT (R395) -/

theorem exec_clearFault {c : AdminCmd} (takes : adminTakes 0x10 c s) {gone left : Word} {t : State}
    (cleared : gone = s.fault.classes &&& BitVec.ofNat 32 (c.arg 11 8) &&& clearable s) (stay : left = s.fault.classes &&& ~~~ gone)
    (told : t = report { kind := 0x18, sev := 0, detail := le 4 gone.toNat ++ le 4 left.toNat }
      { rkind := 5, rseq := 0, xdata := BitVec.ofNat 64 (gone.toNat + left.toNat * 2 ^ 32) }
      { adminLeft s with fault := { s.fault with classes := left } }) :
    exec .clearFault s = .next (adminDone c 0 0 left.toNat (if t.ctl.state = .faulted ∧ anyFatal t = false
      then beginErase (settleState (setState .ready t)) else t)) := by
  subst cleared stay told
  change execClearFault s = _
  rw [execClearFault, adminRow_takes takes]
  simp only [Bool.and_eq_true, decide_eq_true_eq, Bool.not_eq_true']
  rfl

/-! ## The flush (R417 to R419) -/

theorem exec_flush (on : regsUp s = true) :
    exec .flush s = .next (if s.fault.flush.isSome || s.fault.erasing then reject 0x1008 s else startFlush s) := by
  change execFlush s = _
  rw [execFlush, whenUp, if_pos on, regWrite_ctl (by decide) (by decide)]
  rfl

theorem exec_flushDone {f : Flush} (runs : s.fault.flush = some f) {t : State} (written : t = flushWrite s f) :
    exec (.flushDone true) s = .next (beginErase (notice { kind := 0x17, sev := 1, detail := le 4 f.seq.toNat ++ le 1 0 ++ le 1 f.slot }
      { t with fault := { t.fault with flush := none, result := 0 } })) := by
  change execFlushDone true s = _
  rw [execFlushDone, runs, written]
  rfl

theorem exec_flushDone_broken {f : Flush} (runs : s.fault.flush = some f) {t : State} (broken : t = flushBroken s f) :
    exec (.flushDone false) s = .next (beginErase (notice { kind := 0x17, sev := 1, detail := le 4 f.seq.toNat ++ le 1 1 ++ le 1 f.slot }
      (raiseFault 9 .none { coded := false } (fun _ => false) { t with fault := { t.fault with flush := none, result := 1 } }))) := by
  change execFlushDone false s = _
  rw [execFlushDone, runs, broken]
  rfl

/-- Settles O24: FAULTED is entered once, and a fatal class there only adds to it. -/
theorem fatalAndFlushRowsComplete : Obligations.FatalAndFlushRowsComplete := by
  unfold Obligations.FatalAndFlushRowsComplete
  refine ⟨?enters, ?trips, ?again, ?tripsAgain, ?clears, ?starts, ?rejected, ?done, ?broken⟩
  case enters =>
    intro cls s on other tuning outside
    rw [exec_fatalFault on other tuning, fatal_enters outside]
  case trips =>
    intro s on outside
    rw [exec_fatalFault_thermal on fun both => outside both.2, fatal_enters (by exact outside)]
  case again =>
    intro cls s other inside t
    have apart : cls ≠ .thermal ∧ cls ∉ [.pegbox, .trim, .tuning] := by
      revert other; cases cls <;> decide
    rw [exec_fatalFault (regsUp_of_faulted inside) apart.1 fun tuning => absurd tuning apart.2, fatal_again inside rfl]
  case tripsAgain =>
    intro s inside powered u t
    rw [exec_fatalFault_thermal (regsUp_of_faulted inside) (by simp [powered]), fatal_again (s := u) inside rfl]
  case clears =>
    intro c s takes gone left t
    exact exec_clearFault takes rfl rfl rfl
  case starts =>
    intro s on idle erased
    rw [exec_flush on, idle, erased]
    rfl
  case rejected =>
    intro s on busy
    rw [exec_flush on, if_pos (by simpa [Option.isSome_iff_ne_none] using busy)]
  case done =>
    intro f s runs t
    exact exec_flushDone runs rfl
  case broken =>
    intro f s runs t
    exact exec_flushDone_broken runs rfl

end Sys2Proof.Machine
end

section
/-! SUPPORT. Rows of temperature, supply and the reference, and of RESET and tuning (R378 to R381, R441, R445, R447 to R450, R456, R460). -/

set_option Elab.async false

namespace Sys2Proof.Machine

/-! ## What is broken off in the flash (R377, R418) -/

/-- Nothing but the pegbox and the free values drawn has changed. -/
def PegAlone (s t : State) : Prop := t = { s with peg := t.peg, freeCtr := t.freeCtr }

section

variable {s t u : State}

theorem PegAlone.refl (s : State) : PegAlone s s := rfl

theorem PegAlone.trans (a : PegAlone s t) (b : PegAlone t u) : PegAlone s u := by
  unfold PegAlone at *
  rw [b, a]

theorem PegAlone.power (a : PegAlone s t) : t.power = s.power := by rw [a]

theorem foldl_pegAlone {α : Type} {g : State → α → State} (hg : ∀ u a, PegAlone u (g u a)) (l : List α) (s : State) :
    PegAlone s (l.foldl g s) := by
  induction l generalizing s with
  | nil => exact .refl s
  | cons a l ih => exact (hg s a).trans (ih (g s a))

theorem flashUnknown_pegAlone (off n : Nat) (s : State) : PegAlone s (flashUnknown off n s) := rfl

theorem flashErase_pegAlone (off n : Nat) (s : State) : PegAlone s (flashErase off n s) := rfl

theorem flushBroken_pegAlone (s : State) (f : Flush) : PegAlone s (flushBroken s f) :=
  (flashErase_pegAlone _ _ s).trans ((flashUnknown_pegAlone _ _ _).trans (flashUnknown_pegAlone _ _ _))

theorem flashHalfErased_pegAlone (off n : Nat) (s : State) : PegAlone s (flashHalfErased off n s) :=
  foldl_pegAlone (fun u a => flashUnknown_pegAlone a 1 u) _ s

theorem flashBroken_pegAlone (s : State) : PegAlone s (flashBroken s) := by
  unfold flashBroken
  extract_lets flushed erased
  have a : PegAlone s flushed := by
    unfold flushed
    split
    · exact flushBroken_pegAlone s _
    · exact .refl s
  have b : PegAlone s erased := by
    unfold erased
    split
    · exact a.trans (flashHalfErased_pegAlone _ _ flushed)
    · exact a
  split
  · exact b.trans rfl
  · exact b.trans (flashUnknown_pegAlone _ _ erased)
  · exact b.trans rfl
  · exact b

end

@[simp] theorem setState_power (x : IslState) (s : State) : (setState x s).power = s.power := by
  unfold setState
  split
  · rfl
  · rfl

theorem enterReset_up {held low : Bool} {s : State} (on : regsUp s = true) :
    enterReset held low s = wiped held low (flashBroken (setState .reset s)) := by
  unfold enterReset
  rw [if_neg (by simpa [regsUp, and_comm] using on)]

/-- RESET keeps what holds the power stages off, and the time left of a critical shutdown. -/
theorem wiped_power (held low : Bool) (s : State) : (wiped held low s).power =
    { stagesOff := s.power.stagesOff, lockout := s.power.lockout, critIn := s.power.critIn } := rfl

variable {s : State}

/-! ## Temperature (R447 to R450) -/

theorem exec_tempSample {k : Nat} {v : BitVec 16} (on : regsUp s = true) (real : k < 128) (live : tempGated s k = false) {x : Temp}
    (take : x = tempTake (warnOf s k) (tripOf k) v (tempGet s k)) {t : State}
    (warm : t = if 3 ≤ x.warm then raiseHot k (tempPut k x s) else tempPut k x s) :
    exec (.tempSample k v) s = .next (if 2 ≤ x.trip then thermalTrip t else t) := by
  subst take warm
  change execTempSample k v s = _
  rw [execTempSample, if_neg (by simp [on, real, live])]

theorem criticalOf_fires {die : CriticalDie}
    (hot : die.index < 80 ∧ 125 ≤ die.temp ∨ 112 ≤ die.index ∧ die.index < 128 ∧ 140 ≤ die.temp) :
    ((criticalOf die.index).any fun (c : Nat) => decide ((c : Int) ≤ die.temp)) = true := by
  obtain ⟨die_, temp⟩ | ⟨above, below, temp⟩ := hot
  · simp [criticalOf, die_, temp]
  · simp [criticalOf, below, temp, show ¬ die.index < 80 by omega, show ¬ die.index < 112 by omega]

theorem exec_criticalShutdown {die : CriticalDie}
    (hot : die.index < 80 ∧ 125 ≤ die.temp ∨ 112 ≤ die.index ∧ die.index < 128 ∧ 140 ≤ die.temp) (on : regsUp s = true)
    (first : s.power.critIn = none) :
    exec (.criticalShutdown die) s = .next { s with power := { s.power with tripLow := true, critIn := some 20000 } } := by
  change execCriticalShutdown die s = _
  simp only [execCriticalShutdown, criticalOf_fires hot, on, first]
  rfl

/-! ## Supply and reference (R441, R456, R460) -/

variable {v ns : Nat}

/-- The supply registers after a sample from TUNING on (R456). -/
def vinSampled (v ns : Nat) (s : State) : Power := { s.power with
  vin := min v 1023, pin := (Config.inputPower s.freeCtr).toNat,
  vinLow := s.power.vinLow || (decide (10000 ≤ ns) && decide (v < 500)),
  vinHigh := s.power.vinHigh || (decide (10000 ≤ ns) && decide (580 < v)) }

/-- A sample changes the supply registers and notes which of their bits it set. -/
theorem vinTake_eq : ∃ hwSet, vinTake v ns s =
    { s with ctl := { s.ctl with hwSet }, power := vinSampled v ns s, freeCtr := s.freeCtr + 1 } := by
  unfold vinTake vinSampled
  extract_lets p long noted
  cases long && decide (v < 500) with
  | true => cases long && decide (580 < v) with | _ => exact ⟨_, rfl⟩
  | false => cases long && decide (580 < v) with | _ => exact ⟨_, rfl⟩

theorem vinTake_regsUp : regsUp (vinTake v ns s) = regsUp s := by
  obtain ⟨hwSet, taken⟩ := vinTake_eq (v := v) (ns := ns) (s := s)
  rw [taken]
  rfl

theorem exec_vinMonitor (on : regsUp s = true) (runs : stageStops v = false) : exec (.vinMonitor v ns) s = .next (vinTake v ns s) := by
  change execVinMonitor v ns s = _
  simp [execVinMonitor, on, runs]

theorem exec_vinMonitor_stops (on : regsUp s = true) (stops : stageStops v = true) {t : State} (taken : t = vinTake v ns s) :
    exec (.vinMonitor v ns) s = .next (enterReset false false { t with power := { t.power with lockout := true } }) := by
  change execVinMonitor v ns s = _
  simp [execVinMonitor, on, stops, taken]

theorem exec_vinMonitor_rest (off : regsUp s = false) : exec (.vinMonitor v ns) s = .next (vinAtRest v ns s) := by
  change execVinMonitor v ns s = _
  simp [execVinMonitor, off]

theorem exec_refclkLoss (on : regsUp s = true) (long : 1000 < ns) : exec (.refclkLoss ns) s = .next (fatal 18 s) := by
  change execRefclkLoss ns s = _
  simp [execRefclkLoss, on, long]

/-- Settles O25: the sample is taken and its runs decide, and a supply that stops a stage leaves the island in RESET. -/
theorem powerSamplesComplete : Obligations.PowerSamplesComplete := by
  unfold Obligations.PowerSamplesComplete
  refine ⟨?sample, ?critical, ?supply, ?stops, ?rest, ?reference⟩
  case sample =>
    intro k v s on real live x t
    exact exec_tempSample on real live rfl rfl
  case critical =>
    intro die s hot on first
    exact exec_criticalShutdown hot on first
  case supply =>
    intro v ns s on runs
    obtain ⟨hwSet, taken⟩ := vinTake_eq (v := v) (ns := ns) (s := s)
    rw [exec_vinMonitor on runs, taken]
    exact ⟨_, rfl, rfl, rfl, rfl, rfl, rfl⟩
  case stops =>
    intro v ns s on stops
    refine ⟨_, exec_vinMonitor_stops on stops rfl, ?_⟩
    rw [enterReset_up (by exact vinTake_regsUp.trans on)]
    refine ⟨rfl, ?_, rfl⟩
    rw [wiped_power, (flashBroken_pegAlone _).power, setState_power]
  case rest =>
    intro v ns s off
    exact exec_vinMonitor_rest off
  case reference =>
    intro ns s on long outside
    rw [exec_refclkLoss on long, fatal_enters outside]

/-! ## RESET, power-good and tuning (R378 to R381, R445) -/

theorem exec_resetIsland_pin {lowNs : Nat} (takes : pulseTakes s lowNs = true) :
    exec (.resetIsland (.pin lowNs)) s = .next (enterReset true true (drawn s)) := by
  change execResetIsland (.pin lowNs) s = _
  simp [execResetIsland, takes]

theorem exec_resetIsland_rails {lost : Bool} : exec (.resetIsland (.rails lost)) s = .next (enterReset (!lost) false s) := rfl

theorem exec_resetIsland_swreset {t : Nat} (asked : s.ctl.swresetAt = some t) (due : t ≤ s.time.gcount) :
    exec (.resetIsland .swreset) s = .next (enterReset true false s) := by
  change execResetIsland .swreset s = _
  simp [execResetIsland, asked, due]

theorem setState_time (x : IslState) (s : State) : (setState x s).time = s.time := by
  unfold setState
  split
  · rfl
  · rfl

theorem setState_ctl (x : IslState) (s : State) : (setState x s).ctl = { s.ctl with state := x } := by
  unfold setState
  split
  next same => rw [← same]
  next => rfl

theorem exec_powerGood {p : PowerGood} (down : s.ctl.state = .reset ∨ s.ctl.state = .off) (stages : s.power.stagesOff = false)
    (supply : s.power.lockout = false) : ∃ t, exec (.powerGood p) s = .next t ∧ t.ctl.state = .tuning ∧ t.time.running = true ∧
      t.time.gcount = 0 ∧ t.ctl.masterSel = p.masterSel ∧ t.ctl.cascId = p.cascId % 4 := by
  have starts : ¬ (!(s.ctl.state == .reset || s.ctl.state == .off) || s.power.stagesOff || s.power.lockout) = true := by
    rw [stages, supply]
    obtain reset | off := down
    · simp [reset]
    · simp [off]
  change ∃ t, execPowerGood p s = _ ∧ _
  rw [execPowerGood, if_neg starts]
  refine ⟨_, rfl, setState_state .tuning _, ?_⟩
  rw [setState_time, setState_ctl]
  exact ⟨rfl, rfl, rfl, rfl⟩

theorem exec_tuningComplete {r : TuningResult} {trim : List Byte} {b diff : Bool} {k : Nat} (tuning : s.ctl.state = .tuning)
    (flash : r.flashOk = true) {t u : State} (ring : t = tuneRing r.bbSurvives s) (inUse : trimInUse t = some (trim, b, diff))
    (agree : ringsAgree trim r.ringOsc = true) (noted : u = { t with ctl := { t.ctl with trimB := b, trimDiff := diff } })
    (copy : activeCopy u (BitVec.ofNat 64 (fld trim 15 8)) = some k) :
    exec (.tuningComplete r) s = .next (tuneWith r trim (copyBytes u k) k u) := by
  subst ring noted
  change execTuningComplete r s = _
  simp [execTuningComplete, tuning, flash, inUse, agree, copy]

/-- Settles O26: each cause that takes effect enters RESET, and tuning whose checks pass applies the copy in use. -/
theorem resetRowsComplete : Obligations.ResetRowsComplete := by
  unfold Obligations.ResetRowsComplete
  refine ⟨?reset, ?good, ?tuned⟩
  case reset =>
    intro cause s takes
    cases cause with
    | pin lowNs => exact exec_resetIsland_pin takes
    | rails lost => exact exec_resetIsland_rails
    | swreset =>
      obtain ⟨t, asked, due⟩ := takes
      exact exec_resetIsland_swreset asked due
  case good =>
    intro p s down stages supply
    exact exec_powerGood down stages supply
  case tuned =>
    intro r s trim b diff k tuning flash t inUse agree u copy
    exact exec_tuningComplete tuning flash rfl inUse agree rfl copy

end Sys2Proof.Machine
end

section
/-! SUPPORT. Writes of the registers of the island, of links, meters and routing (R40, R51, R331, R335, R341, R342, R379, R432, R434, R467, R475, R476, R481, R482). -/

set_option Elab.async false

namespace Sys2Proof.Machine

variable {w : RegWrite} {s : State}

/-! ## Fields of a register (R467) -/

/-- One bit as a field. -/
theorem bits_one_bit (x : Word) (i : Nat) : bits x.toNat i i = (x.getLsbD i).toNat := by
  rw [← BitVec.testBit_toNat, Nat.toNat_testBit]
  simp [bits, Nat.shiftRight_eq_div_pow]

theorem woField_acts {i : Nat} (covers : w.mask.getLsbD i = true) : woField w i i = .acts (w.value.getLsbD i).toNat := by
  simp [woField, bits_one_bit, covers]

theorem woField_apart {i : Nat} (apart : w.mask.getLsbD i = false) : woField w i i = .none := by
  simp [woField, bits_one_bit, apart]

theorem bits_lt (x hi lo : Nat) : bits x hi lo < 2 ^ (hi + 1 - lo) := Nat.mod_lt _ (Nat.two_pow_pos _)

/-- A field that the mask leaves out keeps its bits. -/
theorem rwField_kept {hi lo : Nat} (o : Word) (apart : ∀ i, lo ≤ i → i ≤ hi → w.mask.getLsbD i = false) :
    rwField o w hi lo = bits o.toNat hi lo := by
  unfold rwField bits
  refine Nat.eq_of_testBit_eq fun i => ?_
  rw [Nat.testBit_mod_two_pow, Nat.testBit_mod_two_pow]
  by_cases inside : i < hi + 1 - lo
  · have bound : o.toNat.testBit (lo + i) = true → lo + i < 32 := by
      rw [BitVec.testBit_toNat]
      exact BitVec.lt_of_getLsbD
    have low : o.getLsbD (lo + i) = true → lo + i < 32 := BitVec.lt_of_getLsbD
    simp only [Nat.testBit_shiftRight, BitVec.testBit_toNat, BitVec.getLsbD_or, BitVec.getLsbD_and, BitVec.getLsbD_not,
      apart (lo + i) (by omega) (by omega)]
    simpa [inside] using low
  · simp [inside]

/-- The first field stands above the rest of a word. -/
theorem packWord_toNat_cons {a x n m : Nat} {fs : List (Nat × Nat)} (rest : (packWord fs).toNat = n) (sum : a * 2 ^ x + n = m)
    (fits : m < 4294967296) : (packWord ((a, x) :: fs)).toNat = m := by
  have cons : packWord ((a, x) :: fs) = BitVec.ofNat 32 (a * 2 ^ x) + packWord fs := by
    rw [packWord, packWord, List.map_cons, List.sum_cons, BitVec.ofNat_add]
  rw [cons, BitVec.toNat_add, BitVec.toNat_ofNat, rest, Nat.mod_add_mod, sum, Nat.mod_eq_of_lt fits]

theorem packWord_toNat_low {a : Nat} (fits : a < 4294967296) : (packWord [(a, 0)]).toNat = a :=
  packWord_toNat_cons (n := 0) rfl (by omega) fits

/-! ## Registers of the island -/

/-- Writes of one register below PEG_CMD run by its own rule. -/
theorem regRow_control {p : Nat → Bool} (on : regsUp s = true) (low : w.addr < 0x4000) (other : w.addr ≠ 0x2000)
    (aligned : w.addr % 4 = 0) (row : p w.addr = true) : regRow p w s = controlWrite w s := by
  rw [regRow_on on aligned row, regWrite_ctl low other]

theorem exec_swresetWrite (on : regsUp s = true) (addr : w.addr = 0x0008) (covers : w.mask.getLsbD 0 = true)
    (set : w.value.getLsbD 0 = true) :
    exec (.swresetWrite w) s = .next (if anyRunning s then reject 0x0008 s
      else { s with ctl := { s.ctl with swresetAt := some (s.ctl.swresetAt.getD (s.time.gcount + 10000)) } }) := by
  change execSwresetWrite w s = _
  rw [execSwresetWrite, regRow_control on (by simp [addr]) (by simp [addr]) (by simp [addr]) (by simp [addr])]
  simp only [controlWrite, addr, wrIslCtl, woField_acts covers, set]
  rfl

theorem wrFrameLen_covered (covers : bits w.mask.toNat 6 0 ≠ 0) {n : Nat} (new : n = rwField (packWord [(s.time.len, 0)]) w 6 0) :
    wrFrameLen w s = if n = 0 ∨ 64 < n ∨ anyRunning s ∨ anyArmed s ∨ (inDomain s ∧ ¬ isMaster s) then reject w.addr s
      else acceptLen n s := by
  subst new
  unfold wrFrameLen
  dsimp only
  rw [if_neg covers]
  simp only [Bool.not_eq_true', Bool.not_eq_true]

theorem exec_tsyncCtlWrite (on : regsUp s = true) (addr : w.addr = 0x0020) (covers : w.mask.getLsbD 0 = true) :
    exec (.tsyncCtlWrite w) s = .next { s with time := { s.time with rootReg := w.value.getLsbD 0 } } := by
  change execTsyncCtlWrite w s = _
  rw [execTsyncCtlWrite, regRow_control on (by simp [addr]) (by simp [addr]) (by simp [addr]) (by simp [addr])]
  have root : (rwField (packWord [(b01 s.time.rootReg, 0)]) w 0 0 == 1) = w.value.getLsbD 0 := by
    rw [rwField_covered _ (by simp [bits_one_bit, covers]), bits_one_bit]
    cases w.value.getLsbD 0 with | _ => rfl
  simp only [controlWrite, addr, wrTsyncCtl, root]

theorem exec_gcountLoRead (on : regsUp s = true) :
    exec .gcountLoRead s = .next { s with time := { s.time with hiLatch := BitVec.ofNat 32 (s.time.gcount / 2 ^ 32) } } := by
  change execGcountLoRead s = _
  rw [execGcountLoRead, whenUp, if_pos on]
  rfl

/-! ## Observation (R432, R434) -/

theorem exec_bwCtlWrite (on : regsUp s = true) (addr : w.addr = 0x3020) : exec (.bwCtlWrite w) s = .next (wrBwCtl w s) := by
  change execBwCtlWrite w s = _
  rw [execBwCtlWrite, regRow_control on (by simp [addr]) (by simp [addr]) (by simp [addr]) (by simp [addr])]
  simp [controlWrite, addr]

theorem exec_smpCtlWrite (on : regsUp s = true) (addr : w.addr = 0x3010) : exec (.smpCtlWrite w) s = .next (wrSmpCtl w s) := by
  change execSmpCtlWrite w s = _
  rw [execSmpCtlWrite, regRow_control on (by simp [addr]) (by simp [addr]) (by simp [addr]) (by simp [addr])]
  simp [controlWrite, addr]

theorem wrBwCtl_illegal (whole : w.mask = 0xFFFFFFFF) (bad : 100 < bits w.value.toNat 30 24 ∨ bits w.value.toNat 15 0 = 0) :
    wrBwCtl w s = reject w.addr s := by
  unfold wrBwCtl
  simp only [rwField_full _ _ _ _ whole]
  rw [if_pos bad]

/-- BW_CTL as a legal write leaves it. -/
def bwWord (v : Nat) : Word := packWord [(bits v 31 31, 31), (bits v 30 24, 24), (bits v 15 0, 0)]

theorem bwWord_toNat (v : Nat) :
    (bwWord v).toNat = bits v 31 31 * 2147483648 + (bits v 30 24 * 16777216 + bits v 15 0) := by
  have en := bits_lt v 31 31
  have thr := bits_lt v 30 24
  have wfr := bits_lt v 15 0
  have low := packWord_toNat_low (a := bits v 15 0) (by omega)
  have mid : (packWord [(bits v 30 24, 24), (bits v 15 0, 0)]).toNat = _ := packWord_toNat_cons low rfl (by omega)
  exact packWord_toNat_cons mid rfl (by omega)

theorem bwWord_fields (v : Nat) : bits (bwWord v).toNat 15 0 = bits v 15 0 ∧ bits (bwWord v).toNat 30 24 = bits v 30 24 ∧
    bits (bwWord v).toNat 31 31 = bits v 31 31 := by
  have en := bits_lt v 31 31
  have thr := bits_lt v 30 24
  have wfr := bits_lt v 15 0
  rw [bwWord_toNat]
  generalize bits v 31 31 = a at *
  generalize bits v 30 24 = b at *
  generalize bits v 15 0 = c at *
  simp only [bits, Nat.shiftRight_eq_div_pow, Nat.reduceAdd, Nat.reduceSub, Nat.reducePow] at *
  refine ⟨?_, ?_, ?_⟩
  · omega
  · omega
  · omega

theorem wrBwCtl_legal (whole : w.mask = 0xFFFFFFFF) (legal : ¬ (100 < bits w.value.toNat 30 24 ∨ bits w.value.toNat 15 0 = 0)) :
    (wrBwCtl w s).obs.bwCtl = bwWord w.value.toNat ∧
      (bits s.obs.bwCtl.toNat 15 0 ≠ bits w.value.toNat 15 0 ∨ s.obs.bwCtl.getLsbD 31 = false ∧ w.value.getLsbD 31 = true →
        (wrBwCtl w s).obs.bwOpen = none) := by
  unfold wrBwCtl
  simp only [rwField_full _ _ _ _ whole]
  rw [if_neg legal]
  split
  next => exact ⟨rfl, fun _ => rfl⟩
  next same =>
    refine ⟨rfl, fun changed => absurd ?_ same⟩
    simpa [bits_one_bit] using changed

theorem wrSmpCtl_illegal (whole : w.mask = 0xFFFFFFFF)
    (bad : bits w.value.toNat 27 23 < 6 ∨ 16 < bits w.value.toNat 27 23 ∨ 16 < bits w.value.toNat 20 16) :
    wrSmpCtl w s = reject w.addr s := by
  unfold wrSmpCtl
  simp only [rwField_full _ _ _ _ whole]
  rw [if_pos bad]

/-- SMP_CTL as a legal write leaves it. -/
def smpWord (v : Nat) : Word := packWord [(bits v 31 31, 31), (bits v 27 23, 23), (bits v 20 16, 16), (bits v 12 0, 0)]

theorem smpWord_toNat (v : Nat) : (smpWord v).toNat =
    bits v 31 31 * 2147483648 + (bits v 27 23 * 8388608 + (bits v 20 16 * 65536 + bits v 12 0)) := by
  have en := bits_lt v 31 31
  have rate := bits_lt v 27 23
  have kind := bits_lt v 20 16
  have queue := bits_lt v 12 0
  have low := packWord_toNat_low (a := bits v 12 0) (by omega)
  have mid : (packWord [(bits v 20 16, 16), (bits v 12 0, 0)]).toNat = _ := packWord_toNat_cons low rfl (by omega)
  have high : (packWord [(bits v 27 23, 23), (bits v 20 16, 16), (bits v 12 0, 0)]).toNat = _ :=
    packWord_toNat_cons mid rfl (by omega)
  exact packWord_toNat_cons high rfl (by omega)

theorem smpWord_fields (v : Nat) : bits (smpWord v).toNat 12 0 = bits v 12 0 ∧ bits (smpWord v).toNat 20 16 = bits v 20 16 ∧
    bits (smpWord v).toNat 27 23 = bits v 27 23 ∧ bits (smpWord v).toNat 31 31 = bits v 31 31 := by
  have en := bits_lt v 31 31
  have rate := bits_lt v 27 23
  have kind := bits_lt v 20 16
  have queue := bits_lt v 12 0
  rw [smpWord_toNat]
  generalize bits v 31 31 = a at *
  generalize bits v 27 23 = b at *
  generalize bits v 20 16 = c at *
  generalize bits v 12 0 = d at *
  simp only [bits, Nat.shiftRight_eq_div_pow, Nat.reduceAdd, Nat.reduceSub, Nat.reducePow] at *
  refine ⟨?_, ?_, ?_, ?_⟩
  · omega
  · omega
  · omega
  · omega

theorem wrSmpCtl_legal (whole : w.mask = 0xFFFFFFFF)
    (legal : ¬ (bits w.value.toNat 27 23 < 6 ∨ 16 < bits w.value.toNat 27 23 ∨ 16 < bits w.value.toNat 20 16)) :
    (wrSmpCtl w s).obs.smpCtl = smpWord w.value.toNat ∧ (wrSmpCtl w s).obs.sseq = 0 := by
  unfold wrSmpCtl
  simp only [rwField_full _ _ _ _ whole]
  rw [if_neg legal]
  exact ⟨rfl, rfl⟩

/-- Settles O27: a covered field takes its bits of the value written, and an illegal one leaves the whole register. -/
theorem registerWriteRowsComplete : Obligations.RegisterWriteRowsComplete := by
  unfold Obligations.RegisterWriteRowsComplete
  refine ⟨?swreset, ?frameLen, ?tsync, ?gcount, ?bw, ?smp⟩
  case swreset =>
    intro w s on addr covers set
    exact exec_swresetWrite on addr covers set
  case frameLen =>
    intro w s on addr covers n
    rw [exec_frameLenWrite on addr, wrFrameLen_covered covers rfl, addr]
  case tsync =>
    intro w s on addr covers
    exact exec_tsyncCtlWrite on addr covers
  case gcount =>
    intro s on
    exact exec_gcountLoRead on
  case bw =>
    intro w s on addr whole
    refine ⟨_, exec_bwCtlWrite on addr, ?_⟩
    split
    next bad => rw [wrBwCtl_illegal whole bad, addr]
    next legal =>
      obtain ⟨word, closed⟩ := wrBwCtl_legal (s := s) whole legal
      obtain ⟨wfr, thr, en⟩ := bwWord_fields w.value.toNat
      rw [word]
      exact ⟨wfr, thr, en, closed⟩
  case smp =>
    intro w s on addr whole
    refine ⟨_, exec_smpCtlWrite on addr, ?_⟩
    split
    next bad => rw [wrSmpCtl_illegal whole bad, addr]
    next legal =>
      obtain ⟨word, seq⟩ := wrSmpCtl_legal (s := s) whole legal
      obtain ⟨queue, kind, rate, en⟩ := smpWord_fields w.value.toNat
      rw [word]
      exact ⟨queue, kind, rate, en, seq⟩

end Sys2Proof.Machine
end

section
/-! SUPPORT. Writes of the registers of links, meters and routing (R331, R335, R341, R342, R481, R482). -/

set_option Elab.async false

namespace Sys2Proof.Machine

variable {w : RegWrite} {s : State} {c n i k : Nat}

/-- A field of a mask with all of its bits. -/
theorem rwField_word (o : Word) (whole : w.mask = 0xFFFFFFFF) : BitVec.ofNat 32 (rwField o w 31 0) = w.value := by
  rw [rwField_full _ _ _ _ whole, bits_whole, BitVec.ofNat_toNat, BitVec.setWidth_eq]

/-! ## Lanes (R341) -/

theorem exec_slipWrite (on : regsUp s = true) (port : c < 4) (lane : n < 16) (addr : w.addr = 0x11000 + 64 * c + 4 * n)
    (reach : unreachable s (4 * c) = false) : exec (.slipWrite w) s = .next (wrLane c n w s) := by
  change execSlipWrite w s = _
  rw [execSlipWrite, regRow_on on (by omega) (by simp [addr]; omega), regWrite_lane addr lane port reach]

theorem wrLane_slips (mask : w.mask = 0x100) (set : w.value.getLsbD 8 = true) {peak : Nat}
    (stays : peak = bits (laneWord ((Table.get {} s.casc c : Casc).lanes.getD n {})).toNat 5 0) :
    wrLane c n w s = laneModify c n (fun l => { l with bound := (l.bound + 1) % 68, markers := 0, amlock := false })
      (laneModify c n (fun l => { l with peak }) s) := by
  have slip : woField w 8 8 = .acts 1 := by rw [woField_acts (by rw [mask]; decide), set]; rfl
  have apart : ∀ i, 0 ≤ i → i ≤ 5 → w.mask.getLsbD i = false := by rw [mask]; decide
  subst stays
  simp only [wrLane, slip, rwField_kept _ apart, mask]
  rfl

theorem wrLane_peaks (mask : w.mask = 0x3F) : wrLane c n w s = if 48 < bits w.value.toNat 5 0 then reject w.addr s
    else laneModify c n (fun l => { l with peak := bits w.value.toNat 5 0 }) s := by
  have none_ : woField w 8 8 = .none := woField_apart (by rw [mask]; decide)
  have covers : bits w.mask.toNat 5 0 = 2 ^ (5 + 1 - 0) - 1 := by rw [mask]; decide
  have hit : bits w.mask.toNat 5 0 ≠ 0 := by rw [covers]; decide
  simp only [wrLane, none_, rwField_covered _ covers, hit, ne_eq, not_false_eq_true, true_and]

/-! ## CASC_CTL (R335, R342) -/

theorem extract_high (x : Word) : BitVec.ofNat 16 (bits x.toNat 31 16) = x.extractLsb' 16 16 := by
  refine BitVec.eq_of_toNat_eq ?_
  rw [BitVec.extractLsb'_toNat, BitVec.toNat_ofNat]
  exact Nat.mod_mod _ _

theorem extract_low (x : Word) : BitVec.ofNat 16 (bits x.toNat 15 0) = x.extractLsb' 0 16 := by
  refine BitVec.eq_of_toNat_eq ?_
  rw [BitVec.extractLsb'_toNat, BitVec.toNat_ofNat]
  exact Nat.mod_mod _ _

theorem sleepBits_own {rx tx : BitVec 16} (own : c = s.ctl.cascId % 4) :
    sleepBits c rx tx s = lanesChange c (fun k => { k with rxslp := rx, txslp := tx }) s := by
  have is : ownLink s c = true := by simp [ownLink, own]
  simp only [sleepBits, is, if_true]

theorem sleepBits_other {rx tx : BitVec 16} (other : c ≠ s.ctl.cascId % 4) :
    sleepBits c rx tx s = lanesChange c (fun k => wakeLanes k rx tx) s := by
  have not_ : ownLink s c = false := by simp [ownLink, other]
  simp only [sleepBits, not_, Bool.false_eq_true, if_false]

theorem exec_cascCtlWrite (on : regsUp s = true) (port : c < 4) (addr : w.addr = 0x11100 + 4 * c)
    (reach : unreachable s (4 * c) = false) (whole : w.mask = 0xFFFFFFFF) {rx tx : BitVec 16} {k : Casc}
    (rxBits : rx = w.value.extractLsb' 16 16) (txBits : tx = w.value.extractLsb' 0 16) (old : k = Table.get {} s.casc c) :
    exec (.cascCtlWrite w) s =
      .next (if (portGet s (512 + c)).state = 2 ∧ (rx &&& ~~~ k.rxslp ≠ 0 ∨ tx &&& ~~~ k.txslp ≠ 0) then reject w.addr s
        else sleepBits c rx tx s) := by
  subst rxBits txBits old
  change execCascCtlWrite w s = _
  rw [execCascCtlWrite, regRow_on on (by omega) (by simp [addr]; omega), regWrite_casc addr port reach]
  simp only [wrCasc, rwField_full _ _ _ _ whole, extract_high, extract_low]

/-! ## Meters (R481) -/

theorem exec_meterWord0Write (on : regsUp s = true) (real : i < 16384) (addr : w.addr = 0x40000 + 16 * i)
    (reach : unreachable s (i / 1024) = false) : exec (.meterWord0Write w) s = .next (wrMeter i 0 w s) := by
  change execMeterWord0Write w s = _
  rw [execMeterWord0Write, regRow_on on (by omega) (by simp [addr]; omega), regWrite_meter (k := 0) addr (by decide) real reach]

theorem wrMeter_inForce (whole : w.mask = 0xFFFFFFFF) {m n : Meter} (old : m = Table.get {} s.meters i)
    (new : n = { m with w0 := w.value, w1 := m.s1, w2 := m.s2 }) : wrMeter i 0 w s =
      if bits w.value.toNat 1 0 = 3 ∨ bits w.value.toNat 23 3 ≠ 0 ∨ m.s3 ≠ 0 ∨ (meterPir n ≠ 0 ∧ bits w.value.toNat 1 0 ≠ 2)
        then reject w.addr s
      else { s with meters := Table.put {} s.meters i { n with tc := meterCbs n * 1000, tp := meterPbs n * 1000, at_ := s.time.gcount } } := by
  subst new old
  simp only [wrMeter, rwField_word _ whole]

theorem exec_meterStagedWrite (on : regsUp s = true) (real : i < 16384) (first : 1 ≤ k) (last : k < 4)
    (addr : w.addr = 0x40000 + 16 * i + 4 * k) (reach : unreachable s (i / 1024) = false) :
    exec (.meterStagedWrite w) s = .next (wrMeter i k w s) := by
  change execMeterStagedWrite w s = _
  rw [execMeterStagedWrite, regRow_on on (by omega) (by simp [addr]; omega), regWrite_meter addr last real reach]

/-! ## The routing shadow (R331, R482) -/

theorem exec_routingShadowWrite {chip : Nat} (on : regsUp s = true) (real : chip < 65536) (word : k < 8)
    (addr : w.addr = 0x600000 + 32 * chip + 4 * k) (whole : w.mask = 0xFFFFFFFF) :
    exec (.routingShadowWrite w) s = .next (if s.routing.open_ then { s with routing := { s.routing with
        shadow := Table.put {} s.routing.shadow chip (routeSet (Table.get {} s.routing.shadow chip) k (w.value &&& routeMask k)) } }
      else reject w.addr s) := by
  change execRoutingShadowWrite w s = _
  rw [execRoutingShadowWrite, regRow_on on (by omega) (by simp [addr]; omega), regWrite_shadow addr word real]
  simp only [wrShadow, rwField_word _ whole]
  cases s.routing.open_ with | _ => rfl

/-- Settles O28: each write reaches the rule of its own register, where a whole mask gives the value written. -/
theorem linkRegisterRowsComplete : Obligations.LinkRegisterRowsComplete := by
  unfold Obligations.LinkRegisterRowsComplete
  refine ⟨?slip, ?peak, ?casc, ?meter, ?staged, ?shadow⟩
  case slip =>
    intro w c n s on port lane addr reach mask set peak
    rw [exec_slipWrite on port lane addr reach, wrLane_slips mask set rfl]
  case peak =>
    intro w c n s on port lane addr reach mask
    rw [exec_slipWrite on port lane addr reach, wrLane_peaks mask]
  case casc =>
    intro w c s on port addr reach whole rx tx k
    rw [exec_cascCtlWrite on port addr reach whole rfl rfl rfl]
    by_cases own : c = s.ctl.cascId % 4
    · rw [if_pos own, sleepBits_own own]
    · rw [if_neg own, sleepBits_other own]
  case meter =>
    intro w i s on real addr reach whole m n
    rw [exec_meterWord0Write on real addr reach, wrMeter_inForce whole rfl rfl]
  case staged =>
    intro w i k s on real first last addr reach whole m
    rw [exec_meterStagedWrite on real first last addr reach]
    obtain rfl | rfl | rfl : k = 1 ∨ k = 2 ∨ k = 3 := by omega
    · simp only [wrMeter, rwField_word _ whole, m]
    · simp only [wrMeter, rwField_word _ whole, m]
    · simp only [wrMeter, rwField_word _ whole, m]
  case shadow =>
    intro w chip k s on real word addr whole
    exact exec_routingShadowWrite on real word addr whole

end Sys2Proof.Machine
end

section
/-! SUPPORT. Rows of the performance counters, of the pegbox and of the bandwidth window (R375 to R377, R418, R422, R425, R426, R434, R435). -/

set_option Elab.async false

namespace Sys2Proof.Machine

variable {w : RegWrite} {s : State} {i : Nat}

/-! ## Counters (R422, R425) -/

theorem exec_pmcLoRead (on : regsUp s = true) (real : i < 1088) (reach : cutOff s (0x20004 + 16 * i) = false) :
    exec (.pmcLoRead i) s = .next (pmcModify i (fun p => { p with latch := pmcHi p }) s) := by
  have low : ¬ 0x20004 + 16 * i = 0x0010 := by omega
  have at_ : 0x20000 ≤ 0x20004 + 16 * i ∧ 0x20004 + 16 * i < 0x24400 ∧ (0x20004 + 16 * i) % 16 = 4 ∧ (!cutOff s (0x20004 + 16 * i)) = true :=
    ⟨by omega, by omega, by omega, by rw [reach]; rfl⟩
  have counter : (0x20004 + 16 * i - 0x20000) / 16 = i := by omega
  change execPmcLoRead i s = _
  rw [execPmcLoRead, whenUp, if_pos on, if_pos real, regRead, if_neg low, if_pos at_, counter]
  rfl

theorem regWrite_pmcSel (real : i < 1088) (addr : w.addr = 0x20000 + 16 * i) (reach : cutOff s w.addr = false) :
    regWrite w s = wrPmcSel i w s := by
  have write := regWrite_pmc (k := 0) addr (by decide) real reach
  exact write

theorem regWrite_pmcLo (real : i < 1088) (addr : w.addr = 0x20004 + 16 * i) (reach : cutOff s w.addr = false) :
    regWrite w s = wrPmcValue i 1 w s := by
  have write := regWrite_pmc (k := 1) (show w.addr = 0x20000 + 16 * i + 4 * 1 by omega) (by decide) real reach
  exact write

theorem regWrite_pmcHi (real : i < 1088) (addr : w.addr = 0x20008 + 16 * i) (reach : cutOff s w.addr = false) :
    regWrite w s = wrPmcValue i 2 w s := by
  have write := regWrite_pmc (k := 2) (show w.addr = 0x20000 + 16 * i + 4 * 2 by omega) (by decide) real reach
  exact write

theorem exec_pmcSelWrite (on : regsUp s = true) (real : i < 1088) (addr : w.addr = 0x20000 + 16 * i) (reach : cutOff s w.addr = false) :
    exec (.pmcSelWrite w) s = .next (wrPmcSel i w s) := by
  change execPmcSelWrite w s = _
  rw [execPmcSelWrite, regRow_on on (by omega) (by simp [pmcAddr, addr]; omega), regWrite_pmcSel real addr reach]

theorem wrPmcSel_whole (whole : w.mask = 0xFFFFFFFF) {v : Nat} (value : v = w.value.toNat) {sel : Word}
    (word : sel = packWord [(bits v 31 31, 31), (bits v 30 30, 30), (bits v 29 27, 27), (bits v 23 8, 8), (bits v 7 0, 0)]) :
    wrPmcSel i w s = if 5 < bits v 29 27 ∨ ¬ eventDefined (bits v 7 0) then reject w.addr s
      else if bits sel.toNat 29 0 = bits (Table.get {} s.obs.pmc i : Pmc).sel.toNat 29 0 then pmcModify i (fun p => { p with sel }) s
      else pmcModify i (fun p => { p with sel, value := 0, ovf := false, acc := 0, fresh := true }) s := by
  subst value word
  unfold wrPmcSel
  simp only [rwField_full _ _ _ _ whole, Bool.not_eq_true', Bool.not_eq_true]

theorem exec_pmcValueWrite_lo (on : regsUp s = true) (real : i < 1088) (addr : w.addr = 0x20004 + 16 * i) (reach : cutOff s w.addr = false) :
    exec (.pmcValueWrite w) s = .next (wrPmcValue i 1 w s) := by
  change execPmcValueWrite w s = _
  rw [execPmcValueWrite, regRow_on on (by omega) (by simp [pmcAddr, addr]; omega), regWrite_pmcLo real addr reach]

theorem exec_pmcValueWrite_hi (on : regsUp s = true) (real : i < 1088) (addr : w.addr = 0x20008 + 16 * i) (reach : cutOff s w.addr = false) :
    exec (.pmcValueWrite w) s = .next (wrPmcValue i 2 w s) := by
  change execPmcValueWrite w s = _
  rw [execPmcValueWrite, regRow_on on (by omega) (by simp [pmcAddr, addr]; omega), regWrite_pmcHi real addr reach]

theorem wrPmcValue_lo (whole : w.mask = 0xFFFFFFFF) : wrPmcValue i 1 w s = pmcModify i (fun p =>
      { p with value := BitVec.ofNat 48 (p.value.toNat / 2 ^ 32 * 2 ^ 32 + w.value.toNat) }) s := by
  unfold wrPmcValue
  simp only [rwField_full _ _ _ _ whole, bits_whole, if_true]

theorem wrPmcValue_hi (whole : w.mask = 0xFFFFFFFF) {put : Pmc → Pmc} (half : put = fun p =>
      { p with value := BitVec.ofNat 48 (p.value.toNat % 2 ^ 32 + bits w.value.toNat 15 0 * 2 ^ 32), ovf := p.ovf && !w.value.getLsbD 31 }) :
    wrPmcValue i 2 w s = pmcModify i (fun p => { put p with latch := pmcHi (put p) }) s := by
  have clears : w1c w 31 = w.value.getLsbD 31 := by simp [w1c, whole]
  subst half
  unfold wrPmcValue
  rw [if_neg (by decide)]
  simp only [rwField_full _ _ _ _ whole, clears]

/-! ## PMC_GCTL (R426) -/

theorem regRow_gctl (on : regsUp s = true) (addr : w.addr = 0x3000) : regRow (· == 0x3000) w s = wrGctl w s := by
  rw [regRow_control on (by simp [addr]) (by simp [addr]) (by simp [addr]) (by simp [addr])]
  simp [controlWrite, addr]

theorem exec_pmcClear (on : regsUp s = true) (addr : w.addr = 0x3000) (value : w.value = 4) (mask : w.mask = 4)
    (still : setNow .freeze s = false) : exec (.pmcClear w) s = .next (pmcClearAll s) := by
  have clear : woField w 2 2 = .acts 1 := by rw [woField_acts (by rw [mask]; decide), value]; rfl
  have arm : w.mask.getLsbD 1 = false := by rw [mask]; decide
  have freeze : w.mask.getLsbD 0 = false := by rw [mask]; decide
  have still' : setNow .freeze (pmcClearAll s) = false := still
  change execPmcClear w s = _
  rw [execPmcClear, if_pos (by rw [mask]; decide), regRow_gctl on addr]
  simp only [wrGctl, clear, arm, freeze, Bool.false_and, Bool.false_eq_true, if_false, still']

theorem exec_pmcArm (on : regsUp s = true) (addr : w.addr = 0x3000) (value : w.value = 2) (mask : w.mask = 2)
    (still : setNow .freeze s = false) : exec (.pmcArm w) s = .next (if freezeOk s then setArm true s else reject 0x3000 s) := by
  have clear : woField w 2 2 = .none := woField_apart (by rw [mask]; decide)
  have covers : w.mask.getLsbD 1 = true := by rw [mask]; decide
  have set : w.value.getLsbD 1 = true := by rw [value]; decide
  have freeze : w.mask.getLsbD 0 = false := by rw [mask]; decide
  have still' : setNow .freeze (setArm true s) = false := still
  change execPmcArm w s = _
  rw [execPmcArm, if_pos covers, regRow_gctl on addr]
  unfold wrGctl
  cases legal : freezeOk s with
  | true => simp only [clear, covers, set, freeze, Bool.true_and, Bool.not_true, Bool.false_eq_true, if_false, if_true, still']
  | false => simp only [covers, set, Bool.true_and, Bool.not_false, if_true, addr, Bool.false_eq_true, if_false]

theorem exec_pmcFreeze (on : regsUp s = true) (addr : w.addr = 0x3000) (mask : w.mask = 1) :
    exec (.pmcFreeze w) s =
      .next (if setNow .freeze s then setFreeze true (setArm false (setFreeze (w.value.getLsbD 0) s)) else setFreeze (w.value.getLsbD 0) s) := by
  have clear : woField w 2 2 = .none := woField_apart (by rw [mask]; decide)
  have arm : w.mask.getLsbD 1 = false := by rw [mask]; decide
  have covers : w.mask.getLsbD 0 = true := by rw [mask]; decide
  have same : setNow .freeze (setFreeze (w.value.getLsbD 0) s) = setNow .freeze s := rfl
  change execPmcFreeze w s = _
  rw [execPmcFreeze, if_pos covers, regRow_gctl on addr]
  simp only [wrGctl, clear, arm, covers, Bool.false_and, Bool.false_eq_true, if_false, if_true, same]

theorem exec_pmcArmFire (armed : s.obs.arm = true) (reached : freezeCount s ≤ s.time.gcount) :
    exec .pmcArmFire s = .next (noteSet .freeze (setFreeze true (setArm false s))) := by
  change execPmcArmFire s = _
  simp [execPmcArmFire, armed, reached]

/-- Settles O29: each access reaches its counter, and the bits of PMC_GCTL act one after another. -/
theorem pmcRowsComplete : Obligations.PmcRowsComplete := by
  unfold Obligations.PmcRowsComplete
  refine ⟨?read, ?sel, ?lo, ?hi, ?clear, ?arm, ?freeze, ?fire⟩
  case read =>
    intro i s on real reach
    exact exec_pmcLoRead on real reach
  case sel =>
    intro w i s on real addr reach whole v
    rw [exec_pmcSelWrite on real addr reach, wrPmcSel_whole whole rfl rfl]
  case lo =>
    intro w i s on real addr reach whole
    rw [exec_pmcValueWrite_lo on real addr reach, wrPmcValue_lo whole]
  case hi =>
    intro w i s on real addr reach whole put
    rw [exec_pmcValueWrite_hi on real addr reach, wrPmcValue_hi whole rfl]
  case clear =>
    intro w s on addr value mask still
    exact exec_pmcClear on addr value mask still
  case arm =>
    intro w s on addr value mask still
    exact exec_pmcArm on addr value mask still
  case freeze =>
    intro w s on addr mask
    exact exec_pmcFreeze on addr mask
  case fire =>
    intro s armed reached
    exact exec_pmcArmFire armed reached

/-! ## The pegbox (R375 to R377) -/

theorem wrPegCmd_busy {v : Nat} (code : woField (pegWrite v) 7 0 = .acts v) (busy : s.peg.cmd ≠ none) :
    wrPegCmd (pegWrite v) s = reject 0x2000 s := by
  simp only [wrPegCmd, code, Option.isSome_iff_ne_none.mpr busy]
  rfl

theorem exec_pegErase (on : regsUp s = true) (idle : s.peg.cmd = none) : exec .pegErase s = .next (pegStartErase s) := by
  have code : woField (pegWrite 1) 7 0 = .acts 1 := by decide
  change execPegErase s = _
  rw [execPegErase, whenUp, if_pos on]
  simp only [wrPegCmd, code, idle, Option.isSome_none, Bool.false_eq_true, if_false]

theorem exec_pegProgram (on : regsUp s = true) (idle : s.peg.cmd = none) : exec .pegProgram s = .next (pegStartProgram s) := by
  have code : woField (pegWrite 2) 7 0 = .acts 2 := by decide
  change execPegProgram s = _
  rw [execPegProgram, whenUp, if_pos on]
  simp only [wrPegCmd, code, idle, Option.isSome_none, Bool.false_eq_true, if_false]

theorem exec_pegVerify (on : regsUp s = true) (idle : s.peg.cmd = none) : exec .pegVerify s = .next (pegStartVerify s) := by
  have code : woField (pegWrite 3) 7 0 = .acts 3 := by decide
  change execPegVerify s = _
  rw [execPegVerify, whenUp, if_pos on]
  simp only [wrPegCmd, code, idle, Option.isSome_none, Bool.false_eq_true, if_false]

theorem exec_pegCommit (on : regsUp s = true) (idle : s.peg.cmd = none) : exec .pegCommit s = .next (pegStartCommit s) := by
  have code : woField (pegWrite 4) 7 0 = .acts 4 := by decide
  change execPegCommit s = _
  rw [execPegCommit, whenUp, if_pos on]
  simp only [wrPegCmd, code, idle, Option.isSome_none, Bool.false_eq_true, if_false]

theorem exec_peg_busy (on : regsUp s = true) (busy : s.peg.cmd ≠ none) :
    exec .pegErase s = .next (reject 0x2000 s) ∧ exec .pegProgram s = .next (reject 0x2000 s) ∧
      exec .pegVerify s = .next (reject 0x2000 s) ∧ exec .pegCommit s = .next (reject 0x2000 s) := by
  change execPegErase s = _ ∧ execPegProgram s = _ ∧ execPegVerify s = _ ∧ execPegCommit s = _
  simp only [execPegErase, execPegProgram, execPegVerify, execPegCommit, whenUp, on, if_true]
  exact ⟨congrArg _ (wrPegCmd_busy (by decide) busy), congrArg _ (wrPegCmd_busy (by decide) busy), congrArg _ (wrPegCmd_busy (by decide) busy),
    congrArg _ (wrPegCmd_busy (by decide) busy)⟩

theorem pegStartErase_runs (range : pegRangeOk s = true) (aligned : pegAligned 65536 s = true) :
    pegStartErase s = { s with peg := { s.peg with
      cmd := some 1, runOff := s.peg.foff.toNat, runLen := s.peg.len.toNat, buf := [], failed := false, verified := false } } := by
  rw [pegStartErase, range, aligned]
  rfl

theorem pegStartProgram_runs (range : pegRangeOk s = true) (aligned : pegAligned 256 s = true) :
    pegStartProgram s = sendReads 1 (bits s.peg.srcHi.toNat 31 16)
      (s.peg.srcLo.toNat + bits s.peg.srcHi.toNat 15 0 * 2 ^ 32) s.peg.len.toNat 0 .peg
      { s with peg := { s.peg with
        cmd := some 2, runOff := s.peg.foff.toNat, runLen := s.peg.len.toNat, buf := [], failed := false, verified := false } } := by
  rw [pegStartProgram, range, aligned]
  rfl

theorem pegStartCommit_eq : pegStartCommit s = { s with peg := if s.peg.verified
      then { s.peg with cmd := some 4, runOff := s.peg.foff.toNat, runLen := s.peg.len.toNat, buf := [], failed := false }
      else { s.peg with result := 7 } } := by
  unfold pegStartCommit
  cases s.peg.verified with | _ => rfl

theorem exec_pegCommandEnd {ok : Bool} : exec (.pegCommandEnd ok) s = execPegCommandEnd ok s := rfl

theorem exec_backgroundEraseDone (erasing : s.fault.erasing = true) {t : State}
    (erased : t = flashErase (slotBase (flushTarget s).1) 0x100000 s) :
    exec .backgroundEraseDone s = .next { t with fault := { t.fault with erasing := false, result := 0 } } := by
  change execBackgroundEraseDone s = _
  rw [execBackgroundEraseDone, if_pos erasing, erased]

/-! ## The bandwidth window (R434, R435) -/

theorem exec_bwWindowClose (on : regsUp s = true) (enabled : bwEn s = true) (tick : isTick s s.time.gcount = true)
    (first : frameNo s % bwWfr s = 0) (new : s.obs.bwOpen ≠ some (frameNo s / bwWfr s)) {n : Nat} (window : n = frameNo s / bwWfr s)
    {t : State} (cleared : t = clearSums (if s.obs.bwOpen.map (· + 1) = some n then bwRewrite (n - 1) s else s)) :
    exec .bwWindowClose s = .next { t with obs := { t.obs with bwOpen := some n } } := by
  subst cleared window
  change execBwWindowClose s = _
  rw [execBwWindowClose, if_neg (by simp [on, enabled, tick, first, new])]

/-- Settles O30: the code written names the command, and the end of a command runs by the command that runs. -/
theorem pegboxRowsComplete : Obligations.PegboxRowsComplete := by
  unfold Obligations.PegboxRowsComplete
  refine ⟨?erase, ?program, ?verify, ?commit, ?busy, ?ends, ?erased, ?window⟩
  case erase =>
    intro s on idle range aligned
    rw [exec_pegErase on idle, pegStartErase_runs range aligned]
  case program =>
    intro s on idle range aligned
    rw [exec_pegProgram on idle, pegStartProgram_runs range aligned]
  case verify =>
    intro s on idle
    exact exec_pegVerify on idle
  case commit =>
    intro s on idle
    rw [exec_pegCommit on idle, pegStartCommit_eq]
  case busy =>
    intro s on busy
    exact exec_peg_busy on busy
  case ends =>
    intro ok s
    refine ⟨?_, ?_, ?_, ?_⟩
    · intro runs
      simp only [exec_pegCommandEnd, execPegCommandEnd, runs]
    · intro runs
      simp only [exec_pegCommandEnd, execPegCommandEnd, runs]
    · intro runs
      simp only [exec_pegCommandEnd, execPegCommandEnd, runs]
    · intro runs
      simp only [exec_pegCommandEnd, execPegCommandEnd, runs]
  case erased =>
    intro s erasing t
    exact exec_backgroundEraseDone erasing rfl
  case window =>
    intro s on enabled tick first new n t
    exact exec_bwWindowClose on enabled tick first new rfl rfl

end Sys2Proof.Machine
end

section
/-! SUPPORT. The test port (R464), and the step: its front command, and a nanosecond while none waits (R40, R42, R47, R378, R450). -/

set_option Elab.async false

namespace Sys2Proof.Machine

variable {s : State}

/-! ## The test port (R464) -/

theorem tapAct_state (t : Tap) (e : TckEdge) (s : State) : (tapAct t e s).state = t.state := by
  unfold tapAct
  split
  · rfl
  · rfl
  · rfl
  · rfl
  · rfl

theorem tapAct_tdo (t : Tap) (e : TckEdge) (s : State) : (tapAct t e s).tdo = t.tdo := by
  unfold tapAct
  split
  · rfl
  · rfl
  · rfl
  · rfl
  · rfl

theorem tapRise_tap (e : TckEdge) (s : State) :
    (tapRise e s).tap.state = tapNext s.tap.state e.tms ∧ (tapRise e s).tap.tdo = s.tap.tdo :=
  ⟨congrArg (tapNext · e.tms) (tapAct_state s.tap e s), tapAct_tdo s.tap e s⟩

theorem tapRise_alone (e : TckEdge) (s : State) :
    tapRise e s = { s with tap := (tapRise e s).tap, freeCtr := (tapRise e s).freeCtr } := rfl

/-- What TDO drives after a falling edge in a state. -/
def tdoIn (t : Tap) : Option Bool :=
  if t.state = .shiftDr then some (t.drSh.headD false) else if t.state = .shiftIr then some (t.irSh.headD false) else none

theorem tapFall_tap (s : State) : (tapFall s).tap.state = s.tap.state ∧ (tapFall s).tap.tdo = tdoIn s.tap := by
  unfold tapFall tdoIn
  dsimp only
  cases s.tap.state with
  | updateDr =>
    by_cases latches : tapInstr s = 2 ∨ tapInstr s = 3
    · simp [if_pos latches]
    · simp [if_neg latches]
  | _ => exact ⟨rfl, rfl⟩

theorem tapFall_alone (s : State) : tapFall s = { s with tap := (tapFall s).tap, freeCtr := (tapFall s).freeCtr } := rfl

/-- Settles O31: a rising edge moves the controller, a falling one drives TDO, and both keep to the port. -/
theorem tapRowsComplete : Obligations.TapRowsComplete := by
  unfold Obligations.TapRowsComplete
  refine ⟨fun s => rfl, fun e s => ?_⟩
  change ∃ t, execTckEdge e s = .next t ∧ _
  cases rising : e.rising with
  | true =>
    refine ⟨tapRise e s, by rw [execTckEdge, rising]; rfl, tapRise_alone e s, fun _ => tapRise_tap e s, nofun⟩
  | false =>
    refine ⟨tapFall s, by rw [execTckEdge, rising]; rfl, tapFall_alone s, nofun, fun _ => ⟨(tapFall_tap s).1, ?_⟩⟩
    rw [(tapFall_tap s).2, tdoIn]
    cases s.tap.state with | _ => rfl

/-! ## A step -/

/-- Settles O32: the front of the queue is the command that a step runs. -/
theorem stepTakesFrontCommand : Obligations.StepTakesFrontCommand := by
  unfold Obligations.StepTakesFrontCommand
  intro c rest s
  rw [step]

/-! ## Counting (R40, R42, R47) -/

theorem clockTick_held {t : Time} (runs : t.running = true) (held : 0 < t.hold) : clockTick t = { t with hold := t.hold - 1 } := by
  rw [clockTick, if_neg (by simp [runs]), if_pos held]

theorem clockTick_counts {t : Time} (runs : t.running = true) (free : t.hold = 0) (below : t.gcount < gcountTop) :
    clockTick t = { t with gcount := t.gcount + 1 } := by
  rw [clockTick, if_neg (by simp [runs]), if_neg (by omega), if_pos below]

theorem clockTick_limit {t : Time} (runs : t.running = true) (free : t.hold = 0) (top : gcountTop ≤ t.gcount) :
    clockTick t = t := by
  rw [clockTick, if_neg (by simp [runs]), if_neg (by omega), if_neg (by omega)]

/-! ## What a nanosecond changes -/

theorem countNanosecond_emits (s : State) : Emits s (countNanosecond s) := by
  unfold countNanosecond
  dsimp only
  split
  · exact .refl s
  · exact ⟨_, _, _, _, rfl⟩

theorem setPmc_emits (x : Table Pmc) (s : State) : Emits s (setPmc x s) := ⟨_, _, _, _, rfl⟩

theorem pmcFoldAll_sends (s : State) : Sends s (pmcFoldAll s) := by
  unfold pmcFoldAll
  generalize s.obs.pmc.filter (fun e => pmcReports e.2) = due
  generalize (s.obs.pmc.map fun e => (e.1, pmcFold e.2)).filter (fun e => decide (e.2 ≠ {})) = folded
  exact (setPmc_emits folded s).sends.trans (foldl_sends
    (f := fun (u : State) (e : Nat × Pmc) => notice (pmcNotice e.1 e.2) u) (fun e u => notice_sends _ u) due _)

theorem markerTick_emits (s : State) (c : Nat) : Emits s (markerTick s c) := by
  unfold markerTick
  dsimp only
  split
  · exact ⟨_, _, _, _, rfl⟩
  · exact .refl s

theorem nanosecond_stopped (stopped : s.time.running = false) : nanosecond s = s := by
  rw [nanosecond, if_pos (by simp [stopped])]

/-- A nanosecond moves the counter and lets the limits of the transport hold; the rest is what counting, notices and markers change. -/
theorem nanosecond_sends (runs : s.time.running = true) :
    Sends { s with time := clockTick s.time, ctl := limitsTake s.ctl } (nanosecond s) := by
  rw [nanosecond, if_neg (by simp [runs])]
  extract_lets t s'
  have counted : Sends s' (if t.gcount = s.time.gcount then s' else countNanosecond s') := by
    split
    · exact .refl s'
    · exact (countNanosecond_emits s').sends
  exact counted.trans ((pmcFoldAll_sends _).trans (foldl_emits (fun c u => markerTick_emits u c) _ _).sends)

theorem nanosecond_ops (s : State) : (nanosecond s).ops = s.ops := by
  cases runs : s.time.running with
  | false => rw [nanosecond_stopped runs]
  | true =>
    obtain ⟨_, _, _, _, _, _, e⟩ := nanosecond_sends runs
    rw [e]

theorem nanosecond_power (s : State) : (nanosecond s).power = s.power := by
  cases runs : s.time.running with
  | false => rw [nanosecond_stopped runs]
  | true =>
    obtain ⟨_, _, _, _, _, _, e⟩ := nanosecond_sends runs
    rw [e]

theorem nanosecond_time (runs : s.time.running = true) : (nanosecond s).time = clockTick s.time := by
  obtain ⟨_, _, _, _, _, _, e⟩ := nanosecond_sends runs
  rw [e]

/-! ## The end of an idle step: journals and discards (R214, R396) -/

theorem tellHits_none (told : ∀ o ∈ s.ops, o.hit = none) : tellHits s = s := by
  have quiet : (s.ops.any (·.hit.isSome)) = false := by
    rw [List.any_eq_false]
    intro o has
    simp [told o has]
  rw [tellHits, quiet]
  rfl

theorem completeJournal_empty {h : Shard} (empty : h.journal = []) : completeJournal h = id h := by
  cases h with
  | mk sdef job epoch blocks journal stepRecs firstApply lostSeq =>
    subst empty
    rfl

theorem completeJournals_empty (empty : ∀ h ∈ s.shards, h.journal = []) : completeJournals s = s := by
  have same : s.shards.map completeJournal = s.shards := by
    exact (List.map_congr_left fun h has => completeJournal_empty (empty h has)).trans (List.map_id _)
  rw [completeJournals, same]

/-! ## The 20 µs of a critical shutdown (R450) -/

theorem critTick_none (none_ : s.power.critIn = none) : critTick s = s := by
  rw [critTick, none_]

/-- While the time of a shutdown is not over only that time has passed. -/
theorem critTick_counts (idle_ : s.pending = []) (later : stagesEnd s = false) :
    critTick s = { s with power := { s.power with critIn := s.power.critIn.map (· - 1) } } := by
  unfold critTick
  split
  next none_ => rw [none_, Option.map_none, ← none_]
  next n crit =>
    have more : ¬ n ≤ 1 := by simpa [stagesEnd, idle_, crit] using later
    rw [if_neg more, crit, Option.map_some]

theorem critTick_ends (over_ : stagesEnd s = true) : critTick s = stagesStop s := by
  have due : (s.power.critIn.any fun n => decide (n ≤ 1)) = true := by
    rw [stagesEnd, Bool.and_eq_true] at over_
    exact over_.2
  unfold critTick
  split
  next none_ => rw [none_] at due; exact absurd due (by decide)
  next n crit => rw [if_pos (by simpa [crit] using due)]

theorem stagesStop_up (on : regsUp s = true) :
    stagesStop s = wiped false s.ctl.resetLow (flashBroken { s with power := { s.power with stagesOff := true, critIn := none } }) := by
  rw [stagesStop]
  exact if_pos on

/-- With no operation, shard or counting left an idle step changes nothing. -/
theorem idle_wiped {low : Bool} {t : State} :
    tellHits (completeJournals (nanosecond (wiped false low t))) = wiped false low t := by
  rw [nanosecond_stopped rfl, completeJournals_empty (by intro h has; exact absurd has (by simp [wiped, State.reset])),
    tellHits_none (by intro o has; exact absurd has (by simp [wiped, State.reset]))]

theorem idle_stops (over_ : stagesEnd s = true) (on : regsUp s = true) : idle s =
    wiped false s.ctl.resetLow (flashBroken { s with power := { s.power with stagesOff := true, critIn := none } }) := by
  rw [idle, critTick_ends over_, stagesStop_up on, idle_wiped]

/-! ## An idle step with no discard left to send -/

/-- What an idle step is where nothing is to be told: the journals complete after the nanosecond. -/
theorem idle_untold (idle_ : s.pending = []) (later : stagesEnd s = false) (told : ∀ o ∈ s.ops, o.hit = none) :
    idle s = completeJournals (nanosecond (critTick s)) := by
  refine tellHits_none fun o has => told o ?_
  have ops : (completeJournals (nanosecond (critTick s))).ops = s.ops := by
    rw [completeJournals, nanosecond_ops, critTick_counts idle_ later]
  rwa [ops] at has

theorem idle_time (idle_ : s.pending = []) (later : stagesEnd s = false) (told : ∀ o ∈ s.ops, o.hit = none)
    (runs : s.time.running = true) : (idle s).time = clockTick s.time := by
  have time := critTick_time idle_ later
  rw [idle_untold idle_ later told, completeJournals, nanosecond_time (by rw [time]; exact runs), time]

theorem idle_critIn (idle_ : s.pending = []) (later : stagesEnd s = false) (told : ∀ o ∈ s.ops, o.hit = none) :
    (idle s).power.critIn = s.power.critIn.map (· - 1) := by
  rw [idle_untold idle_ later told, completeJournals, nanosecond_power, critTick_counts idle_ later]

theorem idle_nothing (idle_ : s.pending = []) (later : stagesEnd s = false) (told : ∀ o ∈ s.ops, o.hit = none)
    (stopped : s.time.running = false) (none_ : s.power.critIn = none) (empty : ∀ h ∈ s.shards, h.journal = []) : idle s = s := by
  rw [idle_untold idle_ later told, critTick_none none_, nanosecond_stopped stopped, completeJournals_empty empty]

/-- Settles O33: the counter moves by `clockTick`, and a shutdown whose time is over leaves the island wiped. -/
theorem idleStepIsOneNanosecond : Obligations.IdleStepIsOneNanosecond := by
  unfold Obligations.IdleStepIsOneNanosecond
  intro s idle_
  refine ⟨idle s, step_idle idle_, (idle_kept s).pending.trans idle_, ?held, ?counts, ?limit, ?quiet, ?stops⟩
  case held =>
    intro later runs held
    rw [idle_gcount idle_ later, clockTick_held runs held]
  case counts =>
    intro later runs free below
    rw [idle_gcount idle_ later, clockTick_counts runs free below]
  case limit =>
    intro later runs free top
    rw [idle_gcount idle_ later, clockTick_limit runs free top]
  case quiet =>
    intro told later
    refine ⟨fun runs held => ?_, idle_critIn idle_ later told, idle_nothing idle_ later told⟩
    rw [idle_time idle_ later told runs, clockTick_held runs held]
  case stops =>
    intro over_ on
    rw [idle_stops over_ on, wiped_power, (flashBroken_pegAlone _).power]
    exact ⟨rfl, rfl, rfl, rfl, rfl, rfl⟩

end Sys2Proof.Machine
end
